-- ==== Sys2Proof/Word.lean ====
section
/-! DEFINITION. The words the block stores: bytes, 32-bit words, binary32 patterns and complex values
(20_memory.md R39, R40; 00_scope.md R13). -/

namespace Sys2Proof

/-- One DMEM byte (20_memory.md R37). -/
abbrev Byte := BitVec 8

/-- One 32-bit word (`u32` of 20_memory.md R40; the registers of 10_state.md section 3). -/
abbrev Word := BitVec 32

/-- A binary32 bit pattern (`f32` of 20_memory.md R40; 00_scope.md R13). -/
abbrev F32 := BitVec 32

/-- A complex value: real part, imaginary part (`c64` of 20_memory.md R40). -/
structure C64 where
  re : F32
  im : F32
deriving DecidableEq, Repr, Inhabited

end Sys2Proof
end

