-- ==== Sys2Proof/Machine/Real.lean ====
section
/-! DEFINITION. Binary32 patterns as exact rationals, and the exact and enclosing arithmetic in which the ideal
values of 00_scope.md R15 are computed: rational intervals, boxes in the complex plane, roots of unity, and formal
sums of them with an exact test for zero. Everything here evaluates. -/

namespace Sys2Proof.Machine

/-! ## Binary32 (00_scope.md R13) -/

/-- The exponent field. -/
def f32Exp (x : F32) : Nat := (x.extractLsb' 23 8).toNat

/-- The fraction field. -/
def f32Frac (x : F32) : Nat := (x.extractLsb' 0 23).toNat

/-- `finite(x)`: neither NaN nor an infinity (00_scope.md R13). -/
def f32Finite (x : F32) : Bool := f32Exp x != 255

/-- Plus or minus zero. -/
def f32IsZero (x : F32) : Bool := x.extractLsb' 0 31 == 0#31

/-- `+inf` (00_scope.md R13). -/
def f32PosInf : F32 := 0x7F800000#32

/-- `+0.0`. -/
def f32Zero : F32 := 0#32

/-- `good_nv(x)`: finite and greater than 0 (00_scope.md R13). -/
def goodNv (x : F32) : Bool := !x.msb && f32Finite x && !f32IsZero x

/-- The magnitude of a finite pattern in units of 2^-149. -/
def f32Units (x : F32) : Nat :=
  if f32Exp x = 0 then f32Frac x else (2 ^ 23 + f32Frac x) * 2 ^ (f32Exp x - 1)

/-- The exact value of a finite pattern (00_scope.md R13). -/
def f32Rat (x : F32) : Rat :=
  let m : Rat := (f32Units x : Rat) / (2 ^ 149 : Nat)
  if x.msb then -m else m

/-- A pattern's place in the order of the values: its magnitude bits, negative under the sign bit. -/
def f32Rank (x : F32) : Int :=
  let m : Int := ((x.extractLsb' 0 31).toNat : Int)
  if x.msb then -m else m

/-- The negative of a pattern. -/
def f32Neg (x : F32) : F32 := x ^^^ 0x80000000#32

/-- The largest finite pattern whose value is at most `n` units of 2^-149. -/
def f32OfUnits (n : Nat) : Nat :=
  if n < 2 ^ 24 then n
  else
    let shift := Nat.log2 n - 23
    min (shift * 2 ^ 23 + n / 2 ^ shift) 0x7F7FFFFF

/-- The largest finite pattern at most a non-negative rational. -/
def f32FloorAbs (q : Rat) : F32 := BitVec.ofNat 32 (f32OfUnits (q * ((2 ^ 149 : Nat) : Rat)).floor.toNat)

/-- The smallest finite pattern at least a non-negative rational; none where the rational is beyond them all. -/
def f32CeilAbs (q : Rat) : Option F32 :=
  let b := f32FloorAbs q
  if q ≤ f32Rat b then some b else if f32Finite (b + 1#32) then some (b + 1#32) else none

/-- The smallest finite pattern at least a rational; none where the rational is beyond them all. -/
def f32Ceil (q : Rat) : Option F32 := if 0 ≤ q then f32CeilAbs q else some (f32Neg (f32FloorAbs (-q)))

/-- The largest finite pattern at most a rational; none where the rational is below them all. -/
def f32Floor (q : Rat) : Option F32 := (f32Ceil (-q)).map f32Neg

/-- A finite pattern nearest to a rational. -/
def f32Nearest (q : Rat) : F32 :=
  match f32Floor q, f32Ceil q with
  | some a, some b => if f32Rat b - q < q - f32Rat a then b else a
  | some a, none => a
  | none, some b => b
  | none, none => f32Zero

/-- `finite(z)` of a complex value (00_scope.md R13). -/
def c64Finite (z : C64) : Bool := f32Finite z.re && f32Finite z.im

/-- Both parts are zero, of either sign (42_equalizer.md R84). -/
def c64IsZero (z : C64) : Bool := f32IsZero z.re && f32IsZero z.im

/-! ## Square roots -/

/-- Binary digits of a square root, `b` of them still to find below those of `acc`. -/
def isqrtBits : Nat → Nat → Nat → Nat
  | 0, _, acc => acc
  | b + 1, n, acc =>
    let t := acc + 2 ^ b
    isqrtBits b n (if t * t ≤ n then t else acc)

/-- The integer square root. -/
def isqrt (n : Nat) : Nat := isqrtBits (Nat.log2 n / 2 + 1) n 0

/-- A lower bound of the square root of a non-negative rational, within a relative 2^-64. -/
def sqrtLo (q : Rat) : Rat :=
  ((isqrt (q.num.toNat * q.den * 2 ^ 128) : Nat) : Rat) / ((q.den * 2 ^ 64 : Nat) : Rat)

/-- An upper bound of the square root of a non-negative rational, within a relative 2^-64; exact where the lower
bound is. -/
def sqrtHi (q : Rat) : Rat :=
  let m := q.num.toNat * q.den * 2 ^ 128
  let r := isqrt m
  ((if r * r = m then r else r + 1 : Nat) : Rat) / ((q.den * 2 ^ 64 : Nat) : Rat)

/-! ## Intervals -/

/-- The smaller of two rationals. -/
def ratMin (a b : Rat) : Rat := if a ≤ b then a else b

/-- The larger of two rationals. -/
def ratMax (a b : Rat) : Rat := if a ≤ b then b else a

/-- The magnitude of a rational. -/
def ratAbs (a : Rat) : Rat := if a < 0 then -a else a

/-- The sum of a list of rationals. -/
def ratSum (l : List Rat) : Rat := l.foldr (· + ·) 0

/-- A closed interval of reals with rational ends. -/
structure Ival where
  lo : Rat
  hi : Rat
deriving DecidableEq, Repr, Inhabited

/-- The interval of one exact value. -/
def ivOf (q : Rat) : Ival := ⟨q, q⟩

/-- The sum of two enclosed values. -/
def ivAdd (a b : Ival) : Ival := ⟨a.lo + b.lo, a.hi + b.hi⟩

/-- The negative of an enclosed value. -/
def ivNeg (a : Ival) : Ival := ⟨-a.hi, -a.lo⟩

/-- The difference of two enclosed values. -/
def ivSub (a b : Ival) : Ival := ivAdd a (ivNeg b)

/-- The product of two enclosed values. -/
def ivMul (a b : Ival) : Ival :=
  let p := a.lo * b.lo
  let q := a.lo * b.hi
  let r := a.hi * b.lo
  let s := a.hi * b.hi
  ⟨ratMin (ratMin p q) (ratMin r s), ratMax (ratMax p q) (ratMax r s)⟩

/-- The square of an enclosed value. -/
def ivSqr (a : Ival) : Ival :=
  if 0 ≤ a.lo then ⟨a.lo * a.lo, a.hi * a.hi⟩
  else if a.hi ≤ 0 then ⟨a.hi * a.hi, a.lo * a.lo⟩
  else ⟨0, ratMax (a.lo * a.lo) (a.hi * a.hi)⟩

/-- An enclosed value times an exact one. -/
def ivScale (r : Rat) (a : Ival) : Ival := if 0 ≤ r then ⟨r * a.lo, r * a.hi⟩ else ⟨r * a.hi, r * a.lo⟩

/-- The enclosed value or 0, whichever is larger. -/
def ivClamp0 (a : Ival) : Ival := ⟨ratMax 0 a.lo, ratMax 0 a.hi⟩

/-- The sum of a list of enclosed values. -/
def ivSum (l : List Ival) : Ival := l.foldr ivAdd (ivOf 0)

/-- The distance from a point to an interval. -/
def ivDist (x : Rat) (a : Ival) : Rat := if x < a.lo then a.lo - x else if a.hi < x then x - a.hi else 0

/-! ## Boxes in the complex plane -/

/-- An enclosure of a complex value. -/
structure CBox where
  re : Ival
  im : Ival
deriving DecidableEq, Repr, Inhabited

/-- The box of one exact value. -/
def cbOf (re im : Rat) : CBox := ⟨ivOf re, ivOf im⟩

/-- The sum of two enclosed complex values. -/
def cbAdd (a b : CBox) : CBox := ⟨ivAdd a.re b.re, ivAdd a.im b.im⟩

/-- The difference of two enclosed complex values. -/
def cbSub (a b : CBox) : CBox := ⟨ivSub a.re b.re, ivSub a.im b.im⟩

/-- The product of two enclosed complex values. -/
def cbMul (a b : CBox) : CBox :=
  ⟨ivSub (ivMul a.re b.re) (ivMul a.im b.im), ivAdd (ivMul a.re b.im) (ivMul a.im b.re)⟩

/-- The conjugate of an enclosed complex value. -/
def cbConj (a : CBox) : CBox := ⟨a.re, ivNeg a.im⟩

/-- An enclosed complex value times an exact real one. -/
def cbScale (r : Rat) (a : CBox) : CBox := ⟨ivScale r a.re, ivScale r a.im⟩

/-- The sum of a list of enclosed complex values. -/
def cbSum (l : List CBox) : CBox := l.foldr cbAdd (cbOf 0 0)

/-- `abs2` of an enclosed complex value (00_scope.md R13). -/
def cbAbs2 (a : CBox) : Ival := ivAdd (ivSqr a.re) (ivSqr a.im)

/-- An upper bound of the magnitude of an enclosed complex value. -/
def cbAbsHi (a : CBox) : Rat := sqrtHi (cbAbs2 a).hi

/-- An enclosed complex value turned by `q` quarter turns: times `j^q`. -/
def cbQuarter (q : Nat) (a : CBox) : CBox :=
  match q % 4 with
  | 0 => a
  | 1 => ⟨ivNeg a.im, a.re⟩
  | 2 => ⟨ivNeg a.re, ivNeg a.im⟩
  | _ => ⟨a.im, ivNeg a.re⟩

/-! ## Roots of unity -/

/-- A lower bound of pi. -/
def piLo : Rat := 314159265358979323846 / 100000000000000000000

/-- An upper bound of pi. -/
def piHi : Rat := 314159265358979323847 / 100000000000000000000

/-- `terms` terms of the cosine series from its `n`-th on, in `x2 = x^2`, over the `n`-th term. -/
def cosTail : Nat → Nat → Rat → Rat
  | 0, _, _ => 0
  | terms + 1, n, x2 => 1 - x2 / (((2 * n + 1) * (2 * n + 2) : Nat) : Rat) * cosTail terms (n + 1) x2

/-- An interval with ends in steps of 2^-64 around an interval. -/
def ivCoarse (a : Ival) : Ival :=
  let g : Rat := ((2 ^ 64 : Nat) : Rat)
  ⟨((a.lo * g).floor : Rat) / g, ((a.hi * g).ceil : Rat) / g⟩

/-- `cos(2*pi*g)` for `0 <= g <= 1/4`, enclosed. An even number of terms of the series is a lower bound and an odd
number an upper bound; the cosine falls over the quarter. -/
def cosIv (g : Rat) : Ival :=
  let lo := 2 * piLo * g
  let hi := 2 * piHi * g
  ivCoarse ⟨cosTail 16 0 (hi * hi), cosTail 17 0 (lo * lo)⟩

/-- `e^(j*2*pi*g)` for `0 <= g < 1/4`, enclosed; its sine is the cosine of the rest of the quarter. -/
def cisQuarter (g : Rat) : CBox := if g = 0 then cbOf 1 0 else ⟨cosIv g, cosIv (1 / 4 - g)⟩

/-- `e^(j*2*pi*turn)`, enclosed; exact at the quarter turns. -/
def cis (turn : Rat) : CBox :=
  let f := turn - (turn.floor : Rat)
  let q := (f * 4).floor.toNat
  cbQuarter q (cisQuarter (f - (q : Rat) / 4))

/-! ## Formal sums of roots of unity -/

/-- A complex factor `unit * e^(j*2*pi*turn)` of modulus 1, `unit` enclosed in a box; a box that is a point gives the
factor exactly. -/
structure UnitPhase where
  turn : Rat
  unit : CBox
deriving DecidableEq, Repr, Inhabited

/-- The factor 1. -/
def UnitPhase.one : UnitPhase := ⟨0, cbOf 1 0⟩

/-- One term `coef * e^(j*2*pi*turn)`. -/
structure Term where
  coef : CBox
  turn : Rat
deriving DecidableEq, Repr, Inhabited

/-- A formal sum of terms: a complex value, exact where every coefficient is a point. -/
abbrev CSum := List Term

/-- The sum turned by a phase. -/
def csRot (turn : Rat) (s : CSum) : CSum := s.map (fun t => ⟨t.coef, t.turn + turn⟩)

/-- The sum times a factor of modulus 1. -/
def csTimes (f : UnitPhase) (s : CSum) : CSum := s.map (fun t => ⟨cbMul t.coef f.unit, t.turn + f.turn⟩)

/-- The sum times a real. -/
def csScale (r : Rat) (s : CSum) : CSum := s.map (fun t => ⟨cbScale r t.coef, t.turn⟩)

/-- An enclosure of the sum. -/
def csBox (s : CSum) : CBox := cbSum (s.map (fun t => cbMul t.coef (cis t.turn)))

/-- Is the box one point? -/
def cbIsPoint (b : CBox) : Bool := b.re.lo == b.re.hi && b.im.lo == b.im.hi

/-- The least `n` such that every phase of the sum, and a quarter turn, is a multiple of `1/n` turn. -/
def csOrder (s : CSum) : Nat := s.foldr (fun t n => Nat.lcm t.turn.den n) 4

/-- The coefficients of a sum of exact terms over the `n`-th roots of unity, `n = csOrder s`. -/
def csCoeffs (s : CSum) : List Rat :=
  let n := csOrder s
  let at_ (t : Term) : Nat := ((t.turn * (n : Rat)).floor % (n : Int)).toNat
  (List.range n).map (fun j =>
    ratSum (s.map (fun t =>
      (if at_ t = j then t.coef.re.lo else 0) + (if (at_ t + n / 4) % n = j then t.coef.im.lo else 0))))

/-- The coefficients after multiplication by `1 - x^step`, cyclically. -/
def cyclicKill (step : Nat) (c : List Rat) : List Rat :=
  (List.range c.length).map (fun j => c.getD j 0 - c.getD ((j + c.length - step) % c.length) 0)

/-- The prime divisors of a number. -/
def primeDivisors (n : Nat) : List Nat :=
  (List.range (n + 1)).filter (fun p =>
    decide (2 ≤ p) && n % p == 0 && (List.range p).all (fun q => decide (q < 2) || p % q != 0))

/-- Are all terms of the sum exact? -/
def csIsExact (s : CSum) : Bool := s.all (fun t => cbIsPoint t.coef)

/-- Is the sum known to be exactly 0? Its terms must be exact. The sum `P(z)` at a primitive `n`-th root `z` is 0 iff
the polynomial `P` times the product of `1 - x^(n/p)` over the primes `p` dividing `n` is 0 modulo `x^n - 1`: that
product is 0 at every `n`-th root that is not primitive and at no primitive one. -/
def csIsZero (s : CSum) : Bool :=
  csIsExact s &&
    ((primeDivisors (csOrder s)).foldr (fun p c => cyclicKill (csOrder s / p) c) (csCoeffs s)).all (fun x => x == 0)

/-- Is the sum known to differ from 0? -/
def csIsNonzero (s : CSum) : Bool := csIsExact s && !csIsZero s

end Sys2Proof.Machine
end

