-- ==== Sys2Proof/Config.lean ====
section
/-! DEFINITION. What an implementation fixes (the OPEN parameters of 92_eei_decisions.md, as plain data that
State carries, so that a statement about every state holds for every parameter value) and the free values
(opaque constants without a body). -/

namespace Sys2Proof

/-- The equalizer algorithm of every instance (00_scope.md R5, 42_equalizer.md R85). -/
inductive EqAlgo | zf | mmse
deriving DecidableEq, Repr, Inhabited

/-- One entry of the table `F0_THR` (00_scope.md R8): the threshold of the key `(dof, ncand)`.
`F0_THR_DEFINED` holds of the keys that are listed. -/
structure F0Threshold where
  dof   : Nat
  ncand : Nat
  thr   : F32
deriving DecidableEq, Repr, Inhabited

/-- The arguments of `SeqParams` (00_scope.md R11). -/
structure SeqKey where
  nid  : Nat
  slot : Nat
  mu   : Nat
  sym  : Nat
  hop  : Nat
deriving DecidableEq, Repr, Inhabited

/-- What `SeqParams` gives (00_scope.md R11): sequence group 0..29, sequence number 0..1 and
cyclic-shift offset 0..11. -/
structure SeqVal where
  u   : Fin 30
  v   : Fin 2
  ncs : Fin 12
deriving DecidableEq, Repr, Inhabited

/-- The OPEN parameters and the time-independent collaborators, as plain data (00_scope.md R5 to R11).
DESIGN CHOICE, log entries 1, 14, 15, 16. -/
structure Params where
  /-- `K`, processor instances, 1..16 (R5). -/
  k : Nat
  /-- `N_CALLERS`, caller ports, 1..16 (R5). -/
  nCallers : Nat
  /-- `MAX_PORTS`, receive ports per command, 1..8 (R5). -/
  maxPorts : Nat
  /-- `EQ_ALGO` (R5). -/
  eqAlgo : EqAlgo
  /-- `N_RB_GRID`, 1..275 (R6). -/
  nRbGrid : Nat
  /-- `NOF_GRID_PORTS`, 1..8 (R6). -/
  nofGridPorts : Nat
  /-- `DMEM_SIZE` in bytes, 1..2^32 (R7). -/
  dmemSize : Nat
  /-- `TOL`, positive (R10). DESIGN CHOICE, log entry 14: a rational, where R10 allows any positive real. -/
  tol : Rat
  /-- `F0_THR` and its domain (R8). -/
  f0Thr : List F0Threshold
  /-- `F1_NORM(cfg)` for the listed descriptors (R8). -/
  f1NormTab : List (List Word × Rat)
  /-- `F1_NORM(cfg)` for every other descriptor (R8). -/
  f1NormElse : Rat
  /-- The breakpoints of `Q_LLR` on the binary32 values: the `i`-th is the pattern of the least positive value whose
  level is at least `i + 1`; `LLR_MAX` is their number (R9). Log entry 14. -/
  llrThr : List F32
  /-- `SeqParams` (R11); an unlisted key gives `(0, 0, 0)`. -/
  seqTab : List (SeqKey × SeqVal)
  /-- The elements of the base sequence `LowPapr(u, v, 0)` (R11); an unlisted one is 1. Log entry 15. -/
  paprTab : List ((Fin 30 × Fin 2) × List Machine.UnitPhase)
  /-- `PRN(cinit)` (R11); bits beyond the list are 0. -/
  prnTab : List (Nat × List Bool)
deriving DecidableEq, Repr

/-- What a free value is drawn for. Each name is one kind of value that the spec leaves open. -/
inductive Site
  | schedule      -- which enabled step the block takes (46 R131)
  | instance_     -- which free instance a call receives (46 R131)
  | outByte       -- an output byte under R48, R49, R50
  | faultByte     -- an in-flight output byte at a fault entry (60 R146)
  | resetByte     -- an in-flight output byte at a reset (70 R158)
  | hostByte      -- a busy call's output read by the host (20 R49)
  | seenByte      -- another call's output read by a command's checks (20 R48)
  | scratch       -- SCRATCH[k] after a command (10 R32)
  | deprecoded    -- an element of `Deprecode` (41 R79)
  | mean          -- the mean of `DeprecodeNoise` (41 R80)
  | eqSymbol      -- an output symbol of `Equalize` (42 R85)
  | eqNoise       -- an output noise variance of `Equalize` (42 R85)
  | f0Winner      -- the winning candidate (43 R93)
  | f0Pass | f0Metric | f0Epre | f0Rsrp | f0Sinr   -- 43 R95
  | f1Keep        -- a shift zeroed or kept (44 R105)
  | f1Bit0 | f1Bit1 | f1Pass | f1Metric | f1Rsrp | f1Sinr   -- 44 R107
  | f1Epre | f1Noise   -- 44 R106
  | symbol        -- an equalized, deprecoded or despread symbol that nothing bounds (45 R120)
  | llr           -- an LLR byte (45 R121, R123)
deriving DecidableEq, Repr, Inhabited

/-- The name of one free value: the command's draw number, what it is for, and which one. -/
structure DrawId where
  epoch : Nat
  site  : Site
  index : Nat
deriving DecidableEq, Repr, Inhabited

/-- A free 32-bit pattern (`draw` of 00_scope.md R14). Log entry 8. -/
opaque Config.freeWord : DrawId → BitVec 32

/-- A free byte. Log entry 8. -/
opaque Config.freeByte : DrawId → BitVec 8

/-- A free Boolean outcome. Log entry 8. -/
opaque Config.freeBit : DrawId → Bool

/-- A free choice, before it is narrowed to what the rule admits. Log entry 8. -/
opaque Config.freeIndex : DrawId → Nat

end Sys2Proof
end

