-- ==== Sys2Proof/Machine/Draw.lean ====
section
/-! DEFINITION. Free values narrowed to what a rule admits (00_scope.md R14 `draw`, R15). A free value that the
rule admits is taken as it is, so every admitted value can come out; any other is replaced by an admitted one. -/

namespace Sys2Proof.Machine

/-- What a rule admits for one real result (00_scope.md R15). -/
inductive Admitted
  /-- any binary32 pattern: an input was NaN or an infinity and the rule has no sentinel -/
  | any
  /-- a draw over `[0, +inf]`: a ratio whose denominator is within its error bound of 0 -/
  | nonneg
  /-- `+inf`, or finite and at least `b` (R94, R108) -/
  | atLeast (b : Rat)
  /-- exactly `+inf` -/
  | posInf
  /-- finite and between `lo` and `hi`, the ideal value widened by its error bound -/
  | within (lo hi : Rat)
  /-- as `within`, and finite and greater than 0 whatever the bounds are -/
  | goodWithin (lo hi : Rat)
deriving DecidableEq, Repr, Inhabited

/-- Is the pattern one of those admitted? -/
def admits (a : Admitted) (x : F32) : Bool :=
  match a with
  | .any => true
  | .nonneg => x == f32PosInf || (f32Finite x && decide (0 ≤ f32Rat x))
  | .atLeast b => x == f32PosInf || (f32Finite x && decide (b ≤ f32Rat x))
  | .posInf => x == f32PosInf
  | .within lo hi => f32Finite x && decide (lo ≤ f32Rat x) && decide (f32Rat x ≤ hi)
  | .goodWithin lo hi => goodNv x && decide (lo ≤ f32Rat x) && decide (f32Rat x ≤ hi)

/-- A pattern that is admitted whenever one is. -/
def admittedSample (a : Admitted) : F32 :=
  match a with
  | .any | .nonneg => f32Zero
  | .atLeast _ | .posInf => f32PosInf
  | .within lo _ => (f32Ceil lo).getD f32Zero
  | .goodWithin lo _ =>
    let x := (f32Ceil (ratMax lo (1 / (2 ^ 149 : Nat)))).getD 1#32
    if goodNv x then x else 1#32

/-- The value the hardware returns where the rule admits the set `a`. Where no pattern is admitted (the range
holds no binary32 value) nothing constrains the value, but for the sign and finiteness of `goodWithin`. -/
def drawF32 (a : Admitted) (id : DrawId) : F32 :=
  let w := Config.freeWord id
  let x := admittedSample a
  if admits a w then w
  else if admits a x then x
  else
    match a with
    | .goodWithin _ _ => if goodNv w then w else x
    | _ => w

/-- What a rule admits for one complex result: any pair of patterns, or finite parts within `rad` of the box. -/
inductive CAdmitted
  | any
  | disk (box : CBox) (rad : Rat)
deriving DecidableEq, Repr, Inhabited

/-- Is the pair one of those admitted (00_scope.md R15: `abs(q~ - q) <= TOL * S(q)`)? -/
def cAdmits (a : CAdmitted) (z : C64) : Bool :=
  match a with
  | .any => true
  | .disk box rad =>
    let dx := ivDist (f32Rat z.re) box.re
    let dy := ivDist (f32Rat z.im) box.im
    c64Finite z && decide (dx * dx + dy * dy ≤ rad * rad)

/-- A pair that is admitted whenever one is. -/
def cAdmittedSample (a : CAdmitted) : C64 :=
  match a with
  | .any => ⟨f32Zero, f32Zero⟩
  | .disk box _ => ⟨f32Nearest ((box.re.lo + box.re.hi) / 2), f32Nearest ((box.im.lo + box.im.hi) / 2)⟩

/-- Does the rule admit some pair? -/
def cAdmitsSome (a : CAdmitted) : Bool := cAdmits a (cAdmittedSample a)

/-- The complex value the hardware returns where the rule admits the set `a`. -/
def drawC64 (a : CAdmitted) (id : DrawId) : C64 :=
  let z : C64 := ⟨Config.freeWord { id with index := 2 * id.index },
                  Config.freeWord { id with index := 2 * id.index + 1 }⟩
  if cAdmits a z then z
  else if cAdmits a (cAdmittedSample a) then cAdmittedSample a
  else z

/-- A Boolean outcome: determined where only one is admitted, else free (00_scope.md R15). -/
def drawBool (mayTrue mayFalse : Bool) (id : DrawId) : Bool :=
  if mayTrue && mayFalse then Config.freeBit id else mayTrue

/-- One of a list of choices; the default where the list is empty. -/
def drawFrom (choices : List Nat) (dflt : Nat) (id : DrawId) : Nat :=
  match choices with
  | [] => dflt
  | [c] => c
  | cs => cs.getD (Config.freeIndex id % cs.length) dflt

/-- Does some finite pattern lie between `lo` and `hi`? -/
def f32Between (lo hi : Rat) : Bool :=
  match f32Ceil lo with
  | some x => decide (f32Rat x ≤ hi)
  | none => false

/-- Does some finite pattern between `lo` and `hi` exceed the threshold? -/
def f32BetweenAbove (lo hi thr : Rat) : Bool :=
  match f32Floor hi with
  | some x => decide (lo ≤ f32Rat x) && decide (thr < f32Rat x)
  | none => false

/-- May some admitted value exceed the threshold (00_scope.md R15)? Where no pattern is admitted, nothing constrains
the value (log entry 33). -/
def mayExceed (a : Admitted) (thr : Rat) : Bool :=
  match a with
  | .any | .nonneg | .atLeast _ | .posInf => true
  | .within lo hi | .goodWithin lo hi => !f32Between lo hi || f32BetweenAbove lo hi thr

/-- May some admitted value be at or below the threshold, or no number (00_scope.md R15)? -/
def mayNotExceed (a : Admitted) (thr : Rat) : Bool :=
  match a with
  | .any => true
  | .nonneg => decide (0 ≤ thr)
  | .atLeast b => f32Between b thr
  | .posInf => false
  | .within lo hi | .goodWithin lo hi => !f32Between lo hi || f32Between lo (ratMin hi thr)

/-- An enclosed ideal value widened by its error bound `TOL * S` (00_scope.md R15). -/
def admitNear (q : Ival) (bound : Rat) : Admitted := .within (q.lo - bound) (q.hi + bound)

/-- A ratio whose denominator is farther than its error bound from 0: every quotient of a numerator and a denominator
that are each within their error bounds, as 43_format0.md R94 and 44_format1.md R108 compute them, widened by the
error bound of the ratio itself (00_scope.md R15). DEDUCED, log entry 12. -/
def admitRatio (tol : Rat) (num : Ival) (numScale : Rat) (den : Ival) (denBound : Rat) : Admitted :=
  let n : Ival := ⟨num.lo - tol * numScale, num.hi + tol * numScale⟩
  let inv : Ival := ⟨1 / (den.hi + denBound), 1 / (den.lo - denBound)⟩
  admitNear (ivMul n inv) (tol * (numScale / den.lo))

end Sys2Proof.Machine
end

