-- ==== Sys2Proof/Syntax.lean ====
section
/-! DEFINITION. The thirteen commands with their descriptor fields (30_encoding.md R54 to R66). Every bit of a
descriptor is a field of its own, the reserved bits too, because stage B checks them. -/

namespace Sys2Proof

/-- The fields of a `PROC.Fx` or `VAL.Fx` descriptor, words W0 to W10 (30_encoding.md R55, R57 to R62).
`rsvXX` are the bits the tables mark RSV. -/
structure PucchDesc where
  tag           : BitVec 16   -- W0[31:16]
  resAddr       : BitVec 32   -- W1
  slotIdx       : BitVec 8    -- W2[7:0]
  mu            : BitVec 3    -- W2[10:8]
  rsv2          : BitVec 21   -- W2[31:11]
  startPrb      : BitVec 9    -- W3[8:0]
  rsv3lo        : BitVec 7    -- W3[15:9]
  secondHopPrb  : BitVec 9    -- W3[24:16]
  rsv3hi        : BitVec 6    -- W3[30:25]
  hopEn         : BitVec 1    -- W3[31]
  startSym      : BitVec 4    -- W4[3:0]
  nofSym        : BitVec 4    -- W4[7:4]
  nofPrb        : BitVec 5    -- W4[12:8]
  pi2bpsk       : BitVec 1    -- W4[13]
  addDmrs       : BitVec 1    -- W4[14]
  occLenSel     : BitVec 1    -- W4[15]
  occIdx        : BitVec 2    -- W4[17:16]
  rsv4lo        : BitVec 2    -- W4[19:18]
  initCs        : BitVec 4    -- W4[23:20]
  nofHarq       : BitVec 2    -- W4[25:24]
  srOpp         : BitVec 1    -- W4[26]
  rsv4hi        : BitVec 5    -- W4[31:27]
  nId           : BitVec 10   -- W5[9:0]
  rsv5          : BitVec 6    -- W5[15:10]
  rnti          : BitVec 16   -- W5[31:16]
  nofPorts      : BitVec 4    -- W6[3:0]
  rsv6          : BitVec 28   -- W6[31:4]
  portList      : BitVec 32   -- W7
  bufAddr       : BitVec 32   -- W8
  bufLen        : BitVec 32   -- W9
  gridHandle    : BitVec 32   -- W10
deriving DecidableEq, Repr, Inhabited

/-- The fields of a `DEPRECODE.SYM` or `DEPRECODE.NOISE` descriptor, words W0 to W4 (30_encoding.md R65). -/
structure DeprecodeDesc where
  tag     : BitVec 16   -- W0[31:16]
  resAddr : BitVec 32   -- W1
  inAddr  : BitVec 32   -- W2
  outAddr : BitVec 32   -- W3
  inLen   : BitVec 16   -- W4[15:0]
  outLen  : BitVec 16   -- W4[31:16]
deriving DecidableEq, Repr, Inhabited

/-- The fields of an `EQUALIZE` descriptor, words W0 to W8 (30_encoding.md R66). -/
structure EqualizeDesc where
  tag       : BitVec 16   -- W0[31:16]
  resAddr   : BitVec 32   -- W1
  rxAddr    : BitVec 32   -- W2
  chAddr    : BitVec 32   -- W3
  nvAddr    : BitVec 32   -- W4
  osymAddr  : BitVec 32   -- W5
  onvAddr   : BitVec 32   -- W6
  nofRe     : BitVec 16   -- W7[15:0]
  nofPorts  : BitVec 4    -- W7[19:16]
  nofLayers : BitVec 4    -- W7[23:20]
  rsv7      : BitVec 8    -- W7[31:24]
  scaling   : BitVec 32   -- W8
deriving DecidableEq, Repr, Inhabited

/-- The thirteen commands of 30_encoding.md R56. -/
inductive Instr
  | procF0 (d : PucchDesc)
  | procF1 (d : PucchDesc)
  | procF2 (d : PucchDesc)
  | procF3 (d : PucchDesc)
  | procF4 (d : PucchDesc)
  | valF0 (d : PucchDesc)
  | valF1 (d : PucchDesc)
  | valF2 (d : PucchDesc)
  | valF3 (d : PucchDesc)
  | valF4 (d : PucchDesc)
  | deprecodeSym (d : DeprecodeDesc)
  | deprecodeNoise (d : DeprecodeDesc)
  | equalize (d : EqualizeDesc)
deriving DecidableEq, Repr, Inhabited

/-- The five PUCCH formats (00_scope.md R1). -/
inductive Fmt | f0 | f1 | f2 | f3 | f4
deriving DecidableEq, Repr, Inhabited

end Sys2Proof
end

