-- ==== Sys2Proof/Decode.lean ====
section
/-! DEFINITION. Reading a command from its descriptor words and writing it back (30_encoding.md R54 to R67,
R76), and the byte order of 20_memory.md R39. -/

namespace Sys2Proof

/-! ## Bytes and words -/

/-- The four bytes of a word, least significant first (20_memory.md R39). -/
def wordBytes (w : Word) : List Byte :=
  [w.extractLsb' 0 8, w.extractLsb' 8 8, w.extractLsb' 16 8, w.extractLsb' 24 8]

/-- The word with these four bytes, the first the least significant (20_memory.md R39). -/
def bytesWord (b0 b1 b2 b3 : Byte) : Word := b3 ++ b2 ++ b1 ++ b0

/-- The words of a byte string; bytes left over at its end make no word. -/
def wordsOfBytes : List Byte → List Word
  | b0 :: b1 :: b2 :: b3 :: rest => bytesWord b0 b1 b2 b3 :: wordsOfBytes rest
  | _ => []

/-- The byte string of a list of words. -/
def bytesOfWords (ws : List Word) : List Byte := ws.flatMap wordBytes

/-! ## Opcodes -/

/-- The opcodes of 30_encoding.md R56. -/
inductive Opcode
  | procF0 | procF1 | procF2 | procF3 | procF4
  | valF0 | valF1 | valF2 | valF3 | valF4
  | deprecodeSym | deprecodeNoise | equalize
deriving DecidableEq, Repr, Inhabited

/-- The `OPC` value of an opcode (30_encoding.md R56). -/
def opcodeByte : Opcode → BitVec 8
  | .procF0 => 0x01#8
  | .procF1 => 0x02#8
  | .procF2 => 0x03#8
  | .procF3 => 0x04#8
  | .procF4 => 0x05#8
  | .valF0 => 0x11#8
  | .valF1 => 0x12#8
  | .valF2 => 0x13#8
  | .valF3 => 0x14#8
  | .valF4 => 0x15#8
  | .deprecodeSym => 0x21#8
  | .deprecodeNoise => 0x22#8
  | .equalize => 0x23#8

/-- Every opcode, in the order of 30_encoding.md R56. -/
def allOpcodes : List Opcode :=
  [.procF0, .procF1, .procF2, .procF3, .procF4, .valF0, .valF1, .valF2, .valF3, .valF4,
   .deprecodeSym, .deprecodeNoise, .equalize]

/-- The opcode an `OPC` byte stands for; none for the reserved values (30_encoding.md R56, R76). -/
def opcodeOfByte (b : BitVec 8) : Option Opcode := allOpcodes.find? (fun o => opcodeByte o == b)

/-- The number of words of a descriptor (30_encoding.md R54). -/
def opcodeWords : Opcode → Nat
  | .procF0 | .procF1 | .procF2 | .procF3 | .procF4 => 11
  | .valF0 | .valF1 | .valF2 | .valF3 | .valF4 => 11
  | .deprecodeSym | .deprecodeNoise => 5
  | .equalize => 9

/-- Is it one of `VAL.F0` to `VAL.F4` (46_dispatcher_pool.md R131)? -/
def opcodeIsVal : Opcode → Bool
  | .valF0 | .valF1 | .valF2 | .valF3 | .valF4 => true
  | _ => false

/-! ## The command word and the result address -/

/-- `W0[7:0]` (30_encoding.md R55). -/
def w0Opc (w : Word) : BitVec 8 := w.extractLsb' 0 8

/-- `W0[15:8]`, reserved (30_encoding.md R55). -/
def w0Rsv (w : Word) : BitVec 8 := w.extractLsb' 8 8

/-- `W0[31:16]` (30_encoding.md R55). -/
def w0Tag (w : Word) : BitVec 16 := w.extractLsb' 16 16

/-- The command word of an opcode and a tag (30_encoding.md R55). -/
def w0Word (tag : BitVec 16) (o : Opcode) : Word := tag ++ 0#8 ++ opcodeByte o

/-! ## Descriptors -/

/-- The fields of the words of a configuration descriptor (30_encoding.md R55, R57 to R62). -/
def pucchOfWords (w0 w1 w2 w3 w4 w5 w6 w7 w8 w9 w10 : Word) : PucchDesc where
  tag          := w0Tag w0
  resAddr      := w1
  slotIdx      := w2.extractLsb' 0 8
  mu           := w2.extractLsb' 8 3
  rsv2         := w2.extractLsb' 11 21
  startPrb     := w3.extractLsb' 0 9
  rsv3lo       := w3.extractLsb' 9 7
  secondHopPrb := w3.extractLsb' 16 9
  rsv3hi       := w3.extractLsb' 25 6
  hopEn        := w3.extractLsb' 31 1
  startSym     := w4.extractLsb' 0 4
  nofSym       := w4.extractLsb' 4 4
  nofPrb       := w4.extractLsb' 8 5
  pi2bpsk      := w4.extractLsb' 13 1
  addDmrs      := w4.extractLsb' 14 1
  occLenSel    := w4.extractLsb' 15 1
  occIdx       := w4.extractLsb' 16 2
  rsv4lo       := w4.extractLsb' 18 2
  initCs       := w4.extractLsb' 20 4
  nofHarq      := w4.extractLsb' 24 2
  srOpp        := w4.extractLsb' 26 1
  rsv4hi       := w4.extractLsb' 27 5
  nId          := w5.extractLsb' 0 10
  rsv5         := w5.extractLsb' 10 6
  rnti         := w5.extractLsb' 16 16
  nofPorts     := w6.extractLsb' 0 4
  rsv6         := w6.extractLsb' 4 28
  portList     := w7
  bufAddr      := w8
  bufLen       := w9
  gridHandle   := w10

/-- The words W1 to W10 of a configuration descriptor (30_encoding.md R55, R57 to R62). -/
def pucchWords (d : PucchDesc) : List Word :=
  [ d.resAddr,
    d.rsv2 ++ d.mu ++ d.slotIdx,
    d.hopEn ++ d.rsv3hi ++ d.secondHopPrb ++ d.rsv3lo ++ d.startPrb,
    d.rsv4hi ++ d.srOpp ++ d.nofHarq ++ d.initCs ++ d.rsv4lo ++ d.occIdx ++ d.occLenSel ++ d.addDmrs ++
      d.pi2bpsk ++ d.nofPrb ++ d.nofSym ++ d.startSym,
    d.rnti ++ d.rsv5 ++ d.nId,
    d.rsv6 ++ d.nofPorts,
    d.portList, d.bufAddr, d.bufLen, d.gridHandle ]

/-- The fields of the words of a `DEPRECODE` descriptor (30_encoding.md R65). -/
def deprecodeOfWords (w0 w1 w2 w3 w4 : Word) : DeprecodeDesc where
  tag     := w0Tag w0
  resAddr := w1
  inAddr  := w2
  outAddr := w3
  inLen   := w4.extractLsb' 0 16
  outLen  := w4.extractLsb' 16 16

/-- The words W1 to W4 of a `DEPRECODE` descriptor (30_encoding.md R65). -/
def deprecodeWords (d : DeprecodeDesc) : List Word := [d.resAddr, d.inAddr, d.outAddr, d.outLen ++ d.inLen]

/-- The fields of the words of an `EQUALIZE` descriptor (30_encoding.md R66). -/
def equalizeOfWords (w0 w1 w2 w3 w4 w5 w6 w7 w8 : Word) : EqualizeDesc where
  tag       := w0Tag w0
  resAddr   := w1
  rxAddr    := w2
  chAddr    := w3
  nvAddr    := w4
  osymAddr  := w5
  onvAddr   := w6
  nofRe     := w7.extractLsb' 0 16
  nofPorts  := w7.extractLsb' 16 4
  nofLayers := w7.extractLsb' 20 4
  rsv7      := w7.extractLsb' 24 8
  scaling   := w8

/-- The words W1 to W8 of an `EQUALIZE` descriptor (30_encoding.md R66). -/
def equalizeWords (d : EqualizeDesc) : List Word :=
  [ d.resAddr, d.rxAddr, d.chAddr, d.nvAddr, d.osymAddr, d.onvAddr,
    d.rsv7 ++ d.nofLayers ++ d.nofPorts ++ d.nofRe, d.scaling ]

/-! ## Decoding and encoding -/

/-- Why words are no command. -/
inductive DecodeError
  /-- there is no first word -/
  | empty
  /-- `W0[7:0]` is reserved (30_encoding.md R76) -/
  | illegalOpcode
  /-- `W0[15:8]` is not 0 (30_encoding.md R55) -/
  | reservedNonzero
  /-- fewer words than the opcode's length (30_encoding.md R54) -/
  | truncated
deriving DecidableEq, Repr, Inhabited

/-- The command that an opcode and the descriptor's words make; none when there are too few words. -/
def commandOfWords (o : Opcode) (ws : List Word) : Option Instr :=
  match o, ws with
  | .procF0, w0 :: w1 :: w2 :: w3 :: w4 :: w5 :: w6 :: w7 :: w8 :: w9 :: w10 :: _ =>
      some (.procF0 (pucchOfWords w0 w1 w2 w3 w4 w5 w6 w7 w8 w9 w10))
  | .procF1, w0 :: w1 :: w2 :: w3 :: w4 :: w5 :: w6 :: w7 :: w8 :: w9 :: w10 :: _ =>
      some (.procF1 (pucchOfWords w0 w1 w2 w3 w4 w5 w6 w7 w8 w9 w10))
  | .procF2, w0 :: w1 :: w2 :: w3 :: w4 :: w5 :: w6 :: w7 :: w8 :: w9 :: w10 :: _ =>
      some (.procF2 (pucchOfWords w0 w1 w2 w3 w4 w5 w6 w7 w8 w9 w10))
  | .procF3, w0 :: w1 :: w2 :: w3 :: w4 :: w5 :: w6 :: w7 :: w8 :: w9 :: w10 :: _ =>
      some (.procF3 (pucchOfWords w0 w1 w2 w3 w4 w5 w6 w7 w8 w9 w10))
  | .procF4, w0 :: w1 :: w2 :: w3 :: w4 :: w5 :: w6 :: w7 :: w8 :: w9 :: w10 :: _ =>
      some (.procF4 (pucchOfWords w0 w1 w2 w3 w4 w5 w6 w7 w8 w9 w10))
  | .valF0, w0 :: w1 :: w2 :: w3 :: w4 :: w5 :: w6 :: w7 :: w8 :: w9 :: w10 :: _ =>
      some (.valF0 (pucchOfWords w0 w1 w2 w3 w4 w5 w6 w7 w8 w9 w10))
  | .valF1, w0 :: w1 :: w2 :: w3 :: w4 :: w5 :: w6 :: w7 :: w8 :: w9 :: w10 :: _ =>
      some (.valF1 (pucchOfWords w0 w1 w2 w3 w4 w5 w6 w7 w8 w9 w10))
  | .valF2, w0 :: w1 :: w2 :: w3 :: w4 :: w5 :: w6 :: w7 :: w8 :: w9 :: w10 :: _ =>
      some (.valF2 (pucchOfWords w0 w1 w2 w3 w4 w5 w6 w7 w8 w9 w10))
  | .valF3, w0 :: w1 :: w2 :: w3 :: w4 :: w5 :: w6 :: w7 :: w8 :: w9 :: w10 :: _ =>
      some (.valF3 (pucchOfWords w0 w1 w2 w3 w4 w5 w6 w7 w8 w9 w10))
  | .valF4, w0 :: w1 :: w2 :: w3 :: w4 :: w5 :: w6 :: w7 :: w8 :: w9 :: w10 :: _ =>
      some (.valF4 (pucchOfWords w0 w1 w2 w3 w4 w5 w6 w7 w8 w9 w10))
  | .deprecodeSym, w0 :: w1 :: w2 :: w3 :: w4 :: _ => some (.deprecodeSym (deprecodeOfWords w0 w1 w2 w3 w4))
  | .deprecodeNoise, w0 :: w1 :: w2 :: w3 :: w4 :: _ => some (.deprecodeNoise (deprecodeOfWords w0 w1 w2 w3 w4))
  | .equalize, w0 :: w1 :: w2 :: w3 :: w4 :: w5 :: w6 :: w7 :: w8 :: _ =>
      some (.equalize (equalizeOfWords w0 w1 w2 w3 w4 w5 w6 w7 w8))
  | _, _ => none

/-- The decoder: the command of a descriptor's words, or why there is none (30_encoding.md R54 to R67, R76).
Words beyond the descriptor's length are not read. -/
def decode (ws : List Word) : Except DecodeError Instr :=
  match ws with
  | [] => .error .empty
  | w0 :: _ =>
    match opcodeOfByte (w0Opc w0) with
    | none => .error .illegalOpcode
    | some o =>
      if w0Rsv w0 = 0#8 then
        match commandOfWords o ws with
        | some i => .ok i
        | none => .error .truncated
      else .error .reservedNonzero

/-- The decoder on bytes, as they lie in DMEM (20_memory.md R39). -/
def decodeBytes (bs : List Byte) : Except DecodeError Instr := decode (wordsOfBytes bs)

/-- The opcode of a command (30_encoding.md R56). -/
def instrOpcode : Instr → Opcode
  | .procF0 _ => .procF0
  | .procF1 _ => .procF1
  | .procF2 _ => .procF2
  | .procF3 _ => .procF3
  | .procF4 _ => .procF4
  | .valF0 _ => .valF0
  | .valF1 _ => .valF1
  | .valF2 _ => .valF2
  | .valF3 _ => .valF3
  | .valF4 _ => .valF4
  | .deprecodeSym _ => .deprecodeSym
  | .deprecodeNoise _ => .deprecodeNoise
  | .equalize _ => .equalize

/-- `TAG` of a command (30_encoding.md R55). -/
def instrTag : Instr → BitVec 16
  | .procF0 d | .procF1 d | .procF2 d | .procF3 d | .procF4 d => d.tag
  | .valF0 d | .valF1 d | .valF2 d | .valF3 d | .valF4 d => d.tag
  | .deprecodeSym d | .deprecodeNoise d => d.tag
  | .equalize d => d.tag

/-- `RES_ADDR` of a command (30_encoding.md R55). -/
def instrResAddr : Instr → Word
  | .procF0 d | .procF1 d | .procF2 d | .procF3 d | .procF4 d => d.resAddr
  | .valF0 d | .valF1 d | .valF2 d | .valF3 d | .valF4 d => d.resAddr
  | .deprecodeSym d | .deprecodeNoise d => d.resAddr
  | .equalize d => d.resAddr

/-- The words W1 and on of a command. -/
def instrBody : Instr → List Word
  | .procF0 d | .procF1 d | .procF2 d | .procF3 d | .procF4 d => pucchWords d
  | .valF0 d | .valF1 d | .valF2 d | .valF3 d | .valF4 d => pucchWords d
  | .deprecodeSym d | .deprecodeNoise d => deprecodeWords d
  | .equalize d => equalizeWords d

/-- The command word W0 of a command (30_encoding.md R55). -/
def instrW0 (i : Instr) : Word := w0Word (instrTag i) (instrOpcode i)

/-- The encoder: the descriptor words of a command (30_encoding.md R54 to R66). -/
def encode (i : Instr) : List Word := instrW0 i :: instrBody i

/-- `n` words taken from a number, the first from its least significant bits. -/
def wordsOfNat : Nat → Nat → List Word
  | 0, _ => []
  | n + 1, w => BitVec.ofNat 32 w :: wordsOfNat n (w / 2 ^ 32)

/-- The instruction the decoder reads from an instruction whose bits are `w`, bit 0 the least significant of the
first word, the bits above `nbits` 0. The words are laid out as DMEM stores them and given to the decoder. -/
def decodeTableWord (nbits w : Nat) : Option Instr :=
  match decodeBytes (bytesOfWords (wordsOfNat 11 (w % 2 ^ nbits))) with
  | .ok i => some i
  | .error _ => none

end Sys2Proof
end

