-- ==== Sys2Proof/Machine/Memory.lean ====
section
/-! DEFINITION. Sparse memories: lists of (key, value) pairs in one canonical form, and DMEM's bytes and words over
them (20_memory.md R37, R39, R42). -/

namespace Sys2Proof.Machine

/-- What a sparse memory holds at a key: the listed value, else `dflt`. -/
def mapGet {β : Type} (dflt : β) : List (Nat × β) → Nat → β
  | [], _ => dflt
  | (k, v) :: rest, a => if a = k then v else mapGet dflt rest a

/-- The sparse memory after a write; a value equal to `dflt` is not listed. -/
def mapPut {β : Type} [DecidableEq β] (dflt : β) : List (Nat × β) → Nat → β → List (Nat × β)
  | [], a, b => if b = dflt then [] else [(a, b)]
  | (k, v) :: rest, a, b =>
    if k < a then (k, v) :: mapPut dflt rest a b
    else if k = a then (if b = dflt then rest else (a, b) :: rest)
    else if b = dflt then (k, v) :: rest
    else (a, b) :: (k, v) :: rest

/-- Keys rise strictly from `lo` on and no listed value is `dflt`. -/
def mapWfFrom {β : Type} [DecidableEq β] (dflt : β) : Nat → List (Nat × β) → Bool
  | _, [] => true
  | lo, (k, v) :: rest => decide (lo ≤ k) && !decide (v = dflt) && mapWfFrom dflt (k + 1) rest

/-- DMEM as State holds it. -/
abbrev Memory := List Host.Cell

/-- What an unlisted DMEM byte reads as: DESIGN CHOICE, log entry 2 (70_reset_and_hazards.md R157 leaves DMEM
unspecified after power-on). -/
def unlistedByte : Byte := 0#8

/-- The canonical form of DMEM: addresses strictly rising, no entry that reads as an unlisted byte. -/
def Memory.wf (m : Memory) : Bool := mapWfFrom unlistedByte 0 m

/-- The byte at an address (20_memory.md R37). -/
def memByte (m : Memory) (a : Nat) : Byte := mapGet unlistedByte m a

/-- `MemRead(a, 4)`: the little-endian word at an address, whatever reads the bytes (20_memory.md R39,
00_scope.md R14). -/
def wordAt (rd : Nat → Byte) (a : Nat) : Word := bytesWord (rd a) (rd (a + 1)) (rd (a + 2)) (rd (a + 3))

/-- The words at an address, one after the other. -/
def wordsAt (rd : Nat → Byte) (a n : Nat) : List Word := (List.range n).map (fun i => wordAt rd (a + 4 * i))

/-- The word at an address of DMEM. -/
def memWord (m : Memory) (a : Nat) : Word := wordAt (memByte m) a

/-- The words at an address of DMEM. -/
def memWords (m : Memory) (a n : Nat) : List Word := wordsAt (memByte m) a n

/-- `RdC(a)`: a complex value, real part first (00_scope.md R14, 20_memory.md R40). -/
def memC64 (m : Memory) (a : Nat) : C64 := ⟨memWord m a, memWord m (a + 4)⟩

/-- The memory after bytes are written from an address on. -/
def writeBytes : Memory → Nat → List Byte → Memory
  | m, _, [] => m
  | m, a, b :: bs => writeBytes (mapPut unlistedByte m a b) (a + 1) bs

/-- The memory after several byte strings are written, in order. -/
def writeAll (m : Memory) (outs : List (Nat × List Byte)) : Memory :=
  outs.foldl (fun m o => writeBytes m o.1 o.2) m

/-- The bytes of a complex value (20_memory.md R40). -/
def c64Bytes (z : C64) : List Byte := wordBytes z.re ++ wordBytes z.im

/-- `al4(a)` (20_memory.md R42). -/
def al4 (a : Word) : Bool := a.toNat % 4 == 0

/-- `inb(a, n)` for a DMEM of `size` bytes, computed exactly (20_memory.md R42). -/
def inb (size a n : Nat) : Bool := decide (a + n ≤ size)

/-- A region `[addr, addr + len)` of DMEM. -/
structure Region where
  addr : Nat
  len  : Nat
deriving DecidableEq, Repr, Inhabited

/-- A region holds an address. -/
def regionHas (r : Region) (a : Nat) : Bool := decide (r.addr ≤ a) && decide (a < r.addr + r.len)

/-- Two regions share a byte (20_memory.md R50). -/
def overlaps (a b : Region) : Bool :=
  decide (0 < a.len) && decide (0 < b.len) && decide (a.addr < b.addr + b.len) && decide (b.addr < a.addr + a.len)

/-- Some region of the first list shares a byte with some region of the second. -/
def anyOverlap (as bs : List Region) : Bool := as.any (fun a => bs.any (overlaps a))

/-- Two regions of one list share a byte. -/
def selfOverlap : List Region → Bool
  | [] => false
  | a :: rest => rest.any (overlaps a) || selfOverlap rest

end Sys2Proof.Machine
end

