-- ==== Sys2Proof/Machine/Rom.lean ====
section
/-! DEFINITION. The constant tables of 10_state.md R35 and the parameter values that reset starts from. -/

namespace Sys2Proof.Machine

/-- `N_SYMB_SLOT` (00_scope.md R6). -/
def nSymbSlot : Nat := 14

/-- `VALID_PRB`, value for value (41_transform_precoder.md R78). -/
def validPrb : List Nat :=
  [1, 2, 3, 4, 5, 6, 8, 9, 10, 12, 15, 16, 18, 20, 24, 25, 27, 30, 32, 36,
   40, 45, 48, 50, 54, 60, 64, 72, 75, 80, 81, 90, 96, 100, 108, 120, 125,
   128, 135, 144, 150, 160, 162, 180, 192, 200, 216, 225, 240, 243, 250,
   256, 270]

/-- The PRB counts of Format 3: `VALID_PRB` within 1..16 (45_format234.md R125). -/
def f3PrbCounts : List Nat := [1, 2, 3, 4, 5, 6, 8, 9, 10, 12, 15, 16]

/-- A Format 0 candidate: its cyclic shift and the bits it stands for (43_format0.md R90). -/
structure F0Cand where
  mcs   : Nat
  harq0 : Bool
  harq1 : Bool
  sr    : Bool
deriving DecidableEq, Repr, Inhabited

/-- `F0_TABLES`, selected by `(NOF_HARQ, SR_OPP)`; empty where the rule has no table (43_format0.md R90). -/
def f0Table (nofHarq : Nat) (srOpp : Bool) : List F0Cand :=
  match nofHarq, srOpp with
  | 0, true => [⟨0, false, false, true⟩]
  | 1, false => [⟨0, false, false, false⟩, ⟨6, true, false, false⟩]
  | 1, true => [⟨0, false, false, false⟩, ⟨6, true, false, false⟩, ⟨3, false, false, true⟩, ⟨9, true, false, true⟩]
  | 2, false => [⟨0, false, false, false⟩, ⟨3, false, true, false⟩, ⟨6, true, true, false⟩, ⟨9, true, false, false⟩]
  | 2, true =>
    [⟨0, false, false, false⟩, ⟨3, false, true, false⟩, ⟨6, true, true, false⟩, ⟨9, true, false, false⟩,
     ⟨1, false, false, true⟩, ⟨4, false, true, true⟩, ⟨7, true, true, true⟩, ⟨10, true, false, true⟩]
  | _, _ => []

/-- `F1_THR(n)`, for `n` ports times hops (00_scope.md R8). -/
def f1Thr : Nat → Option Rat
  | 1 => some (9 / 10)
  | 2 => some 3
  | 4 => some (89 / 20)
  | 8 => some (139 / 20)
  | _ => none

/-- The rows of `F1_OCC` for one length, index by index (44_format1.md R100). -/
def f1OccRows : Nat → List (List Nat)
  | 1 => [[0]]
  | 2 => [[0, 0], [0, 1]]
  | 3 => [[0, 0, 0], [0, 1, 2], [0, 2, 1]]
  | 4 => [[0, 0, 0, 0], [0, 2, 0, 2], [0, 0, 2, 2], [0, 2, 2, 0]]
  | 5 => [[0, 0, 0, 0, 0], [0, 1, 2, 3, 4], [0, 2, 4, 1, 3], [0, 3, 1, 4, 2], [0, 4, 3, 2, 1]]
  | 6 => [[0, 0, 0, 0, 0, 0], [0, 1, 2, 3, 4, 5], [0, 2, 4, 0, 2, 4], [0, 3, 0, 3, 0, 3],
          [0, 4, 2, 0, 4, 2], [0, 5, 4, 3, 2, 1]]
  | 7 => [[0, 0, 0, 0, 0, 0, 0], [0, 1, 2, 3, 4, 5, 6], [0, 2, 4, 6, 1, 3, 5], [0, 3, 6, 2, 5, 1, 4],
          [0, 4, 1, 5, 2, 6, 3], [0, 5, 3, 1, 6, 4, 2], [0, 6, 5, 4, 3, 2, 1]]
  | _ => []

/-- The phase `phi(L, i, m)` of `F1_OCC` (44_format1.md R100). -/
def f1OccPhase (len i m : Nat) : Nat := ((f1OccRows len).getD i []).getD m 0

/-- The cover `w(L, i, m)` as a phase in turns, `phi(L, i, m) / L` (44_format1.md R100). -/
def f1OccTurn (len i m : Nat) : Rat := (f1OccPhase len i m : Rat) / (len : Rat)

/-- Is subcarrier `s` of a PRB a Format 2 DM-RS subcarrier (45_format234.md R113)? -/
def f2IsDmrs (s : Nat) : Bool := s % 3 == 1

/-- `F34_DMRS_SYM(N, HOP_EN, ADD_DMRS)` (45_format234.md R114). -/
def f34DmrsSym (n : Nat) (hop add : Bool) : List Nat :=
  match n with
  | 4 => if hop then [0, 2] else [1]
  | 5 => [0, 3]
  | 6 => [1, 4]
  | 7 => [1, 4]
  | 8 => [1, 5]
  | 9 => [1, 6]
  | 10 => if add then [1, 3, 6, 8] else [2, 7]
  | 11 => if add then [1, 3, 6, 9] else [2, 7]
  | 12 => if add then [1, 4, 7, 10] else [2, 8]
  | 13 => if add then [1, 4, 7, 11] else [2, 9]
  | 14 => if add then [1, 5, 8, 12] else [3, 10]
  | _ => []

/-- The data symbols `DS`: the positions that are not DM-RS, rising (45_format234.md R114). -/
def f34DataSym (n : Nat) (hop add : Bool) : List Nat :=
  (List.range n).filter (fun i => !(f34DmrsSym n hop add).contains i)

/-- `F4_OCC(SF, n)` in quarter turns: 0 is +1, 1 is +j, 2 is -1, 3 is -j (45_format234.md R116). -/
def f4Occ (sf n : Nat) : List Nat :=
  match sf, n with
  | 2, 0 => [0, 0, 0, 0, 0, 0, 0, 0, 0, 0, 0, 0]
  | 2, 1 => [0, 0, 0, 0, 0, 0, 2, 2, 2, 2, 2, 2]
  | 4, 0 => [0, 0, 0, 0, 0, 0, 0, 0, 0, 0, 0, 0]
  | 4, 1 => [0, 0, 0, 3, 3, 3, 2, 2, 2, 1, 1, 1]
  | 4, 2 => [0, 0, 0, 2, 2, 2, 0, 0, 0, 2, 2, 2]
  | 4, 3 => [0, 0, 0, 1, 1, 1, 2, 2, 2, 3, 3, 3]
  | _, _ => []

/-- The parameter values that `State.reset` carries: those of 95_test_vectors.md section 0, and where it leaves
one open the value named in log entry 1 (DESIGN CHOICE). A statement that holds for every state holds for every
other value too. -/
def vectorParams : Params where
  k := 1
  nCallers := 2
  maxPorts := 2
  eqAlgo := .zf
  nRbGrid := 25
  nofGridPorts := 2
  dmemSize := 0x10000
  tol := 1 / 100000
  f0Thr := [⟨1, 1, 0x3F800000#32⟩, ⟨1, 2, 0x3F800000#32⟩, ⟨1, 4, 0x3F800000#32⟩, ⟨1, 8, 0x3F800000#32⟩]
  f1NormTab := []
  f1NormElse := 1
  llrThr := (List.range 127).map (fun i => f32Nearest ((2 * (i : Rat) + 1) / 2))
  seqTab := []
  paprTab := []
  prnTab := []

end Sys2Proof.Machine
end

