-- ==== Sys2Proof/Machine/State.lean ====
section
/-! DEFINITION. The state of the block and of what it reaches, as plain data (10_state.md, 20_memory.md R37), the
state after reset (70_reset_and_hazards.md R157), and the reasons a step can stop. -/

namespace Sys2Proof.Machine

/-- `BSTATE` (10_state.md R30). -/
inductive BState | run | faulted
deriving DecidableEq, Repr, Inhabited

/-- `CALL[c]` (10_state.md R31). -/
inductive CallState
  | idle
  | pending (desc : Word)
  | running (desc : Word) (k : Nat)
  | validating (desc : Word)
deriving DecidableEq, Repr, Inhabited

/-- What has happened to a call while it was busy: the DMEM regions the host has written, the grid handles and the
descriptors of the channel estimates that the platform has changed (20_memory.md R49), and the output regions of the
calls that have ended meanwhile (R48). The model's own field, log entry 17. -/
structure Disturb where
  host  : List Region
  calls : List Region
  grid  : List Word
  chest : List (List Word)
deriving DecidableEq, Repr, Inhabited

/-- Latched operands: the descriptor words and the Format 1 mux list (20_memory.md R46, 10_state.md R32). -/
structure Operands where
  words : List Word
  mux   : List Word
deriving DecidableEq, Repr, Inhabited

/-- One caller port: `CALL_ADDR[c]` (10_state.md R29), `CALL[c]` (R31), the dispatcher's snapshot of its `VAL.Fx`
descriptor (20_memory.md R46), and the model's own record of what has disturbed the call. -/
structure Port where
  callAddr : Word
  call     : CallState
  snap     : Operands
  disturb  : Disturb
deriving DecidableEq, Repr, Inhabited

/-- One processor instance: `LEASE[k]`, `OWNER[k]`, `OP[k]`, `SCRATCH[k]` (10_state.md R32). -/
structure Inst where
  lease   : Bool
  owner   : Nat
  op      : Operands
  scratch : List Word
deriving DecidableEq, Repr, Inhabited

/-- One coefficient `Hc(p, l, k)` of a channel estimate (45_format234.md R112). -/
structure ChCoef where
  port : Nat
  sym  : Nat
  sc   : Nat
  h    : C64
deriving DecidableEq, Repr, Inhabited

/-- What `ChEst(h, cfg)` returns: coefficients (an unlisted one is 0), per-port noise variances (likewise), and the
channel-state information (45_format234.md R112). -/
structure Chest where
  coefs   : List ChCoef
  nv      : List F32
  epre    : F32
  rsrp    : F32
  sinr    : F32
  taValid : Bool
  ta      : F32
deriving DecidableEq, Repr, Inhabited

/-- The call that the executing agent serves: its caller port, its instance (none for the dispatcher) and its
descriptor address. The model's own field, log entry 26. -/
structure Ctx where
  caller : Nat
  inst   : Option Nat
  desc   : Word
deriving DecidableEq, Repr, Inhabited

/-- The width of a host access to DMEM; any width at any address. The spec states none: DESIGN CHOICE, log
entry 36. -/
inductive AccessWidth | byte | half | word
deriving DecidableEq, Repr, Inhabited

/-- The number of bytes of an access. -/
def AccessWidth.bytes : AccessWidth → Nat
  | .byte => 1
  | .half => 2
  | .word => 4

/-- What happens next: one action of the host, the platform or the scheduler (10_state.md R17, R20; log entry 7). -/
inductive Event
  /-- the host writes the register at an offset from `REG_BASE` (10_state.md R20) -/
  | regWrite (off : Nat) (value : Word)
  /-- the host reads the register at an offset (10_state.md R20) -/
  | regRead (off : Nat)
  /-- the host writes the low bytes of a value into DMEM (20_memory.md R37, R49) -/
  | dmemWrite (addr : Nat) (width : AccessWidth) (value : Word)
  /-- the host reads DMEM (20_memory.md R37, R49) -/
  | dmemRead (addr : Nat) (width : AccessWidth)
  /-- the platform changes one grid sample (20_memory.md R37, R49) -/
  | gridWrite (h : Word) (port sym sc : Nat) (value : C64)
  /-- the platform changes the channel estimate of a descriptor (20_memory.md R37, R49) -/
  | chestWrite (cfg : List Word) (value : Chest)
  /-- the platform's power-on reset, with the DMEM bytes it leaves (70_reset_and_hazards.md R157, R158) -/
  | powerOn (dmem : List (Nat × Byte))
  /-- the dispatcher takes the pending call of a caller, preferring an instance (46_dispatcher_pool.md R131) -/
  | dispatch (c hint : Nat)
  /-- the dispatcher validates the call of a caller (46_dispatcher_pool.md R138) -/
  | validate (c : Nat)
  /-- an instance executes its command (46_dispatcher_pool.md R132) -/
  | execute (k : Nat)
deriving DecidableEq, Repr, Inhabited

/-- The machine. `ID`, `STATUS`, `CTRL`, `GRID_CFG`, `DMEM_SZ` and `CALL_STATE[c]` are views of these fields
(Machine/Flags.lean) and have no storage of their own. -/
structure State where
  /-- construction constants, calibration tables and collaborators (00_scope.md R5 to R11) -/
  params    : Params
  /-- `BSTATE` (10_state.md R30) -/
  bstate    : BState
  /-- `FAULT_INFO` (10_state.md R23) -/
  faultInfo : Word
  /-- `FAULT_ADDR` (10_state.md R24) -/
  faultAddr : Word
  /-- `FAULT_SRC` (10_state.md R25) -/
  faultSrc  : Word
  /-- the caller ports, `N_CALLERS` of them (10_state.md R29, R31) -/
  ports     : List Port
  /-- the instances, `K` of them (10_state.md R32) -/
  insts     : List Inst
  /-- DMEM: the listed bytes, rising addresses; an unlisted byte reads 0 (20_memory.md R37) -/
  dmem      : List Host.Cell
  /-- GRID: the listed samples, rising keys; an unlisted sample reads 0 (20_memory.md R37) -/
  grid      : List (Nat × C64)
  /-- CHEST: the estimates by descriptor (20_memory.md R37, 45_format234.md R112) -/
  chest     : List (List Word × Chest)
  /-- the model's own: what happens next -/
  sched     : List Event
  /-- the model's own: whose command runs -/
  cur       : Ctx
  /-- the model's own: the number of the next free value -/
  draws     : Nat
  /-- the model's own: what the host's last read returned -/
  hostData  : Word
deriving DecidableEq, Repr

/-- Why a step stops with a fault of the MODEL. A fault of the block (60_exceptions.md R144) is no such stop: it is
a next state. -/
inductive Fault
  /-- An access to a DMEM address at or above `DMEM_SIZE`, which does not exist (20_memory.md R37, R42), named. Raised by
  the host's own accesses, and by a command's writes only in states no run reaches, since every check precedes them.
  Safe: the hardware gives such an access no meaning. -/
  | dmemOutOfRange (addr : Nat)
  /-- The operand registers of a running call hold no command. Raised only in states no run reaches, since dispatch
  latches decoded descriptors only. Safe. -/
  | operandsUndecodable
deriving DecidableEq, Repr, Inhabited

/-- Why a step refuses. -/
inductive Refusal
  /-- The instruction has no meaning yet; raised by `exec` alone. Safe: nothing is claimed of it. -/
  | notModelled (mnemonic : String)
deriving DecidableEq, Repr, Inhabited

/-- Latched operands that the spec leaves unspecified at reset (10_state.md R32): DESIGN CHOICE, log entry 4. -/
def Operands.unset : Operands := ⟨List.replicate 11 0#32, []⟩

/-- Nothing has disturbed the call. -/
def Disturb.none : Disturb := ⟨[], [], [], []⟩

/-- A caller port after reset (70_reset_and_hazards.md R157). -/
def Port.atReset : Port := ⟨0#32, .idle, Operands.unset, Disturb.none⟩

/-- An instance after reset (70_reset_and_hazards.md R157): `OWNER`, `OP` and `SCRATCH` are unspecified there,
DESIGN CHOICE, log entries 3, 4, 5. -/
def Inst.atReset : Inst := ⟨false, 0, Operands.unset, []⟩

/-- A context in which no command runs: DESIGN CHOICE, log entry 26. -/
def Ctx.none : Ctx := ⟨0, Option.none, 0#32⟩

/-- The machine right after power-on with given parameters and nothing listed in its memories
(70_reset_and_hazards.md R157). -/
def State.powerOn (p : Params) : State where
  params    := p
  bstate    := .run
  faultInfo := 0#32
  faultAddr := 0#32
  faultSrc  := 0#32
  ports     := List.replicate p.nCallers Port.atReset
  insts     := List.replicate p.k Inst.atReset
  dmem      := []
  grid      := []
  chest     := []
  sched     := []
  cur       := Ctx.none
  draws     := 0
  hostData  := 0#32

/-- The machine right after reset (70_reset_and_hazards.md R157), with the parameter values of log entry 1. -/
def State.reset : State := State.powerOn vectorParams

end Sys2Proof.Machine
end

