-- ==== Sys2Proof/Machine/Operands.lean ====
section
/-! DEFINITION. The operand forms of the commands (30_encoding.md R57 to R67), the regions of DMEM a command names
(R62, R65, R66, R70 to R74), and the reads of GRID, CHEST and the collaborators (00_scope.md R11). -/

namespace Sys2Proof.Machine

/-! ## Fields of a configuration descriptor -/

/-- `HOP_EN` (30_encoding.md R58). -/
def hopEn (d : PucchDesc) : Bool := d.hopEn == 1#1

/-- `NOF_SYM` (30_encoding.md R59). -/
def nofSym (d : PucchDesc) : Nat := d.nofSym.toNat

/-- `START_SYM` (30_encoding.md R59). -/
def startSym (d : PucchDesc) : Nat := d.startSym.toNat

/-- `SR_OPP` (30_encoding.md R59). -/
def srOpp (d : PucchDesc) : Bool := d.srOpp == 1#1

/-- `PI2BPSK` (30_encoding.md R59). -/
def pi2bpsk (d : PucchDesc) : Bool := d.pi2bpsk == 1#1

/-- `ADD_DMRS` (30_encoding.md R59). -/
def addDmrs (d : PucchDesc) : Bool := d.addDmrs == 1#1

/-- `OCC_LEN` (30_encoding.md R67). -/
def occLen (d : PucchDesc) : Nat := if d.occLenSel = 0#1 then 2 else 4

/-- `NOF_PORTS` (30_encoding.md R61). -/
def nofPorts (d : PucchDesc) : Nat := d.nofPorts.toNat

/-- `PORT[i]` (30_encoding.md R61). -/
def portAt (d : PucchDesc) (i : Nat) : Nat := (d.portList.extractLsb' (4 * i) 4).toNat

/-- The port list, `NOF_PORTS` entries (30_encoding.md R61, R67). -/
def portsOf (d : PucchDesc) : List Nat := (List.range (nofPorts d)).map (portAt d)

/-- `hop(i)` (43_format0.md R92). -/
def hopOf (d : PucchDesc) (i : Nat) : Nat :=
  if !hopEn d || nofSym d == 1 || decide (i < nofSym d / 2) then 0 else 1

/-- The first PRB of symbol `i` (43_format0.md R92, 45_format234.md R113). -/
def prbBase (d : PucchDesc) (i : Nat) : Nat :=
  if hopOf d i = 0 then d.startPrb.toNat else d.secondHopPrb.toNat

/-- The number of hops `H` (44_format1.md R107). -/
def nofHops (d : PucchDesc) : Nat := if hopEn d then 2 else 1

/-- `NOF_PRB_EFF` (46_dispatcher_pool.md R136). -/
def nofPrbEff (f : Fmt) (d : PucchDesc) : Nat :=
  match f with
  | .f2 | .f3 => d.nofPrb.toNat
  | .f0 | .f1 | .f4 => 1

/-- `c_init = RNTI * 2^15 + N_ID` (30_encoding.md R67, 45_format234.md R122). -/
def cInit (d : PucchDesc) : Nat := d.rnti.toNat * 2 ^ 15 + d.nId.toNat

/-- `Qm` (45_format234.md R118, R119). -/
def qmOf (f : Fmt) (d : PucchDesc) : Nat :=
  match f with
  | .f3 | .f4 => if pi2bpsk d then 1 else 2
  | .f0 | .f1 | .f2 => 2

/-- The LLR count `E` (45_format234.md R124). -/
def llrCount (f : Fmt) (d : PucchDesc) : Nat :=
  let nds := (f34DataSym (nofSym d) (hopEn d) (addDmrs d)).length
  match f with
  | .f2 => 16 * d.nofPrb.toNat * nofSym d
  | .f3 => qmOf f d * 12 * d.nofPrb.toNat * nds
  | .f4 => qmOf f d * (12 / occLen d) * nds
  | .f0 | .f1 => 0

/-! ## Format 1 mux entries (30_encoding.md R64) -/

/-- `E_CS`. -/
def muxCs (w : Word) : Nat := (w.extractLsb' 0 4).toNat

/-- `E_OCC`. -/
def muxOcc (w : Word) : Nat := (w.extractLsb' 8 3).toNat

/-- `E_HARQ`. -/
def muxHarq (w : Word) : Nat := (w.extractLsb' 16 2).toNat

/-- The reserved bits of an entry are 0. -/
def muxReservedClear (w : Word) : Bool :=
  w.extractLsb' 4 4 == 0#4 && w.extractLsb' 11 5 == 0#5 && w.extractLsb' 18 14 == 0#14

/-- The key of an entry as result entry `i` carries it (30_encoding.md R71). -/
def muxKeyWord (w : Word) : Word := w &&& 0x0000070F#32

/-- The mux list of a descriptor, as a reader of DMEM sees it (20_memory.md R46, 30_encoding.md R64). -/
def muxList (rd : Nat → Byte) (d : PucchDesc) : List Word := wordsAt rd d.bufAddr.toNat d.bufLen.toNat

/-! ## Regions -/

/-- Size of the `PROC.Fx` result record (30_encoding.md R70 to R72). -/
def procRecordSize (f : Fmt) (d : PucchDesc) : Nat :=
  match f with
  | .f0 => 32
  | .f1 => 16 + 24 * d.bufLen.toNat
  | .f2 | .f3 | .f4 => 28

/-- The buffers beside the record that a `PROC.Fx` command writes (45_format234.md R123). -/
def procBuffers (f : Fmt) (d : PucchDesc) : List Region :=
  match f with
  | .f2 | .f3 | .f4 => [⟨d.bufAddr.toNat, d.bufLen.toNat⟩]
  | .f0 | .f1 => []

/-- The output regions of a command: its result record, then its buffers (30_encoding.md R65, R66, R70 to R75). -/
def outRegions : Instr → List Region
  | .procF0 d => ⟨d.resAddr.toNat, procRecordSize .f0 d⟩ :: procBuffers .f0 d
  | .procF1 d => ⟨d.resAddr.toNat, procRecordSize .f1 d⟩ :: procBuffers .f1 d
  | .procF2 d => ⟨d.resAddr.toNat, procRecordSize .f2 d⟩ :: procBuffers .f2 d
  | .procF3 d => ⟨d.resAddr.toNat, procRecordSize .f3 d⟩ :: procBuffers .f3 d
  | .procF4 d => ⟨d.resAddr.toNat, procRecordSize .f4 d⟩ :: procBuffers .f4 d
  | .valF0 d | .valF1 d | .valF2 d | .valF3 d | .valF4 d => [⟨d.resAddr.toNat, 8⟩]
  | .deprecodeSym d => [⟨d.resAddr.toNat, 4⟩, ⟨d.outAddr.toNat, 8 * d.outLen.toNat⟩]
  | .deprecodeNoise d => [⟨d.resAddr.toNat, 4⟩, ⟨d.outAddr.toNat, 4 * d.outLen.toNat⟩]
  | .equalize d =>
    [⟨d.resAddr.toNat, 4⟩, ⟨d.osymAddr.toNat, 8 * d.nofRe.toNat * d.nofLayers.toNat⟩,
     ⟨d.onvAddr.toNat, 4 * d.nofRe.toNat * d.nofLayers.toNat⟩]

/-- The input regions of a command beside its descriptor (20_memory.md R49, R50). -/
def inBuffers : Instr → List Region
  | .procF1 d | .valF1 d => [⟨d.bufAddr.toNat, 4 * d.bufLen.toNat⟩]
  | .procF0 _ | .procF2 _ | .procF3 _ | .procF4 _ | .valF0 _ | .valF2 _ | .valF3 _ | .valF4 _ => []
  | .deprecodeSym d => [⟨d.inAddr.toNat, 8 * d.inLen.toNat⟩]
  | .deprecodeNoise d => [⟨d.inAddr.toNat, 4 * d.inLen.toNat⟩]
  | .equalize d =>
    let pn := d.nofPorts.toNat * d.nofRe.toNat
    [⟨d.rxAddr.toNat, 8 * pn⟩, ⟨d.chAddr.toNat, 8 * pn * d.nofLayers.toNat⟩, ⟨d.nvAddr.toNat, 4 * d.nofPorts.toNat⟩]

/-- The grid handle a command reads (30_encoding.md R62). -/
def instrGrid : Instr → Option Word
  | .procF0 d | .procF1 d | .procF2 d | .procF3 d | .procF4 d => some d.gridHandle
  | .valF0 _ | .valF1 _ | .valF2 _ | .valF3 _ | .valF4 _ => none
  | .deprecodeSym _ | .deprecodeNoise _ | .equalize _ => none

/-- Does a command call the channel estimator (45_format234.md R112)? -/
def instrUsesChest : Instr → Bool
  | .procF2 _ | .procF3 _ | .procF4 _ => true
  | .procF0 _ | .procF1 _ | .valF0 _ | .valF1 _ | .valF2 _ | .valF3 _ | .valF4 _ => false
  | .deprecodeSym _ | .deprecodeNoise _ | .equalize _ => false

/-- All that a command reads and writes: its input and output regions, its grid handle, and the descriptor of its
channel estimate (20_memory.md R48 to R50). -/
structure Footprint where
  ins   : List Region
  outs  : List Region
  grid  : Option Word
  chest : Option (List Word)
deriving DecidableEq, Repr, Inhabited

/-- The region of a command's descriptor (30_encoding.md R54). -/
def descRegion (desc : Word) (i : Instr) : Region := ⟨desc.toNat, 4 * opcodeWords (instrOpcode i)⟩

/-- The footprint of a command whose descriptor is at an address. The mux list counts whether or not stage B reads
it: log entry 37. -/
def footprint (desc : Word) (i : Instr) : Footprint where
  ins   := descRegion desc i :: inBuffers i
  outs  := outRegions i
  grid  := instrGrid i
  chest := if instrUsesChest i then some (encode i) else none

/-- The footprint of a call that finds no free instance: it reads its descriptor and writes a result header, and its
other fields may hold anything (46_dispatcher_pool.md R131, 30_encoding.md R75). -/
def exhaustedFootprint (desc : Word) (i : Instr) : Footprint where
  ins   := [descRegion desc i]
  outs  := [⟨(instrResAddr i).toNat, 4⟩]
  grid  := none
  chest := none

/-! ## GRID, CHEST and the collaborators -/

/-- The key of a grid sample in State. -/
def gridKey (h : Word) (port sym sc : Nat) : Nat := ((h.toNat * 16 + port) * 16 + sym) * 4096 + sc

/-- A zero sample: what an unlisted grid sample or channel coefficient reads as, log entry 6. -/
def c64Zero : C64 := ⟨f32Zero, f32Zero⟩

/-- `GridRead(h, p, l, k)` (00_scope.md R14, 20_memory.md R38). -/
def gridRead (s : State) (h : Word) (port sym sc : Nat) : C64 := mapGet c64Zero s.grid (gridKey h port sym sc)

/-- The estimate of an unlisted descriptor: DESIGN CHOICE, log entry 6. -/
def chestZero : Chest := ⟨[], [], f32Zero, f32Zero, f32Zero, false, f32Zero⟩

/-- `ChEst(h, cfg)`; `h` is word W10 of the descriptor `cfg` (45_format234.md R112). -/
def chEst (s : State) (cfg : List Word) : Chest :=
  match s.chest.find? (fun e => e.1 == cfg) with
  | some e => e.2
  | none => chestZero

/-- `Hc(p, l, k)` (45_format234.md R112). -/
def chCoef (ch : Chest) (port sym sc : Nat) : C64 :=
  match ch.coefs.find? (fun e => e.port == port && e.sym == sym && e.sc == sc) with
  | some e => e.h
  | none => c64Zero

/-- `NV[p]` (45_format234.md R112). -/
def chNv (ch : Chest) (port : Nat) : F32 := ch.nv.getD port f32Zero

/-- `SeqParams(nid, slot, mu, l, hop)` (00_scope.md R11); log entry 16. -/
def seqParams (p : Params) (key : SeqKey) : SeqVal :=
  match p.seqTab.find? (fun e => e.1 == key) with
  | some e => e.2
  | none => ⟨0, 0, 0⟩

/-- `LowPapr(u, v, t)[k]`: the element of the base sequence turned by `t*k/12` (00_scope.md R11). Log entries 15,
16. -/
def lowPapr (p : Params) (q : SeqVal) (t k : Nat) : UnitPhase :=
  let base := match p.paprTab.find? (fun e => e.1 == (q.u, q.v)) with
    | some e => e.2.getD k UnitPhase.one
    | none => UnitPhase.one
  { base with turn := base.turn + ((t * k : Nat) : Rat) / 12 }

/-- Bit `n` of `PRN(cinit)` (00_scope.md R11); log entry 16. -/
def prnBit (p : Params) (cinit n : Nat) : Bool :=
  match p.prnTab.find? (fun e => e.1 == cinit) with
  | some e => e.2.getD n false
  | none => false

/-- `F0_THR(dof, ncand)` where `F0_THR_DEFINED` holds (00_scope.md R8). -/
def f0Thr (p : Params) (dof ncand : Nat) : Option F32 :=
  match p.f0Thr.find? (fun e => e.dof == dof && e.ncand == ncand) with
  | some e => some e.thr
  | none => none

/-- `F1_NORM(cfg)` (00_scope.md R8). -/
def f1Norm (p : Params) (cfg : List Word) : Rat :=
  match p.f1NormTab.find? (fun e => e.1 == cfg) with
  | some e => e.2
  | none => p.f1NormElse

/-- `LLR_MAX` (00_scope.md R9). -/
def llrMax (p : Params) : Nat := p.llrThr.length

/-- `Q_LLR` of a binary32 value, `+inf` and `-inf` among them: the number of breakpoints at or below its magnitude,
with its sign (00_scope.md R9). Log entry 14. -/
def qLlr (p : Params) (x : F32) : Int :=
  let level : Int := ((p.llrThr.filter (fun t => decide (t.toNat ≤ (x.extractLsb' 0 31).toNat))).length : Int)
  if x.msb then -level else level

end Sys2Proof.Machine
end

