-- ==== Sys2Proof/Machine/Flags.lean ====
section
/-! DEFINITION. The status values a program can read (10_state.md R34): fault codes, the result header, the UCI word,
and the register views (10_state.md R21 to R29). -/

namespace Sys2Proof.Machine

/-! ## Fault codes (60_exceptions.md R144) -/

/-- The fault codes 0x01 to 0x11 of 60_exceptions.md R144. -/
inductive FaultCode
  | illegalOpcode | reservedNonzero | misaligned | memBounds | symbolRange | prbRange | portInvalid | fieldRange
  | gridBounds | muxInvalid | f0TableUnsupported | thresholdUndefined | bufferLength | deprecodeSize
  | layersUnsupported | scalingInvalid | callOverlap
deriving DecidableEq, Repr, Inhabited

/-- The value of a fault code (60_exceptions.md R144). -/
def faultByte : FaultCode → BitVec 8
  | .illegalOpcode => 0x01#8
  | .reservedNonzero => 0x02#8
  | .misaligned => 0x03#8
  | .memBounds => 0x04#8
  | .symbolRange => 0x05#8
  | .prbRange => 0x06#8
  | .portInvalid => 0x07#8
  | .fieldRange => 0x08#8
  | .gridBounds => 0x09#8
  | .muxInvalid => 0x0A#8
  | .f0TableUnsupported => 0x0B#8
  | .thresholdUndefined => 0x0C#8
  | .bufferLength => 0x0D#8
  | .deprecodeSize => 0x0E#8
  | .layersUnsupported => 0x0F#8
  | .scalingInvalid => 0x10#8
  | .callOverlap => 0x11#8

/-- The code of the first check of a list that fails (60_exceptions.md R145). -/
def firstFail : List (Bool × FaultCode) → Option FaultCode
  | [] => none
  | (failed, code) :: rest => if failed then some code else firstFail rest

/-! ## Result header and UCI word -/

/-- `RSTATUS` DONE (30_encoding.md R68). -/
def rsDone : BitVec 4 := 0#4

/-- `RSTATUS` POOL_EXHAUSTED (30_encoding.md R68). -/
def rsExhausted : BitVec 4 := 1#4

/-- `RSTATUS` REJECTED (30_encoding.md R68). -/
def rsRejected : BitVec 4 := 2#4

/-- The header word RH0 (30_encoding.md R68). -/
def headerWord (tag : BitVec 16) (opc : BitVec 8) (rstatus : BitVec 4) : Word := tag ++ opc ++ 0#4 ++ rstatus

/-- The header word of a command (30_encoding.md R68). -/
def instrHeader (i : Instr) (rstatus : BitVec 4) : Word := headerWord (instrTag i) (opcodeByte (instrOpcode i)) rstatus

/-- The UCI word (30_encoding.md R69): status 1 when valid and 2 when invalid. -/
def uciWord (valid nofSr sr : Bool) (nofHarq : BitVec 2) (harq0 harq1 : Bool) : Word :=
  0#24 ++ BitVec.ofBool harq1 ++ BitVec.ofBool harq0 ++ nofHarq ++ BitVec.ofBool sr ++ BitVec.ofBool nofSr ++
    (if valid then 1#2 else 2#2)

/-! ## Register views -/

/-- `ID` (10_state.md R21). -/
def regId (p : Params) : Word :=
  BitVec.ofNat 8 p.nCallers ++ 0#3 ++ BitVec.ofBool (p.eqAlgo == .mmse) ++ BitVec.ofNat 4 p.maxPorts ++
    BitVec.ofNat 8 p.k ++ 0x01#8

/-- `BUSY_MASK`: bit `k` is `LEASE[k]`; bits of instances that do not exist are 0 (10_state.md R22). -/
def busyMask (insts : List Inst) : BitVec 16 :=
  BitVec.ofFnLE (fun k : Fin 16 => (insts.getD k.val Inst.atReset).lease)

/-- `STATUS` (10_state.md R22). -/
def regStatus (s : State) : Word := busyMask s.insts ++ 0#15 ++ BitVec.ofBool (s.bstate == .faulted)

/-- `GRID_CFG` (10_state.md R27). -/
def regGridCfg (p : Params) : Word := 0#16 ++ BitVec.ofNat 4 p.nofGridPorts ++ 0#3 ++ BitVec.ofNat 9 p.nRbGrid

/-- `DMEM_SZ`: `DMEM_SIZE` modulo 2^32 (10_state.md R28). -/
def regDmemSz (p : Params) : Word := BitVec.ofNat 32 p.dmemSize

/-- `CALL_STATE[c]` (10_state.md R29, R31). -/
def regCallState (p : Port) : Word := 0#31 ++ BitVec.ofBool (p.call != .idle)

/-- A read of the register at an offset from `REG_BASE`; 0 where nothing is mapped and for the write-only `CTRL`
(10_state.md R20 to R29). -/
def readReg (s : State) (off : Nat) : Word :=
  if off = 0x000 then regId s.params
  else if off = 0x004 then regStatus s
  else if off = 0x008 then s.faultInfo
  else if off = 0x00C then s.faultAddr
  else if off = 0x010 then s.faultSrc
  else if off = 0x014 then 0#32
  else if off = 0x018 then regGridCfg s.params
  else if off = 0x01C then regDmemSz s.params
  else if 0x100 ≤ off then
    match s.ports[(off - 0x100) / 8]? with
    | some p => if off % 8 = 0 then p.callAddr else if off % 8 = 4 then regCallState p else 0#32
    | none => 0#32
  else 0#32

end Sys2Proof.Machine
end

