-- ==== Sys2Proof/Machine/StageA.lean ====
section
/-! DEFINITION. Stage A: the dispatcher's checks of a pending call (46_dispatcher_pool.md R130). -/

namespace Sys2Proof.Machine

/-- What stage A answers: the fault and the command word (0 where it was not read), or the descriptor's words and
the command they make. -/
inductive StageA
  | fault (code : FaultCode) (w0 : Word)
  | pass (words : List Word) (i : Instr)
deriving DecidableEq, Repr

/-- Stage A for a DMEM of `size` bytes that reads as `rd`: checks A1 to A7 in order (46_dispatcher_pool.md R130). -/
def stageA (size : Nat) (rd : Nat → Byte) (d : Word) : StageA :=
  if !al4 d then .fault .misaligned 0#32                                              -- A1
  else if !inb size d.toNat 4 then .fault .memBounds 0#32                             -- A2
  else
    let w0 := wordAt rd d.toNat
    match opcodeOfByte (w0Opc w0) with
    | none => .fault .illegalOpcode w0                                                -- A3
    | some o =>
      if w0Rsv w0 ≠ 0#8 then .fault .reservedNonzero w0                               -- A4
      else if !inb size d.toNat (4 * opcodeWords o) then .fault .memBounds w0         -- A5
      else
        let ws := wordsAt rd d.toNat (opcodeWords o)
        let res := ws.getD 1 0#32
        if !al4 res then .fault .misaligned w0                                        -- A6
        else if !inb size res.toNat (if opcodeIsVal o then 8 else 4) then .fault .memBounds w0   -- A7
        else
          match commandOfWords o ws with
          | some i => .pass ws i
          | none => .fault .illegalOpcode w0

end Sys2Proof.Machine
end

