-- ==== Sys2Proof/Machine/Ops.lean ====
section
/-! DEFINITION. The operations that the commands and the agents share: ports and instances, the regions of calls in
flight, fault entry and reset, completion, and the end of a command with its outputs. -/

namespace Sys2Proof.Machine

/-- What a step answers. -/
abbrev Result := Host.Outcome State Fault Refusal

/-! ## Ports and instances -/

/-- Caller port `c`. -/
def getPort (s : State) (c : Nat) : Port := s.ports.getD c Port.atReset

/-- Instance `k`. -/
def getInst (s : State) (k : Nat) : Inst := s.insts.getD k Inst.atReset

/-- Caller port `c` replaced. -/
def setPort (c : Nat) (p : Port) (s : State) : State := { s with ports := s.ports.set c p }

/-- Instance `k` replaced. -/
def setInst (k : Nat) (x : Inst) (s : State) : State := { s with insts := s.insts.set k x }

/-- The free instances, in order (46_dispatcher_pool.md R131). -/
def freeInsts (s : State) : List Nat := (List.range s.insts.length).filter (fun k => !(getInst s k).lease)

/-! ## Regions of the busy calls (20_memory.md R48, R49) -/

/-- The command of a call: the latched one, or for a pending call the one that stage A would find in DMEM; none where
stage A would refuse the call, which then writes nothing (46_dispatcher_pool.md R130, 20_memory.md R46). -/
def callInstr (s : State) (p : Port) : Option Instr :=
  match p.call with
  | .idle => none
  | .pending desc =>
    match stageA s.params.dmemSize (memByte s.dmem) desc with
    | .pass _ i => some i
    | .fault _ _ => none
  | .running _ k => (decode (getInst s k).op.words).toOption
  | .validating _ => (decode p.snap.words).toOption

/-- The output regions of a call. -/
def callOuts (s : State) (p : Port) : List Region :=
  match callInstr s p with
  | some i => outRegions i
  | none => []

/-- The part of a region that exists. -/
def clip (size : Nat) (r : Region) : Region := ⟨r.addr, min r.len (size - r.addr)⟩

/-- `n` free bytes from an address on. -/
def freeBytes (epoch : Nat) (site : Site) (addr n : Nat) : List Byte :=
  (List.range n).map (fun i => Config.freeByte ⟨epoch, site, addr + i⟩)

/-- The memory after every byte of some regions has become a draw. -/
def drawRegions (size epoch : Nat) (site : Site) (m : Memory) (rs : List Region) : Memory :=
  writeAll m (rs.map (fun r => (r.addr, freeBytes epoch site r.addr (clip size r).len)))

/-! ## Fault entry (60_exceptions.md R146) and reset (70_reset_and_hazards.md R158) -/

/-- Is the call executing or validating: in flight, as 60_exceptions.md R146 has it? Log entry 17. -/
def inFlight : CallState → Bool
  | .running _ _ | .validating _ => true
  | .idle | .pending _ => false

/-- The output regions of every other call in flight (60_exceptions.md R146). -/
def otherInFlightOuts (s : State) (c : Nat) : List Region :=
  (List.range s.ports.length).flatMap (fun c' =>
    if c' ≠ c ∧ inFlight (getPort s c').call then callOuts s (getPort s c') else [])

/-- The output regions of every other busy call, pending ones included: the host must wait for a call to complete
before its outputs are another call's inputs (20_memory.md R51, 70_reset_and_hazards.md R160). -/
def otherBusyOuts (s : State) (c : Nat) : List Region :=
  (List.range s.ports.length).flatMap (fun c' => if c' ≠ c then callOuts s (getPort s c') else [])

/-- What the command of caller `c` may find replaced when it reads DMEM: the outputs of every other busy call, and of
the calls that have ended since its own began (20_memory.md R48, R51; 70_reset_and_hazards.md R160). Log entries 17
and 38. -/
def foreignOuts (s : State) (c : Nat) : List Region := (getPort s c).disturb.calls ++ otherBusyOuts s c

/-- A DMEM byte as the checks of the command of caller `c` read it: a draw where another call outputs it
(20_memory.md R48, R51). Log entry 38. -/
def seenByte (s : State) (c a : Nat) : Byte :=
  if (foreignOuts s c).any (fun r => regionHas r a) then Config.freeByte ⟨s.draws, .seenByte, a⟩ else memByte s.dmem a

/-- `raise Fault(code)` (60_exceptions.md R146): the caller is `c`, the descriptor address `addr`, the raising agent
`inst` (0xF before a lease), and `w0` the command word, 0 where it was not read. Only the first fault is recorded. -/
def faultEntry (code : FaultCode) (w0 : Word) (c inst : Nat) (addr : Word) (s : State) : State :=
  match s.bstate with
  | .faulted => s
  | .run =>
    { s with
      bstate    := .faulted
      faultInfo := w0Tag w0 ++ w0Opc w0 ++ faultByte code
      faultAddr := addr
      faultSrc  := 0#20 ++ BitVec.ofNat 4 inst ++ 0#4 ++ BitVec.ofNat 4 c
      dmem      := drawRegions s.params.dmemSize s.draws .faultByte s.dmem (otherInFlightOuts s c)
      draws     := s.draws + 1 }

/-- The output regions of every call that is not idle (70_reset_and_hazards.md R158). -/
def busyOuts (s : State) : List Region :=
  (List.range s.ports.length).flatMap (fun c =>
    callOuts s (getPort s c))

/-- A reset (70_reset_and_hazards.md R157, R158): busy calls' outputs become draws, every register and call takes its
reset value; DMEM is otherwise unchanged, and GRID, CHEST and the parameters are the platform's. It is also the only
return from a fault (60_exceptions.md R147). -/
def resetBlock (s : State) : State :=
  { State.powerOn s.params with
    dmem     := drawRegions s.params.dmemSize s.draws .resetByte s.dmem (busyOuts s)
    grid     := s.grid
    chest    := s.chest
    sched    := s.sched
    cur      := s.cur
    draws    := s.draws + 1
    hostData := s.hostData }

/-! ## Completion (46_dispatcher_pool.md R133) -/

/-- The instance of a running call. -/
def callInst : CallState → Option Nat
  | .running _ k => some k
  | .idle | .pending _ | .validating _ => none

/-- The lease of the call's instance given back (46_dispatcher_pool.md R133). `OWNER[k]` and `OP[k]`, which
10_state.md R32 then leaves unspecified, keep their values: DESIGN CHOICE, log entries 3 and 4. -/
def releaseLease (c : Nat) (s : State) : State :=
  match callInst (getPort s c).call with
  | some k => setInst k { getInst s k with lease := false } s
  | none => s

/-- `complete(c)` (46_dispatcher_pool.md R133). -/
def complete (c : Nat) (s : State) : State :=
  let s' := releaseLease c s
  setPort c { getPort s' c with call := .idle, disturb := Disturb.none } s'

/-! ## Draws under 20_memory.md R48, R49, R50 -/

/-- Which output bytes of a command are draws: none; all but the header's RSTATUS, OPC and TAG (20_memory.md R48,
R49); or all of them (R50). Log entry 17. -/
inductive Taint | clean | inputs | outputs
deriving DecidableEq, Repr, Inhabited

/-- Another write may hit what the command reads: a region, its grid or its channel estimate (20_memory.md R48, R49,
R51; 70_reset_and_hazards.md R160). -/
def inputsHit (f : Footprint) (foreign : List Region) (d : Disturb) : Bool :=
  anyOverlap (d.host ++ foreign) f.ins || d.grid.any (fun h => f.grid == some h) ||
    d.chest.any (fun cfg => f.chest == some cfg)

/-- The command writes over an input or an output of its own, or over an output of another call (20_memory.md R48, R50;
70_reset_and_hazards.md R160). -/
def outputsHit (f : Footprint) (foreign : List Region) : Bool :=
  anyOverlap f.outs f.ins || selfOverlap f.outs || anyOverlap foreign f.outs

/-- The draws among the outputs of a command of the given footprint that `s.cur` serves. -/
def ownTaint (f : Footprint) (s : State) : Taint :=
  let foreign := foreignOuts s s.cur.caller
  if outputsHit f foreign then .outputs
  else if inputsHit f foreign (getPort s s.cur.caller).disturb then .inputs
  else .clean

/-- The ports after something has disturbed every busy call but that of `except`. -/
def disturbed (change : Disturb → Disturb) (except : Option Nat) (s : State) : List Port :=
  s.ports.mapIdx (fun c p =>
    if some c ≠ except ∧ p.call ≠ .idle then { p with disturb := change p.disturb } else p)

/-- The ports after a command with the given output regions has run: every other busy call remembers them
(20_memory.md R48). -/
def portsAfter (outs : List Region) (s : State) : List Port :=
  disturbed (fun d => { d with calls := outs ++ d.calls }) (some s.cur.caller) s

/-- The bytes of one output as they come out under a taint; `record` says it is the result record, whose header word
survives the taint `inputs` (20_memory.md R49). -/
def taintedBytes (t : Taint) (epoch : Nat) (record : Bool) (addr : Nat) (bs : List Byte) : List Byte :=
  match t with
  | .clean => bs
  | .inputs => if record then bs.take 4 ++ freeBytes epoch .outByte (addr + 4) (bs.length - 4)
               else freeBytes epoch .outByte addr bs.length
  | .outputs => freeBytes epoch .outByte addr bs.length

/-- The outputs of a command, result record first, as they come out under a taint. -/
def taintedOuts (t : Taint) (epoch : Nat) : List (Nat × List Byte) → List (Nat × List Byte)
  | [] => []
  | (a, bs) :: rest =>
    (a, taintedBytes t epoch true a bs) :: rest.map (fun o => (o.1, taintedBytes t epoch false o.1 o.2))

/-! ## The end of a command -/

/-- Do all the outputs lie in DMEM? -/
def outsInRange (size : Nat) (outs : List (Nat × List Byte)) : Bool :=
  outs.all (fun o => decide (o.1 + o.2.length ≤ size))

/-- The first address beyond DMEM that the outputs name. -/
def firstOutOfRange (size : Nat) (outs : List (Nat × List Byte)) : Nat :=
  match outs.find? (fun o => !decide (o.1 + o.2.length ≤ size)) with
  | some o => max size o.1
  | none => size

/-- `SCRATCH[k]` of the executing instance after a command: unspecified (10_state.md R32). -/
def scrambleScratch (s : State) : State :=
  match s.cur.inst with
  | some k => setInst k { getInst s k with scratch := [Config.freeWord ⟨s.draws, .scratch, k⟩] } s
  | none => s

/-- `result(...)` (30_encoding.md R75) followed by `complete` (46_dispatcher_pool.md R133): the outputs are written,
record first, draws in place of what rules R48 to R50 undefine, and the call completes. -/
def finish (f : Footprint) (writes : List (Nat × List Byte)) (s : State) : Result :=
  if outsInRange s.params.dmemSize writes then
    .next (complete s.cur.caller
      { scrambleScratch s with
        dmem  := writeAll s.dmem (taintedOuts (ownTaint f s) s.draws writes)
        ports := portsAfter f.outs s
        draws := s.draws + 1 })
  else .fault (.dmemOutOfRange (firstOutOfRange s.params.dmemSize writes))

/-- `finish` for a command: a DONE record, the rest of the record after its header, and the buffers. -/
def finishDone (i : Instr) (body : List Word) (buffers : List (Nat × List Byte)) (s : State) : Result :=
  finish (footprint s.cur.desc i)
    (((instrResAddr i).toNat, bytesOfWords (instrHeader i rsDone :: body)) :: buffers) s

/-- A command's check fails: `raise Fault(code)` by the executing agent (60_exceptions.md R146). -/
def raiseFault (i : Instr) (code : FaultCode) (s : State) : Result :=
  .next (faultEntry code (instrW0 i) s.cur.caller (s.cur.inst.getD 15) s.cur.desc s)

end Sys2Proof.Machine
end

