-- ==== Sys2Proof/Machine/Checks.lean ====
section
/-! DEFINITION. The checks of a command after stage A: stage B of the PUCCH commands (46_dispatcher_pool.md R137), and
the component commands' own checks (41_transform_precoder.md R81, R82; 42_equalizer.md R87). -/

namespace Sys2Proof.Machine

/-! ## Stage B (46_dispatcher_pool.md R137). Each definition is true when its check FAILS. -/

/-- B1: a reserved bit of W2 to W6 is 1. -/
def failB1 (d : PucchDesc) : Bool :=
  !(d.rsv2 == 0 && d.rsv3lo == 0 && d.rsv3hi == 0 && d.rsv4lo == 0 && d.rsv4hi == 0 && d.rsv5 == 0 && d.rsv6 == 0)

/-- Smallest and largest `NOF_SYM`, and largest `START_SYM`, of a format (46_dispatcher_pool.md R136). -/
def symbolRange (f : Fmt) : Nat × Nat × Nat :=
  match f with
  | .f0 | .f2 => (1, 2, 13)
  | .f1 | .f3 | .f4 => (4, 14, 10)

/-- B2: the symbols are outside the format's range. -/
def failB2 (f : Fmt) (d : PucchDesc) : Bool :=
  let (lo, hi, start) := symbolRange f
  !(decide (lo ≤ nofSym d) && decide (nofSym d ≤ hi) && decide (startSym d ≤ start) &&
    decide (startSym d + nofSym d ≤ nSymbSlot))

/-- B3: a PRB index above 274, or `NOF_PRB` outside the format's set. -/
def failB3 (f : Fmt) (d : PucchDesc) : Bool :=
  decide (274 < d.startPrb.toNat) || (hopEn d && decide (274 < d.secondHopPrb.toNat)) ||
    match f with
    | .f2 => !(decide (1 ≤ d.nofPrb.toNat) && decide (d.nofPrb.toNat ≤ 16))
    | .f3 => !f3PrbCounts.contains d.nofPrb.toNat
    | .f0 | .f1 | .f4 => false

/-- Some element stands twice in a list. -/
def hasRepeat {α : Type} [DecidableEq α] : List α → Bool
  | [] => false
  | x :: rest => decide (x ∈ rest) || hasRepeat rest

/-- B4: a port count or a port that is not allowed. -/
def failB4 (p : Params) (d : PucchDesc) : Bool :=
  decide (nofPorts d = 0) || decide (p.maxPorts < nofPorts d) ||
    (portsOf d).any (fun q => decide (p.nofGridPorts ≤ q)) || hasRepeat (portsOf d)

/-- B5: slot, numerology or a format field out of range. -/
def failB5 (f : Fmt) (d : PucchDesc) : Bool :=
  decide (4 < d.mu.toNat) || decide (10 * 2 ^ d.mu.toNat ≤ d.slotIdx.toNat) ||
    match f with
    | .f0 => decide (11 < d.initCs.toNat) || decide (2 < d.nofHarq.toNat)
    | .f4 => decide (occLen d ≤ d.occIdx.toNat)
    | .f1 | .f2 | .f3 => false

/-- B6: the allocation extends past the grid in a hop. -/
def failB6 (f : Fmt) (p : Params) (d : PucchDesc) : Bool :=
  decide (p.nRbGrid < d.startPrb.toNat + nofPrbEff f d) ||
    (hopEn d && decide (p.nRbGrid < d.secondHopPrb.toNat + nofPrbEff f d))

/-- B7: the mux list is misaligned (Format 1). -/
def failB7 (f : Fmt) (d : PucchDesc) : Bool :=
  match f with
  | .f1 => !al4 d.bufAddr
  | .f0 | .f2 | .f3 | .f4 => false

/-- B8: the result record, the mux list or the LLR buffer is out of bounds. -/
def failB8 (f : Fmt) (p : Params) (d : PucchDesc) : Bool :=
  !inb p.dmemSize d.resAddr.toNat (procRecordSize f d) ||
    match f with
    | .f1 => !inb p.dmemSize d.bufAddr.toNat (4 * d.bufLen.toNat)
    | .f2 | .f3 | .f4 => !inb p.dmemSize d.bufAddr.toNat d.bufLen.toNat
    | .f0 => false

/-- The symbols of hop `h` of a Format 1 allocation that are DM-RS (`LD`), or data (`LX`) (44_format1.md R99). -/
def f1HopSymbols (d : PucchDesc) (h : Nat) (dmrs : Bool) : List Nat :=
  (List.range (nofSym d)).filter (fun i => hopOf d i == h && (i % 2 == 0) == dmrs)

/-- `NOCC` (44_format1.md R101). -/
def f1Nocc (d : PucchDesc) : Nat :=
  ((List.range (nofHops d)).map (fun h =>
    min (f1HopSymbols d h true).length (f1HopSymbols d h false).length)).foldr min 7

/-- A mux entry that 44_format1.md R109 does not allow. -/
def muxEntryBad (d : PucchDesc) (w : Word) : Bool :=
  !muxReservedClear w || decide (11 < muxCs w) || decide (f1Nocc d ≤ muxOcc w) || decide (2 < muxHarq w)

/-- B9: the mux list is empty, too long, has a bad entry or a repeated key (44_format1.md R109). -/
def failB9 (f : Fmt) (rd : Nat → Byte) (d : PucchDesc) : Bool :=
  match f with
  | .f1 =>
    decide (d.bufLen.toNat = 0) || decide (84 < d.bufLen.toNat) ||
      (muxList rd d).any (muxEntryBad d) || hasRepeat ((muxList rd d).map (fun w => (muxCs w, muxOcc w)))
  | .f0 | .f2 | .f3 | .f4 => false

/-- B10: Format 0 with no ACK bit and no SR opportunity (43_format0.md R90). -/
def failB10 (f : Fmt) (d : PucchDesc) : Bool :=
  match f with
  | .f0 => decide (d.nofHarq.toNat = 0) && !srOpp d
  | .f1 | .f2 | .f3 | .f4 => false

/-- The candidates of a Format 0 descriptor (43_format0.md R90). -/
def f0Cands (d : PucchDesc) : List F0Cand := f0Table d.nofHarq.toNat (srOpp d)

/-- B11: no detection threshold for the configuration's key (43_format0.md R96, 44_format1.md R109). -/
def failB11 (f : Fmt) (p : Params) (d : PucchDesc) : Bool :=
  match f with
  | .f0 => (f0Thr p (nofPorts d * nofSym d) (f0Cands d).length).isNone
  | .f1 => (f1Thr (nofPorts d * nofHops d)).isNone
  | .f2 | .f3 | .f4 => false

/-- B12: `LLR_LEN` is not the LLR count (45_format234.md R124). -/
def failB12 (f : Fmt) (d : PucchDesc) : Bool :=
  match f with
  | .f2 | .f3 | .f4 => decide (d.bufLen.toNat ≠ llrCount f d)
  | .f0 | .f1 => false

/-- The mux list of the command that `s.cur` serves, as it reads it (20_memory.md R46, R48). -/
def seenMux (d : PucchDesc) (s : State) : List Word := muxList (seenByte s s.cur.caller) d

/-- Stage B of a `PROC.Fx` or `VAL.Fx` command that `s.cur` serves: the code of the first check that fails
(46_dispatcher_pool.md R137). -/
def stageB (f : Fmt) (d : PucchDesc) (s : State) : Option FaultCode :=
  firstFail
    [ (failB1 d, .reservedNonzero),
      (failB2 f d, .symbolRange),
      (failB3 f d, .prbRange),
      (failB4 s.params d, .portInvalid),
      (failB5 f d, .fieldRange),
      (failB6 f s.params d, .gridBounds),
      (failB7 f d, .misaligned),
      (failB8 f s.params d, .memBounds),
      (failB9 f (seenByte s s.cur.caller) d, .muxInvalid),
      (failB10 f d, .f0TableUnsupported),
      (failB11 f s.params d, .thresholdUndefined),
      (failB12 f d, .bufferLength) ]

/-- Does stage B reach the mux list: B1 to B8 pass and `MUX_COUNT` is in 1..84 (44_format1.md R109)? -/
def muxReached (d : PucchDesc) (s : State) : Bool :=
  !(failB1 d || failB2 .f1 d || failB3 .f1 d || failB4 s.params d || failB5 .f1 d || failB6 .f1 s.params d ||
    failB7 .f1 d || failB8 .f1 s.params d) && decide (1 ≤ d.bufLen.toNat) && decide (d.bufLen.toNat ≤ 84)

/-! ## The component commands -/

/-- The checks of `DEPRECODE.SYM` (41_transform_precoder.md R81). -/
def checkDeprecodeSym (d : DeprecodeDesc) (p : Params) : Option FaultCode :=
  firstFail
    [ (!(al4 d.inAddr && al4 d.outAddr), .misaligned),
      (!(inb p.dmemSize d.inAddr.toNat (8 * d.inLen.toNat) && inb p.dmemSize d.outAddr.toNat (8 * d.outLen.toNat)),
        .memBounds),
      (d.inLen != d.outLen, .bufferLength),
      (d.inLen.toNat % 12 != 0 || !validPrb.contains (d.inLen.toNat / 12), .deprecodeSize) ]

/-- The checks of `DEPRECODE.NOISE` (41_transform_precoder.md R82). -/
def checkDeprecodeNoise (d : DeprecodeDesc) (p : Params) : Option FaultCode :=
  firstFail
    [ (!(al4 d.inAddr && al4 d.outAddr), .misaligned),
      (!(inb p.dmemSize d.inAddr.toNat (4 * d.inLen.toNat) && inb p.dmemSize d.outAddr.toNat (4 * d.outLen.toNat)),
        .memBounds),
      (d.inLen != d.outLen, .bufferLength) ]

/-- The checks of `EQUALIZE` (42_equalizer.md R87). -/
def checkEqualize (d : EqualizeDesc) (p : Params) : Option FaultCode :=
  let np := d.nofPorts.toNat
  let n := d.nofRe.toNat
  let l := d.nofLayers.toNat
  firstFail
    [ (d.rsv7 != 0#8, .reservedNonzero),
      (decide (np = 0) || decide (p.maxPorts < np), .portInvalid),
      (decide (l ≠ 1), .layersUnsupported),
      (!goodNv d.scaling, .scalingInvalid),
      (!(al4 d.rxAddr && al4 d.chAddr && al4 d.nvAddr && al4 d.osymAddr && al4 d.onvAddr), .misaligned),
      (!(inb p.dmemSize d.rxAddr.toNat (8 * np * n) && inb p.dmemSize d.chAddr.toNat (8 * np * n * l) &&
          inb p.dmemSize d.nvAddr.toNat (4 * np) && inb p.dmemSize d.osymAddr.toNat (8 * n * l) &&
          inb p.dmemSize d.onvAddr.toNat (4 * n * l)), .memBounds) ]

end Sys2Proof.Machine
end

