-- ==== Sys2Proof/Machine/Agents.lean ====
section
/-! DEFINITION. What the agents do beside running a command: the host (46_dispatcher_pool.md R129, 10_state.md R20,
20_memory.md R49), the platform (70_reset_and_hazards.md R158), the dispatcher (46_dispatcher_pool.md R131), and which
steps are enabled (R131, R132, R138). -/

namespace Sys2Proof.Machine

/-! ## Caller ports and registers -/

/-- `call_start`: the host writes `v` to `CALL_ADDR[c]`, in either block state (46_dispatcher_pool.md R129). -/
def callStart (c : Nat) (v : Word) (s : State) : State :=
  match (getPort s c).call with
  | .idle => setPort c { getPort s c with callAddr := v, call := .pending v, disturb := Disturb.none } s
  | .pending _ | .running _ _ | .validating _ => faultEntry .callOverlap 0#32 c 15 v s

/-- The host writes the register at an offset: `CTRL` and `CALL_ADDR[c]` are the only ones that a write changes
(10_state.md R20, R26, R29). -/
def writeReg (off : Nat) (v : Word) (s : State) : State :=
  if off = 0x014 then (if v.getLsbD 0 then resetBlock s else s)
  else if 0x100 ≤ off ∧ off % 8 = 0 ∧ (off - 0x100) / 8 < s.ports.length then callStart ((off - 0x100) / 8) v s
  else s

/-- The host reads the register at an offset (10_state.md R20). -/
def readRegister (off : Nat) (s : State) : State := { s with hostData := readReg s off }

/-! ## DMEM, GRID and CHEST from outside (20_memory.md R49) -/

/-- The host writes the low bytes of a value into DMEM (20_memory.md R37, R39, R49). The width and the alignment of a
host access are free: log entry 36. -/
def hostWrite (a : Nat) (w : AccessWidth) (v : Word) (s : State) : Result :=
  if a + w.bytes ≤ s.params.dmemSize then
    .next { s with
      dmem  := writeBytes s.dmem a ((wordBytes v).take w.bytes)
      ports := disturbed (fun d => { d with host := ⟨a, w.bytes⟩ :: d.host }) none s }
  else .fault (.dmemOutOfRange (max a s.params.dmemSize))

/-- The byte the host reads: a draw where it is an output of a busy call (20_memory.md R49). -/
def hostByte (s : State) (a : Nat) : Byte :=
  if (busyOuts s).any (fun r => regionHas r a) then Config.freeByte ⟨s.draws, .hostByte, a⟩ else memByte s.dmem a

/-- The host reads DMEM; the bytes beyond the width are 0 (20_memory.md R37, R39, R49). -/
def hostRead (a : Nat) (w : AccessWidth) (s : State) : Result :=
  if a + w.bytes ≤ s.params.dmemSize then
    .next { s with
      hostData := wordAt (fun x => if x < a + w.bytes then hostByte s x else 0#8) a
      draws    := s.draws + 1 }
  else .fault (.dmemOutOfRange (max a s.params.dmemSize))

/-- The platform changes a grid sample; an index outside the grid names none (20_memory.md R37, R38, R49). -/
def platformGrid (h : Word) (port sym sc : Nat) (v : C64) (s : State) : State :=
  if port < s.params.nofGridPorts ∧ sym < nSymbSlot ∧ sc < 12 * s.params.nRbGrid then
    { s with
      grid  := mapPut c64Zero s.grid (gridKey h port sym sc) v
      ports := disturbed (fun d => { d with grid := h :: d.grid }) none s }
  else s

/-- The platform changes the channel estimate of a descriptor (20_memory.md R37, R49; 45_format234.md R112). -/
def platformChest (cfg : List Word) (v : Chest) (s : State) : State :=
  { s with
    chest := (cfg, v) :: s.chest.filter (fun e => e.1 != cfg)
    ports := disturbed (fun d => { d with chest := cfg :: d.chest }) none s }

/-- The platform's power-on reset: a reset (70_reset_and_hazards.md R158), and DMEM holds what the platform leaves in
it (R157). -/
def platformPowerOn (bytes : List (Nat × Byte)) (s : State) : State :=
  { resetBlock s with
    dmem := (bytes.filter (fun e => decide (e.1 < s.params.dmemSize))).foldl
      (fun m e => mapPut unlistedByte m e.1 e.2) [] }

/-! ## The dispatcher (46_dispatcher_pool.md R131) -/

/-- The free instance a call receives: the one asked for where it is free, else a draw. -/
def pickInst (free : List Nat) (hint : Nat) (id : DrawId) : Nat :=
  if hint ∈ free then hint else drawFrom free 0 id

/-- The lease is taken in one step: instance `k` gets the call of `c` (46_dispatcher_pool.md R131). -/
def takeLease (c k : Nat) (desc : Word) (words : List Word) (s : State) : State :=
  { setPort c { getPort s c with call := .running desc k }
      (setInst k { getInst s k with lease := true, owner := c, op := ⟨words, []⟩ } s) with
    draws := s.draws + 1 }

/-- A validator's call takes no lease: the dispatcher keeps its words (46_dispatcher_pool.md R131, R138). -/
def startValidating (c : Nat) (desc : Word) (words : List Word) (s : State) : State :=
  { setPort c { getPort s c with call := .validating desc, snap := ⟨words, []⟩ } s with draws := s.draws + 1 }

/-- No instance is free: the header says POOL_EXHAUSTED and the call completes (46_dispatcher_pool.md R131,
30_encoding.md R75). -/
def exhausted (c : Nat) (desc : Word) (i : Instr) (s : State) : Result :=
  finish (exhaustedFootprint desc i)
    [((instrResAddr i).toNat, wordBytes (instrHeader i rsExhausted))] { s with cur := ⟨c, none, desc⟩ }

/-- The dispatch step of the pending call of `c` (46_dispatcher_pool.md R131); nothing where it is not enabled. -/
def dispatch (c hint : Nat) (s : State) : Result :=
  match s.bstate, (getPort s c).call with
  | .run, .pending desc =>
    match stageA s.params.dmemSize (seenByte s c) desc with
    | .fault code w0 => .next (faultEntry code w0 c 15 desc s)
    | .pass words i =>
      if opcodeIsVal (instrOpcode i) then
        .next (startValidating c desc words s)
      else
        match freeInsts s with
        | [] => exhausted c desc i s
        | k :: ks => .next (takeLease c (pickInst (k :: ks) hint ⟨s.draws, .instance_, c⟩) desc words s)
  | _, _ => .next s

/-! ## Which command an agent runs -/

/-- The call that instance `k` executes: enabled when the block runs, the lease is held and its owner's call names `k`
(46_dispatcher_pool.md R132). -/
def executable (s : State) (k : Nat) : Option Ctx :=
  match s.bstate, (getInst s k).lease, (getPort s (getInst s k).owner).call with
  | .run, true, .running desc k' => if k' = k then some ⟨(getInst s k).owner, some k, desc⟩ else none
  | _, _, _ => none

/-- The call of `c` that the dispatcher validates (46_dispatcher_pool.md R138). -/
def validatable (s : State) (c : Nat) : Option Ctx :=
  match s.bstate, (getPort s c).call with
  | .run, .validating desc => some ⟨c, none, desc⟩
  | _, _ => none

/-- The call of `c` is pending and the block runs (46_dispatcher_pool.md R131). -/
def dispatchable (s : State) (c : Nat) : Bool :=
  match s.bstate, (getPort s c).call with
  | .run, .pending _ => true
  | _, _ => false

/-- Every enabled step of the block (46_dispatcher_pool.md R131, R132, R134, R138). A dispatch asks for no instance in
particular. -/
def enabledSteps (s : State) : List Event :=
  ((List.range s.ports.length).filter (dispatchable s)).map (fun c => .dispatch c s.insts.length) ++
  ((List.range s.ports.length).filter (fun c => (validatable s c).isSome)).map .validate ++
  ((List.range s.insts.length).filter (fun k => (executable s k).isSome)).map .execute

/-! ## A command placed for the next step (log entry 20) -/

/-- Where `placeCommand` puts a descriptor. -/
def placeAddr (p : Params) : Word := if 0x1000 + 44 ≤ p.dmemSize then 0x1000#32 else 0#32

/-- The state in which a command's words lie in DMEM, caller 0 has started them and the dispatcher has done its part,
so that the next step runs the command; words that make no command are left to the dispatcher. -/
def placeCommand (words : List Word) (s : State) : State :=
  let desc := placeAddr s.params
  let s0 := { s with bstate := .run, dmem := writeBytes s.dmem desc.toNat (bytesOfWords words) }
  match decode words with
  | .ok i =>
    let ws := words.take (opcodeWords (instrOpcode i))
    if opcodeIsVal (instrOpcode i) then
      { setPort 0 ⟨desc, .validating desc, ⟨ws, []⟩, Disturb.none⟩ s0 with sched := [.validate 0] }
    else
      { setPort 0 ⟨desc, .running desc 0, (getPort s 0).snap, Disturb.none⟩
          (setInst 0 ⟨true, 0, ⟨ws, []⟩, (getInst s 0).scratch⟩ s0) with sched := [.execute 0] }
  | .error _ =>
    { setPort 0 ⟨desc, .pending desc, (getPort s 0).snap, Disturb.none⟩ s0 with sched := [.dispatch 0 0] }

end Sys2Proof.Machine
end

