-- ==== Sys2Proof/Machine/TransformPrecoder.lean ====
section
/-! DEFINITION. The transform precoder: `DEPRECODE.SYM` and `DEPRECODE.NOISE` (41_transform_precoder.md). -/

namespace Sys2Proof.Machine

/-- An exact complex value with rational parts. -/
structure QC where
  re : Rat
  im : Rat
deriving DecidableEq, Repr, Inhabited

/-- The exact value of a finite pair. -/
def qcOf (z : C64) : QC := ⟨f32Rat z.re, f32Rat z.im⟩

/-- `abs2` (00_scope.md R13). -/
def qcAbs2 (z : QC) : Rat := z.re * z.re + z.im * z.im

/-- An upper bound of `abs` (00_scope.md R13), within a relative 2^-64. -/
def qcAbsHi (z : QC) : Rat := sqrtHi (qcAbs2 z)

/-- An enclosure of `1/sqrt(M)`. -/
def invSqrt (n : Nat) : Ival := ⟨sqrtLo (1 / (n : Rat)), sqrtHi (1 / (n : Rat))⟩

/-- The ideal `Deprecode(x, M)[m]`, `M` the length of `x` (41_transform_precoder.md R79). -/
def deprecodeIdeal (x : List QC) (m : Nat) : CBox :=
  let n := x.length
  let sum := cbSum (x.mapIdx (fun k z => cbMul (cbOf z.re z.im) (cis (((m * k : Nat) : Rat) / (n : Rat)))))
  ⟨ivMul (invSqrt n) sum.re, ivMul (invSqrt n) sum.im⟩

/-- The scale of `Deprecode(x, M)[m]` (00_scope.md R15), given the scales of the inputs; it is the same for every
`m`. -/
def deprecodeScale (scales : List Rat) : Rat := (invSqrt scales.length).hi * ratSum scales

/-- The mean of the entries in `S` (41_transform_precoder.md R80). -/
def meanOf (v : List Rat) : Rat := ratSum v / (v.length : Rat)

/-- What the rule admits for an element of the output: any pair when some input is not finite
(41_transform_precoder.md R79). -/
def deprecodeAdmitted (tol : Rat) (x : List C64) (m : Nat) : CAdmitted :=
  if x.all c64Finite then
    .disk (deprecodeIdeal (x.map qcOf) m) (tol * deprecodeScale (x.map (fun z => qcAbsHi (qcOf z))))
  else .any

/-- `Deprecode(x, M)` as the hardware returns it (41_transform_precoder.md R79). -/
def deprecodeSymbols (tol : Rat) (epoch : Nat) (x : List C64) : List C64 :=
  (List.range x.length).map (fun m => drawC64 (deprecodeAdmitted tol x m) ⟨epoch, .deprecoded, m⟩)

/-- The common mean `mu~` of the good entries, finite and positive (41_transform_precoder.md R80). -/
def noiseMean (tol : Rat) (epoch : Nat) (v : List F32) : F32 :=
  let mu := meanOf ((v.filter goodNv).map f32Rat)
  drawF32 (.goodWithin (mu - tol * mu) (mu + tol * mu)) ⟨epoch, .mean, 0⟩

/-- `DeprecodeNoise(v, L)` as the hardware returns it: every entry outside `S` bit for bit, every other one the
common mean (41_transform_precoder.md R80, 00_scope.md R16). -/
def deprecodeNoise (tol : Rat) (epoch : Nat) (v : List F32) : List F32 :=
  v.map (fun x => if goodNv x then noiseMean tol epoch v else x)

/-- The complex input buffer at an address. -/
def memC64s (m : Memory) (a n : Nat) : List C64 := (List.range n).map (fun i => memC64 m (a + 8 * i))

/-- `DEPRECODE.SYM` (41_transform_precoder.md R81). -/
def execDeprecodeSym (d : DeprecodeDesc) (s : State) : Result :=
  match checkDeprecodeSym d s.params with
  | some code => raiseFault (.deprecodeSym d) code s
  | none =>
    let y := deprecodeSymbols s.params.tol s.draws (memC64s s.dmem d.inAddr.toNat d.inLen.toNat)
    finishDone (.deprecodeSym d) [] [(d.outAddr.toNat, y.flatMap c64Bytes)] s

/-- `DEPRECODE.NOISE` (41_transform_precoder.md R82). -/
def execDeprecodeNoise (d : DeprecodeDesc) (s : State) : Result :=
  match checkDeprecodeNoise d s.params with
  | some code => raiseFault (.deprecodeNoise d) code s
  | none =>
    let w := deprecodeNoise s.params.tol s.draws (memWords s.dmem d.inAddr.toNat d.inLen.toNat)
    finishDone (.deprecodeNoise d) [] [(d.outAddr.toNat, bytesOfWords w)] s

end Sys2Proof.Machine
end

