-- ==== Sys2Proof/Machine/Equalizer.lean ====
section
/-! DEFINITION. The channel equalizer: `EQUALIZE` (42_equalizer.md). -/

namespace Sys2Proof.Machine

/-- What one port gives a resource element: the received sample, the channel coefficient, the noise variance. -/
structure EqLane where
  y  : C64
  h  : C64
  nv : F32
deriving DecidableEq, Repr, Inhabited

/-- The ideal output of one resource element (42_equalizer.md R84, R85). -/
inductive EqIdeal
  /-- a bad element: exactly `(0, +inf)` -/
  | bad
  /-- a received sample is not finite: the symbol is a draw, the noise variance follows the formula -/
  | openSymbol (e : Rat)
  /-- symbol, its scale (00_scope.md R15), noise variance -/
  | good (s : QC) (scale e : Rat)
deriving DecidableEq, Repr, Inhabited

/-- RE `n` is bad (42_equalizer.md R84). It does not depend on the received samples. -/
def eqIsBad (lanes : List EqLane) : Bool :=
  lanes.any (fun l => !goodNv l.nv || c64IsZero l.h || !c64Finite l.h)

/-- The combined gain `g[n]` (42_equalizer.md R85). -/
def eqGain (lanes : List EqLane) : Rat := ratSum (lanes.map (fun l => qcAbs2 (qcOf l.h) / f32Rat l.nv))

/-- `conj(h) * y / nv` of one port (42_equalizer.md R85). -/
def eqMatched (l : EqLane) : QC :=
  let h := qcOf l.h
  let y := qcOf l.y
  let nv := f32Rat l.nv
  ⟨(h.re * y.re + h.im * y.im) / nv, (h.re * y.im - h.im * y.re) / nv⟩

/-- The denominator: `g` for ZF, `g + 1` for MMSE (42_equalizer.md R85). -/
def eqDenominator (algo : EqAlgo) (lanes : List EqLane) : Rat :=
  match algo with
  | .zf => eqGain lanes
  | .mmse => eqGain lanes + 1

/-- `Equalize` at one resource element, in ideal arithmetic (42_equalizer.md R84, R85). -/
def equalizeIdeal (algo : EqAlgo) (sf : Rat) (lanes : List EqLane) : EqIdeal :=
  if eqIsBad lanes then .bad
  else
    let den := eqDenominator algo lanes
    let e := sf * sf / den
    if lanes.all (fun l => c64Finite l.y) then
      let cs := lanes.map eqMatched
      let amp := ratSum (lanes.map (fun l => sqrtHi (qcAbs2 (qcOf l.h) * qcAbs2 (qcOf l.y)) / f32Rat l.nv))
      .good ⟨ratSum (cs.map (·.re)) * sf / den, ratSum (cs.map (·.im)) * sf / den⟩ (amp * sf / den) e
    else .openSymbol e

/-- The symbol the hardware returns for RE `n` (42_equalizer.md R84, R85; 00_scope.md R15, R16). -/
def eqSymbol (tol : Rat) (epoch n : Nat) : EqIdeal → C64
  | .bad => c64Zero
  | .openSymbol _ => drawC64 .any ⟨epoch, .eqSymbol, n⟩
  | .good s scale _ => drawC64 (.disk (cbOf s.re s.im) (tol * scale)) ⟨epoch, .eqSymbol, n⟩

/-- The noise variance the hardware returns for RE `n`; of a good RE it is finite and positive
(42_equalizer.md R84, R85; 00_scope.md R15, R16). -/
def eqNoise (tol : Rat) (epoch n : Nat) : EqIdeal → F32
  | .bad => f32PosInf
  | .openSymbol e => drawF32 (.goodWithin (e - tol * e) (e + tol * e)) ⟨epoch, .eqNoise, n⟩
  | .good _ _ e => drawF32 (.goodWithin (e - tol * e) (e + tol * e)) ⟨epoch, .eqNoise, n⟩

/-- The lanes of RE `n` of an `EQUALIZE` command, one per port, layer 0 (30_encoding.md R66, 42_equalizer.md R88). -/
def eqLanes (m : Memory) (d : EqualizeDesc) (n : Nat) : List EqLane :=
  (List.range d.nofPorts.toNat).map (fun p =>
    { y  := memC64 m (d.rxAddr.toNat + 8 * (p * d.nofRe.toNat + n))
      h  := memC64 m (d.chAddr.toNat + 8 * (p * d.nofRe.toNat + n))
      nv := memWord m (d.nvAddr.toNat + 4 * p) })

/-- The ideal outputs of an `EQUALIZE` command, RE by RE (42_equalizer.md R88). -/
def eqOutputs (p : Params) (m : Memory) (d : EqualizeDesc) : List EqIdeal :=
  (List.range d.nofRe.toNat).map (fun n => equalizeIdeal p.eqAlgo (f32Rat d.scaling) (eqLanes m d n))

/-- `EQUALIZE` (42_equalizer.md R88). -/
def execEqualize (d : EqualizeDesc) (s : State) : Result :=
  match checkEqualize d s.params with
  | some code => raiseFault (.equalize d) code s
  | none =>
    let out := eqOutputs s.params s.dmem d
    finishDone (.equalize d) []
      [ (d.osymAddr.toNat, (out.mapIdx (eqSymbol s.params.tol s.draws)).flatMap c64Bytes),
        (d.onvAddr.toNat, bytesOfWords (out.mapIdx (eqNoise s.params.tol s.draws))) ] s

end Sys2Proof.Machine
end

