-- ==== Sys2Proof/Machine/Format0.lean ====
section
/-! DEFINITION. The Format 0 detector: `PROC.F0` (43_format0.md), and the reception that Formats 0 and 1 share. -/

namespace Sys2Proof.Machine

/-! ## Reception: twelve samples of one port in one symbol -/

/-- The samples of one port in one symbol of the allocation, with the symbol's sequence parameters
(43_format0.md R93, 44_format1.md R102). -/
structure RxBlock where
  sym  : Nat
  port : Nat
  seq  : SeqVal
  ys   : List C64
deriving DecidableEq, Repr, Inhabited

/-- The sequence parameters of symbol `i` of the allocation (43_format0.md R93). -/
def symbolSeq (p : Params) (d : PucchDesc) (i : Nat) : SeqVal :=
  seqParams p ⟨d.nId.toNat, d.slotIdx.toNat, d.mu.toNat, startSym d + i, hopOf d i⟩

/-- The block of receive port `p` in symbol `i` (43_format0.md R93, 44_format1.md R102). -/
def rxBlock (d : PucchDesc) (s : State) (i p : Nat) : RxBlock :=
  { sym := i, port := p, seq := symbolSeq s.params d i,
    ys := (List.range 12).map (fun k =>
      gridRead s d.gridHandle (portAt d p) (startSym d + i) (12 * prbBase d i + k)) }

/-- Every block of the allocation, symbol by symbol and port by port. -/
def rxBlocks (d : PucchDesc) (s : State) : List RxBlock :=
  (List.range (nofSym d)).flatMap (fun i => (List.range (nofPorts d)).map (rxBlock d s i))

/-- Every sample is finite. -/
def rxFinite (bs : List RxBlock) : Bool := bs.all (fun b => b.ys.all c64Finite)

/-- The energy of a block, exactly (43_format0.md R93). -/
def blockEnergy (b : RxBlock) : Rat := ratSum (b.ys.map (fun y => qcAbs2 (qcOf y)))

/-- The sum of the magnitudes of a block's samples: the scale of every correlation of it (00_scope.md R15). -/
def blockAmp (b : RxBlock) : Rat := ratSum (b.ys.map (fun y => qcAbsHi (qcOf y)))

/-- `sum_k y[k] * conj(LowPapr(u, v, t)[k])` (43_format0.md R93). It is also `Z[t]` of 44_format1.md R102, whose
`conj(rbar[k]) * e^(-j*2*pi*t*k/12)` is the same conjugate (00_scope.md R11). -/
def correlate (p : Params) (b : RxBlock) (t : Nat) : CSum :=
  b.ys.mapIdx (fun k y =>
    let r := lowPapr p b.seq t k
    ⟨cbMul (cbOf (f32Rat y.re) (f32Rat y.im)) (cbConj r.unit), -r.turn⟩)

/-! ## Detection (43_format0.md R93) -/

/-- The shift at which candidate `c` is correlated in a block (43_format0.md R93). -/
def f0Shift (d : PucchDesc) (c : F0Cand) (b : RxBlock) : Nat := (d.initCs.toNat + c.mcs + b.seq.ncs.val) % 12

/-- The correlation power `Pc[c]`, enclosed (43_format0.md R93). -/
def f0Power (p : Params) (d : PucchDesc) (bs : List RxBlock) (c : F0Cand) : Ival :=
  ivSum (bs.map (fun b => ivScale (1 / 12) (cbAbs2 (csBox (correlate p b (f0Shift d c b))))))

/-- The scale of every `Pc[c]` (00_scope.md R15). -/
def f0PowerScale (bs : List RxBlock) : Rat := ratSum (bs.map (fun b => blockAmp b * blockAmp b / 12))

/-- The candidates that may win: each whose power may reach every other's within the error bound; with no sample
but zeros the powers are exactly equal and the lowest index wins (43_format0.md R93, R97; 00_scope.md R15). Where the error bound
holds no binary32 value R15 cannot be met, and the ideal powers still decide: DESIGN CHOICE, log entry 41. -/
def f0MayWin (bound : Rat) (powers : List Ival) : List Nat :=
  if bound = 0 then [0]
  else (List.range powers.length).filter (fun c =>
    powers.all (fun q => decide (q.lo - bound ≤ (powers.getD c (ivOf 0)).hi + bound)))

/-- Is the ideal residual of the winner exactly 0? `E - Pc` is the energy of what the projection on the reference
leaves, so it is 0 iff every sample equals `C/12` times its reference (43_format0.md R93, R94). -/
def f0ResidualZero (p : Params) (d : PucchDesc) (bs : List RxBlock) (c : F0Cand) : Bool :=
  bs.all (fun b =>
    let corr := correlate p b (f0Shift d c b)
    corr.all (fun t => csIsZero (t :: csScale (-1 / 12) corr)))

/-- What the rules admit for the metric (43_format0.md R91, R93, R94, R97; 00_scope.md R15): `power` is `Pc` of the
winner, `scale` its scale, `energy` is `E`. -/
def f0MetricAdmitted (tol energy scale : Rat) (power : Ival) (residualZero : Bool) : Admitted :=
  let pr := ivClamp0 (ivSub (ivOf energy) power)
  let prBound := tol * (energy + power.hi)
  if scale = 0 then .within 0 0
  else if residualZero then .atLeast (1 / (4 * tol))
  else if pr.lo ≤ prBound then .nonneg
  else admitRatio tol power scale pr prBound

/-- What a `PROC.F0` command measures (43_format0.md R95). -/
structure F0Result where
  cand   : F0Cand
  valid  : Bool
  metric : F32
  epre   : F32
  rsrp   : F32
  sinr   : F32
deriving DecidableEq, Repr, Inhabited

/-- The Format 0 detector (43_format0.md R93, R95). Where a sample is not finite every value is a draw (R97). -/
def f0Detect (d : PucchDesc) (s : State) : F0Result :=
  let p := s.params
  let ep := s.draws
  let bs := rxBlocks d s
  let cands := f0Cands d
  let thr := f32Rat ((f0Thr p (nofPorts d * nofSym d) cands.length).getD f32Zero)
  let nre : Rat := ((12 * nofPorts d * nofSym d : Nat) : Rat)
  if rxFinite bs then
    let powers := cands.map (f0Power p d bs)
    let scale := f0PowerScale bs
    let c := drawFrom (f0MayWin (p.tol * scale) powers) 0 ⟨ep, .f0Winner, 0⟩
    let cand := cands.getD c default
    let power := powers.getD c (ivOf 0)
    let energy := ratSum (bs.map blockEnergy)
    let metric := f0MetricAdmitted p.tol energy scale power (f0ResidualZero p d bs cand)
    { cand   := cand
      valid  := drawBool (mayExceed metric thr) (mayNotExceed metric thr) ⟨ep, .f0Pass, 0⟩
      metric := drawF32 metric ⟨ep, .f0Metric, 0⟩
      epre   := drawF32 (admitNear (ivOf (energy / nre)) (p.tol * (energy / nre))) ⟨ep, .f0Epre, 0⟩
      rsrp   := drawF32 (admitNear (ivScale (1 / nre) power) (p.tol * (scale / nre))) ⟨ep, .f0Rsrp, 0⟩
      sinr   := drawF32 metric ⟨ep, .f0Sinr, 0⟩ }
  else
    { cand   := cands.getD (drawFrom (List.range cands.length) 0 ⟨ep, .f0Winner, 0⟩) default
      valid  := drawBool true true ⟨ep, .f0Pass, 0⟩
      metric := drawF32 .any ⟨ep, .f0Metric, 0⟩
      epre   := drawF32 .any ⟨ep, .f0Epre, 0⟩
      rsrp   := drawF32 .any ⟨ep, .f0Rsrp, 0⟩
      sinr   := drawF32 .any ⟨ep, .f0Sinr, 0⟩ }

/-- The UCI word of a Format 0 result (43_format0.md R95, 30_encoding.md R69). -/
def f0Uci (d : PucchDesc) (r : F0Result) : Word :=
  uciWord r.valid (srOpp d) r.cand.sr d.nofHarq r.cand.harq0 r.cand.harq1

/-- Words RW1 to RW7 of the record (30_encoding.md R70). -/
def f0Record (d : PucchDesc) (r : F0Result) : List Word :=
  [f0Uci d r, r.metric, r.epre, r.rsrp, r.sinr, 0#32, f32Zero]

/-- `PROC.F0` (43_format0.md R97). -/
def execProcF0 (d : PucchDesc) (s : State) : Result :=
  match stageB .f0 d s with
  | some code => raiseFault (.procF0 d) code s
  | none => finishDone (.procF0 d) (f0Record d (f0Detect d s)) [] s

end Sys2Proof.Machine
end

