-- ==== Sys2Proof/Machine/Format1.lean ====
section
/-! DEFINITION. The Format 1 detector: `PROC.F1` (44_format1.md). -/

namespace Sys2Proof.Machine

/-! ## Despreading (44_format1.md R102, R103) -/

/-- `D[p][h][i][m0]` (with `dmrs`) or `X[p][h][i][m0]` (without): the frequency and time despread samples of port `p`
in hop `h` for cover `occ` and shift `m0` (44_format1.md R102, R103). -/
def f1Despread (d : PucchDesc) (s : State) (dmrs : Bool) (h port occ m0 : Nat) : CSum :=
  let syms := f1HopSymbols d h dmrs
  (syms.mapIdx (fun m i =>
    let b := rxBlock d s i port
    csRot (-(f1OccTurn syms.length occ m)) (correlate s.params b ((m0 + b.seq.ncs.val) % 12)))).flatten

/-- The scale of every `D` (or `X`) of a hop and port (00_scope.md R15). -/
def f1Amp (d : PucchDesc) (s : State) (dmrs : Bool) (h port : Nat) : Rat :=
  ratSum ((f1HopSymbols d h dmrs).map (fun i => blockAmp (rxBlock d s i port)))

/-- The receive ports of the command, by position in its list. -/
def f1Ports (d : PucchDesc) : List Nat := List.range (nofPorts d)

/-- Every hop with every receive port. -/
def f1Lanes (d : PucchDesc) : List (Nat × Nat) :=
  (List.range (nofHops d)).flatMap (fun h => (f1Ports d).map (fun p => (h, p)))

/-- `OCCS`: the distinct `E_OCC` values of the mux list (44_format1.md R103). -/
def f1Occs (mux : List Word) : List Nat := (mux.map muxOcc).dedup

/-! ## Channel and noise estimation (44_format1.md R105, R106) -/

/-- `ND(h)` (44_format1.md R99). -/
def f1Nd (d : PucchDesc) (h : Nat) : Nat := (f1HopSymbols d h true).length

/-- `hh[p][h][i][m0]` (44_format1.md R105). -/
def f1Chan (d : PucchDesc) (s : State) (h port occ m0 : Nat) : CSum :=
  csScale (1 / ((12 * f1Nd d h : Nat) : Rat)) (f1Despread d s true h port occ m0)

/-- The scale of every `hh` of a hop and port (00_scope.md R15). -/
def f1ChanAmp (d : PucchDesc) (s : State) (h port : Nat) : Rat :=
  f1Amp d s true h port / ((12 * f1Nd d h : Nat) : Rat)

/-- `En[h][i][m0]`, enclosed (44_format1.md R105). -/
def f1Energy (d : PucchDesc) (s : State) (h occ m0 : Nat) : Ival :=
  ivSum ((f1Ports d).map (fun p => cbAbs2 (csBox (f1Chan d s h p occ m0))))

/-- `Emax[h]`, enclosed (44_format1.md R105). -/
def f1MaxEnergy (d : PucchDesc) (s : State) (occs : List Nat) (h : Nat) : Ival :=
  (occs.flatMap (fun i => (List.range 12).map (f1Energy d s h i))).foldr
    (fun a b => ⟨ratMax a.lo b.lo, ratMax a.hi b.hi⟩) (ivOf 0)

/-- Is the shift kept in `hz`? Within the error bound of `Emax/10` either may happen (44_format1.md R105;
00_scope.md R15). Where the bound of an energy holds no binary32 value R15 cannot be met, and the ideal energies still
decide: DESIGN CHOICE, log entry 41. -/
def f1Keep (d : PucchDesc) (s : State) (occs : List Nat) (h occ m0 : Nat) : Bool :=
  let en := f1Energy d s h occ m0
  let emax := f1MaxEnergy d s occs h
  let bound := s.params.tol * ratSum ((f1Ports d).map (fun p => f1ChanAmp d s h p * f1ChanAmp d s h p))
  drawBool (decide ((emax.lo - bound) / 10 ≤ en.hi + bound)) (decide (en.lo - bound < (emax.hi + bound) / 10))
    ⟨s.draws, .f1Keep, (h * 8 + occ) * 12 + m0⟩

/-- The covers and shifts that `hz` keeps in a hop (44_format1.md R105). -/
def f1Kept (d : PucchDesc) (s : State) (occs : List Nat) (h : Nat) : List (Nat × Nat) :=
  (occs.flatMap (fun i => (List.range 12).map (fun m0 => (i, m0)))).filter (fun k => f1Keep d s occs h k.1 k.2)

/-- The factor with which `hz` of a kept key enters sample `k` of the `m`-th DM-RS symbol of a hop
(44_format1.md R106). -/
def f1ReplicaPhase (d : PucchDesc) (s : State) (h m : Nat) (b : RxBlock) (key : Nat × Nat) (k : Nat) : UnitPhase :=
  let r := lowPapr s.params b.seq ((key.2 + b.seq.ncs.val) % 12) k
  { r with turn := f1OccTurn (f1Nd d h) key.1 m + r.turn }

/-- `y - yhat` at sample `k` of the `m`-th DM-RS symbol of a hop, exactly (44_format1.md R106). -/
def f1Residual (d : PucchDesc) (s : State) (h port m : Nat) (b : RxBlock) (kept : List (Nat × Nat)) (k : Nat)
    (y : C64) : CSum :=
  ⟨cbOf (f32Rat y.re) (f32Rat y.im), 0⟩ ::
    csScale (-1) (kept.flatMap (fun key =>
      csTimes (f1ReplicaPhase d s h m b key k) (f1Chan d s h port key.1 key.2)))

/-- One DM-RS sample with its residual and the scale of its reconstruction, `sy` of 44_format1.md R108. -/
structure F1Sample where
  y        : C64
  residual : CSum
  sy       : Rat
deriving DecidableEq, Repr, Inhabited

/-- Every DM-RS sample of the allocation (44_format1.md R106). -/
def f1Samples (d : PucchDesc) (s : State) (occs : List Nat) : List F1Sample :=
  (f1Lanes d).flatMap (fun hp =>
    let kept := f1Kept d s occs hp.1
    let sy := ratSum (kept.map (fun key => cbAbsHi (csBox (f1Chan d s hp.1 hp.2 key.1 key.2))))
    ((f1HopSymbols d hp.1 true).mapIdx (fun m i =>
      let b := rxBlock d s i hp.2
      b.ys.mapIdx (fun k y => ⟨y, f1Residual d s hp.1 hp.2 m b kept k y, sy⟩))).flatten)

/-- `sigma2` with its scale `S2`, and whether its ideal value is exactly 0 (44_format1.md R106, R108). -/
structure F1Noise where
  sigma2 : Ival
  scale  : Rat
  isZero : Bool
deriving DecidableEq, Repr, Inhabited

/-- The noise estimate over the DM-RS samples (44_format1.md R106, R108). -/
def f1NoiseOf (samples : List F1Sample) : F1Noise :=
  let n : Rat := (samples.length : Rat)
  let amp (x : F1Sample) : Rat := qcAbsHi (qcOf x.y) + x.sy
  { sigma2 := ivScale (1 / n) (ivSum (samples.map (fun x => cbAbs2 (csBox x.residual))))
    scale  := ratSum (samples.map (fun x => amp x * amp x)) / n
    isZero := samples.all (fun x => csIsZero x.residual) }

/-! ## The decision for one mux entry (44_format1.md R107) -/

/-- `Xc` of a key, enclosed (44_format1.md R103, R107). -/
def f1Cross (d : PucchDesc) (s : State) (occ m0 : Nat) : CBox :=
  cbSum ((f1Lanes d).map (fun hp =>
    cbMul (cbConj (csBox (f1Despread d s true hp.1 hp.2 occ m0))) (csBox (f1Despread d s false hp.1 hp.2 occ m0))))

/-- The scale of `Xc` (00_scope.md R15). -/
def f1CrossScale (d : PucchDesc) (s : State) : Rat :=
  ratSum ((f1Lanes d).map (fun hp => f1Amp d s true hp.1 hp.2 * f1Amp d s false hp.1 hp.2))

/-- The sign test `x < 0` on an enclosed value; within the error bound it is a draw (44_format1.md R107;
00_scope.md R15). Where the bound holds no binary32 value R15 cannot be met, and the ideal value still decides: DESIGN
CHOICE, log entry 41. -/
def f1Negative (x : Ival) (bound : Rat) (id : DrawId) : Bool :=
  drawBool (decide (x.lo - bound < 0)) (decide (0 ≤ x.hi + bound)) id

/-- The phase of `dhat` for the decided bits, in turns (44_format1.md R107): BPSK for a length up to 1, else QPSK. -/
def f1SymbolTurn (q : Nat) (b0 b1 : Bool) : Rat :=
  if q ≤ 1 then (if b0 then 5 / 8 else 1 / 8)
  else if b0 then (if b1 then 5 / 8 else 3 / 8)
  else (if b1 then 7 / 8 else 1 / 8)

/-- `D + conj(dhat) * X` of one hop and port, exactly: `num` is the sum of their squared magnitudes
(44_format1.md R107). -/
def f1Folded (d : PucchDesc) (s : State) (turn : Rat) (occ m0 : Nat) (hp : Nat × Nat) : CSum :=
  f1Despread d s true hp.1 hp.2 occ m0 ++ csRot (-turn) (f1Despread d s false hp.1 hp.2 occ m0)

/-- `num`, enclosed (44_format1.md R107). -/
def f1Num (d : PucchDesc) (s : State) (turn : Rat) (occ m0 : Nat) : Ival :=
  ivSum ((f1Lanes d).map (fun hp => cbAbs2 (csBox (f1Folded d s turn occ m0 hp))))

/-- Is the ideal `num` known to be positive (44_format1.md R108)? Its enclosure lies above 0, or some term of it is
given exactly and is not 0. -/
def f1NumPositive (d : PucchDesc) (s : State) (turn : Rat) (occ m0 : Nat) : Bool :=
  decide (0 < (f1Num d s turn occ m0).lo) || (f1Lanes d).any (fun hp => csIsNonzero (f1Folded d s turn occ m0 hp))

/-- The scale of `num` (00_scope.md R15). -/
def f1NumScale (d : PucchDesc) (s : State) : Rat :=
  ratSum ((f1Lanes d).map (fun hp =>
    let a := f1Amp d s true hp.1 hp.2 + f1Amp d s false hp.1 hp.2
    a * a))

/-- What the rules admit for the metric of an entry (43_format0.md R91, 44_format1.md R107, R108, R110;
00_scope.md R15). With an ideal `sigma2` of 0, a `num` that may be 0 admits every value of `[0, +inf]`. -/
def f1MetricAdmitted (tol norm : Rat) (num : Ival) (numScale : Rat) (numPositive : Bool) (nz : F1Noise) : Admitted :=
  if numScale = 0 then .within 0 0
  else if nz.isZero then
    if !numPositive then .nonneg
    else if nz.scale = 0 then .posInf
    else .atLeast (num.lo / (4 * tol * nz.scale * norm))
  else if nz.sigma2.lo ≤ tol * nz.scale then .nonneg
  else admitRatio tol num numScale (ivScale norm nz.sigma2) (tol * nz.scale * norm)

/-- What the rules admit for `SINR = Ratio(RSRP, sigma2)` (43_format0.md R91, 44_format1.md R107;
00_scope.md R15). -/
def f1SinrAdmitted (tol : Rat) (rsrp : Ival) (rsrpScale : Rat) (nz : F1Noise) : Admitted :=
  if nz.scale = 0 then .within 0 0
  else if nz.isZero then .nonneg
  else if nz.sigma2.lo ≤ tol * nz.scale then .nonneg
  else admitRatio tol rsrp rsrpScale nz.sigma2 (tol * nz.scale)

/-- `RSRP` of a key, enclosed (44_format1.md R107). -/
def f1Rsrp (d : PucchDesc) (s : State) (occ m0 : Nat) : Ival :=
  ivScale (1 / ((nofPorts d * nofHops d : Nat) : Rat))
    (ivSum ((f1Lanes d).map (fun hp => cbAbs2 (csBox (f1Chan d s hp.1 hp.2 occ m0)))))

/-- The scale of `RSRP` (00_scope.md R15). -/
def f1RsrpScale (d : PucchDesc) (s : State) : Rat :=
  ratSum ((f1Lanes d).map (fun hp => f1ChanAmp d s hp.1 hp.2 * f1ChanAmp d s hp.1 hp.2)) /
    ((nofPorts d * nofHops d : Nat) : Rat)

/-- The UCI word of an entry of length `q` (44_format1.md R107, 30_encoding.md R69). -/
def f1Uci (q : Nat) (pass b0 b1 : Bool) : Word :=
  if q = 0 then uciWord (pass && !b0) true true 0#2 false false
  else if q = 1 then uciWord pass false false 1#2 b0 false
  else uciWord pass false false 2#2 b0 b1

/-- The six words of result entry `e` (30_encoding.md R71, 44_format1.md R107). Where a sample
of the allocation is not finite, every value is a draw (93_implementation_defined.md part 1, 00_scope.md R15). The scale
of `cr` and of `ci` is that of `Xc`, and the scale of `cr + ci` twice it: DEDUCED, log entry 40. -/
def f1Entry (d : PucchDesc) (s : State) (norm thr : Rat) (nz : F1Noise) (epre : F32) (e : Nat) (w : Word) : List Word :=
  let tol := s.params.tol
  let ep := s.draws
  let occ := muxOcc w
  let m0 := muxCs w
  let q := muxHarq w
  let ok := rxFinite (rxBlocks d s)
  let xc := f1Cross d s occ m0
  let bound := tol * f1CrossScale d s
  let bits : Bool × Bool :=
    if !ok then (drawBool true true ⟨ep, .f1Bit0, e⟩, drawBool true true ⟨ep, .f1Bit1, e⟩)
    else if q ≤ 1 then (f1Negative (ivAdd xc.re xc.im) (2 * bound) ⟨ep, .f1Bit0, e⟩, false)
    else (f1Negative xc.re bound ⟨ep, .f1Bit0, e⟩, f1Negative xc.im bound ⟨ep, .f1Bit1, e⟩)
  let turn := f1SymbolTurn q bits.1 bits.2
  let metric : Admitted :=
    if ok then
      f1MetricAdmitted tol norm (f1Num d s turn occ m0) (f1NumScale d s) (f1NumPositive d s turn occ m0) nz
    else .any
  let pass := drawBool (mayExceed metric thr) (mayNotExceed metric thr) ⟨ep, .f1Pass, e⟩
  let rsrp := f1Rsrp d s occ m0
  let rsrpScale := f1RsrpScale d s
  [ muxKeyWord w,
    f1Uci q pass bits.1 bits.2,
    drawF32 metric ⟨ep, .f1Metric, e⟩,
    epre,
    drawF32 (if ok then admitNear rsrp (tol * rsrpScale) else .any) ⟨ep, .f1Rsrp, e⟩,
    drawF32 (if ok then f1SinrAdmitted tol rsrp rsrpScale nz else .any) ⟨ep, .f1Sinr, e⟩ ]

/-- The common EPRE of the allocation (44_format1.md R106). -/
def f1Epre (d : PucchDesc) (s : State) : F32 :=
  let epre := ratSum ((rxBlocks d s).map blockEnergy) / ((12 * nofPorts d * nofSym d : Nat) : Rat)
  drawF32 (if rxFinite (rxBlocks d s) then admitNear (ivOf epre) (s.params.tol * epre) else .any) ⟨s.draws, .f1Epre, 0⟩

/-- The reported noise variance `sigma2` (44_format1.md R106). -/
def f1NoiseVar (d : PucchDesc) (s : State) (nz : F1Noise) : F32 :=
  drawF32 (if rxFinite (rxBlocks d s) then admitNear nz.sigma2 (s.params.tol * nz.scale) else .any)
    ⟨s.draws, .f1Noise, 0⟩

/-- `F1_NORM(cfg)`, `cfg` the latched descriptor with its mux list (00_scope.md R8, 10_state.md R32). -/
def f1NormOf (d : PucchDesc) (s : State) (mux : List Word) : Rat := f1Norm s.params (encode (.procF1 d) ++ mux)

/-- `F1_THR(P * H)` (00_scope.md R8). -/
def f1ThrOf (d : PucchDesc) : Rat := (f1Thr (nofPorts d * nofHops d)).getD 0

/-- The words of the record after its header (30_encoding.md R71): one entry for each mux entry, in its order
(44_format1.md R110, R111). -/
def f1Record (d : PucchDesc) (s : State) (mux : List Word) : List Word :=
  let nz := f1NoiseOf (f1Samples d s (f1Occs mux))
  let epre := f1Epre d s
  d.bufLen :: epre :: f1NoiseVar d s nz ::
    (mux.mapIdx (f1Entry d s (f1NormOf d s mux) (f1ThrOf d) nz epre)).flatten

/-! ## The command -/

/-- `OP[k]` with the mux list latched, where stage B reaches it (20_memory.md R46, 44_format1.md R109). -/
def latchMux (d : PucchDesc) (s : State) : State :=
  if muxReached d s then
    match s.cur.inst with
    | some k => setInst k { getInst s k with op := ⟨(getInst s k).op.words, seenMux d s⟩ } s
    | none => s
  else s

/-- `PROC.F1` (44_format1.md R110). -/
def execProcF1 (d : PucchDesc) (s : State) : Result :=
  match stageB .f1 d s with
  | some code => raiseFault (.procF1 d) code (latchMux d s)
  | none => finishDone (.procF1 d) (f1Record d s (seenMux d s)) [] (latchMux d s)

end Sys2Proof.Machine
end

