-- ==== Sys2Proof/Machine/Format234.lean ====
section
/-! DEFINITION. The Format 2, 3 and 4 demodulators: `PROC.F2`, `PROC.F3`, `PROC.F4` (45_format234.md). -/

namespace Sys2Proof.Machine

/-! ## Symbol streams (45_format234.md R118, R119) -/

/-- One element of a symbol stream, in ideal arithmetic: symbol and noise variance. -/
inductive StreamSym
  /-- the noise variance fails `good_nv`, or the symbol is not finite: every LLR is exactly 0 (45_format234.md R120) -/
  | unusable
  /-- nothing bounds the symbol, which may then be finite or not: it depends on a value that is not finite
  (00_scope.md R15), or no pair of binary32 values is within its error bound (log entry 33); `e` is the noise variance -/
  | openSym (e : Rat)
  /-- the symbol, its scale (00_scope.md R15) and the noise variance -/
  | value (sym : CBox) (scale e : Rat)
deriving DecidableEq, Repr, Inhabited

/-- A symbol that binary32 can hold within its error bound, else an open one. -/
def streamSym (tol : Rat) (sym : CBox) (scale e : Rat) : StreamSym :=
  if cAdmitsSome (.disk sym (tol * scale)) then .value sym scale e else .openSym e

/-- What the ports give the resource element `(l, k)`: grid sample, channel coefficient, noise variance
(45_format234.md R118, R119). -/
def reLanes (d : PucchDesc) (s : State) (ch : Chest) (l k : Nat) : List EqLane :=
  (List.range (nofPorts d)).map (fun p =>
    { y := gridRead s d.gridHandle (portAt d p) l k, h := chCoef ch p l k, nv := chNv ch p })

/-- `Equalize` at `(l, k)` with `SCALING` 1.0 (45_format234.md R118, R119). -/
def reEqualized (d : PucchDesc) (s : State) (ch : Chest) (l k : Nat) : EqIdeal :=
  equalizeIdeal s.params.eqAlgo 1 (reLanes d s ch l k)

/-- The data REs of a Format 2 allocation, symbol by symbol, subcarriers rising (45_format234.md R113). -/
def f2DataRes (d : PucchDesc) : List (Nat × Nat) :=
  (List.range (nofSym d)).flatMap (fun i =>
    ((List.range (12 * d.nofPrb.toNat)).filter (fun k => !f2IsDmrs (k % 12))).map
      (fun k => (startSym d + i, 12 * prbBase d i + k)))

/-- An equalized RE as a stream element (45_format234.md R118). -/
def streamOfEq (tol : Rat) : EqIdeal → StreamSym
  | .bad => .unusable
  | .openSymbol e => .openSym e
  | .good z scale e => streamSym tol (cbOf z.re z.im) scale e

/-- The symbol stream of `PROC.F2` (45_format234.md R118). -/
def f2Stream (d : PucchDesc) (s : State) (ch : Chest) : List StreamSym :=
  (f2DataRes d).map (fun re => streamOfEq s.params.tol (reEqualized d s ch re.1 re.2))

/-- The data symbols `DS` of a Format 3 or 4 allocation (45_format234.md R114). -/
def f34Data (d : PucchDesc) : List Nat := f34DataSym (nofSym d) (hopEn d) (addDmrs d)

/-- The equalized block of data symbol `i` over `msc` subcarriers (45_format234.md R115, R119). -/
def f34Block (d : PucchDesc) (s : State) (ch : Chest) (msc i : Nat) : List EqIdeal :=
  (List.range msc).map (fun k => reEqualized d s ch (startSym d + i) (12 * prbBase d i + k))

/-- The exact noise variance of a good RE. -/
def eqE : EqIdeal → Option Rat
  | .bad => none
  | .openSymbol e => some e
  | .good _ _ e => some e

/-- The ideal equalized symbol and its scale: a bad RE is exactly 0 (42_equalizer.md R84). -/
def eqSymScale : EqIdeal → QC × Rat
  | .bad | .openSymbol _ => (⟨0, 0⟩, 0)
  | .good z scale _ => (z, scale)

/-- May the equalized symbol be no finite pair? -/
def eqIsOpen (tol : Rat) : EqIdeal → Bool
  | .bad => false
  | .openSymbol _ => true
  | .good z scale _ => !cAdmitsSome (.disk (cbOf z.re z.im) (tol * scale))

/-- `Deprecode` and `DeprecodeNoise` of one equalized block: a bad RE keeps its bad noise variance, every other one
takes the mean of the good ones; an equalized symbol that is open makes every deprecoded symbol open
(41_transform_precoder.md R79, R80; 45_format234.md R119). -/
def f34Deprecoded (tol : Rat) (block : List EqIdeal) : List StreamSym :=
  let xs := block.map eqSymScale
  let mu := meanOf (block.filterMap eqE)
  let scale := deprecodeScale (xs.map (·.2))
  let isOpen := block.any (eqIsOpen tol)
  block.mapIdx (fun m r =>
    if (eqE r).isNone then .unusable
    else if isOpen then .openSym mu
    else streamSym tol (deprecodeIdeal (xs.map (·.1)) m) scale mu)

/-- The symbol stream of `PROC.F3` (45_format234.md R119). -/
def f3Stream (d : PucchDesc) (s : State) (ch : Chest) : List StreamSym :=
  (f34Data d).flatMap (fun i => f34Deprecoded s.params.tol (f34Block d s ch (12 * d.nofPrb.toNat) i))

/-- Nothing bounds the symbol. -/
def streamIsOpen : StreamSym → Bool
  | .openSym _ => true
  | .unusable | .value _ _ _ => false

/-- The ideal symbol, its scale and the noise variance of a stream element; an unbounded symbol counts as 0. -/
def streamParts : StreamSym → CBox × Rat × Rat
  | .unusable => (cbOf 0 0, 0, 0)
  | .openSym e => (cbOf 0 0, 0, e)
  | .value z scale e => (z, scale, e)

/-- The average of stream elements each turned by a number of quarter turns, with the noise variances over `sf^2`
(45_format234.md R117). That noise variance stays the ideal positive one and never fails `good_nv`, also where no
binary32 value lies within its error bound: DESIGN CHOICE, log entry 39. -/
def despreadCopies (tol : Rat) (sf : Nat) (copies : List (Nat × StreamSym)) : StreamSym :=
  let f : Rat := 1 / (sf : Rat)
  let part (c : Nat × StreamSym) : CBox × Rat × Rat := streamParts c.2
  let e := f * f * ratSum (copies.map (fun c => (part c).2.2))
  if copies.any (fun c => c.2 == .unusable) then .unusable
  else if copies.any (fun c => streamIsOpen c.2) then .openSym e
  else
    streamSym tol (cbScale f (cbSum (copies.map (fun c => cbQuarter c.1 (part c).1))))
      (f * ratSum (copies.map (fun c => (part c).2.1))) e

/-- The Format 4 despreader on one deprecoded data symbol (45_format234.md R117). `conj(w)` of `q` quarter turns is
`4 - q` of them. -/
def despread (tol : Rat) (sf n : Nat) (sd : List StreamSym) : List StreamSym :=
  let w := f4Occ sf n
  let mb := 12 / sf
  (List.range mb).map (fun m =>
    despreadCopies tol sf ((List.range sf).map (fun q =>
      (4 - w.getD (m + q * mb) 0, sd.getD (m + q * mb) .unusable))))

/-- The symbol stream of `PROC.F4` (45_format234.md R117, R119). -/
def f4Stream (d : PucchDesc) (s : State) (ch : Chest) : List StreamSym :=
  (f34Data d).flatMap (fun i =>
    despread s.params.tol (occLen d) d.occIdx.toNat (f34Deprecoded s.params.tol (f34Block d s ch 12 i)))

/-! ## LLRs (45_format234.md R120 to R123) -/

/-- `2*sqrt(2)`, enclosed. -/
def sqrt8 : Ival := ⟨sqrtLo 8, sqrtHi 8⟩

/-- The LLRs of one stream element: exactly 0, or within an error bound (45_format234.md R120, R121;
00_scope.md R15). -/
inductive LlrIdeal
  | zero
  | near (l : Ival) (bound : Rat)
deriving DecidableEq, Repr, Inhabited

/-- Element `n` of a symbol stream as the demodulator sees it: an open symbol is a draw, and makes the element
unusable where it is not finite (45_format234.md R120). -/
def settled (epoch n : Nat) : StreamSym → StreamSym
  | .openSym e =>
    let z := drawC64 .any ⟨epoch, .symbol, n⟩
    if c64Finite z then .value (cbOf (f32Rat z.re) (f32Rat z.im)) (qcAbsHi (qcOf z)) e else .unusable
  | .unusable => .unusable
  | .value z scale e => .value z scale e

/-- The QPSK LLRs of a settled stream element (45_format234.md R120, R121). The scale of `Re(s)` and of `Im(s)` is that
of `s`: DEDUCED, log entry 40. -/
def llrsQpsk (tol : Rat) : StreamSym → List LlrIdeal
  | .unusable | .openSym _ => [.zero, .zero]
  | .value z scale e =>
    let bound := tol * (sqrt8.hi * scale / e)
    [.near (ivMul sqrt8 (ivScale (1 / e) z.re)) bound, .near (ivMul sqrt8 (ivScale (1 / e) z.im)) bound]

/-- The pi/2-BPSK LLR of settled stream element `n` (45_format234.md R120, R121). The scale of `Re(r) + Im(r)` is twice
that of `s`: DEDUCED, log entry 40. -/
def llrsBpsk (tol : Rat) (n : Nat) : StreamSym → List LlrIdeal
  | .unusable | .openSym _ => [.zero]
  | .value z scale e =>
    let r := cbQuarter (4 - n % 2) z
    [.near (ivMul sqrt8 (ivScale (1 / e) (ivAdd r.re r.im))) (tol * (sqrt8.hi * (2 * scale) / e))]

/-- The LLRs of a settled stream, in order: `L` of 45_format234.md R121. -/
def llrs (tol : Rat) (qm : Nat) (stream : List StreamSym) : List LlrIdeal :=
  if qm = 1 then (stream.mapIdx (llrsBpsk tol)).flatten else stream.flatMap (llrsQpsk tol)

/-- The sign flip of the descrambler (45_format234.md R122). -/
def llrFlip (bit : Bool) : LlrIdeal → LlrIdeal
  | .near l bound => if bit then .near (ivNeg l) bound else .near l bound
  | .zero => .zero

/-- The patterns of `a..b` at which `Q_LLR` takes every level it takes on them: the ends, 0, and the breakpoints of
either sign within. -/
def llrPoints (p : Params) (a b : F32) : List F32 :=
  [a, b] ++ (f32Zero :: (p.llrThr ++ p.llrThr.map f32Neg)).filter
    (fun x => decide (f32Rank a ≤ f32Rank x) && decide (f32Rank x ≤ f32Rank b))

/-- Every level of `Q_LLR`. -/
def allLevels (p : Params) : List Int := (f32Zero :: (p.llrThr ++ p.llrThr.map f32Neg)).map (qLlr p)

/-- The levels of `Q_LLR` that the rules admit (45_format234.md R120, R123; 00_scope.md R9, R15): those of the binary32
values within the error bound. An LLR beyond the binary32 range saturates (R123); where no value is within the bound
otherwise, any level is admitted (log entry 33). -/
def llrLevels (p : Params) : LlrIdeal → List Int
  | .zero => [0]
  | .near l bound =>
    match f32Ceil (l.lo - bound), f32Floor (l.hi + bound) with
    | some a, some b => if f32Rank a ≤ f32Rank b then (llrPoints p a b).map (qLlr p) else allLevels p
    | none, _ => [(llrMax p : Int)]
    | _, none => [-(llrMax p : Int)]

/-- Byte `n` of the LLR buffer: one of the admitted levels (45_format234.md R123). -/
def llrByte (p : Params) (epoch n : Nat) (x : LlrIdeal) : Byte :=
  let levels := (llrLevels p x).dedup
  BitVec.ofInt 8 (levels.getD (drawFrom (List.range levels.length) 0 ⟨epoch, .llr, n⟩) 0)

/-- The LLR buffer of a stream: demodulated, descrambled and formatted (45_format234.md R120 to R123). -/
def llrBytes (d : PucchDesc) (s : State) (qm : Nat) (stream : List StreamSym) : List Byte :=
  (llrs s.params.tol qm (stream.mapIdx (settled s.draws))).mapIdx (fun n x =>
    llrByte s.params s.draws n (llrFlip (prnBit s.params (cInit d) n) x))

/-- The words of the record after its header; the CSI is copied bit for bit (30_encoding.md R72, 45_format234.md
R112). -/
def csiRecord (count : Nat) (ch : Chest) : List Word :=
  [ BitVec.ofNat 32 count, ch.epre, ch.rsrp, ch.sinr, if ch.taValid then 1#32 else 0#32,
    if ch.taValid then ch.ta else f32Zero ]

/-! ## The commands -/

/-- `PROC.F2` (45_format234.md R126). -/
def execProcF2 (d : PucchDesc) (s : State) : Result :=
  match stageB .f2 d s with
  | some code => raiseFault (.procF2 d) code s
  | none =>
    let ch := chEst s (encode (.procF2 d))
    finishDone (.procF2 d) (csiRecord (llrCount .f2 d) ch)
      [(d.bufAddr.toNat, llrBytes d s 2 (f2Stream d s ch))] s

/-- `PROC.F3` (45_format234.md R127). -/
def execProcF3 (d : PucchDesc) (s : State) : Result :=
  match stageB .f3 d s with
  | some code => raiseFault (.procF3 d) code s
  | none =>
    let ch := chEst s (encode (.procF3 d))
    finishDone (.procF3 d) (csiRecord (llrCount .f3 d) ch)
      [(d.bufAddr.toNat, llrBytes d s (qmOf .f3 d) (f3Stream d s ch))] s

/-- `PROC.F4` (45_format234.md R128). -/
def execProcF4 (d : PucchDesc) (s : State) : Result :=
  match stageB .f4 d s with
  | some code => raiseFault (.procF4 d) code s
  | none =>
    let ch := chEst s (encode (.procF4 d))
    finishDone (.procF4 d) (csiRecord (llrCount .f4 d) ch)
      [(d.bufAddr.toNat, llrBytes d s (qmOf .f4 d) (f4Stream d s ch))] s

end Sys2Proof.Machine
end

