-- ==== Sys2Proof/Machine/Validator.lean ====
section
/-! DEFINITION. The validator: `VAL.F0` to `VAL.F4` (46_dispatcher_pool.md R138 to R143). -/

namespace Sys2Proof.Machine

/-- The record of a validator command: accepted, or rejected with a code (30_encoding.md R73,
46_dispatcher_pool.md R138). -/
def valRecord (i : Instr) (reject : Option FaultCode) : List Word :=
  match reject with
  | some code => [instrHeader i rsRejected, 0#24 ++ faultByte code]
  | none => [instrHeader i rsDone, 0#32]

/-- The validate step: stage B on the snapshot, the record, completion. It takes no lease, reads no sample and never
faults (46_dispatcher_pool.md R138). -/
def validate (f : Fmt) (i : Instr) (d : PucchDesc) (s : State) : Result :=
  finish (footprint s.cur.desc i)
    [((instrResAddr i).toNat, bytesOfWords (valRecord i (stageB f d s)))] s

/-- The dispatcher's snapshot with the mux list of a `VAL.F1` call, where stage B reaches it (20_memory.md R46,
46_dispatcher_pool.md R138). -/
def latchSnapMux (d : PucchDesc) (s : State) : State :=
  if muxReached d s then
    setPort s.cur.caller
      { getPort s s.cur.caller with
        snap := ⟨(getPort s s.cur.caller).snap.words, seenMux d s⟩ } s
  else s

/-- `VAL.F0` (46_dispatcher_pool.md R139). -/
def execValF0 (d : PucchDesc) (s : State) : Result := validate .f0 (.valF0 d) d s

/-- `VAL.F1` (46_dispatcher_pool.md R140). -/
def execValF1 (d : PucchDesc) (s : State) : Result := validate .f1 (.valF1 d) d (latchSnapMux d s)

/-- `VAL.F2` (46_dispatcher_pool.md R141). -/
def execValF2 (d : PucchDesc) (s : State) : Result := validate .f2 (.valF2 d) d s

/-- `VAL.F3` (46_dispatcher_pool.md R142). -/
def execValF3 (d : PucchDesc) (s : State) : Result := validate .f3 (.valF3 d) d s

/-- `VAL.F4` (46_dispatcher_pool.md R143). -/
def execValF4 (d : PucchDesc) (s : State) : Result := validate .f4 (.valF4 d) d s

end Sys2Proof.Machine
end

