-- ==== Sys2Proof/Machine/Dispatch.lean ====
section
/-! DEFINITION. The meaning of every command, arm by arm. -/

namespace Sys2Proof.Machine

/-- The effect of a command that the agent of `s.cur` runs (46_dispatcher_pool.md R132, R138). -/
def exec (i : Instr) (s : State) : Host.Outcome State Fault Refusal :=
  match i with
  | .procF0 d => Sys2Proof.Machine.execProcF0 d s
  | .procF1 d => Sys2Proof.Machine.execProcF1 d s
  | .procF2 d => Sys2Proof.Machine.execProcF2 d s
  | .procF3 d => Sys2Proof.Machine.execProcF3 d s
  | .procF4 d => Sys2Proof.Machine.execProcF4 d s
  | .valF0 d => Sys2Proof.Machine.execValF0 d s
  | .valF1 d => Sys2Proof.Machine.execValF1 d s
  | .valF2 d => Sys2Proof.Machine.execValF2 d s
  | .valF3 d => Sys2Proof.Machine.execValF3 d s
  | .valF4 d => Sys2Proof.Machine.execValF4 d s
  | .deprecodeSym d => Sys2Proof.Machine.execDeprecodeSym d s
  | .deprecodeNoise d => Sys2Proof.Machine.execDeprecodeNoise d s
  | .equalize d => Sys2Proof.Machine.execEqualize d s

end Sys2Proof.Machine
end

