-- ==== Sys2Proof/Machine/Step.lean ====
section
/-! DEFINITION. One step of the machine: the next scheduled action, or an enabled step of the block. -/

namespace Sys2Proof.Machine

/-- The command in operand registers run in a context (46_dispatcher_pool.md R132, R138). -/
def runWords (words : List Word) (ctx : Ctx) (s : State) : Result :=
  match decode words with
  | .ok i => exec i { s with cur := ctx }
  | .error _ => .fault .operandsUndecodable

/-- One action of one agent; an action that is not enabled changes nothing. -/
def runEvent (e : Event) (s : State) : Result :=
  match e with
  | .regWrite off v => .next (writeReg off v s)
  | .regRead off => .next (readRegister off s)
  | .dmemWrite a w v => hostWrite a w v s
  | .dmemRead a w => hostRead a w s
  | .gridWrite h port sym sc v => .next (platformGrid h port sym sc v s)
  | .chestWrite cfg v => .next (platformChest cfg v s)
  | .powerOn bytes => .next (platformPowerOn bytes s)
  | .dispatch c hint => dispatch c hint s
  | .validate c =>
    match validatable s c with
    | some ctx => runWords (getPort s c).snap.words ctx s
    | none => .next s
  | .execute k =>
    match executable s k with
    | some ctx => runWords (getInst s k).op.words ctx s
    | none => .next s

/-- The number of the enabled step that the block takes by itself: a free choice (46_dispatcher_pool.md R131). -/
def pickStep (s : State) : Nat := drawFrom (List.range (enabledSteps s).length) 0 ⟨s.draws, .schedule, 0⟩

/-- One step: the head of the schedule, or with an empty schedule any enabled step of the block; with none enabled the
machine waits (46_dispatcher_pool.md R131, R134; log entry 7). -/
def step (s : State) : Host.Outcome State Fault Refusal :=
  match s.sched with
  | e :: rest => runEvent e { s with sched := rest }
  | [] =>
    match (enabledSteps s)[pickStep s]? with
    | some e => runEvent e { s with draws := s.draws + 1 }
    | none => .next s

/-- `s` with the instruction whose bits are `w` placed so that the next step runs it (log entry 20). -/
def State.withFetchWord (s : State) (nbits w : Nat) : State := placeCommand (wordsOfNat 11 (w % 2 ^ nbits)) s

end Sys2Proof.Machine
end

