-- ==== Sys2Proof/Safety.lean ====
section
/-! DEFINITION. The terms in which statements are made: legal parameters, the invariant of the machine, and what a
completed or a faulted command leaves. -/

namespace Sys2Proof.Machine

/-! ## Legal parameters (00_scope.md R5 to R10) -/

/-- The structural, geometry and memory parameters are in their ranges (00_scope.md R5 to R7). -/
def ParamRanges (p : Params) : Prop :=
  (1 ≤ p.k ∧ p.k ≤ 16) ∧ (1 ≤ p.nCallers ∧ p.nCallers ≤ 16) ∧ (1 ≤ p.maxPorts ∧ p.maxPorts ≤ 8) ∧
  (1 ≤ p.nRbGrid ∧ p.nRbGrid ≤ 275) ∧ (1 ≤ p.nofGridPorts ∧ p.nofGridPorts ≤ 8) ∧
  (1 ≤ p.dmemSize ∧ p.dmemSize ≤ 2 ^ 32)

/-- The calibration tables meet their constraints (00_scope.md R8, R10). -/
def ParamCalibration (p : Params) : Prop :=
  0 < p.tol ∧ (139 : Rat) / 20 < 1 / (4 * p.tol) ∧ 0 < p.f1NormElse ∧ (∀ e ∈ p.f1NormTab, 0 < e.2) ∧
  (∀ e ∈ p.f0Thr, goodNv e.thr = true ∧ f32Rat e.thr < 1 / (4 * p.tol)) ∧
  (∀ e ∈ p.f0Thr, ∀ e' ∈ p.f0Thr, e.ncand = e'.ncand → e.dof ≤ e'.dof → f32Rat e.thr ≤ f32Rat e'.thr)

/-- The breakpoints of `Q_LLR` are patterns of positive values up to `+inf`, rising, 1 to 127 of them (00_scope.md
R9). -/
def ParamQuantiser (p : Params) : Prop :=
  (1 ≤ p.llrThr.length ∧ p.llrThr.length ≤ 127) ∧ (∀ t ∈ p.llrThr, 0 < t.toNat ∧ t.toNat ≤ 0x7F800000) ∧
  p.llrThr.Pairwise (fun a b => a.toNat ≤ b.toNat)

/-- Every element of a base sequence lies in a box that holds a value of modulus 1 (00_scope.md R11). -/
def ParamSequences (p : Params) : Prop :=
  ∀ e ∈ p.paprTab, ∀ f ∈ e.2, f.unit.re.lo ≤ f.unit.re.hi ∧ f.unit.im.lo ≤ f.unit.im.hi ∧
    (cbAbs2 f.unit).lo ≤ 1 ∧ 1 ≤ (cbAbs2 f.unit).hi

/-- Parameters the spec allows. -/
def ParamsLegal (p : Params) : Prop := ParamRanges p ∧ ParamCalibration p ∧ ParamQuantiser p ∧ ParamSequences p

/-! ## The invariant -/

/-- There are `N_CALLERS` ports and `K` instances (10_state.md R29, R32). -/
def State.shapeOk (s : State) : Prop := s.ports.length = s.params.nCallers ∧ s.insts.length = s.params.k

/-- DMEM is in canonical form and lists only bytes that exist (20_memory.md R37). -/
def State.memoryOk (s : State) : Prop := Memory.wf s.dmem = true ∧ ∀ e ∈ s.dmem, e.1 < s.params.dmemSize

/-- The fault registers are 0 while the block runs, and hold a code once it has faulted (10_state.md R23 to R25). -/
def State.faultOk (s : State) : Prop :=
  match s.bstate with
  | .run => s.faultInfo = 0#32 ∧ s.faultAddr = 0#32 ∧ s.faultSrc = 0#32
  | .faulted => s.faultInfo.extractLsb' 0 8 ≠ 0#8

/-- Every running call holds the lease of its instance, whose owner it is (10_state.md R32, R33). -/
def State.callsLeased (s : State) : Prop :=
  ∀ c desc k, c < s.ports.length → (getPort s c).call = .running desc k →
    k < s.insts.length ∧ (getInst s k).lease = true ∧ (getInst s k).owner = c

/-- Every lease is held by the running call of its owner (10_state.md R32, R33). -/
def State.leasesOwned (s : State) : Prop :=
  ∀ k, k < s.insts.length → (getInst s k).lease = true →
    (getInst s k).owner < s.ports.length ∧ ∃ desc, (getPort s (getInst s k).owner).call = .running desc k

/-- The words hold a command, a validator's or not as `isVal` says, whose result header (of a validator: whole record)
lies in DMEM, as stage A has checked (46_dispatcher_pool.md R130). -/
def LatchedCommand (size : Nat) (isVal : Bool) (words : List Word) : Prop :=
  ∃ i, decode words = .ok i ∧ opcodeIsVal (instrOpcode i) = isVal ∧
    (instrResAddr i).toNat + (if isVal then 8 else 4) ≤ size

/-- Every running call's operand registers hold a command, no validator's, and every validating call's snapshot a
validator's (20_memory.md R46, 46_dispatcher_pool.md R131). -/
def State.latchesOk (s : State) : Prop :=
  (∀ c desc k, c < s.ports.length → (getPort s c).call = .running desc k →
    LatchedCommand s.params.dmemSize false (getInst s k).op.words) ∧
  (∀ c desc, c < s.ports.length → (getPort s c).call = .validating desc →
    LatchedCommand s.params.dmemSize true (getPort s c).snap.words)

/-- The invariant of the machine: what every state of every run meets. -/
structure State.Inv (s : State) : Prop where
  shape    : s.shapeOk
  memory   : s.memoryOk
  faultReg : s.faultOk
  calls    : s.callsLeased
  leases   : s.leasesOwned
  latches  : s.latchesOk

/-! ## What a command leaves -/

/-- An address outside every region of a list. -/
def Outside (rs : List Region) (a : Nat) : Prop := ∀ r ∈ rs, ¬ (r.addr ≤ a ∧ a < r.addr + r.len)

/-- Every field of State that neither a completed nor a faulted command changes is the same in both states: the
construction constants, GRID, CHEST (20_memory.md R37, R38), and the model's own schedule, context and host data. -/
structure SameSurroundings (s t : State) : Prop where
  params   : t.params = s.params
  grid     : t.grid = s.grid
  chest    : t.chest = s.chest
  sched    : t.sched = s.sched
  cur      : t.cur = s.cur
  hostData : t.hostData = s.hostData

/-- The registers and latches of every caller port but the call itself: `CALL_ADDR` of every port, and the call and
snapshot of every port but `c`'s, are the same. -/
def SameOtherCalls (c : Nat) (s t : State) : Prop :=
  t.ports.length = s.ports.length ∧ (∀ c', (getPort t c').callAddr = (getPort s c').callAddr) ∧
  ∀ c', c' ≠ c → (getPort t c').call = (getPort s c').call ∧ (getPort t c').snap = (getPort s c').snap

/-- A command that writes the given regions has completed in `t` (46_dispatcher_pool.md R132, R133, 30_encoding.md
R75): its call is idle, its instance free, no byte outside the regions has changed, the block state and the fault
registers are as before, and so is everything else but the executing instance. -/
structure Completed (outs : List Region) (s t : State) : Prop where
  idle      : (getPort t s.cur.caller).call = .idle
  released  : ∀ k, callInst (getPort s s.cur.caller).call = some k → (getInst t k).lease = false
  bytes     : ∀ a, Outside outs a → memByte t.dmem a = memByte s.dmem a
  bstate    : t.bstate = s.bstate
  faultInfo : t.faultInfo = s.faultInfo
  faultAddr : t.faultAddr = s.faultAddr
  faultSrc  : t.faultSrc = s.faultSrc
  around    : SameSurroundings s t
  calls     : SameOtherCalls s.cur.caller s t
  instances : t.insts.length = s.insts.length ∧
    ∀ k, callInst (getPort s s.cur.caller).call ≠ some k → s.cur.inst ≠ some k → getInst t k = getInst s k

/-- A command has raised a fault in a running block (60_exceptions.md R146): the fault registers name it, the block is
FAULTED, and no call, lease or byte has changed but the output bytes of other calls in flight. -/
structure Faulted (code : FaultCode) (i : Instr) (s t : State) : Prop where
  bstate    : t.bstate = .faulted
  code      : t.faultInfo = instrTag i ++ opcodeByte (instrOpcode i) ++ faultByte code
  faultAddr : t.faultAddr = s.cur.desc
  faultSrc  : t.faultSrc = 0#20 ++ BitVec.ofNat 4 (s.cur.inst.getD 15) ++ 0#4 ++ BitVec.ofNat 4 s.cur.caller
  ports     : t.ports = s.ports
  leases    : ∀ k, (getInst t k).lease = (getInst s k).lease ∧ (getInst t k).owner = (getInst s k).owner ∧
    (getInst t k).op.words = (getInst s k).op.words ∧ (getInst t k).scratch = (getInst s k).scratch
  bytes     : ∀ a, Outside (otherInFlightOuts s s.cur.caller) a → memByte t.dmem a = memByte s.dmem a
  around    : SameSurroundings s t

/-- The values that a command writes come out as computed: none of 20_memory.md R48 to R50 makes them draws. -/
def Undisturbed (i : Instr) (s : State) : Prop := ownTaint (footprint s.cur.desc i) s = .clean

/-- The result header comes out as written: the command overlaps no output of its own and of no other call, whatever
the host and the platform change of its inputs (20_memory.md R48 to R50). -/
def HeaderStands (i : Instr) (s : State) : Prop := ownTaint (footprint s.cur.desc i) s ≠ .outputs

/-- The caller that the context names exists. -/
def CallerExists (s : State) : Prop := s.cur.caller < s.ports.length

/-! ## What a result record says -/

/-- The processing command of a format: `PROC.F0` to `PROC.F4`. -/
def procInstr : Fmt → PucchDesc → Instr
  | .f0, d => .procF0 d
  | .f1, d => .procF1 d
  | .f2, d => .procF2 d
  | .f3, d => .procF3 d
  | .f4, d => .procF4 d

/-- The validator command of a format: `VAL.F0` to `VAL.F4`. -/
def valInstr : Fmt → PucchDesc → Instr
  | .f0, d => .valF0 d
  | .f1, d => .valF1 d
  | .f2, d => .valF2 d
  | .f3, d => .valF3 d
  | .f4, d => .valF4 d

/-- Word `n` of the result record at an address. -/
def recordWord (t : State) (res : Word) (n : Nat) : Word := memWord t.dmem (res.toNat + 4 * n)

/-- A UCI word whose status is valid or invalid, whose counts are those given, and whose upper bits are 0
(30_encoding.md R69). -/
structure UciShape (w : Word) (nofSr : Bool) (nofHarq : BitVec 2) : Prop where
  status : w.extractLsb' 0 2 = 1#2 ∨ w.extractLsb' 0 2 = 2#2
  sr     : w.getLsbD 2 = nofSr
  harq   : w.extractLsb' 4 2 = nofHarq
  upper  : w.extractLsb' 8 24 = 0#24

/-- The record of a demodulator after its header (30_encoding.md R72, 45_format234.md R112): the LLR count and the
estimator's values bit for bit; and where the noise variance of some port is bad, every LLR byte is 0 (R126). -/
structure DemodRecord (d : PucchDesc) (count : Nat) (ch : Chest) (t : State) : Prop where
  nofLlr   : recordWord t d.resAddr 1 = BitVec.ofNat 32 count
  epre     : recordWord t d.resAddr 2 = ch.epre
  rsrp     : recordWord t d.resAddr 3 = ch.rsrp
  sinr     : recordWord t d.resAddr 4 = ch.sinr
  taValid  : recordWord t d.resAddr 5 = if ch.taValid then 1#32 else 0#32
  ta       : recordWord t d.resAddr 6 = if ch.taValid then ch.ta else f32Zero
  badNoise : (∃ p, p < nofPorts d ∧ goodNv (chNv ch p) = false) →
    ∀ n, n < count → memByte t.dmem (d.bufAddr.toNat + n) = 0#8

/-! ## Checks in order (60_exceptions.md R145) -/

/-- `r` is the code of the first condition of a list that holds, and none where none holds. -/
def FirstFails : List (Prop × FaultCode) → Option FaultCode → Prop
  | [], r => r = none
  | (b, code) :: rest, r => (b → r = some code) ∧ (¬ b → FirstFails rest r)

/-! ## Progress (46_dispatcher_pool.md R134) -/

/-- The number of steps that a call has left. -/
def callWeight : CallState → Nat
  | .idle => 0
  | .pending _ => 2
  | .running _ _ | .validating _ => 1

/-- The number of steps that all calls have left. -/
def busyWeight (s : State) : Nat := (s.ports.map (fun p => callWeight p.call)).sum

/-- The number of calls that are running (46_dispatcher_pool.md R135). -/
def runningCalls (s : State) : Nat := (s.ports.filter (fun p => (callInst p.call).isSome)).length

/-! ## The values of the rules, over the real and the complex numbers -/

/-- The value of a finite pattern (00_scope.md R13). -/
noncomputable def realOf (x : F32) : ℝ := (f32Rat x : ℝ)

/-- The value of a finite pair (00_scope.md R13). -/
noncomputable def complexOf (z : C64) : ℂ := ⟨realOf z.re, realOf z.im⟩

/-- `e^(j*2*pi*turn)`. -/
noncomputable def rootOf (turn : ℝ) : ℂ := Complex.exp ((2 * Real.pi * turn : ℝ) * Complex.I)

/-- A finite pair whose parts are the rationals. -/
def SampleIs (z : C64) (re im : Rat) : Prop := c64Finite z = true ∧ f32Rat z.re = re ∧ f32Rat z.im = im

/-- The error bound `TOL * S` of a value of scale `S` (00_scope.md R15), widened by what the enclosures of irrational
values may add: log entry 10. -/
noncomputable def errorBound (tol : Rat) (scale : ℝ) : ℝ := ((tol : ℝ) * (1 + 1 / 2 ^ 40) + 1 / 2 ^ 40) * scale

/-- Some binary32 value lies within the error bound of a real (00_scope.md R15); where none does, nothing constrains
the value: log entry 33. -/
def RealHeld (tol : Rat) (q scale : ℝ) : Prop := ∃ w, f32Finite w = true ∧ |realOf w - q| ≤ tol * scale

/-- Some pair of binary32 values lies within the error bound of a complex value (00_scope.md R15). -/
def ComplexHeld (tol : Rat) (q : ℂ) (scale : ℝ) : Prop := ∃ w, c64Finite w = true ∧ ‖complexOf w - q‖ ≤ tol * scale

/-- The value returned for a real `q` of a scale: within the error bound, where binary32 holds such a value
(00_scope.md R15). -/
def ReturnsReal (tol : Rat) (q scale : ℝ) (x : F32) : Prop :=
  RealHeld tol q scale → f32Finite x = true ∧ |realOf x - q| ≤ errorBound tol scale

/-- The pair returned for a complex `q` of a scale: within the error bound, where binary32 holds such a pair
(00_scope.md R15). -/
def ReturnsComplex (tol : Rat) (q : ℂ) (scale : ℝ) (z : C64) : Prop :=
  ComplexHeld tol q scale → c64Finite z = true ∧ ‖complexOf z - q‖ ≤ errorBound tol scale

/-- The byte written for an LLR `q` of a scale, its sign flipped or not: the level of a binary32 value within the error
bound, where there is one (45_format234.md R121 to R123, 00_scope.md R9, R15). -/
def ReturnsLlr (p : Params) (flip : Bool) (q scale : ℝ) (b : Byte) : Prop :=
  RealHeld p.tol q scale → ∃ x, f32Finite x = true ∧ |realOf x - q| ≤ errorBound p.tol scale ∧
    b.toInt = if flip then -qLlr p x else qLlr p x

/-- The least quotient of a numerator and a denominator that are each within their error bounds, less the error bound of
the ratio itself (00_scope.md R15, 43_format0.md R94): log entry 12. -/
noncomputable def ratioLow (tol : Rat) (num numScale den denScale : ℝ) : ℝ :=
  let n := num - errorBound tol numScale
  let b := errorBound tol denScale
  min (n / (den + b)) (n / (den - b)) - errorBound tol (numScale / (den - b))

/-- The greatest such quotient, plus the error bound of the ratio itself. -/
noncomputable def ratioHigh (tol : Rat) (num numScale den denScale : ℝ) : ℝ :=
  let b := errorBound tol denScale
  (num + errorBound tol numScale) / (den - b) + errorBound tol (numScale / (den - b))

/-- The value of a ratio is one that the rules bound: its denominator is farther than its error bound from 0, and
binary32 holds a value within the error bound of the ratio (00_scope.md R15). -/
def RatioClosed (tol : Rat) (num numScale den denScale : ℝ) : Prop :=
  errorBound tol denScale < den ∧ RealHeld tol (num / den) (numScale / den)

/-- The value returned for `num / den` (43_format0.md R91, 00_scope.md R15). -/
def ReturnsRatio (tol : Rat) (num numScale den denScale : ℝ) (x : F32) : Prop :=
  RatioClosed tol num numScale den denScale →
    f32Finite x = true ∧ ratioLow tol num numScale den denScale ≤ realOf x ∧
      realOf x ≤ ratioHigh tol num numScale den denScale

/-- The status of a metric `num / den` against its threshold, outside the error bound of the metric: valid (1) above it,
invalid (2) else (43_format0.md R95, 44_format1.md R107, 00_scope.md R15). -/
def ReturnsStatus (tol : Rat) (num numScale den denScale thr : ℝ) (status : BitVec 2) : Prop :=
  RatioClosed tol num numScale den denScale →
    (thr < ratioLow tol num numScale den denScale → status = 1#2) ∧
    (ratioHigh tol num numScale den denScale ≤ thr → status = 2#2)

/-- Every element of a base sequence is given exactly (00_scope.md R11). -/
def ParamsExact (p : Params) : Prop := ∀ e ∈ p.paprTab, ∀ f ∈ e.2, cbIsPoint f.unit = true

/-- `LowPapr(u, v, t)[k]` of exact base sequences (00_scope.md R11). -/
noncomputable def lowPaprValue (p : Params) (q : SeqVal) (t k : Nat) : ℂ :=
  let base := lowPapr p q 0 k
  ⟨(base.unit.re.lo : ℝ), (base.unit.im.lo : ℝ)⟩ * rootOf (base.turn : ℝ) * rootOf ((t * k : ℝ) / 12)

/-- `Deprecode(x, M)[m]` (41_transform_precoder.md R79). -/
noncomputable def deprecodeValue (n : Nat) (x : Nat → ℂ) (m : Nat) : ℂ :=
  (1 / Real.sqrt n : ℝ) * ∑ k ∈ Finset.range n, x k * rootOf ((m * k : ℝ) / n)

/-- The scale of every `Deprecode(x, M)[m]`, given those of the inputs (00_scope.md R15). -/
noncomputable def deprecodeScaleValue (n : Nat) (scale : Nat → ℝ) : ℝ :=
  1 / Real.sqrt n * ∑ k ∈ Finset.range n, scale k

/-- One resource element at the equalizer: ports, received samples, channel coefficients, noise variances
(42_equalizer.md R84). -/
structure Element where
  ports : Nat
  y     : Nat → C64
  h     : Nat → C64
  nv    : Nat → F32

/-- RE `n` is bad (42_equalizer.md R84). -/
def Element.bad (r : Element) : Bool :=
  (List.range r.ports).any (fun p => !goodNv (r.nv p) || c64IsZero (r.h p) || !c64Finite (r.h p))

/-- Every received sample is finite. -/
def Element.finite (r : Element) : Bool := (List.range r.ports).all (fun p => c64Finite (r.y p))

/-- `g[n]` (42_equalizer.md R85). -/
noncomputable def Element.gain (r : Element) : ℝ :=
  ∑ p ∈ Finset.range r.ports, ‖complexOf (r.h p)‖ ^ 2 / realOf (r.nv p)

/-- `c[n]` (42_equalizer.md R85). -/
noncomputable def Element.matched (r : Element) : ℂ :=
  ∑ p ∈ Finset.range r.ports, starRingEnd ℂ (complexOf (r.h p)) * complexOf (r.y p) / (realOf (r.nv p) : ℂ)

/-- The scale of `c[n]` (00_scope.md R15). -/
noncomputable def Element.matchedScale (r : Element) : ℝ :=
  ∑ p ∈ Finset.range r.ports, ‖complexOf (r.h p)‖ * ‖complexOf (r.y p)‖ / realOf (r.nv p)

/-- `g[n]` for ZF, `g[n] + 1` for MMSE (42_equalizer.md R85). -/
noncomputable def Element.denominator (algo : EqAlgo) (r : Element) : ℝ :=
  match algo with
  | .zf => r.gain
  | .mmse => r.gain + 1

/-- `s[n]` with a scaling, of an element that is not bad; 0 of a bad one (42_equalizer.md R84, R85). -/
noncomputable def Element.symbol (algo : EqAlgo) (sf : ℝ) (r : Element) : ℂ :=
  if r.bad then 0 else r.matched * sf / (r.denominator algo : ℂ)

/-- The scale of `s[n]` (00_scope.md R15). -/
noncomputable def Element.symbolScale (algo : EqAlgo) (sf : ℝ) (r : Element) : ℝ :=
  if r.bad then 0 else r.matchedScale * sf / r.denominator algo

/-- `e[n]` with a scaling, of an element that is not bad (42_equalizer.md R85). -/
noncomputable def Element.noise (algo : EqAlgo) (sf : ℝ) (r : Element) : ℝ := sf ^ 2 / r.denominator algo

/-- What the ports give the resource element `(l, k)` of a Format 2, 3 or 4 command (45_format234.md R118, R119). -/
def elementAt (d : PucchDesc) (s : State) (ch : Chest) (l k : Nat) : Element where
  ports := d.nofPorts.toNat
  y p   := gridRead s d.gridHandle (d.portList.extractLsb' (4 * p) 4).toNat l k
  h p   := chCoef ch p l k
  nv p  := chNv ch p

/-- The mean noise variance of the elements of a block that are not bad (41_transform_precoder.md R80). -/
noncomputable def blockNoise (algo : EqAlgo) (n : Nat) (r : Nat → Element) : ℝ :=
  (∑ k ∈ Finset.range n, if (r k).bad then 0 else (r k).noise algo 1) /
    ((Finset.range n).filter (fun k => (r k).bad = false)).card

/-- Nothing leaves a symbol of a block open: the samples of every element that is not bad are finite, and binary32
holds its equalized symbol (00_scope.md R15). -/
def BlockClosed (tol : Rat) (algo : EqAlgo) (n : Nat) (r : Nat → Element) : Prop :=
  ∀ k, k < n → (r k).bad = false →
    (r k).finite = true ∧ ComplexHeld tol ((r k).symbol algo 1) ((r k).symbolScale algo 1)

/-- The bytes of a QPSK symbol `n` of a stream, with its noise variance (45_format234.md R121). -/
def ReturnsQpsk (p : Params) (cinit : Nat) (sym : ℂ) (scale e : ℝ) (n buf : Nat) (m : Memory) : Prop :=
  ReturnsLlr p (prnBit p cinit (2 * n)) (2 * Real.sqrt 2 * sym.re / e) (2 * Real.sqrt 2 * scale / e)
    (memByte m (buf + 2 * n)) ∧
  ReturnsLlr p (prnBit p cinit (2 * n + 1)) (2 * Real.sqrt 2 * sym.im / e) (2 * Real.sqrt 2 * scale / e)
    (memByte m (buf + (2 * n + 1)))

/-- The byte of a pi/2-BPSK symbol `n` of a stream, with its noise variance (45_format234.md R121). -/
def ReturnsBpsk (p : Params) (cinit : Nat) (sym : ℂ) (scale e : ℝ) (n buf : Nat) (m : Memory) : Prop :=
  let r := sym * rootOf (-((n % 2 : Nat) : ℝ) / 4)
  ReturnsLlr p (prnBit p cinit n) (2 * Real.sqrt 2 * (r.re + r.im) / e) (2 * Real.sqrt 2 * (2 * scale) / e)
    (memByte m (buf + n))

/-! ## The sums of the detectors -/

/-- Sample `k` of port `p` in symbol `i` of the allocation (43_format0.md R93, 44_format1.md R102). -/
def sampleAt (d : PucchDesc) (s : State) (i p k : Nat) : C64 :=
  gridRead s d.gridHandle (d.portList.extractLsb' (4 * p) 4).toNat (d.startSym.toNat + i) (12 * prbBase d i + k)

/-- Every sample of the allocation is finite. -/
def SamplesFinite (d : PucchDesc) (s : State) : Prop :=
  ∀ i p k, i < d.nofSym.toNat → p < d.nofPorts.toNat → k < 12 → c64Finite (sampleAt d s i p k) = true

/-- `(u, v, ncs)` of symbol `i` of the allocation (43_format0.md R93, 44_format1.md R102). -/
def sequenceAt (d : PucchDesc) (s : State) (i : Nat) : SeqVal :=
  seqParams s.params ⟨d.nId.toNat, d.slotIdx.toNat, d.mu.toNat, d.startSym.toNat + i, hopOf d i⟩

/-- Port `p` of symbol `i` correlated with the sequence at shift `t` before `ncs`: `C` of 43_format0.md R93, and
`Za[p][i][t]` of 44_format1.md R102. -/
noncomputable def correlation (d : PucchDesc) (s : State) (i p t : Nat) : ℂ :=
  let q := sequenceAt d s i
  ∑ k ∈ Finset.range 12, complexOf (sampleAt d s i p k) * starRingEnd ℂ (lowPaprValue s.params q ((t + q.ncs.val) % 12) k)

/-- The scale of every correlation of port `p` in symbol `i` (00_scope.md R15). -/
noncomputable def amplitude (d : PucchDesc) (s : State) (i p : Nat) : ℝ :=
  ∑ k ∈ Finset.range 12, ‖complexOf (sampleAt d s i p k)‖

/-- `Pc[c]` (43_format0.md R93). -/
noncomputable def candidatePower (d : PucchDesc) (s : State) (c : F0Cand) : ℝ :=
  ∑ i ∈ Finset.range d.nofSym.toNat, ∑ p ∈ Finset.range d.nofPorts.toNat,
    ‖correlation d s i p (d.initCs.toNat + c.mcs)‖ ^ 2 / 12

/-- The scale of every `Pc[c]` (00_scope.md R15). -/
noncomputable def candidatePowerScale (d : PucchDesc) (s : State) : ℝ :=
  ∑ i ∈ Finset.range d.nofSym.toNat, ∑ p ∈ Finset.range d.nofPorts.toNat, amplitude d s i p ^ 2 / 12

/-- `E`, the energy of the allocation (43_format0.md R93). -/
noncomputable def allocationEnergy (d : PucchDesc) (s : State) : ℝ :=
  ∑ i ∈ Finset.range d.nofSym.toNat, ∑ p ∈ Finset.range d.nofPorts.toNat, ∑ k ∈ Finset.range 12,
    ‖complexOf (sampleAt d s i p k)‖ ^ 2

/-- The symbols of hop `h` of a Format 1 allocation that are DM-RS (`dmrs`) or data (44_format1.md R99). -/
def symbolsOfHop (d : PucchDesc) (h : Nat) (dmrs : Bool) : List Nat :=
  (List.range d.nofSym.toNat).filter (fun i => decide (hopOf d i = h) && decide (i % 2 = if dmrs then 0 else 1))

/-- `D[p][h][i][m0]` (with `dmrs`) or `X[p][h][i][m0]` for cover `occ` (44_format1.md R100, R103). -/
noncomputable def despreadValue (d : PucchDesc) (s : State) (dmrs : Bool) (h p occ m0 : Nat) : ℂ :=
  let l := symbolsOfHop d h dmrs
  ∑ m ∈ Finset.range l.length,
    starRingEnd ℂ (rootOf ((f1OccPhase l.length occ m : ℝ) / l.length)) * correlation d s (l.getD m 0) p m0

/-- The scale of every `D` or `X` of a hop and port (00_scope.md R15). -/
noncomputable def despreadScale (d : PucchDesc) (s : State) (dmrs : Bool) (h p : Nat) : ℝ :=
  let l := symbolsOfHop d h dmrs
  ∑ m ∈ Finset.range l.length, amplitude d s (l.getD m 0) p

/-- `H`, the number of hops (44_format1.md R107). -/
def hopCount (d : PucchDesc) : Nat := if d.hopEn = 1#1 then 2 else 1

/-- `Xc` of a key (44_format1.md R103, R107). -/
noncomputable def crossValue (d : PucchDesc) (s : State) (occ m0 : Nat) : ℂ :=
  ∑ h ∈ Finset.range (hopCount d), ∑ p ∈ Finset.range d.nofPorts.toNat,
    starRingEnd ℂ (despreadValue d s true h p occ m0) * despreadValue d s false h p occ m0

/-- The scale of `Xc` (00_scope.md R15). -/
noncomputable def crossScale (d : PucchDesc) (s : State) : ℝ :=
  ∑ h ∈ Finset.range (hopCount d), ∑ p ∈ Finset.range d.nofPorts.toNat,
    despreadScale d s true h p * despreadScale d s false h p

/-- `RSRP` of a key (44_format1.md R105, R107). -/
noncomputable def rsrpValue (d : PucchDesc) (s : State) (occ m0 : Nat) : ℝ :=
  (∑ h ∈ Finset.range (hopCount d), ∑ p ∈ Finset.range d.nofPorts.toNat,
    (‖despreadValue d s true h p occ m0‖ / (12 * (symbolsOfHop d h true).length)) ^ 2) /
      (d.nofPorts.toNat * hopCount d)

/-- The scale of `RSRP` (00_scope.md R15). -/
noncomputable def rsrpScale (d : PucchDesc) (s : State) : ℝ :=
  (∑ h ∈ Finset.range (hopCount d), ∑ p ∈ Finset.range d.nofPorts.toNat,
    (despreadScale d s true h p / (12 * (symbolsOfHop d h true).length)) ^ 2) / (d.nofPorts.toNat * hopCount d)

/-- `dhat` of the decided bits for a length `q` (44_format1.md R107): BPSK for a length up to 1, else QPSK. -/
noncomputable def decidedSymbol (q : Nat) (b0 b1 : Bool) : ℂ :=
  let sign (b : Bool) : ℂ := if b then -1 else 1
  if q ≤ 1 then sign b0 * (1 + Complex.I) / Real.sqrt 2 else (sign b0 + Complex.I * sign b1) / Real.sqrt 2

/-- `M` of a key (44_format1.md R103, R107). -/
noncomputable def mainValue (d : PucchDesc) (s : State) (occ m0 : Nat) : ℝ :=
  ∑ h ∈ Finset.range (hopCount d), ∑ p ∈ Finset.range d.nofPorts.toNat,
    (‖despreadValue d s true h p occ m0‖ ^ 2 + ‖despreadValue d s false h p occ m0‖ ^ 2)

/-- `num` of a key whose symbol is `dhat` (44_format1.md R107). -/
noncomputable def numValue (d : PucchDesc) (s : State) (dhat : ℂ) (occ m0 : Nat) : ℝ :=
  mainValue d s occ m0 + 2 * (starRingEnd ℂ dhat * crossValue d s occ m0).re

/-- The scale of `num` (00_scope.md R15). -/
noncomputable def numScaleValue (d : PucchDesc) (s : State) : ℝ :=
  ∑ h ∈ Finset.range (hopCount d), ∑ p ∈ Finset.range d.nofPorts.toNat,
    (despreadScale d s true h p + despreadScale d s false h p) ^ 2

/-- `hh[p][h][i][m0]` (44_format1.md R105). -/
noncomputable def chanValue (d : PucchDesc) (s : State) (h p occ m0 : Nat) : ℂ :=
  despreadValue d s true h p occ m0 / (12 * (symbolsOfHop d h true).length)

/-- `En[h][i][m0]` (44_format1.md R105). -/
noncomputable def shiftEnergy (d : PucchDesc) (s : State) (h occ m0 : Nat) : ℝ :=
  ∑ p ∈ Finset.range d.nofPorts.toNat, ‖chanValue d s h p occ m0‖ ^ 2

/-- The scale of every `En` of a hop (00_scope.md R15). -/
noncomputable def shiftScale (d : PucchDesc) (s : State) (h : Nat) : ℝ :=
  ∑ p ∈ Finset.range d.nofPorts.toNat, (despreadScale d s true h p / (12 * (symbolsOfHop d h true).length)) ^ 2

/-- `keep` says which shifts `hz` keeps: outside the error bounds those whose energy is at least a tenth of the
strongest, in the hop, over the covers `OCCS` and all twelve shifts (44_format1.md R105, 00_scope.md R15). -/
structure KeptShifts (d : PucchDesc) (s : State) (occs : Finset Nat) (keep : Nat → Nat → Nat → Bool) : Prop where
  strong : ∀ h occ m0, occ ∈ occs → m0 < 12 →
    (∀ occ' m0', occ' ∈ occs → m0' < 12 → (shiftEnergy d s h occ' m0' + errorBound s.params.tol (shiftScale d s h)) / 10 ≤
      shiftEnergy d s h occ m0 - errorBound s.params.tol (shiftScale d s h)) → keep h occ m0 = true
  weak : ∀ h occ m0, occ ∈ occs → m0 < 12 →
    (∃ occ' m0', occ' ∈ occs ∧ m0' < 12 ∧ shiftEnergy d s h occ m0 + errorBound s.params.tol (shiftScale d s h) <
      (shiftEnergy d s h occ' m0' - errorBound s.params.tol (shiftScale d s h)) / 10) → keep h occ m0 = false

/-- `yhat[p][t][k]` of the `m`-th DM-RS symbol `t` of hop `h` (44_format1.md R106). -/
noncomputable def replicaValue (d : PucchDesc) (s : State) (occs : Finset Nat) (keep : Nat → Nat → Nat → Bool)
    (h p m k : Nat) : ℂ :=
  let l := symbolsOfHop d h true
  let q := sequenceAt d s (l.getD m 0)
  ∑ occ ∈ occs, ∑ m0 ∈ Finset.range 12, if keep h occ m0 then
    chanValue d s h p occ m0 * rootOf ((f1OccPhase l.length occ m : ℝ) / l.length) *
      lowPaprValue s.params q ((m0 + q.ncs.val) % 12) k
    else 0

/-- `sy[p][t][k]` of every DM-RS sample of hop `h` and port `p` (44_format1.md R108). -/
noncomputable def replicaScale (d : PucchDesc) (s : State) (occs : Finset Nat) (keep : Nat → Nat → Nat → Bool)
    (h p : Nat) : ℝ :=
  ∑ occ ∈ occs, ∑ m0 ∈ Finset.range 12, if keep h occ m0 then ‖chanValue d s h p occ m0‖ else 0

/-- The mean over the DM-RS samples of what hop, port, position in the hop and subcarrier give (44_format1.md R106). -/
noncomputable def dmrsMean (d : PucchDesc) (f : Nat → Nat → Nat → Nat → ℝ) : ℝ :=
  (∑ h ∈ Finset.range (hopCount d), ∑ p ∈ Finset.range d.nofPorts.toNat,
    ∑ m ∈ Finset.range (symbolsOfHop d h true).length, ∑ k ∈ Finset.range 12, f h p m k) /
      (12 * d.nofPorts.toNat * ∑ h ∈ Finset.range (hopCount d), (symbolsOfHop d h true).length)

/-- The received sample of a hop, port, position in the hop's DM-RS symbols and subcarrier. -/
def dmrsSample (d : PucchDesc) (s : State) (h p m k : Nat) : C64 := sampleAt d s ((symbolsOfHop d h true).getD m 0) p k

/-- `sigma2` (44_format1.md R106). -/
noncomputable def noiseValue (d : PucchDesc) (s : State) (occs : Finset Nat) (keep : Nat → Nat → Nat → Bool) : ℝ :=
  dmrsMean d (fun h p m k => ‖complexOf (dmrsSample d s h p m k) - replicaValue d s occs keep h p m k‖ ^ 2)

/-- `S2`, the scale of `sigma2` (44_format1.md R108). -/
noncomputable def noiseScaleValue (d : PucchDesc) (s : State) (occs : Finset Nat) (keep : Nat → Nat → Nat → Bool) : ℝ :=
  dmrsMean d (fun h p m k => (‖complexOf (dmrsSample d s h p m k)‖ + replicaScale d s occs keep h p) ^ 2)

/-! ## One call on another instance (10_state.md R36) -/

/-- The running call of `c`, at descriptor `desc`, on instance `k'` instead of `k`: the call, the lease, its owner and
its latched operands move. -/
def onInstance (c : Nat) (desc : Word) (k k' : Nat) (s : State) : State :=
  { setPort c { getPort s c with call := .running desc k' }
      (setInst k' { getInst s k' with lease := true, owner := c, op := (getInst s k).op }
        (setInst k { getInst s k with lease := false } s)) with
    cur := ⟨c, some k', desc⟩ }

end Sys2Proof.Machine
end

