-- ==== Sys2Proof/Certificates/Slice0/Obligations.lean ====
section
/-! DEFINITION. The statements for the provers. An action of the host, the platform or the scheduler is the head of
`sched`, and `cur` names the call that an agent serves: both are the model's own fields (log entries 7 and 26). Two
premises stand for 20_memory.md R48 to R50 (log entry 17). Under `Undisturbed` none of them makes an output of the
command a draw. Under the weaker `HeaderStands` the command overlaps no output of its own or of another call, and the
header keeps RSTATUS, OPC and TAG whatever the host changes of its inputs (R49). -/

open Sys2Proof Sys2Proof.Machine

/-! ## Encoding -/

/-- Reading the words that the encoder writes gives the command back, whatever words follow (30_encoding.md R54 to
R67). No bit of a descriptor is dropped. -/
def Obligations.DecodeOfEncode : Prop :=
  ∀ (i : Instr) (rest : List Word), decode (encode i ++ rest) = .ok i

/-- Every word list that is a command is written back word for word by the encoder (30_encoding.md R54 to R67). -/
def Obligations.EncodeOfDecode : Prop :=
  ∀ (ws : List Word) (i : Instr), decode ws = .ok i → encode i = ws.take (opcodeWords (instrOpcode i))

/-- Words written out from 95_test_vectors.md stand for the commands the encoding tables give (30_encoding.md R55 to
R66): one of each family. -/
def Obligations.WrittenWordsDecode : Prop :=
  (∃ d, decode [0x00010001#32, 0x2000#32, 0#32, 0#32, 0x04000010#32, 0#32, 1#32, 0#32, 0#32, 0#32, 0#32] =
      .ok (.procF0 d) ∧ d.tag = 1#16 ∧ d.resAddr = 0x2000#32 ∧ d.nofSym = 1#4 ∧ d.srOpp = 1#1 ∧ d.nofPorts = 1#4) ∧
  (∃ d, decode [0x00060014#32, 0x2000#32, 0#32, 0#32, 0x00000740#32, 0#32, 1#32, 0#32, 0x3000#32, 0#32, 0#32] =
      .ok (.valF3 d) ∧ d.tag = 6#16 ∧ d.nofSym = 4#4 ∧ d.nofPrb = 7#5 ∧ d.bufAddr = 0x3000#32) ∧
  (∃ d, decode [0x00030022#32, 0x2000#32, 0x3000#32, 0x3100#32, 0x00070007#32] = .ok (.deprecodeNoise d) ∧
      d.inAddr = 0x3000#32 ∧ d.outAddr = 0x3100#32 ∧ d.inLen = 7#16 ∧ d.outLen = 7#16) ∧
  (∃ d, decode [0x00050023#32, 0x2008#32, 0x3400#32, 0x3500#32, 0x3600#32, 0x3700#32, 0x3800#32, 0x00120002#32,
      0x3F800000#32] = .ok (.equalize d) ∧ d.nofRe = 2#16 ∧ d.nofPorts = 2#4 ∧ d.nofLayers = 1#4 ∧
      d.scaling = 0x3F800000#32)

/-- Every opcode value outside the opcode map is refused, whatever else the words hold (30_encoding.md R56, R76). -/
def Obligations.ReservedOpcodesRefused : Prop :=
  ∀ (w0 : Word) (ws : List Word),
    (let o := (w0.extractLsb' 0 8).toNat
     o = 0 ∨ (0x06 ≤ o ∧ o ≤ 0x10) ∨ (0x16 ≤ o ∧ o ≤ 0x20) ∨ 0x24 ≤ o) →
    decode (w0 :: ws) = .error .illegalOpcode

/-! ## A step runs the decoded command -/

/-- When an instance may execute and its operand registers decode to a command, a step that the schedule gives to it is
`exec` of that command, with the schedule moved on and the context set to the call (46_dispatcher_pool.md R132); so is
a validate step of the dispatcher, on its snapshot (R138). The schedule and the context are the model's own (log
entries 7 and 26). -/
def Obligations.StepRunsTheCommand : Prop :=
  ∀ (s : State) (rest : List Event) (i : Instr) (ctx : Ctx),
    (∀ k, s.sched = .execute k :: rest → executable s k = some ctx → decode (getInst s k).op.words = .ok i →
      step s = exec i { s with sched := rest, cur := ctx }) ∧
    (∀ c, s.sched = .validate c :: rest → validatable s c = some ctx → decode (getPort s c).snap.words = .ok i →
      step s = exec i { s with sched := rest, cur := ctx })

/-! ## Every command completes: its result and its frame -/

/-- `PROC.F0` completes wherever stage B passes (43_format0.md R97): its header says DONE wherever no overlap touches
its outputs (`HeaderStands`: 20_memory.md R48 to R50); undisturbed its UCI word has status valid or invalid, the counts
of the descriptor and the bits of a candidate, and no time alignment is reported (30_encoding.md R69, R70,
43_format0.md R95). Nothing but the 32 bytes of the record changes in memory. -/
def Obligations.ProcF0Completes : Prop :=
  ∀ (d : PucchDesc) (s : State), CallerExists s → Memory.wf s.dmem = true → stageB .f0 d s = none →
    ∃ t, exec (.procF0 d) s = .next t ∧ Completed [⟨d.resAddr.toNat, 32⟩] s t ∧
      (HeaderStands (.procF0 d) s → recordWord t d.resAddr 0 = headerWord d.tag 0x01#8 rsDone) ∧
      (Undisturbed (.procF0 d) s →
        UciShape (recordWord t d.resAddr 1) (srOpp d) d.nofHarq ∧
        (∃ c, c ∈ f0Cands d ∧ (recordWord t d.resAddr 1).getLsbD 3 = c.sr ∧
          (recordWord t d.resAddr 1).getLsbD 6 = c.harq0 ∧ (recordWord t d.resAddr 1).getLsbD 7 = c.harq1) ∧
        recordWord t d.resAddr 6 = 0#32 ∧ recordWord t d.resAddr 7 = 0#32)

/-- `PROC.F1` completes wherever stage B passes (44_format1.md R110): its header says DONE wherever no overlap touches
its outputs (`HeaderStands`: 20_memory.md R48 to R50); undisturbed the record has one entry for every mux entry, in its
order, with its key; the entry's UCI word has the counts of its `E_HARQ`, and its EPRE is the common one
(30_encoding.md R71, 44_format1.md R107, R111). Nothing but the record changes in memory. -/
def Obligations.ProcF1Completes : Prop :=
  ∀ (d : PucchDesc) (s : State), CallerExists s → Memory.wf s.dmem = true → stageB .f1 d s = none →
    ∃ t, exec (.procF1 d) s = .next t ∧ Completed [⟨d.resAddr.toNat, 16 + 24 * d.bufLen.toNat⟩] s t ∧
      (HeaderStands (.procF1 d) s → recordWord t d.resAddr 0 = headerWord d.tag 0x02#8 rsDone) ∧
      (Undisturbed (.procF1 d) s →
        recordWord t d.resAddr 1 = d.bufLen ∧
        ∀ e, e < d.bufLen.toNat →
          let w := memWord s.dmem (d.bufAddr.toNat + 4 * e)
          let key := recordWord t d.resAddr (4 + 6 * e)
          let uci := recordWord t d.resAddr (5 + 6 * e)
          (key.extractLsb' 0 4 = w.extractLsb' 0 4 ∧ key.extractLsb' 8 3 = w.extractLsb' 8 3 ∧
            key.extractLsb' 4 4 = 0#4 ∧ key.extractLsb' 11 21 = 0#21) ∧
          UciShape uci (decide (muxHarq w = 0)) (w.extractLsb' 16 2) ∧
          uci.getLsbD 3 = decide (muxHarq w = 0) ∧
          (muxHarq w < 1 → uci.getLsbD 6 = false) ∧ (muxHarq w < 2 → uci.getLsbD 7 = false) ∧
          recordWord t d.resAddr (7 + 6 * e) = recordWord t d.resAddr 2)

/-- `PROC.F2` completes wherever stage B passes (45_format234.md R126): its header says DONE wherever no overlap touches
its outputs (`HeaderStands`: 20_memory.md R48 to R50); undisturbed the record copies the estimator's values,
`16 * NOF_PRB * NOF_SYM` LLR bytes are written, and a bad noise variance makes them all 0. Nothing but the record and
the LLR buffer changes in memory. -/
def Obligations.ProcF2Completes : Prop :=
  ∀ (d : PucchDesc) (s : State), CallerExists s → Memory.wf s.dmem = true → stageB .f2 d s = none →
    ∃ t, exec (.procF2 d) s = .next t ∧
      Completed [⟨d.resAddr.toNat, 28⟩, ⟨d.bufAddr.toNat, d.bufLen.toNat⟩] s t ∧
      (HeaderStands (.procF2 d) s → recordWord t d.resAddr 0 = headerWord d.tag 0x03#8 rsDone) ∧
      (Undisturbed (.procF2 d) s →
        DemodRecord d (16 * d.nofPrb.toNat * d.nofSym.toNat) (chEst s (encode (.procF2 d))) t)

/-- `PROC.F3` completes wherever stage B passes (45_format234.md R127): as `PROC.F2`, with
`Qm * 12 * NOF_PRB * NDS` LLR bytes. -/
def Obligations.ProcF3Completes : Prop :=
  ∀ (d : PucchDesc) (s : State), CallerExists s → Memory.wf s.dmem = true → stageB .f3 d s = none →
    ∃ t, exec (.procF3 d) s = .next t ∧
      Completed [⟨d.resAddr.toNat, 28⟩, ⟨d.bufAddr.toNat, d.bufLen.toNat⟩] s t ∧
      (HeaderStands (.procF3 d) s → recordWord t d.resAddr 0 = headerWord d.tag 0x04#8 rsDone) ∧
      (Undisturbed (.procF3 d) s →
        DemodRecord d
          ((if d.pi2bpsk = 1#1 then 1 else 2) * 12 * d.nofPrb.toNat *
            (d.nofSym.toNat - (f34DmrsSym d.nofSym.toNat (hopEn d) (addDmrs d)).length))
          (chEst s (encode (.procF3 d))) t)

/-- `PROC.F4` completes wherever stage B passes (45_format234.md R128): as `PROC.F2`, with
`Qm * (12 / OCC_LEN) * NDS` LLR bytes. -/
def Obligations.ProcF4Completes : Prop :=
  ∀ (d : PucchDesc) (s : State), CallerExists s → Memory.wf s.dmem = true → stageB .f4 d s = none →
    ∃ t, exec (.procF4 d) s = .next t ∧
      Completed [⟨d.resAddr.toNat, 28⟩, ⟨d.bufAddr.toNat, d.bufLen.toNat⟩] s t ∧
      (HeaderStands (.procF4 d) s → recordWord t d.resAddr 0 = headerWord d.tag 0x05#8 rsDone) ∧
      (Undisturbed (.procF4 d) s →
        DemodRecord d
          ((if d.pi2bpsk = 1#1 then 1 else 2) * (12 / if d.occLenSel = 0#1 then 2 else 4) *
            (d.nofSym.toNat - (f34DmrsSym d.nofSym.toNat (hopEn d) (addDmrs d)).length))
          (chEst s (encode (.procF4 d))) t)

/-- `VAL.F0`, `VAL.F1`, `VAL.F2`, `VAL.F3` and `VAL.F4` complete whatever the configuration is, once stage A has found
room for the record: the header says DONE where stage B passes and REJECTED where it does not, wherever no overlap
touches the record (`HeaderStands`: 20_memory.md R48 to R50), and undisturbed the second word is 0 or the first failing
code (46_dispatcher_pool.md R138, 30_encoding.md R73). They never fault, and write nothing but the 8 bytes of the
record. -/
def Obligations.ValidatorsComplete : Prop :=
  ∀ (f : Fmt) (d : PucchDesc) (s : State), CallerExists s → Memory.wf s.dmem = true →
    d.resAddr.toNat + 8 ≤ s.params.dmemSize →
    ∃ t, exec (valInstr f d) s = .next t ∧ Completed [⟨d.resAddr.toNat, 8⟩] s t ∧
      match stageB f d s with
      | none =>
        (HeaderStands (valInstr f d) s → recordWord t d.resAddr 0 = instrHeader (valInstr f d) rsDone) ∧
        (Undisturbed (valInstr f d) s → recordWord t d.resAddr 1 = 0#32)
      | some code =>
        (HeaderStands (valInstr f d) s → recordWord t d.resAddr 0 = instrHeader (valInstr f d) rsRejected) ∧
        (Undisturbed (valInstr f d) s → recordWord t d.resAddr 1 = (faultByte code).setWidth 32)

/-- `DEPRECODE.SYM` completes wherever its checks pass (41_transform_precoder.md R81): its header says DONE wherever no
overlap touches its outputs (`HeaderStands`: 20_memory.md R48 to R50); undisturbed every output element `m` of a finite
input `x` of length `M` is `(1/sqrt(M))` times the sum over `k` of `x[k] * e^(+j*2*pi*m*k/M)`, within the error bound
(R79, 00_scope.md R15; log entries 10, 33), and an input of zeros gives zeros. Nothing but the header and the output
buffer changes in memory. -/
def Obligations.DeprecodeSymCompletes : Prop :=
  ∀ (d : DeprecodeDesc) (s : State), CallerExists s → Memory.wf s.dmem = true → ParamsLegal s.params →
    d.resAddr.toNat + 4 ≤ s.params.dmemSize → checkDeprecodeSym d s.params = none →
    ∃ t, exec (.deprecodeSym d) s = .next t ∧
      Completed [⟨d.resAddr.toNat, 4⟩, ⟨d.outAddr.toNat, 8 * d.outLen.toNat⟩] s t ∧
      (HeaderStands (.deprecodeSym d) s → recordWord t d.resAddr 0 = headerWord d.tag 0x21#8 rsDone) ∧
      (Undisturbed (.deprecodeSym d) s →
        let n := d.inLen.toNat
        let x (k : Nat) : C64 := memC64 s.dmem (d.inAddr.toNat + 8 * k)
        let y (m : Nat) : C64 := memC64 t.dmem (d.outAddr.toNat + 8 * m)
        ((∀ k, k < n → c64Finite (x k) = true) → ∀ m, m < n →
          ReturnsComplex s.params.tol
            ((1 / Real.sqrt n : ℝ) *
              ∑ k ∈ Finset.range n, complexOf (x k) * Complex.exp (2 * Real.pi * Complex.I * m * k / n))
            (1 / Real.sqrt n * ∑ k ∈ Finset.range n, ‖complexOf (x k)‖) (y m)) ∧
        ((∀ k, k < n → c64IsZero (x k) = true) → ∀ m, m < n → c64IsZero (y m) = true))

/-- `DEPRECODE.NOISE` completes wherever its checks pass (41_transform_precoder.md R82). The selective mean (R80,
R83): an entry that fails `good_nv` is copied bit for bit, every other entry becomes one common value, finite and
positive, within its error bound of the mean wherever the bound holds the nearest binary32 value. Nothing but the
header and the output buffer changes in memory. The header says DONE wherever no overlap touches the outputs
(`HeaderStands`: 20_memory.md R48 to R50); the values stand undisturbed. -/
def Obligations.DeprecodeNoiseCompletes : Prop :=
  ∀ (d : DeprecodeDesc) (s : State), CallerExists s → Memory.wf s.dmem = true →
    d.resAddr.toNat + 4 ≤ s.params.dmemSize → checkDeprecodeNoise d s.params = none →
    ∃ t, exec (.deprecodeNoise d) s = .next t ∧
      Completed [⟨d.resAddr.toNat, 4⟩, ⟨d.outAddr.toNat, 4 * d.outLen.toNat⟩] s t ∧
      (HeaderStands (.deprecodeNoise d) s → recordWord t d.resAddr 0 = headerWord d.tag 0x22#8 rsDone) ∧
      (Undisturbed (.deprecodeNoise d) s →
        let v (i : Nat) : Word := memWord s.dmem (d.inAddr.toNat + 4 * i)
        let w (i : Nat) : Word := memWord t.dmem (d.outAddr.toNat + 4 * i)
        let good := ((List.range d.inLen.toNat).filter (fun i => goodNv (v i))).map (fun i => f32Rat (v i))
        let mu := ratSum good / (good.length : Rat)
        let rule : Admitted := .goodWithin (mu - s.params.tol * mu) (mu + s.params.tol * mu)
        (∀ i, i < d.inLen.toNat → goodNv (v i) = false → w i = v i) ∧
        (∀ i, i < d.inLen.toNat → goodNv (v i) = true → goodNv (w i) = true) ∧
        (∀ i j, i < d.inLen.toNat → j < d.inLen.toNat → goodNv (v i) = true → goodNv (v j) = true → w i = w j) ∧
        (∀ i, i < d.inLen.toNat → goodNv (v i) = true → (∃ x, admits rule x = true) → admits rule (w i) = true))

/-- `EQUALIZE` completes wherever its checks pass (42_equalizer.md R88): its header says DONE wherever no overlap touches
its outputs (`HeaderStands`: 20_memory.md R48 to R50). Undisturbed, with `nv[p]`, `h[p][n]` and `y[p][n]` as they lie
in memory: a resource element with some bad noise variance, or some channel coefficient that is 0 or not finite, gives
exactly the symbol 0 and the noise variance `+inf` (R84); every other one, whatever the other elements are (R89), gives
a finite positive noise variance within the error bound of `sf^2/g` for ZF and `sf^2/(g+1)` for MMSE, and where its
samples are finite a symbol within the error bound of `c*sf/g` or `c*sf/(g+1)` (R85, 00_scope.md R15, R16; log entries
10, 33). Nothing but the header and the two output buffers changes in memory. -/
def Obligations.EqualizeCompletes : Prop :=
  ∀ (d : EqualizeDesc) (s : State), CallerExists s → Memory.wf s.dmem = true → ParamsLegal s.params →
    d.resAddr.toNat + 4 ≤ s.params.dmemSize → checkEqualize d s.params = none →
    ∃ t, exec (.equalize d) s = .next t ∧
      Completed [⟨d.resAddr.toNat, 4⟩, ⟨d.osymAddr.toNat, 8 * d.nofRe.toNat⟩, ⟨d.onvAddr.toNat, 4 * d.nofRe.toNat⟩] s t ∧
      (HeaderStands (.equalize d) s → recordWord t d.resAddr 0 = headerWord d.tag 0x23#8 rsDone) ∧
      (Undisturbed (.equalize d) s → ∀ n, n < d.nofRe.toNat →
        let np := d.nofPorts.toNat
        let y (p : Nat) : C64 := memC64 s.dmem (d.rxAddr.toNat + 8 * (p * d.nofRe.toNat + n))
        let h (p : Nat) : C64 := memC64 s.dmem (d.chAddr.toNat + 8 * (p * d.nofRe.toNat + n))
        let nv (p : Nat) : F32 := memWord s.dmem (d.nvAddr.toNat + 4 * p)
        let sf := realOf d.scaling
        let bad := ∃ p, p < np ∧ (goodNv (nv p) = false ∨ c64IsZero (h p) = true ∨ c64Finite (h p) = false)
        let g := ∑ p ∈ Finset.range np, ‖complexOf (h p)‖ ^ 2 / realOf (nv p)
        let c := ∑ p ∈ Finset.range np, starRingEnd ℂ (complexOf (h p)) * complexOf (y p) / (realOf (nv p) : ℂ)
        let scale := ∑ p ∈ Finset.range np, ‖complexOf (h p)‖ * ‖complexOf (y p)‖ / realOf (nv p)
        let den := if s.params.eqAlgo = .mmse then g + 1 else g
        let sym := memC64 t.dmem (d.osymAddr.toNat + 8 * n)
        let noise := memWord t.dmem (d.onvAddr.toNat + 4 * n)
        (bad → sym = ⟨0#32, 0#32⟩ ∧ noise = 0x7F800000#32) ∧
        (¬ bad → goodNv noise = true ∧
          ReturnsReal s.params.tol (sf ^ 2 / den) (sf ^ 2 / den) noise ∧
          ((∀ p, p < np → c64Finite (y p) = true) →
            ReturnsComplex s.params.tol (c * sf / (den : ℂ)) (scale * sf / den) sym)))

/-! ## The checks, written out -/

/-- Stage B: the conditions B1 to B12 as the table states them, in its order, each with its code; `stageB` answers the
first that holds (46_dispatcher_pool.md R136, R137, 44_format1.md R109, 45_format234.md R124, 00_scope.md R8). The mux
list is read as `seenByte` has it, which is memory but where another call outputs (20_memory.md R48, log entry 38). -/
def Obligations.StageBChecksInOrder : Prop :=
  ∀ (f : Fmt) (d : PucchDesc) (s : State),
    let p := s.params
    let hop := d.hopEn = 1#1
    let n := d.nofSym.toNat
    let st := d.startSym.toNat
    let prb := d.nofPrb.toNat
    let np := d.nofPorts.toNat
    let port (i : Nat) := (d.portList.extractLsb' (4 * i) 4).toNat
    let eff := if f = .f2 ∨ f = .f3 then prb else 1
    let buf := d.bufAddr.toNat
    let len := d.bufLen.toNat
    let entry (e : Nat) : Word := wordAt (seenByte s s.cur.caller) (buf + 4 * e)
    let record := match f with | .f0 => 32 | .f1 => 16 + 24 * len | .f2 | .f3 | .f4 => 28
    let qm := if d.pi2bpsk = 1#1 then 1 else 2
    let occ := if d.occLenSel = 0#1 then 2 else 4
    let nds := n - (f34DmrsSym n (d.hopEn == 1#1) (d.addDmrs == 1#1)).length
    FirstFails
      [ (d.rsv2 ≠ 0#21 ∨ d.rsv3lo ≠ 0#7 ∨ d.rsv3hi ≠ 0#6 ∨ d.rsv4lo ≠ 0#2 ∨ d.rsv4hi ≠ 0#5 ∨ d.rsv5 ≠ 0#6 ∨
          d.rsv6 ≠ 0#28, .reservedNonzero),
        (14 < st + n ∨ ((f = .f0 ∨ f = .f2) ∧ (n < 1 ∨ 2 < n ∨ 13 < st)) ∨
          ((f = .f1 ∨ f = .f3 ∨ f = .f4) ∧ (n < 4 ∨ 14 < n ∨ 10 < st)), .symbolRange),
        (274 < d.startPrb.toNat ∨ (hop ∧ 274 < d.secondHopPrb.toNat) ∨ (f = .f2 ∧ (prb < 1 ∨ 16 < prb)) ∨
          (f = .f3 ∧ prb ∉ [1, 2, 3, 4, 5, 6, 8, 9, 10, 12, 15, 16]), .prbRange),
        (np = 0 ∨ p.maxPorts < np ∨ (∃ i, i < np ∧ p.nofGridPorts ≤ port i) ∨
          (∃ i j, i < j ∧ j < np ∧ port i = port j), .portInvalid),
        (4 < d.mu.toNat ∨ 10 * 2 ^ d.mu.toNat ≤ d.slotIdx.toNat ∨
          (f = .f0 ∧ (11 < d.initCs.toNat ∨ 2 < d.nofHarq.toNat)) ∨ (f = .f4 ∧ occ ≤ d.occIdx.toNat), .fieldRange),
        (p.nRbGrid < d.startPrb.toNat + eff ∨ (hop ∧ p.nRbGrid < d.secondHopPrb.toNat + eff), .gridBounds),
        (f = .f1 ∧ buf % 4 ≠ 0, .misaligned),
        (p.dmemSize < d.resAddr.toNat + record ∨ (f = .f1 ∧ p.dmemSize < buf + 4 * len) ∨
          ((f = .f2 ∨ f = .f3 ∨ f = .f4) ∧ p.dmemSize < buf + len), .memBounds),
        (f = .f1 ∧ (len = 0 ∨ 84 < len ∨
          (∃ e, e < len ∧ ((entry e).extractLsb' 4 4 ≠ 0#4 ∨ (entry e).extractLsb' 11 5 ≠ 0#5 ∨
            (entry e).extractLsb' 18 14 ≠ 0#14 ∨ 11 < ((entry e).extractLsb' 0 4).toNat ∨
            f1Nocc d ≤ ((entry e).extractLsb' 8 3).toNat ∨ 2 < ((entry e).extractLsb' 16 2).toNat)) ∨
          (∃ e e', e < e' ∧ e' < len ∧ (entry e).extractLsb' 0 4 = (entry e').extractLsb' 0 4 ∧
            (entry e).extractLsb' 8 3 = (entry e').extractLsb' 8 3)), .muxInvalid),
        (f = .f0 ∧ d.nofHarq = 0#2 ∧ d.srOpp = 0#1, .f0TableUnsupported),
        ((f = .f0 ∧ ∀ e, e ∈ p.f0Thr → ¬ (e.dof = np * n ∧ e.ncand = (f0Cands d).length)) ∨
          (f = .f1 ∧ np * (if hop then 2 else 1) ∉ [1, 2, 4, 8]), .thresholdUndefined),
        ((f = .f2 ∧ len ≠ 16 * prb * n) ∨ (f = .f3 ∧ len ≠ qm * 12 * prb * nds) ∨
          (f = .f4 ∧ len ≠ qm * (12 / occ) * nds), .bufferLength) ]
      (stageB f d s)

/-- The checks of `DEPRECODE.SYM` and of `DEPRECODE.NOISE` as their rules state them, in order
(41_transform_precoder.md R78, R81, R82). -/
def Obligations.DeprecodeChecksInOrder : Prop :=
  ∀ (p : Params) (d : DeprecodeDesc),
    let a := d.inAddr.toNat
    let b := d.outAddr.toNat
    let m := d.inLen.toNat
    let n := d.outLen.toNat
    FirstFails
      [ (a % 4 ≠ 0 ∨ b % 4 ≠ 0, .misaligned),
        (p.dmemSize < a + 8 * m ∨ p.dmemSize < b + 8 * n, .memBounds),
        (m ≠ n, .bufferLength),
        (¬ (m % 12 = 0 ∧ 1 ≤ m / 12 ∧ m / 12 ≤ 275 ∧ ∃ x y z, m / 12 = 2 ^ x * 3 ^ y * 5 ^ z), .deprecodeSize) ]
      (checkDeprecodeSym d p) ∧
    FirstFails
      [ (a % 4 ≠ 0 ∨ b % 4 ≠ 0, .misaligned),
        (p.dmemSize < a + 4 * m ∨ p.dmemSize < b + 4 * n, .memBounds),
        (m ≠ n, .bufferLength) ]
      (checkDeprecodeNoise d p)

/-- The six checks of `EQUALIZE`, in order: the reserved byte, the ports, the layers, the scaling (finite and greater
than 0: a bit pattern above that of 0 and below that of `+inf`), the alignment, the bounds; in a running block the
first that fails raises its fault (42_equalizer.md R87). -/
def Obligations.EqualizeChecksInOrder : Prop :=
  ∀ (s : State) (d : EqualizeDesc), s.bstate = .run → Memory.wf s.dmem = true →
    let p := s.params
    let np := d.nofPorts.toNat
    let n := d.nofRe.toNat
    let l := d.nofLayers.toNat
    FirstFails
      [ (d.rsv7 ≠ 0#8, .reservedNonzero),
        (np = 0 ∨ p.maxPorts < np, .portInvalid),
        (l ≠ 1, .layersUnsupported),
        (¬ (0 < d.scaling.toNat ∧ d.scaling.toNat < 0x7F800000), .scalingInvalid),
        (d.rxAddr.toNat % 4 ≠ 0 ∨ d.chAddr.toNat % 4 ≠ 0 ∨ d.nvAddr.toNat % 4 ≠ 0 ∨ d.osymAddr.toNat % 4 ≠ 0 ∨
          d.onvAddr.toNat % 4 ≠ 0, .misaligned),
        (p.dmemSize < d.rxAddr.toNat + 8 * np * n ∨ p.dmemSize < d.chAddr.toNat + 8 * np * n * l ∨
          p.dmemSize < d.nvAddr.toNat + 4 * np ∨ p.dmemSize < d.osymAddr.toNat + 8 * n * l ∨
          p.dmemSize < d.onvAddr.toNat + 4 * n * l, .memBounds) ]
      (checkEqualize d p) ∧
    ∀ code, checkEqualize d p = some code → ∃ t, exec (.equalize d) s = .next t ∧ Faulted code (.equalize d) s t

/-! ## Where the commands trap -/

/-- `PROC.F0` to `PROC.F4` in a running block: where stage B fails, the code of the first failing check enters the fault
registers with the command's tag and opcode, the caller and the instance; no other register changes, the call stays
busy, its lease stays held, and its own outputs keep every byte (46_dispatcher_pool.md R137, 60_exceptions.md R145,
R146). -/
def Obligations.ProcChecksTrap : Prop :=
  ∀ (f : Fmt) (d : PucchDesc) (s : State) (code : FaultCode), s.bstate = .run → Memory.wf s.dmem = true →
    stageB f d s = some code → ∃ t, exec (procInstr f d) s = .next t ∧ Faulted code (procInstr f d) s t

/-- `DEPRECODE.SYM`, `DEPRECODE.NOISE` and `EQUALIZE` in a running block: the first failing check of their own order
enters the fault registers (41_transform_precoder.md R81, R82, 42_equalizer.md R87, 60_exceptions.md R146). -/
def Obligations.ComponentChecksTrap : Prop :=
  ∀ (s : State) (code : FaultCode), s.bstate = .run → Memory.wf s.dmem = true →
    (∀ d, checkDeprecodeSym d s.params = some code →
      ∃ t, exec (.deprecodeSym d) s = .next t ∧ Faulted code (.deprecodeSym d) s t) ∧
    (∀ d, checkDeprecodeNoise d s.params = some code →
      ∃ t, exec (.deprecodeNoise d) s = .next t ∧ Faulted code (.deprecodeNoise d) s t) ∧
    (∀ d, checkEqualize d s.params = some code →
      ∃ t, exec (.equalize d) s = .next t ∧ Faulted code (.equalize d) s t)

/-- `VAL.Fx` and `PROC.Fx` of one descriptor agree: either the validator reports 0 and the processing command does not
fault, or the validator reports the code that the processing command raises (46_dispatcher_pool.md R138). -/
def Obligations.ValidatorAgreesWithProcessor : Prop :=
  ∀ (f : Fmt) (d : PucchDesc) (s : State), CallerExists s → Memory.wf s.dmem = true → s.bstate = .run →
    d.resAddr.toNat + 8 ≤ s.params.dmemSize → Undisturbed (valInstr f d) s →
    ∃ t u, exec (valInstr f d) s = .next t ∧ exec (procInstr f d) s = .next u ∧
      ((u.bstate = .run ∧ recordWord t d.resAddr 1 = 0#32) ∨
        (u.bstate = .faulted ∧ recordWord t d.resAddr 1 ≠ 0#32 ∧
          recordWord t d.resAddr 1 = (u.faultInfo.extractLsb' 0 8).setWidth 32))

/-- The LLR counts: the spec marks the table "[derived: from rules R118, R119 and R121]". The demodulators produce
exactly as many LLRs, and where every earlier check passes an `LLR_LEN` other than the count, and no other, makes a
running block's `PROC.F2`, `PROC.F3` or `PROC.F4` raise BUFFER_LENGTH (45_format234.md R124, check B12). -/
def Obligations.LlrCountsAgree : Prop :=
  ∀ (d : PucchDesc) (s : State) (ch : Chest),
    let nds := d.nofSym.toNat - (f34DmrsSym d.nofSym.toNat (hopEn d) (addDmrs d)).length
    let e2 := 16 * d.nofPrb.toNat * d.nofSym.toNat
    let e3 := (if d.pi2bpsk = 1#1 then 1 else 2) * 12 * d.nofPrb.toNat * nds
    let e4 := (if d.pi2bpsk = 1#1 then 1 else 2) * (12 / if d.occLenSel = 0#1 then 2 else 4) * nds
    (llrBytes d s 2 (f2Stream d s ch)).length = e2 ∧
    (llrBytes d s (qmOf .f3 d) (f3Stream d s ch)).length = e3 ∧
    (llrBytes d s (qmOf .f4 d) (f4Stream d s ch)).length = e4 ∧
    ∀ f e, (f = .f2 ∧ e = e2 ∨ f = .f3 ∧ e = e3 ∨ f = .f4 ∧ e = e4) →
      failB1 d = false → failB2 f d = false → failB3 f d = false → failB4 s.params d = false →
      failB5 f d = false → failB6 f s.params d = false → failB8 f s.params d = false →
      (d.bufLen.toNat ≠ e ↔ stageB f d s = some .bufferLength) ∧
      (s.bstate = .run → d.bufLen.toNat ≠ e → ∃ t, exec (procInstr f d) s = .next t ∧ t.bstate = .faulted ∧
        t.faultInfo.extractLsb' 0 8 = faultByte .bufferLength)

/-! ## Faults and their end -/

/-- Only a reset leaves FAULTED: any other step keeps the block FAULTED and every fault register as it is
(60_exceptions.md R146, R147, 10_state.md R30). -/
def Obligations.OnlyResetLeavesFaulted : Prop :=
  ∀ (s t : State), s.bstate = .faulted → step s = .next t →
    (t.bstate = .faulted ∧ t.faultInfo = s.faultInfo ∧ t.faultAddr = s.faultAddr ∧ t.faultSrc = s.faultSrc) ∨
    (t.bstate = .run ∧ t.faultInfo = 0#32 ∧ t.faultAddr = 0#32 ∧ t.faultSrc = 0#32 ∧
      ((∃ v rest, s.sched = .regWrite 0x014 v :: rest ∧ v.getLsbD 0 = true) ∨
       ∃ bytes rest, s.sched = .powerOn bytes :: rest))

/-- While FAULTED, no dispatch, validate or execute step is enabled: such a step does nothing, and left to itself the
block waits (60_exceptions.md R146). That a wait is a step which changes nothing is the model's choice (log
entry 7). -/
def Obligations.FaultedBlockRunsNothing : Prop :=
  ∀ (s : State), s.bstate = .faulted →
    (s.sched = [] → step s = .next s) ∧
    ∀ rest, (∃ c hint, s.sched = .dispatch c hint :: rest) ∨ (∃ c, s.sched = .validate c :: rest) ∨
        (∃ k, s.sched = .execute k :: rest) → step s = .next { s with sched := rest }

/-- A host write of `CALL_ADDR[c]`: an idle port's call becomes pending, reads busy and keeps the address; on a busy
port it raises CALL_OVERLAP in a running block and changes nothing in a faulted one (46_dispatcher_pool.md R129). -/
def Obligations.CallStart : Prop :=
  ∀ (s : State) (c : Nat) (v : Word) (rest : List Event), c < s.ports.length →
    s.sched = .regWrite (0x100 + 8 * c) v :: rest →
    ∃ t, step s = .next t ∧
      if (getPort s c).call = .idle then
        (getPort t c).call = .pending v ∧ readReg t (0x100 + 8 * c) = v ∧ readReg t (0x104 + 8 * c) = 1#32 ∧
        t.bstate = s.bstate ∧ t.dmem = s.dmem ∧ t.insts = s.insts ∧
        ∀ c', c' ≠ c → getPort t c' = getPort s c'
      else if s.bstate = .run then
        t.bstate = .faulted ∧ t.faultInfo = 0x00000011#32 ∧ t.faultAddr = v ∧
        t.faultSrc = 0#20 ++ 0xF#4 ++ 0#4 ++ BitVec.ofNat 4 c ∧ t.ports = s.ports ∧ t.insts = s.insts
      else t = { s with sched := rest }

/-! ## The dispatcher -/

/-- Stage A: the checks A1 to A7 in their order, each with its code, `INST = 0xF`, and the tag and opcode 0 where the
command word was not read (46_dispatcher_pool.md R130, 60_exceptions.md R145, R146). The dispatcher reads memory, but a
free value where another call outputs (20_memory.md R48, log entry 38). -/
def Obligations.StageAFaults : Prop :=
  ∀ (s : State) (c hint : Nat) (d : Word), s.bstate = .run → (getPort s c).call = .pending d →
    let size := s.params.dmemSize
    let rd := seenByte s c
    let w0 := wordAt rd d.toNat
    let w1 := wordAt rd (d.toNat + 4)
    (∀ a, Outside (foreignOuts s c) a → rd a = memByte s.dmem a) ∧
    if d.toNat % 4 ≠ 0 then dispatch c hint s = .next (faultEntry .misaligned 0#32 c 15 d s)
    else if size < d.toNat + 4 then dispatch c hint s = .next (faultEntry .memBounds 0#32 c 15 d s)
    else
      match opcodeOfByte (w0.extractLsb' 0 8) with
      | none => dispatch c hint s = .next (faultEntry .illegalOpcode w0 c 15 d s)
      | some o =>
        if w0.extractLsb' 8 8 ≠ 0#8 then dispatch c hint s = .next (faultEntry .reservedNonzero w0 c 15 d s)
        else if size < d.toNat + 4 * opcodeWords o then
          dispatch c hint s = .next (faultEntry .memBounds w0 c 15 d s)
        else if w1.toNat % 4 ≠ 0 then dispatch c hint s = .next (faultEntry .misaligned w0 c 15 d s)
        else if size < w1.toNat + (if opcodeIsVal o then 8 else 4) then
          dispatch c hint s = .next (faultEntry .memBounds w0 c 15 d s)
        else
          ∃ i, decode (wordsAt rd d.toNat (opcodeWords o)) = .ok i ∧ instrOpcode i = o ∧
            stageA size rd d = .pass (wordsAt rd d.toNat (opcodeWords o)) i

/-- A call that passes stage A and finds a free instance takes the lease of one that was free, with its own copy of
the descriptor words; no other instance and no other port changes, and no byte of memory
(46_dispatcher_pool.md R131, 20_memory.md R46, R52). -/
def Obligations.DispatchLeasesAFreeInstance : Prop :=
  ∀ (s : State) (c hint : Nat) (d : Word) (words : List Word) (i : Instr), c < s.ports.length → s.bstate = .run →
    (getPort s c).call = .pending d → stageA s.params.dmemSize (seenByte s c) d = .pass words i →
    opcodeIsVal (instrOpcode i) = false →
    freeInsts s ≠ [] →
    ∃ k t, dispatch c hint s = .next t ∧ k < s.insts.length ∧ (getInst s k).lease = false ∧
      (getInst t k).lease = true ∧ (getInst t k).owner = c ∧ (getInst t k).op.words = words ∧
      (getPort t c).call = .running d k ∧ (hint ∈ freeInsts s → k = hint) ∧
      (∀ k', k' ≠ k → getInst t k' = getInst s k') ∧ (∀ c', c' ≠ c → getPort t c' = getPort s c') ∧
      t.dmem = s.dmem ∧ t.bstate = .run ∧ t.faultInfo = s.faultInfo

/-- A validator's call takes no lease, however many are held: it becomes VALIDATING with the dispatcher's copy of its
words, and no instance changes (46_dispatcher_pool.md R131, R135, R138). -/
def Obligations.ValidatorTakesNoLease : Prop :=
  ∀ (s : State) (c hint : Nat) (d : Word) (words : List Word) (i : Instr), c < s.ports.length → s.bstate = .run →
    (getPort s c).call = .pending d → stageA s.params.dmemSize (seenByte s c) d = .pass words i →
    opcodeIsVal (instrOpcode i) = true →
    ∃ t, dispatch c hint s = .next t ∧ (getPort t c).call = .validating d ∧ (getPort t c).snap.words = words ∧
      t.insts = s.insts ∧ t.dmem = s.dmem ∧ ∀ c', c' ≠ c → getPort t c' = getPort s c'

/-- With every lease taken, a processing call completes at once: its header says POOL_EXHAUSTED, no other byte and no
instance changes, and no fault is raised (46_dispatcher_pool.md R131, R135, 30_encoding.md R75). The header stands
wherever the descriptor and no output of another call overlap it (20_memory.md R48 to R50); that the regions this call
never reads do not count is the model's choice (log entry 37). -/
def Obligations.ExhaustedPoolWritesTheHeader : Prop :=
  ∀ (s : State) (c hint : Nat) (d : Word) (words : List Word) (i : Instr), c < s.ports.length → s.bstate = .run →
    Memory.wf s.dmem = true → (getPort s c).call = .pending d →
    stageA s.params.dmemSize (seenByte s c) d = .pass words i → opcodeIsVal (instrOpcode i) = false →
    freeInsts s = [] →
    ∃ t, dispatch c hint s = .next t ∧ (getPort t c).call = .idle ∧ t.insts = s.insts ∧ t.bstate = .run ∧
      (∀ a, Outside [⟨(instrResAddr i).toNat, 4⟩] a → memByte t.dmem a = memByte s.dmem a) ∧
      (∀ c', c' ≠ c → (getPort t c').call = (getPort s c').call) ∧
      (ownTaint (exhaustedFootprint d i) { s with cur := ⟨c, none, d⟩ } ≠ .outputs →
        memWord t.dmem (instrResAddr i).toNat = instrHeader i rsExhausted)

/-! ## Reset and registers -/

/-- A reset of any block, running or FAULTED, by a write of `CTRL` with bit 0 set or by the platform's power-on: every
register, call and lease takes its reset value. The write of `CTRL` changes no byte outside the outputs of the calls that
were busy; after power-on a byte of DMEM that the platform's event lists reads as the last entry of its address
(70_reset_and_hazards.md R157, R158). R157 leaves DMEM unspecified after power-on: that a byte the event does not list
reads 0 is the model's choice (log entries 2 and 29), and so is that the parameters, the schedule, GRID and CHEST stay
(log entry 31). -/
def Obligations.ResetLeaves : Prop :=
  ∀ (s : State) (rest : List Event), Memory.wf s.dmem = true →
    let reset (t : State) : Prop :=
      t.bstate = .run ∧ t.faultInfo = 0#32 ∧ t.faultAddr = 0#32 ∧ t.faultSrc = 0#32 ∧
      t.ports.length = s.params.nCallers ∧ t.insts.length = s.params.k ∧
      (∀ c, (getPort t c).call = .idle ∧ (getPort t c).callAddr = 0#32) ∧ (∀ k, (getInst t k).lease = false) ∧
      regStatus t = 0#32 ∧ t.params = s.params ∧ t.grid = s.grid ∧ t.chest = s.chest ∧ t.sched = rest
    (∀ v, s.sched = .regWrite 0x014 v :: rest → v.getLsbD 0 = true →
      ∃ t, step s = .next t ∧ reset t ∧
        ∀ a, Outside (busyOuts { s with sched := rest }) a → memByte t.dmem a = memByte s.dmem a) ∧
    (∀ bytes, s.sched = .powerOn bytes :: rest →
      ∃ t, step s = .next t ∧ reset t ∧
        (∀ before after a b, bytes = before ++ (a, b) :: after → a < s.params.dmemSize → (∀ e ∈ after, e.1 ≠ a) →
          memByte t.dmem a = b) ∧
        ∀ a, a < s.params.dmemSize → (∀ e ∈ bytes, e.1 ≠ a) → memByte t.dmem a = 0#8)

/-- `CTRL`: a write with bit 0 set performs the block reset, a write with bit 0 clear has no effect, and the register
reads 0 (10_state.md R26). -/
def Obligations.CtrlRegister : Prop :=
  ∀ (s : State) (v : Word) (rest : List Event), s.sched = .regWrite 0x014 v :: rest →
    step s = .next (if v.getLsbD 0 then resetBlock { s with sched := rest } else { s with sched := rest }) ∧
    readReg s 0x014 = 0#32

/-- `ID`: the construction constants, field by field, at reset as in every state, and a write has no effect
(10_state.md R21). -/
def Obligations.IdRegister : Prop :=
  ∀ (s : State), ParamRanges s.params →
    (readReg s 0x000).extractLsb' 0 8 = 0x01#8 ∧
    ((readReg s 0x000).extractLsb' 8 8).toNat = s.params.k ∧
    ((readReg s 0x000).extractLsb' 16 4).toNat = s.params.maxPorts ∧
    ((readReg s 0x000).getLsbD 20 = true ↔ s.params.eqAlgo = .mmse) ∧
    (readReg s 0x000).extractLsb' 21 3 = 0#3 ∧
    ((readReg s 0x000).extractLsb' 24 8).toNat = s.params.nCallers ∧
    ∀ v rest, s.sched = .regWrite 0x000 v :: rest → step s = .next { s with sched := rest }

/-- `STATUS`: bit 0 is 1 exactly when the block is FAULTED, bits 15:1 are 0, bit `16+k` is `LEASE[k]`, the bits of
instances that do not exist are 0, a write has no effect, and after a reset the register reads 0 (10_state.md R22). -/
def Obligations.StatusRegister : Prop :=
  ∀ (s : State), s.insts.length ≤ 16 →
    ((readReg s 0x004).getLsbD 0 = true ↔ s.bstate = .faulted) ∧
    (readReg s 0x004).extractLsb' 1 15 = 0#15 ∧
    (∀ k, k < s.insts.length → (readReg s 0x004).getLsbD (16 + k) = (getInst s k).lease) ∧
    (∀ k, s.insts.length ≤ k → (readReg s 0x004).getLsbD (16 + k) = false) ∧
    readReg (resetBlock s) 0x004 = 0#32 ∧
    ∀ v rest, s.sched = .regWrite 0x004 v :: rest → step s = .next { s with sched := rest }

/-- `FAULT_INFO`, `FAULT_ADDR` and `FAULT_SRC`: a fault raised in a running block with a command word shows its code and
the word's opcode and tag (both 0 where the word was not read: A1, A2, CALL_OVERLAP), the descriptor address, the caller
and the instance; a later fault changes none of them; where the registers are as a run leaves them in a running block,
and after a reset, all three read 0; their reserved bits are 0 and writes have no effect (10_state.md R23, R24, R25). -/
def Obligations.FaultRegisters : Prop :=
  ∀ (s : State) (w0 : Word) (code : FaultCode) (c inst : Nat) (d : Word), s.bstate = .run → c < 16 → inst < 16 →
    let t := faultEntry code w0 c inst d s
    ((readReg t 0x008).extractLsb' 0 8 = faultByte code ∧
      (readReg t 0x008).extractLsb' 8 8 = w0.extractLsb' 0 8 ∧
      (readReg t 0x008).extractLsb' 16 16 = w0.extractLsb' 16 16) ∧
    (w0 = 0#32 → readReg t 0x008 = (faultByte code).setWidth 32) ∧
    readReg t 0x00C = d ∧
    (((readReg t 0x010).extractLsb' 0 4).toNat = c ∧ (readReg t 0x010).extractLsb' 4 4 = 0#4 ∧
      ((readReg t 0x010).extractLsb' 8 4).toNat = inst ∧ (readReg t 0x010).extractLsb' 12 20 = 0#20) ∧
    (∀ code' w c' k' a, faultEntry code' w c' k' a t = t) ∧
    (s.faultOk → readReg s 0x008 = 0#32 ∧ readReg s 0x00C = 0#32 ∧ readReg s 0x010 = 0#32) ∧
    (readReg (resetBlock t) 0x008 = 0#32 ∧ readReg (resetBlock t) 0x00C = 0#32 ∧
      readReg (resetBlock t) 0x010 = 0#32) ∧
    ∀ off v rest, (off = 0x008 ∨ off = 0x00C ∨ off = 0x010) →
      step { t with sched := .regWrite off v :: rest } = .next { t with sched := rest }

/-- `CALL_ADDR[c]` and `CALL_STATE[c]` of every port: the address last started, and a busy bit that is 1 exactly when
the call is not idle, with the other bits 0; both read 0 after a reset; a write of `CALL_STATE[c]` has no effect, and
completion clears the bit (10_state.md R29, R31, 46_dispatcher_pool.md R133). -/
def Obligations.CallRegisters : Prop :=
  ∀ (s : State) (c : Nat), c < s.ports.length →
    readReg s (0x100 + 8 * c) = (getPort s c).callAddr ∧
    readReg s (0x104 + 8 * c) = (if (getPort s c).call = .idle then 0#32 else 1#32) ∧
    readReg (resetBlock s) (0x100 + 8 * c) = 0#32 ∧ readReg (resetBlock s) (0x104 + 8 * c) = 0#32 ∧
    readReg (complete c s) (0x104 + 8 * c) = 0#32 ∧
    ∀ v rest, s.sched = .regWrite (0x104 + 8 * c) v :: rest → step s = .next { s with sched := rest }

/-- `GRID_CFG` and `DMEM_SZ`: the construction constants, field by field, and writes have no effect
(10_state.md R27, R28). -/
def Obligations.GeometryRegisters : Prop :=
  ∀ (s : State), ParamRanges s.params →
    ((readReg s 0x018).extractLsb' 0 9).toNat = s.params.nRbGrid ∧
    (readReg s 0x018).extractLsb' 9 3 = 0#3 ∧
    ((readReg s 0x018).extractLsb' 12 4).toNat = s.params.nofGridPorts ∧
    (readReg s 0x018).extractLsb' 16 16 = 0#16 ∧
    (readReg s 0x01C).toNat = s.params.dmemSize % 2 ^ 32 ∧
    (readReg s 0x01C = 0#32 ↔ s.params.dmemSize = 2 ^ 32) ∧
    ∀ off v rest, (off = 0x018 ∨ off = 0x01C) → s.sched = .regWrite off v :: rest →
      step s = .next { s with sched := rest }

/-- Reads of unmapped offsets return 0, a read gives the host the register and changes nothing else, and a write to any
offset but `CTRL` and the `CALL_ADDR` registers has no effect (10_state.md R20). Where the read value goes (log entry 26),
and that an offset which is no multiple of 4 is unmapped too (log entry 32), are the model's choices. -/
def Obligations.UnmappedRegisters : Prop :=
  ∀ (s : State) (off : Nat),
    (off ∉ [0x000, 0x004, 0x008, 0x00C, 0x010, 0x014, 0x018, 0x01C] →
      (∀ c, c < s.ports.length → off ≠ 0x100 + 8 * c ∧ off ≠ 0x104 + 8 * c) → readReg s off = 0#32) ∧
    (∀ rest, s.sched = .regRead off :: rest → step s = .next { s with sched := rest, hostData := readReg s off }) ∧
    ∀ v rest, off ≠ 0x014 → (∀ c, c < s.ports.length → off ≠ 0x100 + 8 * c) → s.sched = .regWrite off v :: rest →
      step s = .next { s with sched := rest }

/-- What the host writes into DMEM it reads back, little-endian, where no busy call outputs: as a word, and byte by
byte, up to the last byte of DMEM (20_memory.md R37, R39, R49). The widths and alignments are the model's choice (log
entry 36). -/
def Obligations.HostReadsWhatItWrites : Prop :=
  ∀ (s : State) (a : Nat) (w : Word) (rest : List Event), Memory.wf s.dmem = true → (∀ c, (getPort s c).call = .idle) →
    (a + 4 ≤ s.params.dmemSize →
      (s.sched = .dmemWrite a .word w :: .dmemRead a .word :: rest →
        ∃ t, Sys2Proof.core.run 2 s = .next t ∧ t.hostData = w ∧ t.sched = rest ∧
          ∀ x, x < a ∨ a + 4 ≤ x → memByte t.dmem x = memByte s.dmem x) ∧
      ∀ j, j < 4 → s.sched = .dmemWrite a .word w :: .dmemRead (a + j) .byte :: rest →
        ∃ t, Sys2Proof.core.run 2 s = .next t ∧ t.hostData = (w.extractLsb' (8 * j) 8).setWidth 32) ∧
    (a + 1 ≤ s.params.dmemSize → s.sched = .dmemWrite a .byte w :: .dmemRead a .byte :: rest →
      ∃ t, Sys2Proof.core.run 2 s = .next t ∧ t.hostData = (w.extractLsb' 0 8).setWidth 32 ∧
        ∀ x, x ≠ a → memByte t.dmem x = memByte s.dmem x)

/-! ## Invariants and rules of the whole machine -/

/-- Every step keeps DMEM in its canonical form (20_memory.md R37). -/
def Obligations.StepKeepsMemoryForm : Prop :=
  ∀ (s t : State), Memory.wf s.dmem = true → step s = .next t → Memory.wf t.dmem = true

/-- Every step keeps the invariant of the machine: the number of ports and instances, the form of DMEM, the fault
registers, the leases and the latched commands (10_state.md R22 to R33, 46_dispatcher_pool.md R131, R133). -/
def Obligations.StepKeepsTheInvariant : Prop :=
  ∀ (s t : State), s.Inv → step s = .next t → t.Inv

/-- The state after reset meets the invariant, whatever the parameters are (70_reset_and_hazards.md R157). -/
def Obligations.ResetMeetsTheInvariant : Prop :=
  State.reset.Inv ∧ ∀ p : Params, (State.powerOn p).Inv

/-- The lease invariant at every point of every run that starts at a reset, whatever the parameters are and whatever
the host, the platform and the scheduler do: an instance's lease is 1 exactly when exactly one call runs on it, and no
two calls hold the same instance (10_state.md R33). -/
def Obligations.LeaseInvariantInEveryRun : Prop :=
  ∀ (p : Params) (sched : List Event) (n : Nat) (s : State),
    Sys2Proof.core.run n { State.powerOn p with sched := sched } = .next s →
    (∀ k, k < s.params.k →
      ((getInst s k).lease = true ↔
        ∃ c, (c < s.ports.length ∧ ∃ desc, (getPort s c).call = .running desc k) ∧
          ∀ c', (c' < s.ports.length ∧ ∃ desc, (getPort s c').call = .running desc k) → c' = c)) ∧
    ∀ c c' desc desc' k, c < s.ports.length → c' < s.ports.length → (getPort s c).call = .running desc k →
      (getPort s c').call = .running desc' k → c = c'

/-- At most `K` commands run at once (46_dispatcher_pool.md R135). -/
def Obligations.AtMostKCallsRun : Prop :=
  ∀ (s : State), s.Inv → runningCalls s ≤ s.params.k

/-- A running block with a busy call never waits: left to itself it takes a step, no step of its own stops the model,
and every such step either raises a fault or shortens what is left to do (46_dispatcher_pool.md R134). The step that the
block takes by itself is the model's (log entry 7). -/
def Obligations.BusyBlockMakesProgress : Prop :=
  ∀ (s : State), s.Inv → s.bstate = .run → s.sched = [] → (∃ c, c < s.ports.length ∧ (getPort s c).call ≠ .idle) →
    ∃ t, step s = .next t ∧ (t.bstate = .faulted ∨ busyWeight t < busyWeight s)

/-- No step changes the construction constants, the tables and the collaborators that the parameters hold
(10_state.md R35, 00_scope.md R11). -/
def Obligations.ParametersAreConstant : Prop :=
  ∀ (s t : State), step s = .next t → t.params = s.params

/-- No command writes GRID or CHEST, moves the schedule or touches what the host has read: a grid read has no side
effect (20_memory.md R38, 45_format234.md R112). -/
def Obligations.CommandsReadGridOnly : Prop :=
  ∀ (i : Instr) (s t : State), exec i s = .next t → SameSurroundings s t

/-- Which instance executes a command shows in no byte of memory and in no fault register but `FAULT_SRC.INST`
(10_state.md R36): a state of the invariant in which the call of `c` runs on instance `k`, and the state in which it
runs on the free instance `k'` instead, with the lease, the owner and the operand registers there. -/
def Obligations.InstanceIsNotObservable : Prop :=
  ∀ (i : Instr) (s t u : State) (c k k' : Nat) (desc : Word), s.Inv → c < s.ports.length →
    (getPort s c).call = .running desc k → s.cur = ⟨c, some k, desc⟩ → k' < s.insts.length →
    (getInst s k').lease = false → exec i s = .next t → exec i (onInstance c desc k k' s) = .next u →
    t.dmem = u.dmem ∧ t.bstate = u.bstate ∧ t.faultInfo = u.faultInfo ∧ t.faultAddr = u.faultAddr ∧
      t.faultSrc.extractLsb' 0 4 = u.faultSrc.extractLsb' 0 4

/-- No result depends on the contents of `SCRATCH` (10_state.md R32): states that differ in it alone go to states with
the same memory, ports and fault registers. The form of `SCRATCH` is the model's choice (log entry 5). -/
def Obligations.ScratchIsNotObservable : Prop :=
  ∀ (i : Instr) (s t : State) (f : List Word → List Word), exec i s = .next t →
    ∃ u, exec i { s with insts := s.insts.map (fun x => { x with scratch := f x.scratch }) } = .next u ∧
      u.dmem = t.dmem ∧ u.ports = t.ports ∧ u.bstate = t.bstate ∧ u.faultInfo = t.faultInfo ∧
      u.faultAddr = t.faultAddr ∧ u.faultSrc = t.faultSrc

/-! ## Rules of the formats -/

/-- `VALID_PRB` is the set of counts up to 275 whose only prime factors are 2, 3 and 5; it has 53 members
(41_transform_precoder.md R78). -/
def Obligations.ValidPrbTable : Prop :=
  validPrb.length = 53 ∧
  ∀ n, n ∈ validPrb ↔ 1 ≤ n ∧ n ≤ 275 ∧ ∃ a b c, n = 2 ^ a * 3 ^ b * 5 ^ c

/-- The constant tables of the formats. The Format 1 threshold is 0.90, 3.00, 4.45 and 6.95 for 1, 2, 4 and 8
contributions, is defined for no other number, and never falls as they grow (00_scope.md R8, 44_format1.md R111). The
five candidate tables of Format 0, candidate by candidate as shift, HARQ0, HARQ1 and SR, and no other (43_format0.md R90).
The phases of `F1_OCC` are `i*m mod L`, but for length 4 those of a Walsh code, and the covers of one length are
orthogonal (44_format1.md R100). The DM-RS symbols of Formats 3 and 4 by number of symbols, hopping and additional DM-RS,
and the data symbols, all the others, rising (45_format234.md R114). `F4_OCC` turns block `q` of the twelve by `n*q` half
turns for `SF = 2` and by `n*q` quarter turns backwards for `SF = 4` (45_format234.md R116). -/
def Obligations.FormatOneThresholdsRise : Prop :=
  ((f1Thr 1 = some (90 / 100) ∧ f1Thr 2 = some 3 ∧ f1Thr 4 = some (445 / 100) ∧ f1Thr 8 = some (695 / 100)) ∧
    (∀ n, (f1Thr n).isSome = true ↔ n = 1 ∨ n = 2 ∨ n = 4 ∨ n = 8) ∧
    ∀ n m x y, f1Thr n = some x → f1Thr m = some y → n ≤ m → x ≤ y) ∧
  (let rows (n : Nat) (sr : Bool) := (f0Table n sr).map (fun c => (c.mcs, c.harq0.toNat, c.harq1.toNat, c.sr.toNat))
   rows 0 true = [(0, 0, 0, 1)] ∧
   rows 1 false = [(0, 0, 0, 0), (6, 1, 0, 0)] ∧
   rows 1 true = [(0, 0, 0, 0), (6, 1, 0, 0), (3, 0, 0, 1), (9, 1, 0, 1)] ∧
   rows 2 false = [(0, 0, 0, 0), (3, 0, 1, 0), (6, 1, 1, 0), (9, 1, 0, 0)] ∧
   rows 2 true = [(0, 0, 0, 0), (3, 0, 1, 0), (6, 1, 1, 0), (9, 1, 0, 0),
     (1, 0, 0, 1), (4, 0, 1, 1), (7, 1, 1, 1), (10, 1, 0, 1)] ∧
   ∀ n sr, 2 < n ∨ (n = 0 ∧ sr = false) → f0Table n sr = []) ∧
  (∀ l, 1 ≤ l → l ≤ 7 → (f1OccRows l).length = l ∧ (∀ r ∈ f1OccRows l, r.length = l) ∧
    (l ≠ 4 → ∀ i m, i < l → m < l → f1OccPhase l i m = i * m % l) ∧
    ∀ i i', i < l → i' < l →
      ∑ m ∈ Finset.range l,
        starRingEnd ℂ (rootOf ((f1OccPhase l i m : ℝ) / l)) * rootOf ((f1OccPhase l i' m : ℝ) / l) =
          if i = i' then (l : ℂ) else 0) ∧
  f1OccRows 4 = [[0, 0, 0, 0], [0, 2, 0, 2], [0, 0, 2, 2], [0, 2, 2, 0]] ∧
  (∀ add, f34DmrsSym 4 false add = [1] ∧ f34DmrsSym 4 true add = [0, 2]) ∧
  (∀ hop, (List.range 10).map (fun n => f34DmrsSym (n + 5) hop false) =
      [[0, 3], [1, 4], [1, 4], [1, 5], [1, 6], [2, 7], [2, 7], [2, 8], [2, 9], [3, 10]] ∧
    (List.range 10).map (fun n => f34DmrsSym (n + 5) hop true) =
      [[0, 3], [1, 4], [1, 4], [1, 5], [1, 6], [1, 3, 6, 8], [1, 3, 6, 9], [1, 4, 7, 10], [1, 4, 7, 11],
        [1, 5, 8, 12]]) ∧
  (∀ n hop add, (f34DataSym n hop add).Pairwise (· < ·) ∧
    ∀ i, i ∈ f34DataSym n hop add ↔ i < n ∧ i ∉ f34DmrsSym n hop add) ∧
  ∀ sf n, sf = 2 ∨ sf = 4 → n < sf → (f4Occ sf n).length = 12 ∧
    ∀ k, k < 12 →
      Complex.I ^ (f4Occ sf n).getD k 0 = (if sf = 2 then -1 else -Complex.I) ^ (n * (k / (12 / sf)))

/-- The largest usable OCC count is the least number of DM-RS or data symbols of a hop: half the symbols without
hopping; with hopping 1, 2 or 3 by the number of symbols. An entry beyond it makes the mux list invalid
(44_format1.md R101). -/
def Obligations.OccCount : Prop :=
  ∀ (d : PucchDesc), 4 ≤ nofSym d → nofSym d ≤ 14 →
    (∀ h, h < nofHops d → f1Nocc d ≤ (f1HopSymbols d h true).length ∧ f1Nocc d ≤ (f1HopSymbols d h false).length) ∧
    (∃ h, h < nofHops d ∧ (f1Nocc d = (f1HopSymbols d h true).length ∨ f1Nocc d = (f1HopSymbols d h false).length)) ∧
    (hopEn d = false → f1Nocc d = nofSym d / 2) ∧
    (hopEn d = true → f1Nocc d = if nofSym d ≤ 7 then 1 else if nofSym d ≤ 11 then 2 else 3) ∧
    ∀ rd e, e < d.bufLen.toNat → f1Nocc d ≤ muxOcc (wordAt rd (d.bufAddr.toNat + 4 * e)) → failB9 .f1 rd d = true

/-- `Q_LLR` is odd, never falls, maps 0 to 0 and `+inf` (with every value at or above every breakpoint) to `LLR_MAX`, and
so stays within `LLR_MAX` (00_scope.md R9); that it is given by its breakpoints on the binary32 values is the model's
choice (log entry 14). -/
def Obligations.QuantiserLaws : Prop :=
  ∀ (p : Params), ParamQuantiser p →
    (∀ x, qLlr p (f32Neg x) = -qLlr p x) ∧
    (∀ x y, f32Finite x = true → f32Finite y = true → f32Rat x ≤ f32Rat y → qLlr p x ≤ qLlr p y) ∧
    (∀ x, f32IsZero x = true → qLlr p x = 0) ∧
    (qLlr p f32PosInf = (llrMax p : Int) ∧ qLlr p (f32Neg f32PosInf) = -(llrMax p : Int)) ∧
    (∀ x, x.msb = false → (∀ b ∈ p.llrThr, b.toNat ≤ x.toNat) → qLlr p x = (llrMax p : Int)) ∧
    (∀ x, -(llrMax p : Int) ≤ qLlr p x ∧ qLlr p x ≤ (llrMax p : Int)) ∧ 1 ≤ llrMax p

/-- Every LLR byte is a level of the quantiser: within plus or minus `LLR_MAX` (45_format234.md R123,
20_memory.md R40). -/
def Obligations.LlrBytesInRange : Prop :=
  ∀ (d : PucchDesc) (s : State) (qm : Nat) (stream : List StreamSym) (b : Byte), ParamQuantiser s.params →
    b ∈ llrBytes d s qm stream → -(llrMax s.params : Int) ≤ b.toInt ∧ b.toInt ≤ (llrMax s.params : Int)

/-- The corner cases of `PROC.F0` in the words of its record (43_format0.md R91, R93, R94, R97, 00_scope.md R15). A grid
of zeros: candidate 0, invalid, and metric, EPRE, RSRP and SINR exactly 0. A noise-free grid equal to the reference of
candidate `c`, where no base sequence is listed and the shift is a multiple of 3, so that the reference is a sequence of
quarter turns which binary32 holds exactly: candidate `c`, valid, metric and SINR `+inf` or at least `1/(4*TOL)`, EPRE
and RSRP within `TOL` of 1. Base sequences of ones are the model's default (log entry 16). -/
def Obligations.SilentFormatZero : Prop :=
  ∀ (d : PucchDesc) (s : State), CallerExists s → Memory.wf s.dmem = true → ParamsLegal s.params →
    stageB .f0 d s = none → Undisturbed (.procF0 d) s →
    ∃ t, exec (.procF0 d) s = .next t ∧
      let uci := recordWord t d.resAddr 1
      let bitsOf (c : F0Cand) : Prop :=
        uci.getLsbD 3 = c.sr ∧ uci.getLsbD 6 = c.harq0 ∧ uci.getLsbD 7 = c.harq1
      ((∀ i p k, i < d.nofSym.toNat → p < d.nofPorts.toNat → k < 12 → c64IsZero (sampleAt d s i p k) = true) →
        uci.extractLsb' 0 2 = 2#2 ∧ (∀ c, (f0Cands d)[0]? = some c → bitsOf c) ∧
        f32IsZero (recordWord t d.resAddr 2) = true ∧ f32IsZero (recordWord t d.resAddr 3) = true ∧
        f32IsZero (recordWord t d.resAddr 4) = true ∧ f32IsZero (recordWord t d.resAddr 5) = true) ∧
      ∀ (c : F0Cand) (turns : Nat → Nat), c ∈ f0Cands d → s.params.paprTab = [] →
        (∀ i, i < d.nofSym.toNat →
          (d.initCs.toNat + c.mcs + (sequenceAt d s i).ncs.val) % 12 = 3 * turns i) →
        (∀ i p k, i < d.nofSym.toNat → p < d.nofPorts.toNat → k < 12 →
          let q := turns i * k % 4
          SampleIs (sampleAt d s i p k) (if q = 0 then 1 else if q = 2 then -1 else 0)
            (if q = 1 then 1 else if q = 3 then -1 else 0)) →
        let strong : Admitted := .atLeast (1 / (4 * s.params.tol))
        let one : Admitted := .within (1 - s.params.tol) (1 + s.params.tol)
        uci.extractLsb' 0 2 = 1#2 ∧ bitsOf c ∧
        admits strong (recordWord t d.resAddr 2) = true ∧ admits one (recordWord t d.resAddr 3) = true ∧
        admits one (recordWord t d.resAddr 4) = true ∧ admits strong (recordWord t d.resAddr 5) = true

/-- `PROC.F0` on any grid of finite samples, with base sequences given exactly: the bits in its record are those of a
candidate whose correlation power `Pc` is the largest within the error bounds, RW4 is that candidate's RSRP, the power
over `12 * P * N`, and RW2 and RW5 are the metric `Pc / (E - Pc)`. The status is valid where the metric less its error
bound is above `F0_THR(P*N, ncand)`, and invalid where the metric with its error bound is not; both are said where the
residual `E - Pc` is farther than its error bound from 0 (43_format0.md R91, R93, R95, 00_scope.md R15). The exact base
sequences, how the error bounds of power and residual enter the metric's, and what binary32 cannot hold are the model's
choice (log entries 9, 10, 12, 15, 33, 41). -/
def Obligations.FormatZeroWinner : Prop :=
  ∀ (d : PucchDesc) (s : State), CallerExists s → Memory.wf s.dmem = true → ParamsLegal s.params →
    ParamsExact s.params → stageB .f0 d s = none → Undisturbed (.procF0 d) s → SamplesFinite d s →
    ∃ t c, exec (.procF0 d) s = .next t ∧ c ∈ f0Cands d ∧
      (recordWord t d.resAddr 1).getLsbD 3 = c.sr ∧ (recordWord t d.resAddr 1).getLsbD 6 = c.harq0 ∧
      (recordWord t d.resAddr 1).getLsbD 7 = c.harq1 ∧
      (∀ c', c' ∈ f0Cands d →
        candidatePower d s c' ≤ candidatePower d s c + 2 * errorBound s.params.tol (candidatePowerScale d s)) ∧
      let n : ℝ := (12 * d.nofPorts.toNat * d.nofSym.toNat : ℝ)
      let power := candidatePower d s c
      let scale := candidatePowerScale d s
      let energy := allocationEnergy d s
      let thr := realOf ((f0Thr s.params (d.nofPorts.toNat * d.nofSym.toNat) (f0Cands d).length).getD f32Zero)
      ReturnsReal s.params.tol (power / n) (scale / n) (recordWord t d.resAddr 4) ∧
      ReturnsStatus s.params.tol power scale (energy - power) (energy + power) thr
        ((recordWord t d.resAddr 1).extractLsb' 0 2) ∧
      ReturnsRatio s.params.tol power scale (energy - power) (energy + power) (recordWord t d.resAddr 2) ∧
      ReturnsRatio s.params.tol power scale (energy - power) (energy + power) (recordWord t d.resAddr 5)

/-- `PROC.F1` on any grid of finite samples, with base sequences given exactly. The bits decided for every mux entry
follow the signs of its cross term `Xc` outside the error bound, one bit from `cr + ci` for a length up to 1 and two from
`cr` and `ci` for length 2, and an SR-only entry whose bit is 1 is invalid. `keep` are the shifts kept, those at most 10
dB below the strongest outside the error bounds, and `sigma2` is the mean square of what they leave of the DM-RS
samples. The metric is `num / (F1_NORM * sigma2)` for the symbol of the decided bits; the status is valid where the
metric less its error bound is above `F1_THR(P*H)`, and invalid where the metric with its error bound is not. RSRP is the
mean of `abs2(hh)` over hops and ports and SINR is `RSRP / sigma2`; the two ratios and the status are said where `sigma2`
is farther than its error bound from 0 (44_format1.md R102, R103, R105 to R107, 00_scope.md R15). The exact base sequences, how the error bounds of `num` and `sigma2` enter the metric's, and what binary32 cannot
hold are the model's choice (log entries 9, 10, 12, 15, 33, 40, 41). -/
def Obligations.FormatOneDecision : Prop :=
  ∀ (d : PucchDesc) (s : State), CallerExists s → Memory.wf s.dmem = true → ParamsLegal s.params →
    ParamsExact s.params → stageB .f1 d s = none → Undisturbed (.procF1 d) s → SamplesFinite d s →
    let tol := s.params.tol
    let muxWord (e : Nat) : Word := memWord s.dmem (d.bufAddr.toNat + 4 * e)
    let occOf (e : Nat) : Nat := ((muxWord e).extractLsb' 8 3).toNat
    let occs := (Finset.range d.bufLen.toNat).image occOf
    let norm : ℝ := f1NormOf d s ((List.range d.bufLen.toNat).map muxWord)
    ∃ t keep, exec (.procF1 d) s = .next t ∧ KeptShifts d s occs keep ∧
      let sigma2 := noiseValue d s occs keep
      let s2 := noiseScaleValue d s occs keep
      ReturnsReal tol sigma2 s2 (recordWord t d.resAddr 3) ∧
      ∀ e, e < d.bufLen.toNat →
        let m0 := ((muxWord e).extractLsb' 0 4).toNat
        let occ := occOf e
        let q := ((muxWord e).extractLsb' 16 2).toNat
        let xc := crossValue d s occ m0
        let bound := errorBound tol (crossScale d s)
        let uci := recordWord t d.resAddr (5 + 6 * e)
        (q = 0 → xc.re + xc.im < -(2 * bound) → uci.extractLsb' 0 2 = 2#2) ∧
        (q = 1 → (2 * bound < xc.re + xc.im → uci.getLsbD 6 = false) ∧
          (xc.re + xc.im < -(2 * bound) → uci.getLsbD 6 = true)) ∧
        (q = 2 → (bound < xc.re → uci.getLsbD 6 = false) ∧ (xc.re < -bound → uci.getLsbD 6 = true) ∧
          (bound < xc.im → uci.getLsbD 7 = false) ∧ (xc.im < -bound → uci.getLsbD 7 = true)) ∧
        ReturnsReal tol (rsrpValue d s occ m0) (rsrpScale d s) (recordWord t d.resAddr (8 + 6 * e)) ∧
        ReturnsRatio tol (rsrpValue d s occ m0) (rsrpScale d s) sigma2 s2 (recordWord t d.resAddr (9 + 6 * e)) ∧
        let num := numValue d s (decidedSymbol q (uci.getLsbD 6) (uci.getLsbD 7)) occ m0
        ((q = 0 → 2 * bound < xc.re + xc.im) →
          ReturnsStatus tol num (numScaleValue d s) (norm * sigma2) (norm * s2) (f1ThrOf d) (uci.extractLsb' 0 2) ∧
          ReturnsRatio tol num (numScaleValue d s) (norm * sigma2) (norm * s2) (recordWord t d.resAddr (6 + 6 * e)))

/-- The noise-free Format 1 scenario of two users (44_format1.md R104 to R108, R111; 95_test_vectors.md section 1.2), with
base sequences of ones (the model's default, log entry 16) and data symbols scaled to `(1-2*b0) + j*(1-2*b1)`, which
binary32 holds: 4 symbols, no hopping, one port, keys `(0, 0)` and `(6, 0)` of any lengths, no cyclic-shift offset. Both
entries are valid with the injected bits wherever `TOL * F1_NORM < 64`; each metric is `+inf` or at least
`num / (4*TOL*S2*F1_NORM)` with `num > 3320` and `S2 = 10`; each SINR is `+inf` or not negative; `sigma2` is within its
error bound of 0, and each RSRP within `TOL` of 1. -/
def Obligations.NoiseFreeFormatOne : Prop :=
  ∀ (d : PucchDesc) (s : State) (wa wb : Word) (a0 a1 b0 b1 : Bool), CallerExists s → Memory.wf s.dmem = true →
    ParamsLegal s.params → stageB .f1 d s = none → Undisturbed (.procF1 d) s → s.params.paprTab = [] →
    (∀ i, i < 4 → (sequenceAt d s i).ncs = 0) → d.nofSym = 4#4 → d.hopEn = 0#1 → d.nofPorts = 1#4 → d.bufLen = 2#32 →
    memWord s.dmem d.bufAddr.toNat = wa → memWord s.dmem (d.bufAddr.toNat + 4) = wb →
    (wa.extractLsb' 0 4 = 0#4 ∧ wa.extractLsb' 8 3 = 0#3) → (wb.extractLsb' 0 4 = 6#4 ∧ wb.extractLsb' 8 3 = 0#3) →
    (muxHarq wa = 0 → a0 = false) → (muxHarq wb = 0 → b0 = false) → (muxHarq wa ≤ 1 → a1 = a0) →
    (muxHarq wb ≤ 1 → b1 = b0) →
    let sign (b : Bool) : Rat := if b then -1 else 1
    let alt (k : Nat) : Rat := if k % 2 = 0 then 1 else -1
    (∀ i k, (i = 0 ∨ i = 2) → k < 12 → SampleIs (sampleAt d s i 0 k) (1 + alt k) 0) →
    (∀ i k, (i = 1 ∨ i = 3) → k < 12 →
      SampleIs (sampleAt d s i 0 k) (sign a0 + sign b0 * alt k) (sign a1 + sign b1 * alt k)) →
    let tn := s.params.tol * f1NormOf d s [wa, wb]
    tn < 64 →
    ∃ t, exec (.procF1 d) s = .next t ∧
      |realOf (recordWord t d.resAddr 3)| ≤ errorBound s.params.tol 10 ∧
      ∀ e w x y, (e = 0 ∧ w = wa ∧ x = a0 ∧ y = a1 ∨ e = 1 ∧ w = wb ∧ x = b0 ∧ y = b1) →
        let uci := recordWord t d.resAddr (5 + 6 * e)
        uci.extractLsb' 0 2 = 1#2 ∧ (1 ≤ muxHarq w → uci.getLsbD 6 = x) ∧ (2 ≤ muxHarq w → uci.getLsbD 7 = y) ∧
        admits (.atLeast (83 / tn)) (recordWord t d.resAddr (6 + 6 * e)) = true ∧
        |realOf (recordWord t d.resAddr (8 + 6 * e)) - 1| ≤ errorBound s.params.tol 1 ∧
        admits (.atLeast 0) (recordWord t d.resAddr (9 + 6 * e)) = true

/-- The EPRE of a `PROC.F0` and of a `PROC.F1` record is the mean power of every sample of the allocation, within the
error bound of that mean, wherever the samples are finite and the bound holds the nearest binary32 value
(43_format0.md R93, R95, 44_format1.md R106, 00_scope.md R15). -/
def Obligations.EpreIsTheMeanPower : Prop :=
  ∀ (d : PucchDesc) (s : State), CallerExists s → Memory.wf s.dmem = true →
    let sample (i p k : Nat) : C64 :=
      gridRead s d.gridHandle (portAt d p) (d.startSym.toNat + i) (12 * prbBase d i + k)
    let power (z : C64) : Rat := f32Rat z.re * f32Rat z.re + f32Rat z.im * f32Rat z.im
    let total := ratSum ((List.range d.nofSym.toNat).map (fun i => ratSum ((List.range d.nofPorts.toNat).map (fun p =>
      ratSum ((List.range 12).map (fun k => power (sample i p k)))))))
    let mean := total / ((12 * d.nofPorts.toNat * d.nofSym.toNat : Nat) : Rat)
    let rule : Admitted := .within (mean - s.params.tol * mean) (mean + s.params.tol * mean)
    (∀ i p k, i < d.nofSym.toNat → p < d.nofPorts.toNat → k < 12 → c64Finite (sample i p k) = true) →
    admits rule (admittedSample rule) = true →
    (stageB .f0 d s = none → Undisturbed (.procF0 d) s →
      ∃ t, exec (.procF0 d) s = .next t ∧ admits rule (recordWord t d.resAddr 3) = true) ∧
    (stageB .f1 d s = none → Undisturbed (.procF1 d) s →
      ∃ t, exec (.procF1 d) s = .next t ∧ admits rule (recordWord t d.resAddr 2) = true)

/-- A bad resource element, one where some port's channel coefficient is zero or not finite or its noise variance is not
finite and positive, gives LLR bytes of 0. Format 2: the two bytes of the element, the elements running symbol by symbol,
PRB by PRB and through the eight data subcarriers of a PRB. Format 3: the bytes of symbol `t*MSC + m` for element `m` of
data symbol `DS[t]`, whatever the other elements of its block hold. Format 4: the bytes of symbol `t*MB + m` where some
copy `m + q*MB` is bad. A QPSK symbol has two bytes, a pi/2-BPSK symbol one (42_equalizer.md R84, 41_transform_precoder.md
R80, 45_format234.md R113 to R115, R117 to R121, R126 to R128). -/
def Obligations.DeadChannelSilencesItsElement : Prop :=
  ∀ (d : PucchDesc) (s : State), CallerExists s → Memory.wf s.dmem = true →
    let byte (t : State) (n : Nat) : Byte := memByte t.dmem (d.bufAddr.toNat + n)
    let silent (t : State) (n : Nat) : Prop :=
      if d.pi2bpsk = 1#1 then byte t n = 0#8 else byte t (2 * n) = 0#8 ∧ byte t (2 * n + 1) = 0#8
    let block (ch : Chest) (i k : Nat) : Element := elementAt d s ch (d.startSym.toNat + i) (12 * prbBase d i + k)
    let data := f34DataSym d.nofSym.toNat (d.hopEn == 1#1) (d.addDmrs == 1#1)
    (stageB .f2 d s = none → Undisturbed (.procF2 d) s →
      ∃ t, exec (.procF2 d) s = .next t ∧
        let ch := chEst s (encode (.procF2 d))
        ∀ i r q, i < d.nofSym.toNat → r < d.nofPrb.toNat → q < 8 →
          (block ch i (12 * r + [0, 2, 3, 5, 6, 8, 9, 11].getD q 0)).bad = true →
          let n := 8 * (i * d.nofPrb.toNat + r) + q
          byte t (2 * n) = 0#8 ∧ byte t (2 * n + 1) = 0#8) ∧
    (stageB .f3 d s = none → Undisturbed (.procF3 d) s →
      ∃ t, exec (.procF3 d) s = .next t ∧
        let ch := chEst s (encode (.procF3 d))
        ∀ n i m, data[n]? = some i → m < 12 * d.nofPrb.toNat → (block ch i m).bad = true →
          silent t (n * (12 * d.nofPrb.toNat) + m)) ∧
    (stageB .f4 d s = none → Undisturbed (.procF4 d) s →
      ∃ t, exec (.procF4 d) s = .next t ∧
        let ch := chEst s (encode (.procF4 d))
        let sf := if d.occLenSel = 0#1 then 2 else 4
        let mb := 12 / sf
        ∀ n i m q, data[n]? = some i → m < mb → q < sf → (block ch i (m + q * mb)).bad = true →
          silent t (n * mb + m))

/-- The LLRs of Format 2: a resource element that is not bad, whose samples are finite and whose equalized symbol binary32
holds, gives `2*sqrt(2)*Re(s)/e` and `2*sqrt(2)*Im(s)/e`, flipped in sign where the descrambler's bit is 1 and quantised,
each within the error bound; the elements run symbol by symbol, PRB by PRB and through the eight data subcarriers
(42_equalizer.md R85, 45_format234.md R113, R118, R121, R122, R123, 00_scope.md R9, R15). That one error bound spans the
whole chain from grid sample to LLR and that a symbol binary32 holds counts as finite (log entries 9 and 35), the scale of
a symbol's parts (log entry 40), the enclosures, the quantiser and what binary32 cannot hold (log entries 10, 14, 33) are
the model's choice. -/
def Obligations.FormatTwoLlrs : Prop :=
  ∀ (d : PucchDesc) (s : State), CallerExists s → Memory.wf s.dmem = true → ParamsLegal s.params →
    stageB .f2 d s = none → Undisturbed (.procF2 d) s →
    ∃ t, exec (.procF2 d) s = .next t ∧
      ∀ i r q, i < d.nofSym.toNat → r < d.nofPrb.toNat → q < 8 →
        let algo := s.params.eqAlgo
        let x := elementAt d s (chEst s (encode (.procF2 d))) (d.startSym.toNat + i)
          (12 * (prbBase d i + r) + [0, 2, 3, 5, 6, 8, 9, 11].getD q 0)
        x.bad = false → x.finite = true →
        ComplexHeld s.params.tol (x.symbol algo 1) (x.symbolScale algo 1) →
        ReturnsQpsk s.params (d.rnti.toNat * 2 ^ 15 + d.nId.toNat) (x.symbol algo 1) (x.symbolScale algo 1)
          (x.noise algo 1) (8 * (i * d.nofPrb.toNat + r) + q) d.bufAddr.toNat t.dmem

/-- The LLRs of Formats 3 and 4. In a block of `MSC` elements of data symbol `DS[t]`, the symbols of the elements that
are not bad (0 for a bad one) are deprecoded, and their noise variances take the common mean. Format 3: element `m`, not
bad, gives the LLRs of symbol `t*MSC + m`. Format 4: the copies `m + q*MB`, none bad, are multiplied by the conjugate
cover and averaged, and give the LLRs of symbol `t*MB + m`, with the sum of their noise variances over `SF^2`. QPSK takes
two LLRs of a symbol, pi/2-BPSK one; each is flipped in sign where the descrambler's bit is 1 and quantised, within the
error bound (41_transform_precoder.md R79, R80, 45_format234.md R115 to R117, R119, R121 to R123, 00_scope.md R9, R15).
That one error bound spans the whole chain through equalizer, deprecoder and despreader, that a symbol binary32 holds
counts as finite, and that an open symbol opens its whole block, which the closed block rules out (log entries 9 and 35),
the scale of a symbol's parts (log entry 40), the enclosures, the quantiser and what binary32 cannot hold (log entries 10,
14, 33, 39) are the model's choice. -/
def Obligations.FormatsThreeAndFourLlrs : Prop :=
  ∀ (d : PucchDesc) (s : State) (i n : Nat), CallerExists s → Memory.wf s.dmem = true → ParamsLegal s.params →
    (f34DataSym d.nofSym.toNat (d.hopEn == 1#1) (d.addDmrs == 1#1))[n]? = some i →
    let p := s.params
    let cinit := d.rnti.toNat * 2 ^ 15 + d.nId.toNat
    let returns := if d.pi2bpsk = 1#1 then ReturnsBpsk p cinit else ReturnsQpsk p cinit
    let block (ch : Chest) (k : Nat) : Element := elementAt d s ch (d.startSym.toNat + i) (12 * prbBase d i + k)
    let sd (ch : Chest) (msc : Nat) : Nat → ℂ := deprecodeValue msc (fun k => (block ch k).symbol p.eqAlgo 1)
    let scale (ch : Chest) (msc : Nat) : ℝ := deprecodeScaleValue msc (fun k => (block ch k).symbolScale p.eqAlgo 1)
    (stageB .f3 d s = none → Undisturbed (.procF3 d) s →
      ∃ t, exec (.procF3 d) s = .next t ∧
        let ch := chEst s (encode (.procF3 d))
        let msc := 12 * d.nofPrb.toNat
        ∀ m, m < msc → (block ch m).bad = false → BlockClosed p.tol p.eqAlgo msc (block ch) →
          ComplexHeld p.tol (sd ch msc m) (scale ch msc) →
          returns (sd ch msc m) (scale ch msc) (blockNoise p.eqAlgo msc (block ch)) (n * msc + m)
            d.bufAddr.toNat t.dmem) ∧
    (stageB .f4 d s = none → Undisturbed (.procF4 d) s →
      ∃ t, exec (.procF4 d) s = .next t ∧
        let ch := chEst s (encode (.procF4 d))
        let sf := if d.occLenSel = 0#1 then 2 else 4
        let mb := 12 / sf
        let cover (k : Nat) : ℂ := Complex.I ^ ((f4Occ sf d.occIdx.toNat).getD k 0)
        let sym (m : Nat) : ℂ :=
          1 / sf * ∑ q ∈ Finset.range sf, starRingEnd ℂ (cover (m + q * mb)) * sd ch 12 (m + q * mb)
        let symScale : ℝ := 1 / sf * ∑ _q ∈ Finset.range sf, scale ch 12
        let noise : ℝ := 1 / (sf : ℝ) ^ 2 * ∑ _q ∈ Finset.range sf, blockNoise p.eqAlgo 12 (block ch)
        ∀ m, m < mb → (∀ q, q < sf → (block ch (m + q * mb)).bad = false) →
          BlockClosed p.tol p.eqAlgo 12 (block ch) →
          (∀ q, q < sf → ComplexHeld p.tol (sd ch 12 (m + q * mb)) (scale ch 12)) →
          ComplexHeld p.tol (sym m) symScale →
          returns (sym m) symScale noise (n * mb + m) d.bufAddr.toNat t.dmem)
end

