-- ==== Sys2Proof/Laws/Binary32.lean ====
section
/-! SUPPORT. The order of the binary32 values: what rounding down, up and to nearest answer, and that the sample of a
rule is admitted whenever any pattern is (00_scope.md R13, R15). -/

namespace Sys2Proof.Machine

/-! ## Magnitudes -/

/-- The magnitude bits of a pattern. -/
def f32Mag (x : F32) : Nat := (x.extractLsb' 0 31).toNat

/-- The value of magnitude bits in units of 2^-149. -/
def magUnits (m : Nat) : Nat := if m / 2 ^ 23 = 0 then m else (2 ^ 23 + m % 2 ^ 23) * 2 ^ (m / 2 ^ 23 - 1)

theorem f32Mag_lt (x : F32) : f32Mag x < 2 ^ 31 := (x.extractLsb' 0 31).isLt

theorem f32Units_eq (x : F32) : f32Units x = magUnits (f32Mag x) := by
  have he : f32Exp x = f32Mag x / 2 ^ 23 := by
    simp only [f32Exp, f32Mag, BitVec.extractLsb'_toNat, Nat.shiftRight_eq_div_pow]
    omega
  have hf : f32Frac x = f32Mag x % 2 ^ 23 := by
    simp only [f32Frac, f32Mag, BitVec.extractLsb'_toNat, Nat.shiftRight_zero]
    omega
  unfold f32Units magUnits
  rw [he, hf]
  split
  · rename_i h
    omega
  · rfl

theorem f32Finite_iff (x : F32) : f32Finite x = true ↔ f32Mag x ≤ 0x7F7FFFFF := by
  have h := f32Mag_lt x
  simp only [f32Finite, f32Exp, bne_iff_ne, ne_eq, f32Mag, BitVec.extractLsb'_toNat, Nat.shiftRight_eq_div_pow]
    at h ⊢
  omega

/-- The units of a magnitude with exponent field `e` and fraction `f`. -/
theorem magUnits_split (e f : Nat) (hf : f < 2 ^ 23) :
    magUnits (e * 2 ^ 23 + f) = if e = 0 then f else (2 ^ 23 + f) * 2 ^ (e - 1) := by
  have h1 : (e * 2 ^ 23 + f) / 2 ^ 23 = e := by omega
  have h2 : (e * 2 ^ 23 + f) % 2 ^ 23 = f := by omega
  unfold magUnits
  rw [h1, h2]
  split
  · subst e
    simp
  · rfl

theorem magUnits_succ (m : Nat) : magUnits m < magUnits (m + 1) := by
  obtain ⟨e, f, hf, rfl⟩ : ∃ e f, f < 2 ^ 23 ∧ m = e * 2 ^ 23 + f := ⟨m / 2 ^ 23, m % 2 ^ 23, by omega, by omega⟩
  rw [magUnits_split e f hf]
  by_cases h : f + 1 < 2 ^ 23
  · rw [Nat.add_assoc, magUnits_split e (f + 1) h]
    split
    · omega
    · exact Nat.mul_lt_mul_of_pos_right (by omega) (by positivity)
  · rw [show e * 2 ^ 23 + f + 1 = (e + 1) * 2 ^ 23 + 0 by omega, magUnits_split (e + 1) 0 (by norm_num),
      if_neg (Nat.succ_ne_zero e), Nat.add_sub_cancel]
    split
    · rename_i he
      subst he
      simpa using hf
    · obtain ⟨k, rfl⟩ : ∃ k, e = k + 1 := ⟨e - 1, by omega⟩
      have hP : 0 < 2 ^ k := by positivity
      have h2 : 2 ^ (k + 1) = 2 * 2 ^ k := by ring
      rw [Nat.add_sub_cancel, h2]
      generalize 2 ^ k = P at hP
      have := Nat.mul_lt_mul_of_pos_right hf hP
      rw [Nat.add_mul]
      omega

theorem magUnits_strictMono : StrictMono magUnits := strictMono_nat_of_lt_succ magUnits_succ

/-- `f32OfUnits n` is the largest finite magnitude of at most `n` units. -/
theorem f32OfUnits_spec (n : Nat) :
    f32OfUnits n ≤ 0x7F7FFFFF ∧ magUnits (f32OfUnits n) ≤ n ∧
      ∀ m, m ≤ 0x7F7FFFFF → magUnits m ≤ n → m ≤ f32OfUnits n := by
  unfold f32OfUnits
  split
  · rename_i h
    have hu : ∀ k, k < 2 ^ 24 → magUnits k = k := by
      intro k hk
      unfold magUnits
      split
      · rfl
      · have : k / 2 ^ 23 = 1 := by omega
        rw [this]
        omega
    refine ⟨by omega, by rw [hu n h], fun m _ hm => ?_⟩
    by_contra hc
    have := magUnits_strictMono (show n < m by omega)
    rw [hu n h] at this
    omega
  · rename_i h
    have hn : n ≠ 0 := by omega
    have hlo : 2 ^ Nat.log2 n ≤ n := Nat.log2_self_le hn
    have hhi : n < 2 ^ (Nat.log2 n + 1) := Nat.lt_log2_self
    have h24 : 24 ≤ Nat.log2 n := by
      by_contra hc
      have : n < 2 ^ 24 := lt_of_lt_of_le hhi (Nat.pow_le_pow_right (by omega) (by omega))
      omega
    obtain ⟨sh, hsh⟩ : ∃ sh, Nat.log2 n = sh + 23 := ⟨Nat.log2 n - 23, by omega⟩
    simp only [hsh, Nat.add_sub_cancel] at hlo hhi ⊢
    have hpos : 0 < 2 ^ sh := by positivity
    have hmlo : 2 ^ 23 ≤ n / 2 ^ sh := by
      rw [Nat.le_div_iff_mul_le hpos, ← pow_add, Nat.add_comm]
      exact hlo
    have hmhi : n / 2 ^ sh < 2 ^ 24 := by
      rw [Nat.div_lt_iff_lt_mul hpos, ← pow_add]
      rwa [show 24 + sh = sh + 23 + 1 by omega]
    have hval : ∀ k, 2 ^ 23 ≤ k → k ≤ 2 ^ 24 → magUnits (sh * 2 ^ 23 + k) = k * 2 ^ sh := by
      intro k hk1 hk2
      by_cases hk : k < 2 ^ 24
      · rw [show sh * 2 ^ 23 + k = (sh + 1) * 2 ^ 23 + (k - 2 ^ 23) by omega,
          magUnits_split _ _ (by omega), if_neg (by omega), Nat.add_sub_cancel, Nat.add_sub_cancel' hk1]
      · have hk' : k = 2 ^ 24 := by omega
        have hs := magUnits_split (sh + 2) 0 (by norm_num)
        rw [if_neg (by omega), show (sh + 2) - 1 = sh + 1 from rfl, pow_succ 2 sh] at hs
        have hk2 : sh * 2 ^ 23 + k = (sh + 2) * 2 ^ 23 + 0 := by omega
        rw [hk2, hs, hk']
        generalize 2 ^ sh = P
        omega
    have hle : n / 2 ^ sh * 2 ^ sh ≤ n := Nat.div_mul_le_self ..
    have hgt : n < (n / 2 ^ sh + 1) * 2 ^ sh := by
      have := Nat.lt_div_mul_add (a := n) hpos
      rw [Nat.add_mul, Nat.one_mul]
      exact this
    refine ⟨by omega, ?_, fun m hm1 hm2 => ?_⟩
    · refine le_trans (magUnits_strictMono.monotone (min_le_left _ _)) ?_
      rw [hval _ hmlo (by omega)]
      exact hle
    · rw [le_min_iff]
      refine ⟨?_, hm1⟩
      by_contra hc
      have := magUnits_strictMono.monotone (show sh * 2 ^ 23 + (n / 2 ^ sh + 1) ≤ m by omega)
      rw [hval _ (by omega) (by omega)] at this
      omega

/-! ## Values -/

/-- The magnitude of a pattern's value. -/
def f32AbsRat (x : F32) : Rat := (magUnits (f32Mag x) : Rat) / (2 ^ 149 : Nat)

theorem f32AbsRat_nonneg (x : F32) : 0 ≤ f32AbsRat x := by unfold f32AbsRat; positivity

theorem f32Rat_eq (x : F32) : f32Rat x = if x.msb then -f32AbsRat x else f32AbsRat x := by
  unfold f32Rat f32AbsRat
  rw [f32Units_eq]

theorem f32Neg_mag (x : F32) : f32Mag (f32Neg x) = f32Mag x := by
  have : (f32Neg x).extractLsb' 0 31 = x.extractLsb' 0 31 := by
    unfold f32Neg
    apply BitVec.eq_of_getLsbD_eq
    intro i hi
    simp only [BitVec.getLsbD_extractLsb', BitVec.getLsbD_xor, hi, decide_true, Bool.true_and, Nat.zero_add]
    have : (0x80000000#32).getLsbD i = false := by
      have h31 : i < 31 := hi
      interval_cases i <;> decide
    rw [this, Bool.xor_false]
  unfold f32Mag
  rw [this]

theorem f32Neg_msb (x : F32) : (f32Neg x).msb = !x.msb := by
  unfold f32Neg
  rw [BitVec.msb_xor, show (0x80000000#32).msb = true by decide, Bool.xor_true]

theorem f32Neg_neg (x : F32) : f32Neg (f32Neg x) = x := by
  unfold f32Neg
  rw [BitVec.xor_assoc, BitVec.xor_self, BitVec.xor_zero]

@[simp] theorem f32Rat_neg (x : F32) : f32Rat (f32Neg x) = -f32Rat x := by
  rw [f32Rat_eq, f32Rat_eq, f32Neg_msb]
  unfold f32AbsRat
  rw [f32Neg_mag]
  cases x.msb <;> simp

@[simp] theorem f32Finite_neg (x : F32) : f32Finite (f32Neg x) = f32Finite x := by
  rw [Bool.eq_iff_iff, f32Finite_iff, f32Finite_iff, f32Neg_mag]

theorem f32AbsRat_pos (x : F32) : 0 < f32AbsRat x ↔ f32Mag x ≠ 0 := by
  unfold f32AbsRat
  constructor
  · intro h e
    rw [e] at h
    simp [magUnits] at h
  · intro h
    have := magUnits_strictMono (show 0 < f32Mag x by omega)
    have : 0 < magUnits (f32Mag x) := by omega
    positivity

theorem f32IsZero_mag (x : F32) : f32IsZero x = true ↔ f32Mag x = 0 := by
  unfold f32IsZero f32Mag
  rw [beq_iff_eq]
  exact ⟨fun e => by rw [e]; rfl, fun e => BitVec.eq_of_toNat_eq (by rw [e]; rfl)⟩

/-- A pattern is a zero exactly when its value is 0. -/
theorem f32IsZero_iff (x : F32) : f32IsZero x = true ↔ f32Rat x = 0 := by
  have hp := f32AbsRat_pos x
  have hn := f32AbsRat_nonneg x
  rw [f32IsZero_mag, f32Rat_eq]
  constructor
  · intro h
    have : ¬ 0 < f32AbsRat x := fun hh => hp.1 hh h
    have : f32AbsRat x = 0 := le_antisymm (not_lt.1 this) hn
    rw [this]
    simp
  · intro h
    by_contra hc
    have := hp.2 hc
    split at h <;> linarith

/-- `good_nv` says finite and greater than 0 (00_scope.md R13). -/
theorem goodNv_iff (x : F32) : goodNv x = true ↔ f32Finite x = true ∧ 0 < f32Rat x := by
  have hp := f32AbsRat_pos x
  have hn := f32AbsRat_nonneg x
  unfold goodNv
  rw [f32Rat_eq]
  cases hs : x.msb with
  | true =>
    simp only [Bool.not_true, Bool.false_and, Bool.false_eq_true, false_iff, if_true, not_and, not_lt]
    intro _
    linarith
  | false =>
    simp only [Bool.not_false, Bool.true_and, Bool.and_eq_true, Bool.not_eq_true', Bool.false_eq_true, if_false]
    rw [hp, ← Bool.not_eq_true, f32IsZero_mag]

theorem f32OfNat_mag {m : Nat} (h : m < 2 ^ 31) :
    f32Mag (BitVec.ofNat 32 m) = m ∧ (BitVec.ofNat 32 m).msb = false := by
  constructor
  · simp only [f32Mag, BitVec.extractLsb'_toNat, BitVec.toNat_ofNat, Nat.shiftRight_zero]
    omega
  · rw [BitVec.msb_eq_false_iff_two_mul_lt, BitVec.toNat_ofNat]
    omega

/-- Rounding down a non-negative value. -/
theorem f32FloorAbs_spec {q : Rat} (hq : 0 ≤ q) :
    f32Finite (f32FloorAbs q) = true ∧ 0 ≤ f32Rat (f32FloorAbs q) ∧ f32Rat (f32FloorAbs q) ≤ q ∧
      ∀ y, f32Finite y = true → f32Rat y ≤ q → f32Rat y ≤ f32Rat (f32FloorAbs q) := by
  have hg : (0 : Rat) < ((2 ^ 149 : Nat) : Rat) := by positivity
  obtain ⟨n, hn⟩ : ∃ n : Nat, (q * ((2 ^ 149 : Nat) : Rat)).floor = (n : Int) :=
    ⟨(q * ((2 ^ 149 : Nat) : Rat)).floor.toNat, by
      rw [Int.toNat_of_nonneg]
      exact Rat.le_floor_iff.2 (by simpa using mul_nonneg hq hg.le)⟩
  have hle : (n : Rat) ≤ q * ((2 ^ 149 : Nat) : Rat) := by
    have := Rat.floor_le (q * ((2 ^ 149 : Nat) : Rat))
    rw [hn] at this
    exact_mod_cast this
  have hlt : q * ((2 ^ 149 : Nat) : Rat) < (n : Rat) + 1 := by
    have := Int.lt_floor_add_one (q * ((2 ^ 149 : Nat) : Rat))
    rw [show ⌊q * ((2 ^ 149 : Nat) : Rat)⌋ = (n : Int) from hn] at this
    exact_mod_cast this
  have hb : f32FloorAbs q = BitVec.ofNat 32 (f32OfUnits n) := by
    unfold f32FloorAbs
    rw [hn]
    rfl
  obtain ⟨s1, s2, s3⟩ := f32OfUnits_spec n
  obtain ⟨m1, m2⟩ := f32OfNat_mag (m := f32OfUnits n) (by omega)
  have hv : f32Rat (f32FloorAbs q) = (magUnits (f32OfUnits n) : Rat) / (2 ^ 149 : Nat) := by
    rw [hb, f32Rat_eq, m2, if_neg (by simp)]
    unfold f32AbsRat
    rw [m1]
  refine ⟨by rw [hb, f32Finite_iff, m1]; exact s1, by rw [hv]; positivity, ?_, fun y hy hyq => ?_⟩
  · rw [hv, div_le_iff₀ hg]
    exact le_trans (by exact_mod_cast s2) hle
  · rw [hv]
    by_cases hs : y.msb
    · rw [f32Rat_eq, if_pos hs]
      have := f32AbsRat_nonneg y
      have : (0 : Rat) ≤ (magUnits (f32OfUnits n) : Rat) / (2 ^ 149 : Nat) := by positivity
      linarith
    · rw [f32Rat_eq, if_neg hs] at hyq ⊢
      unfold f32AbsRat at hyq ⊢
      rw [div_le_iff₀ hg] at hyq
      have h1 : magUnits (f32Mag y) ≤ n := by
        have : (magUnits (f32Mag y) : Rat) < (n : Rat) + 1 := lt_of_le_of_lt hyq hlt
        have : magUnits (f32Mag y) < n + 1 := by exact_mod_cast this
        omega
      have h2 := s3 _ ((f32Finite_iff y).1 hy) h1
      have h3 := magUnits_strictMono.monotone h2
      rw [div_le_div_iff_of_pos_right hg]
      exact_mod_cast h3

/-- What rounding up answers. -/
structure IsCeil (q : Rat) (r : Option F32) : Prop where
  some_spec : ∀ x, r = some x → f32Finite x = true ∧ q ≤ f32Rat x ∧
    ∀ y, f32Finite y = true → q ≤ f32Rat y → f32Rat x ≤ f32Rat y
  none_spec : r = none → ∀ y, f32Finite y = true → f32Rat y < q

theorem f32CeilAbs_spec {q : Rat} (hq : 0 ≤ q) : IsCeil q (f32CeilAbs q) := by
  obtain ⟨b1, b2, b3, b4⟩ := f32FloorAbs_spec hq
  have hg : (0 : Rat) < ((2 ^ 149 : Nat) : Rat) := by positivity
  have hb := (f32OfUnits_spec (q * ((2 ^ 149 : Nat) : Rat)).floor.toNat).1
  have hmsb : (f32FloorAbs q).msb = false := (f32OfNat_mag (by omega)).2
  have hm := (f32Finite_iff _).1 b1
  have hsucc : f32Mag (f32FloorAbs q + 1#32) = f32Mag (f32FloorAbs q) + 1 ∧ (f32FloorAbs q + 1#32).msb = false := by
    obtain ⟨m1, -⟩ := f32OfNat_mag (m := f32OfUnits (q * ((2 ^ 149 : Nat) : Rat)).floor.toNat) (by omega)
    have e : f32FloorAbs q + 1#32 = BitVec.ofNat 32 (f32Mag (f32FloorAbs q) + 1) := by
      have : f32FloorAbs q = BitVec.ofNat 32 (f32Mag (f32FloorAbs q)) := by
        conv_lhs => unfold f32FloorAbs
        unfold f32FloorAbs
        rw [m1]
      conv_lhs => rw [this]
      exact (BitVec.ofNat_add ..).symm
    rw [e]
    exact f32OfNat_mag (by omega)
  have next : ∀ y, f32Finite y = true → f32Rat (f32FloorAbs q) < f32Rat y →
      f32Mag (f32FloorAbs q) + 1 ≤ f32Mag y ∧ y.msb = false := by
    intro y hy hlt
    have hs : y.msb = false := by
      by_contra hc
      rw [f32Rat_eq y, if_pos (by simpa using hc)] at hlt
      have := f32AbsRat_nonneg y
      linarith
    refine ⟨?_, hs⟩
    rw [f32Rat_eq, f32Rat_eq, hs, hmsb, if_neg (by simp), if_neg (by simp)] at hlt
    unfold f32AbsRat at hlt
    rw [div_lt_div_iff_of_pos_right hg] at hlt
    exact magUnits_strictMono.lt_iff_lt.1 (by exact_mod_cast hlt)
  unfold f32CeilAbs
  dsimp only
  split
  · rename_i h
    refine ⟨fun x hx => ?_, fun hx => by cases hx⟩
    cases hx
    exact ⟨b1, h, fun y _ hyq => le_trans b3 hyq⟩
  rename_i h
  push Not at h
  split
  · rename_i hf
    refine ⟨fun x hx => ?_, fun hx => by cases hx⟩
    cases hx
    have hlt : f32Rat (f32FloorAbs q) < f32Rat (f32FloorAbs q + 1#32) := by
      rw [f32Rat_eq, f32Rat_eq, hmsb, hsucc.2, if_neg (by simp), if_neg (by simp)]
      unfold f32AbsRat
      rw [div_lt_div_iff_of_pos_right hg, hsucc.1]
      exact_mod_cast magUnits_succ _
    refine ⟨hf, ?_, fun y hy hyq => ?_⟩
    · by_contra hc
      exact absurd (b4 _ hf (le_of_not_ge hc)) (not_le.2 hlt)
    · obtain ⟨n1, n2⟩ := next y hy (lt_of_lt_of_le h hyq)
      rw [f32Rat_eq, f32Rat_eq y, hsucc.2, n2, if_neg (by simp), if_neg (by simp)]
      unfold f32AbsRat
      rw [div_le_div_iff_of_pos_right hg, hsucc.1]
      exact_mod_cast magUnits_strictMono.monotone n1
  · rename_i hf
    refine ⟨fun x hx => (by cases hx), fun _ y hy => ?_⟩
    by_contra hc
    obtain ⟨n1, -⟩ := next y hy (lt_of_lt_of_le h (le_of_not_gt hc))
    apply hf
    rw [f32Finite_iff, hsucc.1]
    exact le_trans n1 ((f32Finite_iff y).1 hy)

/-- Rounding up. -/
theorem f32Ceil_spec (q : Rat) : IsCeil q (f32Ceil q) := by
  unfold f32Ceil
  split
  · exact f32CeilAbs_spec ‹_›
  · rename_i h
    obtain ⟨b1, b2, b3, b4⟩ := f32FloorAbs_spec (q := -q) (by linarith)
    refine ⟨fun x hx => ?_, fun hx => by cases hx⟩
    cases hx
    refine ⟨by rw [f32Finite_neg]; exact b1, by rw [f32Rat_neg]; linarith, fun y hy hyq => ?_⟩
    have := b4 (f32Neg y) (by rw [f32Finite_neg]; exact hy) (by rw [f32Rat_neg]; linarith)
    rw [f32Rat_neg] at this ⊢
    linarith

/-- Rounding down. -/
theorem f32Floor_spec (q : Rat) :
    (∀ x, f32Floor q = some x → f32Finite x = true ∧ f32Rat x ≤ q ∧
      ∀ y, f32Finite y = true → f32Rat y ≤ q → f32Rat y ≤ f32Rat x) ∧
    (f32Floor q = none → ∀ y, f32Finite y = true → q < f32Rat y) := by
  have h := f32Ceil_spec (-q)
  unfold f32Floor
  refine ⟨fun x hx => ?_, fun hx y hy => ?_⟩
  · obtain ⟨z, hz, rfl⟩ := Option.map_eq_some_iff.1 hx
    obtain ⟨z1, z2, z3⟩ := h.some_spec z hz
    refine ⟨by rw [f32Finite_neg]; exact z1, by rw [f32Rat_neg]; linarith, fun y hy hyq => ?_⟩
    have := z3 (f32Neg y) (by rw [f32Finite_neg]; exact hy) (by rw [f32Rat_neg]; linarith)
    rw [f32Rat_neg] at this ⊢
    linarith
  · have := h.none_spec (Option.map_eq_none_iff.1 hx) (f32Neg y) (by rw [f32Finite_neg]; exact hy)
    rw [f32Rat_neg] at this
    linarith

/-- No finite pattern is nearer than the nearest one. -/
theorem f32Nearest_spec (q : Rat) :
    f32Finite (f32Nearest q) = true ∧ ∀ y, f32Finite y = true → |f32Rat (f32Nearest q) - q| ≤ |f32Rat y - q| := by
  have hc := f32Ceil_spec q
  obtain ⟨f1, f2⟩ := f32Floor_spec q
  unfold f32Nearest
  split
  · rename_i a b ha hb
    obtain ⟨a1, a2, a3⟩ := f1 a ha
    obtain ⟨b1, b2, b3⟩ := hc.some_spec b hb
    refine ⟨by split <;> assumption, fun y hy => ?_⟩
    rcases le_total (f32Rat y) q with h | h
    · have h1 := a3 y hy h
      rw [abs_of_nonpos (show f32Rat y - q ≤ 0 by linarith)]
      split
      · rw [abs_of_nonneg (by linarith)]
        linarith
      · rw [abs_of_nonpos (by linarith)]
        linarith
    · have h1 := b3 y hy h
      rw [abs_of_nonneg (show 0 ≤ f32Rat y - q by linarith)]
      split
      · rw [abs_of_nonneg (by linarith)]
        linarith
      · rw [abs_of_nonpos (by linarith)]
        linarith
  · rename_i a ha hb
    obtain ⟨a1, a2, a3⟩ := f1 a ha
    refine ⟨a1, fun y hy => ?_⟩
    have h := hc.none_spec hb y hy
    have h1 := a3 y hy h.le
    rw [abs_of_nonpos (by linarith), abs_of_nonpos (by linarith)]
    linarith
  · rename_i b ha hb
    obtain ⟨b1, b2, b3⟩ := hc.some_spec b hb
    refine ⟨b1, fun y hy => ?_⟩
    have h := f2 ha y hy
    have h1 := b3 y hy h.le
    rw [abs_of_nonneg (by linarith), abs_of_nonneg (by linarith)]
    linarith
  · rename_i ha hb
    have h := f2 ha f32Zero (by decide)
    have h' := hc.none_spec hb f32Zero (by decide)
    linarith

/-! ## Rank -/

theorem f32Rank_eq (x : F32) : f32Rank x = if x.msb then -(f32Mag x : Int) else (f32Mag x : Int) := rfl

/-- The ranks of finite patterns stand as their values do. -/
theorem f32Rank_le_iff (x y : F32) : f32Rank x ≤ f32Rank y ↔ f32Rat x ≤ f32Rat y := by
  have hg : (0 : Rat) < ((2 ^ 149 : Nat) : Rat) := by positivity
  have key : ∀ a b : Nat, ((magUnits a : Rat) / (2 ^ 149 : Nat) ≤ (magUnits b : Rat) / (2 ^ 149 : Nat)) ↔ a ≤ b := by
    intro a b
    rw [div_le_div_iff_of_pos_right hg]
    exact_mod_cast magUnits_strictMono.le_iff_le
  have zero : ∀ a : Nat, (0 : Rat) ≤ (magUnits a : Rat) / (2 ^ 149 : Nat) := fun a => by positivity
  have zero_iff : ∀ a : Nat, (magUnits a : Rat) / (2 ^ 149 : Nat) ≤ 0 ↔ a = 0 := by
    intro a
    have := key a 0
    simp only [show magUnits 0 = 0 by rfl, Nat.cast_zero, zero_div] at this
    rw [this, Nat.le_zero]
  rw [f32Rank_eq, f32Rank_eq, f32Rat_eq, f32Rat_eq]
  unfold f32AbsRat
  have hx := zero (f32Mag x)
  have hy := zero (f32Mag y)
  have kx := zero_iff (f32Mag x)
  have ky := zero_iff (f32Mag y)
  have kxy := key (f32Mag x) (f32Mag y)
  have kyx := key (f32Mag y) (f32Mag x)
  cases x.msb <;> cases y.msb <;> simp only [Bool.false_eq_true, if_false, if_true]
  · rw [kxy]
    omega
  · constructor
    · intro h
      have h1 : f32Mag x = 0 := by omega
      have h2 : f32Mag y = 0 := by omega
      rw [h1, h2]
      simp [magUnits]
    · intro h
      have h1 := kx.1 (by linarith)
      have h2 := ky.1 (by linarith)
      omega
  · exact ⟨fun _ => by linarith, fun _ => by omega⟩
  · rw [neg_le_neg_iff, neg_le_neg_iff, kyx]
    omega

/-- A pattern ranked between two finite ones is finite. -/
theorem f32Finite_between {a x b : F32} (ha : f32Finite a = true) (hb : f32Finite b = true) (h1 : f32Rank a ≤ f32Rank x)
    (h2 : f32Rank x ≤ f32Rank b) : f32Finite x = true := by
  rw [f32Finite_iff] at *
  rw [f32Rank_eq, f32Rank_eq] at h1 h2
  cases e1 : a.msb <;> cases e2 : x.msb <;> cases e3 : b.msb <;>
    simp only [e1, e2, e3, Bool.false_eq_true, if_false, if_true] at h1 h2 <;> omega

/-! ## Samples -/

/-- The sample of a rule is admitted whenever any pattern is (00_scope.md R15). -/
theorem admits_sample {a : Admitted} {w : F32} (h : admits a w = true) : admits a (admittedSample a) = true := by
  cases a with
  | any => rfl
  | nonneg => decide +kernel
  | atLeast b => simp [admits, admittedSample]
  | posInf => simp [admits, admittedSample]
  | within lo hi =>
    simp only [admits, Bool.and_eq_true, decide_eq_true_eq] at h
    obtain ⟨⟨h1, h2⟩, h3⟩ := h
    have hc := f32Ceil_spec lo
    simp only [admittedSample]
    cases hx : f32Ceil lo with
    | none => exact absurd h2 (not_le.2 (hc.none_spec hx w h1))
    | some x =>
      obtain ⟨x1, x2, x3⟩ := hc.some_spec x hx
      simp only [Option.getD_some, admits, Bool.and_eq_true, decide_eq_true_eq]
      exact ⟨⟨x1, x2⟩, le_trans (x3 w h1 h2) h3⟩
  | goodWithin lo hi =>
    simp only [admits, Bool.and_eq_true, decide_eq_true_eq] at h
    obtain ⟨⟨h1, h2⟩, h3⟩ := h
    have hunit : ∀ y, f32Finite y = true → 0 < f32Rat y → (1 : Rat) / (2 ^ 149 : Nat) ≤ f32Rat y := by
      intro y _ hy
      rw [f32Rat_eq] at hy ⊢
      have hn := f32AbsRat_nonneg y
      split at hy
      · linarith
      · rename_i hs
        rw [if_neg hs]
        unfold f32AbsRat at hy ⊢
        have hg : (0 : Rat) < ((2 ^ 149 : Nat) : Rat) := by positivity
        rw [div_le_div_iff_of_pos_right hg]
        have : 0 < (magUnits (f32Mag y) : Rat) := by
          by_contra hc
          have : (magUnits (f32Mag y) : Rat) = 0 := le_antisymm (not_lt.1 hc) (by positivity)
          rw [this] at hy
          simp at hy
        have : 0 < magUnits (f32Mag y) := by exact_mod_cast this
        exact_mod_cast this
    obtain ⟨g1, g2⟩ := (goodNv_iff w).1 h1
    have hmax : ∀ a b : Rat, a ≤ ratMax a b ∧ b ≤ ratMax a b ∧ ∀ c, a ≤ c → b ≤ c → ratMax a b ≤ c := by
      intro a b
      unfold ratMax
      split
      · exact ⟨‹_›, le_refl _, fun c _ h => h⟩
      · exact ⟨le_refl _, by linarith, fun c h _ => h⟩
    obtain ⟨k1, k2, k3⟩ := hmax lo (1 / (2 ^ 149 : Nat))
    have hw := k3 _ h2 (hunit w g1 g2)
    have hc := f32Ceil_spec (ratMax lo (1 / (2 ^ 149 : Nat)))
    simp only [admittedSample]
    cases hx : f32Ceil (ratMax lo (1 / (2 ^ 149 : Nat))) with
    | none => exact absurd hw (not_le.2 (hc.none_spec hx w g1))
    | some x =>
      obtain ⟨x1, x2, x3⟩ := hc.some_spec x hx
      have hpos : (0 : Rat) < 1 / (2 ^ 149 : Nat) := by positivity
      have hg : goodNv x = true := (goodNv_iff x).2 ⟨x1, lt_of_lt_of_le hpos (le_trans k2 x2)⟩
      simp only [Option.getD_some, hg, if_true, admits, Bool.and_eq_true, decide_eq_true_eq, true_and]
      exact ⟨le_trans k1 x2, le_trans (x3 w g1 hw) h3⟩

/-- A drawn value is admitted wherever the rule admits some value. -/
theorem drawF32_admits {a : Admitted} {id : DrawId} (h : ∃ w, admits a w = true) : admits a (drawF32 a id) = true := by
  obtain ⟨w, hw⟩ := h
  unfold drawF32
  dsimp only
  split
  · assumption
  · rw [if_pos (admits_sample hw)]
    exact admits_sample hw

theorem ivDist_nearest (a : Ival) (h : a.lo ≤ a.hi) {x y : Rat}
    (hxy : |x - (a.lo + a.hi) / 2| ≤ |y - (a.lo + a.hi) / 2|) : ivDist x a ≤ ivDist y a ∧ 0 ≤ ivDist x a := by
  have hx := abs_le.1 (le_refl |x - (a.lo + a.hi) / 2|)
  unfold ivDist
  rcases abs_cases (x - (a.lo + a.hi) / 2) with ⟨e1, g1⟩ | ⟨e1, g1⟩ <;>
    rcases abs_cases (y - (a.lo + a.hi) / 2) with ⟨e2, g2⟩ | ⟨e2, g2⟩ <;>
    rw [e1, e2] at hxy <;> split_ifs <;> constructor <;> linarith

/-- The sample of a complex rule is admitted whenever any pair is (00_scope.md R15). -/
theorem cAdmits_sample {a : CAdmitted} {z : C64} (hbox : ∀ box rad, a = .disk box rad →
    box.re.lo ≤ box.re.hi ∧ box.im.lo ≤ box.im.hi) (h : cAdmits a z = true) : cAdmitsSome a = true := by
  unfold cAdmitsSome
  cases a with
  | any => rfl
  | disk box rad =>
    obtain ⟨o1, o2⟩ := hbox box rad rfl
    simp only [cAdmits, Bool.and_eq_true, decide_eq_true_eq, c64Finite] at h ⊢
    obtain ⟨⟨h1, h2⟩, h3⟩ := h
    obtain ⟨r1, r2⟩ := f32Nearest_spec ((box.re.lo + box.re.hi) / 2)
    obtain ⟨i1, i2⟩ := f32Nearest_spec ((box.im.lo + box.im.hi) / 2)
    obtain ⟨d1, d2⟩ := ivDist_nearest box.re o1 (r2 z.re h1)
    obtain ⟨d3, d4⟩ := ivDist_nearest box.im o2 (i2 z.im h2)
    refine ⟨⟨r1, i1⟩, le_trans (add_le_add ?_ ?_) h3⟩
    · exact mul_self_le_mul_self d2 d1
    · exact mul_self_le_mul_self d4 d3

/-- A drawn pair is admitted wherever the rule admits some pair. -/
theorem drawC64_admits {a : CAdmitted} {id : DrawId} (h : cAdmitsSome a = true) : cAdmits a (drawC64 a id) = true := by
  unfold drawC64
  dsimp only
  split
  · assumption
  · rw [if_pos (show cAdmits a (cAdmittedSample a) = true from h)]
    exact h

end Sys2Proof.Machine
end

