-- ==== Sys2Proof/Laws/Enclosure.lean ====
section
/-! SUPPORT. The intervals and boxes of Machine/Real.lean enclose the real and complex values they stand for, and how
wide those of the roots of unity and of the square roots are. -/

namespace Sys2Proof.Machine

/-! ## Intervals -/

/-- The interval holds the real. -/
def Ival.Has (a : Ival) (x : ℝ) : Prop := (a.lo : ℝ) ≤ x ∧ x ≤ (a.hi : ℝ)

/-- The box holds the complex value. -/
def CBox.Has (b : CBox) (z : ℂ) : Prop := b.re.Has z.re ∧ b.im.Has z.im

theorem ivOf_has (q : Rat) : (ivOf q).Has q := ⟨le_refl _, le_refl _⟩

theorem Ival.Has.le {a : Ival} {x : ℝ} (h : a.Has x) : a.lo ≤ a.hi := by exact_mod_cast h.1.trans h.2

theorem ivAdd_has {a b : Ival} {x y : ℝ} (hx : a.Has x) (hy : b.Has y) : (ivAdd a b).Has (x + y) := by
  simp only [Ival.Has, ivAdd, Rat.cast_add]
  exact ⟨add_le_add hx.1 hy.1, add_le_add hx.2 hy.2⟩

theorem ivNeg_has {a : Ival} {x : ℝ} (hx : a.Has x) : (ivNeg a).Has (-x) := by
  simp only [Ival.Has, ivNeg, Rat.cast_neg]
  exact ⟨neg_le_neg hx.2, neg_le_neg hx.1⟩

theorem ivSub_has {a b : Ival} {x y : ℝ} (hx : a.Has x) (hy : b.Has y) : (ivSub a b).Has (x - y) := by
  rw [sub_eq_add_neg]
  exact ivAdd_has hx (ivNeg_has hy)

theorem ratMin_cast (a b : Rat) : ((ratMin a b : Rat) : ℝ) = min (a : ℝ) (b : ℝ) := by
  unfold ratMin
  split
  · rw [min_eq_left (by exact_mod_cast ‹_›)]
  · rw [min_eq_right (by exact_mod_cast (le_of_not_ge ‹_›))]

theorem ratMax_cast (a b : Rat) : ((ratMax a b : Rat) : ℝ) = max (a : ℝ) (b : ℝ) := by
  unfold ratMax
  split
  · rw [max_eq_right (by exact_mod_cast ‹_›)]
  · rw [max_eq_left (by exact_mod_cast (le_of_not_ge ‹_›))]

theorem mul_bounds {a b c d x y : ℝ} (h1 : a ≤ x) (h2 : x ≤ b) (h3 : c ≤ y) (h4 : y ≤ d) :
    min (min (a * c) (a * d)) (min (b * c) (b * d)) ≤ x * y ∧
      x * y ≤ max (max (a * c) (a * d)) (max (b * c) (b * d)) := by
  constructor
  · rcases le_total 0 y with hy | hy
    · have : a * y ≤ x * y := mul_le_mul_of_nonneg_right h1 hy
      refine le_trans (le_trans (min_le_left _ _) ?_) this
      rcases le_total 0 a with ha | ha
      · exact le_trans (min_le_left _ _) (mul_le_mul_of_nonneg_left h3 ha)
      · exact le_trans (min_le_right _ _) (mul_le_mul_of_nonpos_left h4 ha)
    · have : b * y ≤ x * y := mul_le_mul_of_nonpos_right h2 hy
      refine le_trans (le_trans (min_le_right _ _) ?_) this
      rcases le_total 0 b with hb | hb
      · exact le_trans (min_le_left _ _) (mul_le_mul_of_nonneg_left h3 hb)
      · exact le_trans (min_le_right _ _) (mul_le_mul_of_nonpos_left h4 hb)
  · rcases le_total 0 y with hy | hy
    · have : x * y ≤ b * y := mul_le_mul_of_nonneg_right h2 hy
      refine le_trans (le_trans this ?_) (le_max_right _ _)
      rcases le_total 0 b with hb | hb
      · exact le_trans (mul_le_mul_of_nonneg_left h4 hb) (le_max_right _ _)
      · exact le_trans (mul_le_mul_of_nonpos_left h3 hb) (le_max_left _ _)
    · have : x * y ≤ a * y := mul_le_mul_of_nonpos_right h1 hy
      refine le_trans (le_trans this ?_) (le_max_left _ _)
      rcases le_total 0 a with ha | ha
      · exact le_trans (mul_le_mul_of_nonneg_left h4 ha) (le_max_right _ _)
      · exact le_trans (mul_le_mul_of_nonpos_left h3 ha) (le_max_left _ _)

theorem ivMul_has {a b : Ival} {x y : ℝ} (hx : a.Has x) (hy : b.Has y) : (ivMul a b).Has (x * y) := by
  have := mul_bounds hx.1 hx.2 hy.1 hy.2
  simpa only [Ival.Has, ivMul, ratMin_cast, ratMax_cast, Rat.cast_mul] using this

theorem ivScale_has {a : Ival} {x : ℝ} (r : Rat) (hx : a.Has x) : (ivScale r a).Has (r * x) := by
  unfold ivScale
  split
  · rename_i h
    have hr : (0 : ℝ) ≤ r := by exact_mod_cast h
    simp only [Ival.Has, Rat.cast_mul]
    exact ⟨mul_le_mul_of_nonneg_left hx.1 hr, mul_le_mul_of_nonneg_left hx.2 hr⟩
  · rename_i h
    have hr : (r : ℝ) ≤ 0 := by exact_mod_cast (le_of_not_ge h)
    simp only [Ival.Has, Rat.cast_mul]
    exact ⟨mul_le_mul_of_nonpos_left hx.2 hr, mul_le_mul_of_nonpos_left hx.1 hr⟩

theorem ivSqr_has {a : Ival} {x : ℝ} (hx : a.Has x) : (ivSqr a).Has (x * x) := by
  obtain ⟨h1, h2⟩ := hx
  unfold ivSqr
  split
  · rename_i h
    have h : (0 : ℝ) ≤ a.lo := by exact_mod_cast h
    simp only [Ival.Has, Rat.cast_mul]
    exact ⟨mul_self_le_mul_self h h1, mul_self_le_mul_self (h.trans h1) h2⟩
  split
  · rename_i h
    have h : (a.hi : ℝ) ≤ 0 := by exact_mod_cast h
    simp only [Ival.Has, Rat.cast_mul]
    constructor <;> nlinarith
  · simp only [Ival.Has, ratMax_cast, Rat.cast_mul, Rat.cast_zero]
    refine ⟨mul_self_nonneg x, ?_⟩
    rcases le_total 0 x with h | h
    · exact le_trans (by nlinarith) (le_max_right _ _)
    · exact le_trans (by nlinarith) (le_max_left _ _)

/-- A sum of enclosed values, term by term. -/
theorem ivSum_has {α : Type} (l : List α) (f : α → Ival) (g : α → ℝ) (h : ∀ x ∈ l, (f x).Has (g x)) :
    (ivSum (l.map f)).Has (l.map g).sum := by
  induction l with
  | nil => simpa [ivSum, ivOf] using ivOf_has 0
  | cons x l ih =>
    exact ivAdd_has (h x (List.mem_cons_self ..)) (ih (fun y hy => h y (List.mem_cons_of_mem _ hy)))

/-! ## Boxes -/

theorem cbOf_has (re im : Rat) : (cbOf re im).Has ⟨re, im⟩ := ⟨ivOf_has re, ivOf_has im⟩

theorem cbAdd_has {a b : CBox} {z w : ℂ} (hz : a.Has z) (hw : b.Has w) : (cbAdd a b).Has (z + w) :=
  ⟨ivAdd_has hz.1 hw.1, ivAdd_has hz.2 hw.2⟩

theorem cbMul_has {a b : CBox} {z w : ℂ} (hz : a.Has z) (hw : b.Has w) : (cbMul a b).Has (z * w) := by
  constructor
  · rw [Complex.mul_re]
    exact ivSub_has (ivMul_has hz.1 hw.1) (ivMul_has hz.2 hw.2)
  · rw [Complex.mul_im]
    exact ivAdd_has (ivMul_has hz.1 hw.2) (ivMul_has hz.2 hw.1)

theorem cbConj_has {a : CBox} {z : ℂ} (hz : a.Has z) : (cbConj a).Has (starRingEnd ℂ z) :=
  ⟨by simpa [cbConj] using hz.1, by simpa [cbConj] using ivNeg_has hz.2⟩

theorem cbZero_has : (cbOf 0 0).Has 0 := ⟨by simpa [cbOf] using ivOf_has 0, by simpa [cbOf] using ivOf_has 0⟩

theorem cbScale_has {a : CBox} {z : ℂ} (r : Rat) (hz : a.Has z) : (cbScale r a).Has ((r : ℂ) * z) := by
  constructor
  · have : ((r : ℂ) * z).re = (r : ℝ) * z.re := by simp
    rw [this]
    exact ivScale_has r hz.1
  · have : ((r : ℂ) * z).im = (r : ℝ) * z.im := by simp
    rw [this]
    exact ivScale_has r hz.2

theorem cbSum_has {α : Type} (l : List α) (f : α → CBox) (g : α → ℂ) (h : ∀ x ∈ l, (f x).Has (g x)) :
    (cbSum (l.map f)).Has (l.map g).sum := by
  induction l with
  | nil => simpa [cbSum] using cbZero_has
  | cons x l ih =>
    exact cbAdd_has (h x (List.mem_cons_self ..)) (ih (fun y hy => h y (List.mem_cons_of_mem _ hy)))

theorem cbAbs2_has {a : CBox} {z : ℂ} (hz : a.Has z) : (cbAbs2 a).Has (Complex.normSq z) := by
  rw [Complex.normSq_apply]
  exact ivAdd_has (ivSqr_has hz.1) (ivSqr_has hz.2)

theorem cbQuarter_has {a : CBox} {z : ℂ} (q : Nat) (hz : a.Has z) : (cbQuarter q a).Has (Complex.I ^ q * z) := by
  have hq : Complex.I ^ q = Complex.I ^ (q % 4) := by
    conv_lhs => rw [← Nat.div_add_mod q 4, pow_add, pow_mul, Complex.I_pow_four, one_pow, one_mul]
  rw [hq]
  have h4 : q % 4 < 4 := Nat.mod_lt _ (by decide)
  unfold cbQuarter
  generalize q % 4 = r at h4
  match r, h4 with
  | 0, _ => simpa using hz
  | 1, _ => exact ⟨by simpa using ivNeg_has hz.2, by simpa using hz.1⟩
  | 2, _ => exact ⟨by simpa using ivNeg_has hz.1, by simpa using ivNeg_has hz.2⟩
  | 3, _ =>
    have : Complex.I ^ 3 = -Complex.I := by rw [pow_succ, Complex.I_sq]; ring
    rw [this]
    exact ⟨by simpa using hz.2, by simpa using ivNeg_has hz.1⟩

/-! ## Square roots -/

theorem isqrtBits_spec (b n acc : Nat) (h1 : acc * acc ≤ n) (h2 : n < (acc + 2 ^ b) * (acc + 2 ^ b)) :
    isqrtBits b n acc * isqrtBits b n acc ≤ n ∧ n < (isqrtBits b n acc + 1) * (isqrtBits b n acc + 1) := by
  induction b generalizing acc with
  | zero => exact ⟨h1, by simpa [isqrtBits] using h2⟩
  | succ b ih =>
    unfold isqrtBits
    dsimp only
    split
    · rename_i h
      refine ih _ h ?_
      rw [show acc + 2 ^ b + 2 ^ b = acc + 2 ^ (b + 1) by ring]
      exact h2
    · rename_i h
      exact ih _ h1 (by omega)

/-- The integer square root. -/
theorem isqrt_spec (n : Nat) : isqrt n * isqrt n ≤ n ∧ n < (isqrt n + 1) * (isqrt n + 1) := by
  refine isqrtBits_spec _ n 0 (Nat.zero_le _) ?_
  rw [Nat.zero_add, ← pow_add]
  refine lt_of_lt_of_le Nat.lt_log2_self (Nat.pow_le_pow_right (by decide) ?_)
  omega

/-- A square root to `g` steps of its denominator, from below and from above. -/
theorem sqrt_grid (n d g : Nat) (hd : 0 < d) (hg : 0 < g) :
    let m := n * d * (g * g)
    let r : ℝ := Real.sqrt ((n : ℝ) / d)
    let hi : ℝ := ((if isqrt m * isqrt m = m then isqrt m else isqrt m + 1 : Nat) : ℝ) / (d * g)
    (isqrt m : ℝ) / (d * g) ≤ r ∧ r ≤ hi ∧ hi ≤ r * (1 + 1 / g) ∧ r * (1 - 1 / g) ≤ (isqrt m : ℝ) / (d * g) := by
  intro m r hi
  have hd' : (0 : ℝ) < d := by exact_mod_cast hd
  have hg' : (0 : ℝ) < g := by exact_mod_cast hg
  have hD : (0 : ℝ) < (d : ℝ) * g := mul_pos hd' hg'
  have hmc : (m : ℝ) = n * d * (g * g) := by simp only [m]; push_cast; ring
  obtain ⟨r1, r2⟩ := isqrt_spec m
  have hr : r = Real.sqrt m / (d * g) := by
    rw [eq_div_iff hD.ne']
    symm
    rw [Real.sqrt_eq_iff_mul_self_eq (by positivity) (by positivity), mul_mul_mul_comm,
      Real.mul_self_sqrt (by positivity), hmc]
    field_simp
  have s1 : (isqrt m : ℝ) ≤ Real.sqrt m := by
    apply Real.le_sqrt_of_sq_le
    rw [sq]
    exact_mod_cast r1
  have s2 : Real.sqrt m < isqrt m + 1 := by
    rw [Real.sqrt_lt' (by positivity), sq]
    exact_mod_cast r2
  have hbig : m = 0 ∨ (g : ℝ) ≤ Real.sqrt m := by
    rcases Nat.eq_zero_or_pos (n * d) with h | h
    · exact Or.inl (by simp only [m, h, Nat.zero_mul])
    · right
      apply Real.le_sqrt_of_sq_le
      rw [hmc, sq]
      have : (1 : ℝ) ≤ (n : ℝ) * d := by exact_mod_cast h
      nlinarith [mul_pos hg' hg']
  have step : m ≠ 0 → 1 ≤ Real.sqrt m * (1 / g) := by
    intro h
    rw [mul_one_div, le_div_iff₀ hg', one_mul]
    exact hbig.resolve_left h
  have up : ∀ k : ℝ, k ≤ Real.sqrt m + 1 → m ≠ 0 → k / (d * g) ≤ r * (1 + 1 / g) := by
    intro k hk h0
    rw [hr, div_mul_eq_mul_div]
    have := step h0
    exact div_le_div_of_nonneg_right (by linarith) hD.le
  have hsq : isqrt m * isqrt m = m → Real.sqrt m = isqrt m := by
    intro h
    rw [Real.sqrt_eq_iff_mul_self_eq (by positivity) (by positivity)]
    exact_mod_cast h.symm
  refine ⟨?_, ?_, ?_, ?_⟩
  · rw [hr]
    exact div_le_div_of_nonneg_right s1 hD.le
  · rw [hr]
    simp only [hi]
    split
    · rename_i h
      rw [hsq h]
    · push_cast
      exact div_le_div_of_nonneg_right s2.le hD.le
  · simp only [hi]
    split
    · rename_i h
      rw [← hsq h, ← hr]
      have h0 : 0 ≤ r := Real.sqrt_nonneg _
      have h1 : 0 ≤ r * (1 / g) := by positivity
      linarith
    · rename_i h
      push_cast
      refine up _ (by linarith) (fun h0 => h ?_)
      rw [h0]
      rfl
  · rcases hbig with h0 | h0
    · have : r = 0 := by rw [hr, h0, Nat.cast_zero, Real.sqrt_zero, zero_div]
      rw [this, zero_mul]
      positivity
    · rw [hr, div_mul_eq_mul_div]
      apply div_le_div_of_nonneg_right _ hD.le
      have : 1 ≤ Real.sqrt m * (1 / g) := by
        rw [mul_one_div, le_div_iff₀ hg', one_mul]
        exact h0
      linarith

/-- The bounds of a square root, and how far apart they are. -/
theorem sqrt_bounds {q : Rat} (hq : 0 ≤ q) :
    (sqrtLo q : ℝ) ≤ Real.sqrt q ∧ Real.sqrt q ≤ (sqrtHi q : ℝ) ∧
      (sqrtHi q : ℝ) ≤ Real.sqrt q * (1 + 1 / 2 ^ 64) ∧ Real.sqrt q * (1 - 1 / 2 ^ 64) ≤ (sqrtLo q : ℝ) := by
  have h := sqrt_grid q.num.toNat q.den (2 ^ 64) q.den_pos (by positivity)
  have hval : (q : ℝ) = (q.num.toNat : ℝ) / q.den := by
    conv_lhs => rw [← Rat.num_div_den q, ← Int.toNat_of_nonneg (Rat.num_nonneg.2 hq)]
    push_cast
    rfl
  have e : (2 : Nat) ^ 64 * 2 ^ 64 = 2 ^ 128 := by rw [← pow_add]
  rw [e, ← hval] at h
  have hlo : (sqrtLo q : ℝ) = ((isqrt (q.num.toNat * q.den * 2 ^ 128) : Nat) : ℝ) / (q.den * ((2 ^ 64 : Nat) : ℝ)) := by
    rw [sqrtLo, Rat.cast_div, Rat.cast_natCast, Rat.cast_natCast, Nat.cast_mul]
  have hhi : (sqrtHi q : ℝ) = ((if isqrt (q.num.toNat * q.den * 2 ^ 128) * isqrt (q.num.toNat * q.den * 2 ^ 128) =
      q.num.toNat * q.den * 2 ^ 128 then isqrt (q.num.toNat * q.den * 2 ^ 128)
      else isqrt (q.num.toNat * q.den * 2 ^ 128) + 1 : Nat) : ℝ) / (q.den * ((2 ^ 64 : Nat) : ℝ)) := by
    rw [sqrtHi, Rat.cast_div, Rat.cast_natCast, Rat.cast_natCast, Nat.cast_mul]
  rw [hlo, hhi]
  have e2 : (((2 ^ 64 : Nat)) : ℝ) = 2 ^ 64 := by rw [Nat.cast_pow, Nat.cast_ofNat]
  rw [← e2]
  exact h

theorem sqrtHi_nonneg (q : Rat) : 0 ≤ sqrtHi q := by
  unfold sqrtHi
  dsimp only
  exact div_nonneg (Nat.cast_nonneg _) (Nat.cast_nonneg _)

theorem sqrtLo_nonneg (q : Rat) : 0 ≤ sqrtLo q := by
  unfold sqrtLo
  exact div_nonneg (Nat.cast_nonneg _) (Nat.cast_nonneg _)

/-! ## Roots of unity -/

/-- The real part of the first `2T` terms of `exp(jx)`. -/
theorem cos_remainder (x : ℝ) (hx : 0 ≤ x) (T : Nat) (hT : x / (2 * T + 1) ≤ 1 / 2) :
    |Real.cos x - ∑ j ∈ Finset.range T, (-1) ^ j * x ^ (2 * j) / (2 * j).factorial| ≤
      x ^ (2 * T) / (2 * T).factorial * 2 := by
  have h := Complex.exp_bound' (x := (x : ℂ) * Complex.I) (n := 2 * T) (by
    simp only [Complex.norm_mul, Complex.norm_real, Complex.norm_I, mul_one, Real.norm_eq_abs, abs_of_nonneg hx]
    push_cast
    exact hT)
  have hre : (∑ m ∈ Finset.range (2 * T), ((x : ℂ) * Complex.I) ^ m / m.factorial).re =
      ∑ j ∈ Finset.range T, (-1) ^ j * x ^ (2 * j) / (2 * j).factorial := by
    clear h hT
    induction T with
    | zero => simp
    | succ T ih =>
      rw [show 2 * (T + 1) = 2 * T + 1 + 1 by ring, Finset.sum_range_succ, Finset.sum_range_succ, Finset.sum_range_succ,
        Complex.add_re, Complex.add_re, ih, add_assoc]
      congr 1
      have e1 : ((x : ℂ) * Complex.I) ^ (2 * T) = (((-1) ^ T * x ^ (2 * T) : ℝ) : ℂ) := by
        rw [mul_pow, pow_mul Complex.I, Complex.I_sq]
        push_cast
        ring
      have e2 : ((x : ℂ) * Complex.I) ^ (2 * T + 1) = (((-1) ^ T * x ^ (2 * T + 1) : ℝ) : ℂ) * Complex.I := by
        rw [pow_succ, e1]
        push_cast
        ring
      rw [e1, e2]
      have n1 : ∀ (r : ℝ) (k : ℕ), ((r : ℂ) / (k : ℂ)).re = r / k := by
        intro r k
        rw [← Complex.ofReal_natCast, ← Complex.ofReal_div, Complex.ofReal_re]
      have n2 : ∀ (r : ℝ) (k : ℕ), ((r : ℂ) * Complex.I / (k : ℂ)).re = 0 := by
        intro r k
        rw [mul_comm, mul_div_assoc, ← Complex.ofReal_natCast, ← Complex.ofReal_div]
        simp
      rw [n1, n2, add_zero]
  have hc : (Complex.exp ((x : ℂ) * Complex.I)).re = Real.cos x := by
    rw [Complex.exp_mul_I, ← Complex.ofReal_cos, ← Complex.ofReal_sin]
    simp [Complex.cos_ofReal_re]
  rw [← hre, ← hc, ← Complex.sub_re]
  refine le_trans (Complex.abs_re_le_norm _) (le_trans h (le_of_eq ?_))
  simp only [Complex.norm_mul, Complex.norm_real, Complex.norm_I, mul_one, Real.norm_eq_abs, abs_of_nonneg hx]

/-- The nested series is the series. -/
theorem cosTail_cast (T n : Nat) (x : Rat) :
    (cosTail T n (x * x) : ℝ) =
      ∑ j ∈ Finset.range T, (-1) ^ j * (x : ℝ) ^ (2 * j) * (2 * n).factorial / (2 * (n + j)).factorial := by
  induction T generalizing n with
  | zero => simp [cosTail]
  | succ T ih =>
    have hf : (((2 * (n + 1)).factorial : ℕ) : ℝ) = (2 * n + 1) * (2 * n + 2) * ((2 * n).factorial : ℕ) := by
      rw [show 2 * (n + 1) = 2 * n + 1 + 1 by ring, Nat.factorial_succ, Nat.factorial_succ]
      push_cast
      ring
    have key : (x : ℝ) * x / ((2 * n + 1) * (2 * n + 2)) * (cosTail T (n + 1) (x * x) : ℝ) =
        -∑ j ∈ Finset.range T, (-1) ^ (j + 1) * (x : ℝ) ^ (2 * (j + 1)) * ((2 * n).factorial : ℕ) /
          ((2 * (n + (j + 1))).factorial : ℕ) := by
      rw [ih (n + 1), Finset.mul_sum, ← Finset.sum_neg_distrib]
      refine Finset.sum_congr rfl (fun j _ => ?_)
      rw [show n + 1 + j = n + (j + 1) by ring, hf]
      have h1 : (2 * n + 1 : ℝ) ≠ 0 := by positivity
      have h2 : (2 * n + 2 : ℝ) ≠ 0 := by positivity
      have h3 : (((2 * (n + (j + 1))).factorial : ℕ) : ℝ) ≠ 0 := by positivity
      rw [show 2 * (j + 1) = 2 * j + 2 by ring, pow_add (x : ℝ), pow_succ (-1 : ℝ) j]
      field_simp
    have h0 : (((2 * n).factorial : ℕ) : ℝ) ≠ 0 := by positivity
    rw [Finset.sum_range_succ', cosTail]
    push_cast
    rw [key]
    simp only [pow_zero, Nat.add_zero, one_mul, div_self h0]
    ring

/-- Sixteen terms of the cosine series are a lower bound, seventeen an upper bound, and they lie close together. -/
theorem cos_between (x : Rat) (hx : 0 ≤ x) (hx' : x ≤ 8 / 5) :
    (cosTail 16 0 (x * x) : ℝ) ≤ Real.cos x ∧ Real.cos x ≤ (cosTail 17 0 (x * x) : ℝ) ∧
      (cosTail 17 0 (x * x) : ℝ) - cosTail 16 0 (x * x) ≤ 1 / 2 ^ 90 := by
  have hx0 : (0 : ℝ) ≤ x := by exact_mod_cast hx
  have hx1 : (x : ℝ) ≤ 8 / 5 := by
    have : (x : ℝ) ≤ ((8 / 5 : Rat) : ℝ) := by exact_mod_cast hx'
    push_cast at this
    exact this
  have hr := cos_remainder (x : ℝ) hx0 18 (by
    rw [div_le_iff₀ (by positivity)]
    push_cast
    linarith)
  have h16 := cosTail_cast 16 0 x
  have h17 := cosTail_cast 17 0 x
  simp only [Nat.zero_add, Nat.mul_zero, Nat.factorial_zero, Nat.cast_one, mul_one] at h16 h17
  rw [Finset.sum_range_succ, ← h17] at hr
  rw [Finset.sum_range_succ, ← h16] at h17
  have p16 : (-1 : ℝ) ^ 16 = 1 := by norm_num
  have p17 : (-1 : ℝ) ^ 17 = -1 := by norm_num
  rw [p16, one_mul, show 2 * 16 = 32 by norm_num] at h17
  rw [p17, show 2 * 17 = 34 by norm_num, show 2 * 18 = 36 by norm_num] at hr
  have f34 : ((Nat.factorial 34 : ℕ) : ℝ) = 34 * 33 * (Nat.factorial 32 : ℕ) := by
    rw [Nat.factorial_succ, Nat.factorial_succ]
    push_cast
    ring
  have f36 : ((Nat.factorial 36 : ℕ) : ℝ) = 36 * 35 * (34 * 33 * (Nat.factorial 32 : ℕ)) := by
    rw [Nat.factorial_succ, Nat.factorial_succ, ← f34]
    push_cast
    ring
  have F : (0 : ℝ) < (Nat.factorial 32 : ℕ) := by exact_mod_cast Nat.factorial_pos 32
  have e34 : (x : ℝ) ^ 34 / (Nat.factorial 34 : ℕ) = (x : ℝ) ^ 32 / (Nat.factorial 32 : ℕ) * (x ^ 2 / 1122) := by
    rw [f34, div_mul_div_comm, ← pow_add]
    congr 1
    ring
  have e36 : (x : ℝ) ^ 36 / (Nat.factorial 36 : ℕ) * 2 =
      (x : ℝ) ^ 32 / (Nat.factorial 32 : ℕ) * (x ^ 2 / 1122) * (x ^ 2 / 630) := by
    rw [f36, show (x : ℝ) ^ 36 = x ^ 32 * x ^ 2 * x ^ 2 by ring]
    field_simp
    ring
  rw [neg_one_mul, neg_div, e34, e36] at hr
  set b : ℝ := (x : ℝ) ^ 32 / (Nat.factorial 32 : ℕ) with hb
  have b0 : 0 ≤ b := by positivity
  have q0 : (0 : ℝ) ≤ x ^ 2 := by positivity
  have q1 : (x : ℝ) ^ 2 ≤ 64 / 25 := by nlinarith
  have hc : 0 ≤ b * (x ^ 2 / 1122) := by positivity
  have hc1 : b * (x ^ 2 / 1122) ≤ b * (1 / 2) := mul_le_mul_of_nonneg_left (by linarith) b0
  have hd1 : b * (x ^ 2 / 1122) * (x ^ 2 / 630) ≤ b * (x ^ 2 / 1122) * (1 / 2) :=
    mul_le_mul_of_nonneg_left (by linarith) hc
  have hd0 : 0 ≤ b * (x ^ 2 / 1122) * (x ^ 2 / 630) := by positivity
  obtain ⟨g1, g2⟩ := abs_le.1 hr
  refine ⟨by linarith, by linarith, ?_⟩
  have : b ≤ 1 / 2 ^ 90 := by
    rw [hb, div_le_iff₀ F]
    have p : (x : ℝ) ^ 32 ≤ (8 / 5) ^ 32 := pow_le_pow_left₀ hx0 hx1 32
    refine p.trans ?_
    norm_num [Nat.factorial]
  linarith

/-- The bounds of pi. -/
theorem pi_bounds : (piLo : ℝ) < Real.pi ∧ Real.pi < (piHi : ℝ) := by
  constructor
  · refine lt_of_eq_of_lt ?_ Real.pi_gt_d20
    norm_num [piLo]
  · refine lt_of_lt_of_eq Real.pi_lt_d20 ?_
    norm_num [piHi]

theorem coarse_bounds (x y g : Rat) (hg : 0 < g) :
    (((x * g).floor : Rat) / g ≤ x ∧ y ≤ ((y * g).ceil : Rat) / g) ∧
      x - 1 / g ≤ ((x * g).floor : Rat) / g ∧ ((y * g).ceil : Rat) / g ≤ y + 1 / g := by
  have l1 : ((x * g).floor : Rat) ≤ x * g := Int.floor_le (x * g)
  have l2 : x * g < ((x * g).floor : Rat) + 1 := Int.lt_floor_add_one (x * g)
  have h1 : y * g ≤ ((y * g).ceil : Rat) := Rat.le_ceil
  have h2 : ((y * g).ceil : Rat) < y * g + 1 := Rat.ceil_lt
  refine ⟨⟨?_, ?_⟩, ?_, ?_⟩
  · rwa [div_le_iff₀ hg]
  · rwa [le_div_iff₀ hg]
  · rw [le_div_iff₀ hg, sub_mul, one_div, inv_mul_cancel₀ hg.ne']
    linarith
  · rw [div_le_iff₀ hg, add_mul, one_div, inv_mul_cancel₀ hg.ne']
    linarith

theorem ivCoarse_bounds (a : Ival) :
    ((ivCoarse a).lo ≤ a.lo ∧ a.hi ≤ (ivCoarse a).hi) ∧
      a.lo - 1 / ((2 ^ 64 : Nat) : Rat) ≤ (ivCoarse a).lo ∧ (ivCoarse a).hi ≤ a.hi + 1 / ((2 ^ 64 : Nat) : Rat) := by
  unfold ivCoarse
  have hg : (0 : Rat) < ((2 ^ 64 : Nat) : Rat) := by exact_mod_cast Nat.two_pow_pos 64
  generalize ((2 ^ 64 : Nat) : Rat) = g at hg ⊢
  exact coarse_bounds a.lo a.hi g hg

/-! ## Enclosures of known width -/

/-- The interval holds the real, and its ends lie within `w` of one another. -/
def Ival.Encl (a : Ival) (x w : ℝ) : Prop := a.Has x ∧ (a.hi : ℝ) - a.lo ≤ w

/-- The box holds the complex value, and the ends of either part lie within `w` of one another. -/
def CBox.Encl (b : CBox) (z : ℂ) (w : ℝ) : Prop := b.re.Encl z.re w ∧ b.im.Encl z.im w

theorem Ival.Encl.nonneg {a : Ival} {x w : ℝ} (h : a.Encl x w) : 0 ≤ w := by
  obtain ⟨⟨h1, h2⟩, h3⟩ := h
  linarith

theorem Ival.Encl.mono {a : Ival} {x w v : ℝ} (h : a.Encl x w) (hv : w ≤ v) : a.Encl x v := ⟨h.1, h.2.trans hv⟩

theorem CBox.Encl.mono {b : CBox} {z : ℂ} {w v : ℝ} (h : b.Encl z w) (hv : w ≤ v) : b.Encl z v :=
  ⟨h.1.mono hv, h.2.mono hv⟩

theorem CBox.Encl.has {b : CBox} {z : ℂ} {w : ℝ} (h : b.Encl z w) : b.Has z := ⟨h.1.1, h.2.1⟩

theorem ivOf_encl (q : Rat) : (ivOf q).Encl q 0 := ⟨ivOf_has q, by simp [ivOf]⟩

theorem ivAdd_encl {a b : Ival} {x y w v : ℝ} (ha : a.Encl x w) (hb : b.Encl y v) :
    (ivAdd a b).Encl (x + y) (w + v) := by
  refine ⟨ivAdd_has ha.1 hb.1, ?_⟩
  simp only [ivAdd, Rat.cast_add]
  linarith [ha.2, hb.2]

theorem ivNeg_encl {a : Ival} {x w : ℝ} (ha : a.Encl x w) : (ivNeg a).Encl (-x) w := by
  refine ⟨ivNeg_has ha.1, ?_⟩
  simp only [ivNeg, Rat.cast_neg]
  linarith [ha.2]

theorem ivSub_encl {a b : Ival} {x y w v : ℝ} (ha : a.Encl x w) (hb : b.Encl y v) :
    (ivSub a b).Encl (x - y) (w + v) := by
  rw [sub_eq_add_neg]
  exact ivAdd_encl ha (ivNeg_encl hb)

theorem ivScale_encl {a : Ival} {x w : ℝ} (r : Rat) (ha : a.Encl x w) : (ivScale r a).Encl (r * x) (|(r : ℝ)| * w) := by
  refine ⟨ivScale_has r ha.1, ?_⟩
  have h := ha.2
  unfold ivScale
  split
  · rename_i hr
    have hr : (0 : ℝ) ≤ r := by exact_mod_cast hr
    rw [abs_of_nonneg hr]
    simp only [Rat.cast_mul, ← mul_sub]
    exact mul_le_mul_of_nonneg_left h hr
  · rename_i hr
    have hr : (r : ℝ) ≤ 0 := by exact_mod_cast (le_of_not_ge hr)
    rw [abs_of_nonpos hr]
    simp only [Rat.cast_mul, ← mul_sub]
    nlinarith

/-- Every corner of a product lies near the product. -/
theorem corner_near {x y w v A B a b : ℝ} (hx : |x| ≤ A) (hy : |y| ≤ B) (ha : |a - x| ≤ w) (hb : |b - y| ≤ v) :
    |a * b - x * y| ≤ A * v + B * w + w * v := by
  have e : a * b - x * y = x * (b - y) + y * (a - x) + (a - x) * (b - y) := by ring
  rw [e]
  refine (abs_add_three _ _ _).trans ?_
  rw [abs_mul, abs_mul, abs_mul]
  have h1 := mul_le_mul hx hb (abs_nonneg _) ((abs_nonneg _).trans hx)
  have h2 := mul_le_mul hy ha (abs_nonneg _) ((abs_nonneg _).trans hy)
  have h3 := mul_le_mul ha hb (abs_nonneg _) ((abs_nonneg _).trans ha)
  linarith

theorem Ival.Encl.ends {a : Ival} {x w : ℝ} (h : a.Encl x w) : |(a.lo : ℝ) - x| ≤ w ∧ |(a.hi : ℝ) - x| ≤ w := by
  obtain ⟨⟨h1, h2⟩, h3⟩ := h
  constructor <;> rw [abs_le] <;> constructor <;> linarith

theorem ivMul_encl {a b : Ival} {x y w v A B : ℝ} (ha : a.Encl x w) (hb : b.Encl y v) (hx : |x| ≤ A) (hy : |y| ≤ B) :
    (ivMul a b).Encl (x * y) (2 * (A * v + B * w + w * v)) := by
  refine ⟨ivMul_has ha.1 hb.1, ?_⟩
  obtain ⟨a1, a2⟩ := ha.ends
  obtain ⟨b1, b2⟩ := hb.ends
  have c1 := abs_le.1 (corner_near hx hy a1 b1)
  have c2 := abs_le.1 (corner_near hx hy a1 b2)
  have c3 := abs_le.1 (corner_near hx hy a2 b1)
  have c4 := abs_le.1 (corner_near hx hy a2 b2)
  simp only [ivMul, ratMin_cast, ratMax_cast, Rat.cast_mul]
  have up : max (max ((a.lo : ℝ) * b.lo) (a.lo * b.hi)) (max (a.hi * b.lo) (a.hi * b.hi)) ≤
      x * y + (A * v + B * w + w * v) :=
    max_le (max_le (by linarith) (by linarith)) (max_le (by linarith) (by linarith))
  have down : x * y - (A * v + B * w + w * v) ≤
      min (min ((a.lo : ℝ) * b.lo) (a.lo * b.hi)) (min (a.hi * b.lo) (a.hi * b.hi)) :=
    le_min (le_min (by linarith) (by linarith)) (le_min (by linarith) (by linarith))
  linarith

theorem ivSqr_encl {a : Ival} {x w A : ℝ} (ha : a.Encl x w) (hx : |x| ≤ A) :
    (ivSqr a).Encl (x * x) (2 * (2 * A * w + w * w)) := by
  refine ⟨ivSqr_has ha.1, ?_⟩
  obtain ⟨a1, a2⟩ := ha.ends
  have c1 := abs_le.1 (corner_near hx hx a1 a1)
  have c4 := abs_le.1 (corner_near hx hx a2 a2)
  have hw := ha.nonneg
  have hA : 0 ≤ A := (abs_nonneg _).trans hx
  obtain ⟨x1, x2⟩ := abs_le.1 hx
  unfold ivSqr
  split
  · simp only [Rat.cast_mul]
    linarith
  split
  · simp only [Rat.cast_mul]
    linarith
  · rename_i h1 h2
    have h1 : (a.lo : ℝ) ≤ 0 := by exact_mod_cast (le_of_not_ge h1)
    have h2 : (0 : ℝ) ≤ a.hi := by exact_mod_cast (le_of_not_ge h2)
    simp only [ratMax_cast, Rat.cast_mul, Rat.cast_zero, sub_zero]
    have e := ha.2
    have p := mul_nonneg hA hw
    refine max_le ?_ ?_ <;> nlinarith

theorem ivSum_encl {α : Type} (l : List α) (f : α → Ival) (g w : α → ℝ) (h : ∀ x ∈ l, (f x).Encl (g x) (w x)) :
    (ivSum (l.map f)).Encl (l.map g).sum (l.map w).sum := by
  induction l with
  | nil => simpa [ivSum] using ivOf_encl 0
  | cons x l ih =>
    exact ivAdd_encl (h x (List.mem_cons_self ..)) (ih (fun y hy => h y (List.mem_cons_of_mem _ hy)))

theorem cbOf_encl (re im : Rat) : (cbOf re im).Encl ⟨re, im⟩ 0 := ⟨ivOf_encl re, ivOf_encl im⟩

theorem cbZero_encl : (cbOf 0 0).Encl 0 0 :=
  ⟨by simpa [cbOf] using ivOf_encl 0, by simpa [cbOf] using ivOf_encl 0⟩

theorem cbAdd_encl {a b : CBox} {z u : ℂ} {w v : ℝ} (ha : a.Encl z w) (hb : b.Encl u v) :
    (cbAdd a b).Encl (z + u) (w + v) := ⟨ivAdd_encl ha.1 hb.1, ivAdd_encl ha.2 hb.2⟩

theorem cbConj_encl {a : CBox} {z : ℂ} {w : ℝ} (ha : a.Encl z w) : (cbConj a).Encl (starRingEnd ℂ z) w :=
  ⟨by simpa [cbConj] using ha.1, by simpa [cbConj] using ivNeg_encl ha.2⟩

theorem cbMul_encl {a b : CBox} {z u : ℂ} {w v A B : ℝ} (ha : a.Encl z w) (hb : b.Encl u v) (hz : ‖z‖ ≤ A)
    (hu : ‖u‖ ≤ B) : (cbMul a b).Encl (z * u) (4 * (A * v + B * w + w * v)) := by
  have zr := (Complex.abs_re_le_norm z).trans hz
  have zi := (Complex.abs_im_le_norm z).trans hz
  have ur := (Complex.abs_re_le_norm u).trans hu
  have ui := (Complex.abs_im_le_norm u).trans hu
  constructor
  · rw [Complex.mul_re]
    exact (ivSub_encl (ivMul_encl ha.1 hb.1 zr ur) (ivMul_encl ha.2 hb.2 zi ui)).mono (by linarith)
  · rw [Complex.mul_im]
    exact (ivAdd_encl (ivMul_encl ha.1 hb.2 zr ui) (ivMul_encl ha.2 hb.1 zi ur)).mono (by linarith)

theorem cbScale_encl {a : CBox} {z : ℂ} {w : ℝ} (r : Rat) (ha : a.Encl z w) :
    (cbScale r a).Encl ((r : ℂ) * z) (|(r : ℝ)| * w) := by
  constructor
  · have : ((r : ℂ) * z).re = (r : ℝ) * z.re := by simp
    rw [this]
    exact ivScale_encl r ha.1
  · have : ((r : ℂ) * z).im = (r : ℝ) * z.im := by simp
    rw [this]
    exact ivScale_encl r ha.2

theorem cbSum_encl {α : Type} (l : List α) (f : α → CBox) (g : α → ℂ) (w : α → ℝ)
    (h : ∀ x ∈ l, (f x).Encl (g x) (w x)) : (cbSum (l.map f)).Encl (l.map g).sum (l.map w).sum := by
  induction l with
  | nil => simpa [cbSum] using cbZero_encl
  | cons x l ih =>
    exact cbAdd_encl (h x (List.mem_cons_self ..)) (ih (fun y hy => h y (List.mem_cons_of_mem _ hy)))

theorem cbAbs2_encl {a : CBox} {z : ℂ} {w A : ℝ} (ha : a.Encl z w) (hz : ‖z‖ ≤ A) :
    (cbAbs2 a).Encl (Complex.normSq z) (4 * (2 * A * w + w * w)) := by
  rw [Complex.normSq_apply]
  exact (ivAdd_encl (ivSqr_encl ha.1 ((Complex.abs_re_le_norm z).trans hz))
    (ivSqr_encl ha.2 ((Complex.abs_im_le_norm z).trans hz))).mono (by linarith)

theorem cbQuarter_encl {a : CBox} {z : ℂ} {w : ℝ} (q : Nat) (ha : a.Encl z w) :
    (cbQuarter q a).Encl (Complex.I ^ q * z) w := by
  have h := cbQuarter_has q ha.has
  have n1 := (ivNeg_encl ha.1).2
  have n2 := (ivNeg_encl ha.2).2
  have w1 := ha.1.2
  have w2 := ha.2.2
  refine ⟨⟨h.1, ?_⟩, ⟨h.2, ?_⟩⟩ <;> unfold cbQuarter <;> split <;> assumption

/-- The cosine of a part of the first quarter turn. -/
theorem cosIv_encl (g : Rat) (h0 : 0 ≤ g) (h1 : g ≤ 1 / 4) :
    (cosIv g).Encl (Real.cos (2 * Real.pi * g)) (1 / 2 ^ 62) := by
  obtain ⟨p1, p2⟩ := pi_bounds
  have g0 : (0 : ℝ) ≤ g := by exact_mod_cast h0
  have g1 : (g : ℝ) ≤ 1 / 4 := by
    have : (g : ℝ) ≤ ((1 / 4 : Rat) : ℝ) := by exact_mod_cast h1
    push_cast at this
    exact this
  have lo0 : 0 ≤ 2 * piLo * g := by unfold piLo; positivity
  have hi0 : 0 ≤ 2 * piHi * g := by unfold piHi; positivity
  have hi1 : 2 * piHi * g ≤ 8 / 5 := by unfold piHi; linarith
  have lo1 : 2 * piLo * g ≤ 8 / 5 := by unfold piLo; linarith
  obtain ⟨a1, -, -⟩ := cos_between _ hi0 hi1
  obtain ⟨b0, b1, b2⟩ := cos_between _ lo0 lo1
  obtain ⟨a0, a2, a3⟩ := cos_between _ hi0 hi1
  have xlo : ((2 * piLo * g : Rat) : ℝ) ≤ 2 * Real.pi * g := by
    push_cast
    nlinarith
  have xhi : 2 * Real.pi * g ≤ ((2 * piHi * g : Rat) : ℝ) := by
    push_cast
    nlinarith
  have plo : (0 : ℝ) ≤ ((2 * piLo * g : Rat) : ℝ) := by exact_mod_cast lo0
  have hpi : ((2 * piHi * g : Rat) : ℝ) ≤ Real.pi := by
    have : ((2 * piHi * g : Rat) : ℝ) ≤ ((8 / 5 : Rat) : ℝ) := by exact_mod_cast hi1
    have h3 := Real.pi_gt_three
    push_cast at this ⊢
    linarith
  have c1 := Real.cos_le_cos_of_nonneg_of_le_pi plo (xhi.trans hpi) xlo
  have c2 := Real.cos_le_cos_of_nonneg_of_le_pi (plo.trans xlo) hpi xhi
  have c3 : Real.cos ((2 * piLo * g : Rat) : ℝ) - Real.cos ((2 * piHi * g : Rat) : ℝ) ≤ 1 / 2 ^ 67 := by
    have := Real.abs_cos_sub_cos_le ((2 * piLo * g : Rat) : ℝ) ((2 * piHi * g : Rat) : ℝ)
    have hd : |((2 * piLo * g : Rat) : ℝ) - ((2 * piHi * g : Rat) : ℝ)| ≤ 1 / 2 ^ 67 := by
      rw [abs_le]
      push_cast
      norm_num [piLo, piHi] at *
      constructor <;> linarith
    exact (le_abs_self _).trans (this.trans hd)
  obtain ⟨⟨k1, k2⟩, k3, k4⟩ := ivCoarse_bounds
    ⟨cosTail 16 0 (2 * piHi * g * (2 * piHi * g)), cosTail 17 0 (2 * piLo * g * (2 * piLo * g))⟩
  have e : (((1 / ((2 ^ 64 : Nat) : Rat) : Rat)) : ℝ) = 1 / 2 ^ 64 := by
    rw [Rat.cast_div, Rat.cast_one, Rat.cast_natCast, Nat.cast_pow, Nat.cast_ofNat]
  have k1 := (Rat.cast_le (K := ℝ)).2 k1
  have k2 := (Rat.cast_le (K := ℝ)).2 k2
  have k3 := (Rat.cast_le (K := ℝ)).2 k3
  have k4 := (Rat.cast_le (K := ℝ)).2 k4
  rw [Rat.cast_sub, e] at k3
  rw [Rat.cast_add, e] at k4
  refine ⟨⟨k1.trans (a0.trans c2), (c1.trans b1).trans k2⟩, ?_⟩
  have : ((cosIv g).hi : ℝ) - (cosIv g).lo ≤
      cosTail 17 0 (2 * piLo * g * (2 * piLo * g)) + 1 / 2 ^ 64 -
        (cosTail 16 0 (2 * piHi * g * (2 * piHi * g)) - 1 / 2 ^ 64) := sub_le_sub k4 k3
  refine this.trans ?_
  norm_num at *
  linarith

theorem rootOf_re (t : ℝ) : (rootOf t).re = Real.cos (2 * Real.pi * t) := Complex.exp_ofReal_mul_I_re _

theorem rootOf_im (t : ℝ) : (rootOf t).im = Real.sin (2 * Real.pi * t) := Complex.exp_ofReal_mul_I_im _

theorem rootOf_norm (t : ℝ) : ‖rootOf t‖ = 1 := Complex.norm_exp_ofReal_mul_I _

theorem rootOf_add (s t : ℝ) : rootOf (s + t) = rootOf s * rootOf t := by
  unfold rootOf
  rw [← Complex.exp_add]
  congr 1
  push_cast
  ring

theorem rootOf_int (n : ℤ) : rootOf n = 1 := by
  unfold rootOf
  rw [Complex.exp_eq_one_iff]
  exact ⟨n, by push_cast; ring⟩

theorem rootOf_quarter (q : Nat) : rootOf ((q : ℝ) / 4) = Complex.I ^ q := by
  have h : rootOf (1 / 4) = Complex.I := by
    apply Complex.ext
    · rw [rootOf_re, show 2 * Real.pi * (1 / 4) = Real.pi / 2 by ring, Real.cos_pi_div_two, Complex.I_re]
    · rw [rootOf_im, show 2 * Real.pi * (1 / 4) = Real.pi / 2 by ring, Real.sin_pi_div_two, Complex.I_im]
  induction q with
  | zero => simpa using rootOf_int 0
  | succ q ih =>
    rw [Nat.cast_succ, add_div, rootOf_add, ih, h, pow_succ]

/-- The roots of unity are enclosed. -/
theorem cis_encl (turn : Rat) : (cis turn).Encl (rootOf turn) (1 / 2 ^ 62) := by
  unfold cis
  dsimp only
  set f := turn - (turn.floor : Rat) with hf
  have f0 : 0 ≤ f := by
    have := Int.floor_le turn
    rw [hf]
    exact sub_nonneg.2 this
  have f1 : f < 1 := by
    have := Int.lt_floor_add_one turn
    rw [hf]
    exact sub_lt_iff_lt_add'.2 this
  set q := (f * 4).floor.toNat with hq
  have hfl : ((q : Nat) : Int) = (f * 4).floor := by
    refine Int.toNat_of_nonneg ?_
    change 0 ≤ ⌊f * 4⌋
    exact Int.floor_nonneg.2 (by linarith)
  have q1 : (q : Rat) ≤ f * 4 := by
    have := Int.floor_le (f * 4)
    calc (q : Rat) = (((q : Nat) : Int) : Rat) := by push_cast; rfl
      _ = ((f * 4).floor : Rat) := by rw [hfl]
      _ ≤ _ := this
  have q2 : f * 4 < (q : Rat) + 1 := by
    have := Int.lt_floor_add_one (f * 4)
    calc f * 4 < ((f * 4).floor : Rat) + 1 := this
      _ = (((q : Nat) : Int) : Rat) + 1 := by rw [hfl]
      _ = _ := by push_cast; rfl
  have e : rootOf turn = Complex.I ^ q * rootOf ((f - (q : Rat) / 4 : Rat)) := by
    rw [← rootOf_quarter, ← rootOf_add]
    have h : ((q : ℝ) / 4 + ((f - (q : Rat) / 4 : Rat) : ℝ)) + ((turn.floor : Int) : ℝ) = turn := by
      rw [hf]
      push_cast
      ring
    rw [← h, rootOf_add, rootOf_int, mul_one]
  rw [e]
  apply cbQuarter_encl
  have g0 : 0 ≤ f - (q : Rat) / 4 := by linarith
  have g1 : f - (q : Rat) / 4 ≤ 1 / 4 := by linarith
  generalize f - (q : Rat) / 4 = g at g0 g1
  unfold cisQuarter
  split
  · rename_i h
    have : rootOf (g : ℝ) = ⟨((1 : Rat) : ℝ), ((0 : Rat) : ℝ)⟩ := by
      rw [h]
      have := rootOf_int 0
      rw [Int.cast_zero] at this
      rw [Rat.cast_zero, this]
      simp [Complex.ext_iff]
    rw [this]
    exact (cbOf_encl 1 0).mono (by positivity)
  · constructor
    · rw [rootOf_re]
      exact cosIv_encl g g0 g1
    · rw [rootOf_im]
      have := cosIv_encl (1 / 4 - g) (by linarith) (by linarith)
      have e : 2 * Real.pi * ((1 / 4 - g : Rat) : ℝ) = Real.pi / 2 - 2 * Real.pi * g := by
        push_cast
        ring
      rwa [e, Real.cos_pi_div_two_sub] at this

/-! ## Values drawn around an enclosed value -/

theorem ival_dist_le {a : Ival} {q : ℝ} (h : a.Has q) (x : Rat) : (ivDist x a : ℝ) ≤ |(x : ℝ) - q| ∧ 0 ≤ ivDist x a := by
  obtain ⟨h1, h2⟩ := h
  unfold ivDist
  split
  · rename_i hx
    have hx' : (x : ℝ) < a.lo := by exact_mod_cast hx
    push_cast
    exact ⟨by rw [abs_of_nonpos (by linarith)]; linarith, by linarith⟩
  split
  · rename_i hx
    have hx' : (a.hi : ℝ) < x := by exact_mod_cast hx
    push_cast
    exact ⟨by rw [abs_of_nonneg (by linarith)]; linarith, by linarith⟩
  · exact ⟨by rw [Rat.cast_zero]; exact abs_nonneg _, le_refl _⟩

theorem ival_dist_ge {a : Ival} {q w : ℝ} (h : a.Encl q w) (x : Rat) : |(x : ℝ) - q| ≤ ivDist x a + w := by
  obtain ⟨⟨h1, h2⟩, h3⟩ := h
  unfold ivDist
  split
  · push_cast
    rw [abs_le]
    rename_i hx
    have hx' : (x : ℝ) < a.lo := by exact_mod_cast hx
    constructor <;> linarith
  rename_i hx0
  have hx0 : (a.lo : ℝ) ≤ x := by exact_mod_cast not_lt.1 hx0
  split
  · rename_i hx
    have hx' : (a.hi : ℝ) < x := by exact_mod_cast hx
    push_cast
    rw [abs_le]
    constructor <;> linarith
  · rename_i hx
    have hx' : (x : ℝ) ≤ a.hi := by exact_mod_cast not_lt.1 hx
    rw [Rat.cast_zero, abs_le]
    constructor <;> linarith

/-- A value within the error bound of an enclosed value is admitted. -/
theorem admits_near {q : Ival} {x bound : ℝ} {b : Rat} (h : q.Has x) (hb : bound ≤ b) {w : F32}
    (hf : f32Finite w = true) (hw : |realOf w - x| ≤ bound) : admits (admitNear q b) w = true := by
  obtain ⟨h1, h2⟩ := abs_le.1 hw
  obtain ⟨q1, q2⟩ := h
  have k1 : ((q.lo - b : Rat) : ℝ) ≤ realOf w := by
    push_cast
    linarith
  have k2 : realOf w ≤ ((q.hi + b : Rat) : ℝ) := by
    push_cast
    linarith
  simp only [admitNear, admits, hf, Bool.true_and, Bool.and_eq_true, decide_eq_true_eq]
  exact ⟨(Rat.cast_le (K := ℝ)).1 k1, (Rat.cast_le (K := ℝ)).1 k2⟩

/-- What is drawn around an enclosed value: within the error bound and the width, wherever binary32 holds a value within
the error bound. -/
theorem draw_near {q : Ival} {x w bound : ℝ} {b : Rat} (h : q.Encl x w) (hb : bound ≤ b) (id : DrawId)
    (hex : ∃ v, f32Finite v = true ∧ |realOf v - x| ≤ bound) :
    f32Finite (drawF32 (admitNear q b) id) = true ∧ |realOf (drawF32 (admitNear q b) id) - x| ≤ b + w := by
  obtain ⟨v, v1, v2⟩ := hex
  have := drawF32_admits (id := id) ⟨v, admits_near h.1 hb v1 v2⟩
  simp only [admitNear, admits, Bool.and_eq_true] at this
  obtain ⟨⟨f1, f2⟩, f3⟩ := this
  refine ⟨f1, ?_⟩
  have f2 := of_decide_eq_true f2
  have f3 := of_decide_eq_true f3
  have g2 := (Rat.cast_le (K := ℝ)).2 f2
  have g3 := (Rat.cast_le (K := ℝ)).2 f3
  push_cast at g2 g3
  obtain ⟨⟨h1, h2⟩, h3⟩ := h
  unfold realOf
  rw [abs_le]
  simp only [admitNear]
  constructor <;> linarith

/-- A pair within the error bound of an enclosed value is admitted. -/
theorem cAdmits_near {box : CBox} {z : ℂ} {bound : ℝ} {b : Rat} (h : box.Has z) (hb : bound ≤ b) {v : C64}
    (hf : c64Finite v = true) (hv : ‖complexOf v - z‖ ≤ bound) : cAdmits (.disk box b) v = true := by
  obtain ⟨d1, d2⟩ := ival_dist_le h.1 (f32Rat v.re)
  obtain ⟨d3, d4⟩ := ival_dist_le h.2 (f32Rat v.im)
  have hn : ‖complexOf v - z‖ * ‖complexOf v - z‖ =
      |realOf v.re - z.re| * |realOf v.re - z.re| + |realOf v.im - z.im| * |realOf v.im - z.im| := by
    rw [← sq, ← Complex.normSq_eq_norm_sq, Complex.normSq_apply, abs_mul_abs_self, abs_mul_abs_self]
    rfl
  have e1 : (ivDist (f32Rat v.re) box.re : ℝ) * ivDist (f32Rat v.re) box.re ≤ |realOf v.re - z.re| * |realOf v.re - z.re| :=
    mul_self_le_mul_self (by exact_mod_cast d2) d1
  have e2 : (ivDist (f32Rat v.im) box.im : ℝ) * ivDist (f32Rat v.im) box.im ≤ |realOf v.im - z.im| * |realOf v.im - z.im| :=
    mul_self_le_mul_self (by exact_mod_cast d4) d3
  have e3 := mul_self_le_mul_self (norm_nonneg _) (hv.trans hb)
  simp only [cAdmits, hf, Bool.true_and, decide_eq_true_eq]
  have : ((ivDist (f32Rat v.re) box.re * ivDist (f32Rat v.re) box.re +
      ivDist (f32Rat v.im) box.im * ivDist (f32Rat v.im) box.im : Rat) : ℝ) ≤ ((b * b : Rat) : ℝ) := by
    push_cast
    linarith
  exact_mod_cast this

/-- A pair admitted around an enclosed value lies within the error bound and the widths. -/
theorem cAdmits_dist {box : CBox} {z : ℂ} {w : ℝ} {b : Rat} (h : box.Encl z w) (hb : 0 ≤ b) {v : C64}
    (hv : cAdmits (.disk box b) v = true) : c64Finite v = true ∧ ‖complexOf v - z‖ ≤ b + 2 * w := by
  simp only [cAdmits, Bool.and_eq_true, decide_eq_true_eq] at hv
  obtain ⟨hf, hd⟩ := hv
  refine ⟨hf, ?_⟩
  have hd : (ivDist (f32Rat v.re) box.re : ℝ) * ivDist (f32Rat v.re) box.re +
      ivDist (f32Rat v.im) box.im * ivDist (f32Rat v.im) box.im ≤ (b : ℝ) * b := by exact_mod_cast hd
  have r1 := ival_dist_ge h.1 (f32Rat v.re)
  have r2 := ival_dist_ge h.2 (f32Rat v.im)
  have p1 : (0 : ℝ) ≤ ivDist (f32Rat v.re) box.re := by exact_mod_cast (ival_dist_le h.1.1 (f32Rat v.re)).2
  have p2 : (0 : ℝ) ≤ ivDist (f32Rat v.im) box.im := by exact_mod_cast (ival_dist_le h.2.1 (f32Rat v.im)).2
  have hw := h.1.nonneg
  have hb' : (0 : ℝ) ≤ b := by exact_mod_cast hb
  set dx : ℝ := ((ivDist (f32Rat v.re) box.re : Rat) : ℝ)
  set dy : ℝ := ((ivDist (f32Rat v.im) box.im : Rat) : ℝ)
  have e : complexOf v - z = ⟨(f32Rat v.re : ℝ) - z.re, (f32Rat v.im : ℝ) - z.im⟩ := rfl
  have sq : ‖complexOf v - z‖ ^ 2 ≤ (b + 2 * w) ^ 2 := by
    rw [e, ← Complex.normSq_eq_norm_sq, Complex.normSq_mk]
    have s1 := mul_self_le_mul_self (abs_nonneg _) r1
    have s2 := mul_self_le_mul_self (abs_nonneg _) r2
    rw [abs_mul_abs_self] at s1 s2
    have hsum : dx + dy ≤ 2 * b := by nlinarith [sq_nonneg (dx - dy), sq_nonneg (dx + dy)]
    nlinarith [mul_nonneg hb' hw, mul_nonneg p1 hw, mul_nonneg p2 hw]
  exact le_of_sq_le_sq sq (by positivity)

/-- What is drawn around an enclosed complex value. -/
theorem cDraw_near {box : CBox} {z : ℂ} {w bound : ℝ} {b : Rat} (h : box.Encl z w) (hb : bound ≤ b) (hb0 : 0 ≤ b)
    (id : DrawId) (hex : ∃ v, c64Finite v = true ∧ ‖complexOf v - z‖ ≤ bound) :
    c64Finite (drawC64 (.disk box b) id) = true ∧ ‖complexOf (drawC64 (.disk box b) id) - z‖ ≤ b + 2 * w := by
  obtain ⟨v, v1, v2⟩ := hex
  refine cAdmits_dist h hb0 (drawC64_admits (cAdmits_sample ?_ (cAdmits_near h.has hb v1 v2)))
  rintro box' rad e
  cases e
  exact ⟨h.1.1.le, h.2.1.le⟩

end Sys2Proof.Machine
end

