-- ==== Sys2Proof/Laws/Memory.lean ====
section
/-! SUPPORT. Laws of the sparse memories: read after write, the canonical form, and byte order. -/

namespace Sys2Proof.Machine

section
variable {β : Type} [DecidableEq β] {dflt : β}

/-- No key below the bound of the canonical form is listed. -/
theorem mapGet_of_lt {lo : Nat} {m : List (Nat × β)} (h : mapWfFrom dflt lo m = true) {a : Nat} (ha : a < lo) :
    mapGet dflt m a = dflt := by
  induction m generalizing lo with
  | nil => rfl
  | cons e rest ih =>
    obtain ⟨k, v⟩ := e
    simp only [mapWfFrom, Bool.and_eq_true, decide_eq_true_eq] at h
    have hk : a ≠ k := by omega
    simp only [mapGet, hk, if_false]
    exact ih h.2 (by omega)

/-- The bound of the canonical form may be lowered. -/
theorem mapWfFrom_mono {lo lo' : Nat} {m : List (Nat × β)} (h : mapWfFrom dflt lo m = true) (hl : lo' ≤ lo) :
    mapWfFrom dflt lo' m = true := by
  cases m with
  | nil => rfl
  | cons e rest =>
    obtain ⟨k, v⟩ := e
    simp only [mapWfFrom, Bool.and_eq_true, decide_eq_true_eq] at h ⊢
    exact ⟨⟨by omega, h.1.2⟩, h.2⟩

/-- A write keeps the canonical form. -/
theorem mapPut_wf {lo : Nat} {m : List (Nat × β)} (h : mapWfFrom dflt lo m = true) {a : Nat} (ha : lo ≤ a) (b : β) :
    mapWfFrom dflt lo (mapPut dflt m a b) = true := by
  induction m generalizing lo with
  | nil =>
    by_cases hb : b = dflt <;> simp [mapPut, hb, mapWfFrom, ha]
  | cons e rest ih =>
    obtain ⟨k, v⟩ := e
    have h' := h
    simp only [mapWfFrom, Bool.and_eq_true, decide_eq_true_eq] at h
    simp only [mapPut]
    split
    · simp only [mapWfFrom, Bool.and_eq_true, decide_eq_true_eq]
      exact ⟨h.1, ih h.2 (by omega)⟩
    · split
      · subst_vars
        split
        · exact mapWfFrom_mono h.2 (by omega)
        · rename_i hb
          simp [mapWfFrom, hb, h.1.1, h.2]
      · split
        · exact h'
        · rename_i hb
          simp only [mapWfFrom, Bool.and_eq_true, decide_eq_true_eq, Bool.not_eq_true', decide_eq_false_iff_not]
          have h2 : ¬ v = dflt := by simpa using h.1.2
          exact ⟨⟨ha, hb⟩, ⟨⟨by omega, h2⟩, h.2⟩⟩

/-- A read at an address after a write of a canonical memory: the written value there, the old value elsewhere. -/
theorem mapGet_mapPut {lo : Nat} {m : List (Nat × β)} (h : mapWfFrom dflt lo m = true) (a : Nat) (b : β) (x : Nat) :
    mapGet dflt (mapPut dflt m a b) x = if x = a then b else mapGet dflt m x := by
  induction m generalizing lo with
  | nil =>
    by_cases hb : b = dflt <;> by_cases hx : x = a <;> simp [mapPut, mapGet, hb, hx]
  | cons e rest ih =>
    obtain ⟨k, v⟩ := e
    simp only [mapWfFrom, Bool.and_eq_true, decide_eq_true_eq] at h
    simp only [mapPut]
    split
    · simp only [mapGet, ih h.2]
      by_cases hxk : x = k <;> by_cases hxa : x = a <;> simp [hxk, hxa]
      all_goals
        intro _
        omega
    · split
      · subst_vars
        split
        · by_cases hx : x = k
          · subst hx
            simp [mapGet_of_lt h.2 (Nat.lt_succ_self x), *]
          · simp [mapGet, hx]
        · by_cases hx : x = k <;> simp [mapGet, hx]
      · split
        · by_cases hx : x = a
          · subst hx
            have hk : ¬ x = k := by omega
            simp only [mapGet, hk, if_false, if_true, mapGet_of_lt h.2 (show x < k + 1 by omega)]
            exact Eq.symm (by assumption)
          · simp [hx]
        · by_cases hx : x = a <;> simp [mapGet, hx]

/-- A write lists no key but its own beside those listed before. -/
theorem mapPut_keys {m : List (Nat × β)} {a : Nat} {b : β} {e : Nat × β} (h : e ∈ mapPut dflt m a b) :
    e.1 = a ∨ e ∈ m := by
  induction m with
  | nil =>
    simp only [mapPut] at h
    split at h <;> simp_all
  | cons x rest ih =>
    obtain ⟨k, v⟩ := x
    simp only [mapPut] at h
    split at h
    · rcases List.mem_cons.1 h with rfl | h'
      · exact .inr (List.mem_cons_self ..)
      · rcases ih h' with h' | h'
        · exact .inl h'
        · exact .inr (List.mem_cons_of_mem _ h')
    · split at h
      · split at h
        · exact .inr (List.mem_cons_of_mem _ h)
        · rcases List.mem_cons.1 h with rfl | h'
          · exact .inl rfl
          · exact .inr (List.mem_cons_of_mem _ h')
      · split at h
        · exact .inr h
        · rcases List.mem_cons.1 h with rfl | h'
          · exact .inl rfl
          · exact .inr h'

end

/-! ## DMEM -/

/-- Writing one byte keeps DMEM canonical. -/
theorem Memory.wf_put {m : Memory} (h : Memory.wf m = true) (a : Nat) (b : Byte) :
    Memory.wf (mapPut unlistedByte m a b) = true := mapPut_wf h (Nat.zero_le _) b

/-- Writing a byte string keeps DMEM canonical. -/
theorem Memory.wf_writeBytes {m : Memory} (h : Memory.wf m = true) (a : Nat) (bs : List Byte) :
    Memory.wf (writeBytes m a bs) = true := by
  induction bs generalizing m a with
  | nil => exact h
  | cons b bs ih => exact ih (Memory.wf_put h a b) (a + 1)

/-- Writing several byte strings keeps DMEM canonical. -/
theorem Memory.wf_writeAll {m : Memory} (h : Memory.wf m = true) (outs : List (Nat × List Byte)) :
    Memory.wf (writeAll m outs) = true := by
  induction outs generalizing m with
  | nil => exact h
  | cons o outs ih => exact ih (Memory.wf_writeBytes h o.1 o.2)

/-- Every byte of DMEM after a byte string is written: the string where it lies, the old byte elsewhere. -/
theorem memByte_writeBytes {m : Memory} (h : Memory.wf m = true) (a : Nat) (bs : List Byte) (x : Nat) :
    memByte (writeBytes m a bs) x = if a ≤ x ∧ x < a + bs.length then bs.getD (x - a) 0#8 else memByte m x := by
  induction bs generalizing m a with
  | nil =>
    have : ¬ (a ≤ x ∧ x < a + 0) := by omega
    simp only [List.length_nil, this, if_false]
    rfl
  | cons b bs ih =>
    rw [writeBytes, ih (Memory.wf_put h a b), memByte, mapGet_mapPut h]
    rcases Nat.lt_trichotomy x a with hx | rfl | hx
    · rw [if_neg (by omega), if_neg (by omega), if_neg (by omega)]
      rfl
    · rw [if_neg (by omega), if_pos rfl, if_pos (by simp)]
      simp
    · obtain ⟨d, rfl⟩ : ∃ d, x = a + 1 + d := ⟨x - (a + 1), by omega⟩
      have e1 : a + 1 + d - (a + 1) = d := by omega
      have e2 : a + 1 + d - a = d + 1 := by omega
      rw [e1, e2, if_neg (show ¬ a + 1 + d = a by omega)]
      by_cases hd : d < bs.length
      · rw [if_pos (by omega), if_pos (by simp; omega)]
        simp
      · rw [if_neg (by omega), if_neg (by simp; omega)]
        rfl

/-- A byte outside every string that is written is unchanged. -/
theorem memByte_writeAll_of_outside {m : Memory} (h : Memory.wf m = true) (outs : List (Nat × List Byte)) (x : Nat)
    (hx : ∀ o ∈ outs, ¬ (o.1 ≤ x ∧ x < o.1 + o.2.length)) : memByte (writeAll m outs) x = memByte m x := by
  induction outs generalizing m with
  | nil => rfl
  | cons o outs ih =>
    have h1 : writeAll m (o :: outs) = writeAll (writeBytes m o.1 o.2) outs := rfl
    rw [h1, ih (Memory.wf_writeBytes h o.1 o.2) (fun q hq => hx q (List.mem_cons_of_mem _ hq)),
      memByte_writeBytes h, if_neg (hx o (List.mem_cons_self ..))]

/-- Writes below a bound list no address at or above it. -/
theorem writeBytes_bound {m : Memory} {n : Nat} (h : ∀ e ∈ m, e.1 < n) (a : Nat) (bs : List Byte)
    (ha : a + bs.length ≤ n ∨ bs = []) : ∀ e ∈ writeBytes m a bs, e.1 < n := by
  induction bs generalizing m a with
  | nil => exact h
  | cons b bs ih =>
    have hl : a + (bs.length + 1) ≤ n := by simpa using ha
    refine ih (fun e he => ?_) (a + 1) (.inl (by omega))
    rcases mapPut_keys he with h1 | h1
    · omega
    · exact h e h1

/-- Writes below a bound list no address at or above it. -/
theorem writeAll_bound {m : Memory} {n : Nat} (h : ∀ e ∈ m, e.1 < n) (outs : List (Nat × List Byte))
    (ho : ∀ o ∈ outs, o.1 + o.2.length ≤ n ∨ o.2 = []) : ∀ e ∈ writeAll m outs, e.1 < n := by
  induction outs generalizing m with
  | nil => exact h
  | cons o outs ih =>
    exact ih (writeBytes_bound h o.1 o.2 (ho o (List.mem_cons_self ..)))
      (fun q hq => ho q (List.mem_cons_of_mem _ hq))

/-! ## Bytes and words -/

/-- The bytes of a word make the word (20_memory.md R39). -/
theorem bytesWord_wordBytes (w : Word) :
    bytesWord (w.extractLsb' 0 8) (w.extractLsb' 8 8) (w.extractLsb' 16 8) (w.extractLsb' 24 8) = w := by
  apply BitVec.eq_of_getLsbD_eq
  intro i hi
  simp only [bytesWord, BitVec.getLsbD_append, BitVec.getLsbD_extractLsb']
  rcases Nat.lt_or_ge i 8 with h | h
  · simp [h]
  · rcases Nat.lt_or_ge i 16 with h' | h'
    · simp [show ¬ i < 8 by omega, show i - 8 < 8 by omega, show 8 + (i - 8) = i by omega]
    · rcases Nat.lt_or_ge i 24 with h'' | h''
      · simp [show ¬ i < 8 by omega, show ¬ i - 8 < 8 by omega, show i - 8 - 8 < 8 by omega,
          show 16 + (i - 8 - 8) = i by omega]
      · simp [show ¬ i < 8 by omega, show ¬ i - 8 < 8 by omega, show ¬ i - 8 - 8 < 8 by omega,
          show i - 8 - 8 - 8 < 8 by omega, show 24 + (i - 8 - 8 - 8) = i by omega]

@[simp] theorem wordBytes_length (w : Word) : (wordBytes w).length = 4 := rfl

@[simp] theorem bytesOfWords_nil : bytesOfWords [] = [] := rfl

@[simp] theorem bytesOfWords_cons (w : Word) (ws : List Word) : bytesOfWords (w :: ws) = wordBytes w ++ bytesOfWords ws :=
  rfl

@[simp] theorem bytesOfWords_length (ws : List Word) : (bytesOfWords ws).length = 4 * ws.length := by
  induction ws with
  | nil => rfl
  | cons w ws ih => simp [ih]; omega

/-- The words of the bytes of words are the words (20_memory.md R39). -/
@[simp] theorem wordsOfBytes_bytesOfWords (ws : List Word) : wordsOfBytes (bytesOfWords ws) = ws := by
  induction ws with
  | nil => rfl
  | cons w ws ih =>
    show bytesWord _ _ _ _ :: wordsOfBytes (bytesOfWords ws) = w :: ws
    rw [ih, bytesWord_wordBytes]

/-- Byte `j` of word `i` of a byte string of words. -/
theorem bytesOfWords_getD (ws : List Word) (i j : Nat) (hj : j < 4) :
    (bytesOfWords ws).getD (4 * i + j) 0#8 = (wordBytes (ws.getD i 0#32)).getD j 0#8 := by
  induction ws generalizing i with
  | nil =>
    have : j = 0 ∨ j = 1 ∨ j = 2 ∨ j = 3 := by omega
    rcases this with rfl | rfl | rfl | rfl <;> simp [wordBytes]
  | cons w ws ih =>
    cases i with
    | zero =>
      rw [bytesOfWords_cons, List.getD_append _ _ _ _ (by simp; omega)]
      simp
    | succ i =>
      rw [bytesOfWords_cons, List.getD_append_right _ _ _ _ (by simp; omega)]
      have : 4 * (i + 1) + j - (wordBytes w).length = 4 * i + j := by simp; omega
      rw [this, ih]
      simp

/-- A word read where a byte string of words lies is that word (20_memory.md R39). -/
theorem memWord_writeBytes {m : Memory} (h : Memory.wf m = true) (a : Nat) (ws : List Word) (i : Nat)
    (hi : i < ws.length) : memWord (writeBytes m a (bytesOfWords ws)) (a + 4 * i) = ws.getD i 0#32 := by
  have key : ∀ j, j < 4 → memByte (writeBytes m a (bytesOfWords ws)) (a + 4 * i + j) =
      (wordBytes (ws.getD i 0#32)).getD j 0#8 := by
    intro j hj
    rw [memByte_writeBytes h, if_pos (by simp; omega), show a + 4 * i + j - a = 4 * i + j by omega,
      bytesOfWords_getD _ _ _ hj]
  have k0 := key 0 (by omega)
  have k1 := key 1 (by omega)
  have k2 := key 2 (by omega)
  have k3 := key 3 (by omega)
  rw [Nat.add_zero] at k0
  unfold memWord wordAt
  rw [k0, k1, k2, k3]
  exact bytesWord_wordBytes _

/-! ## Several outputs -/

/-- A byte of one of several strings that share no byte: it reads as that string says. -/
theorem memByte_writeAll_of_apart {m : Memory} (h : Memory.wf m = true) (outs : List (Nat × List Byte))
    (hd : selfOverlap (outs.map (fun o => ⟨o.1, o.2.length⟩)) = false) (o : Nat × List Byte) (ho : o ∈ outs) (x : Nat)
    (hx : o.1 ≤ x ∧ x < o.1 + o.2.length) : memByte (writeAll m outs) x = o.2.getD (x - o.1) 0#8 := by
  induction outs generalizing m with
  | nil => cases ho
  | cons p outs ih =>
    have h1 : writeAll m (p :: outs) = writeAll (writeBytes m p.1 p.2) outs := rfl
    simp only [List.map_cons, selfOverlap, Bool.or_eq_false_iff] at hd
    rw [h1]
    rcases List.mem_cons.1 ho with rfl | ho'
    · rw [memByte_writeAll_of_outside (Memory.wf_writeBytes h _ _), memByte_writeBytes h, if_pos hx]
      intro q hq hxq
      have := List.any_eq_false.1 hd.1 _ (List.mem_map.2 ⟨q, hq, rfl⟩)
      simp only [overlaps, Bool.and_eq_true, decide_eq_true_eq] at this
      omega
    · exact ih (Memory.wf_writeBytes h _ _) hd.2 ho'

/-- A word of one of several strings that share no byte. -/
theorem memWord_writeAll_of_apart {m : Memory} (h : Memory.wf m = true) (outs : List (Nat × List Byte))
    (hd : selfOverlap (outs.map (fun o => ⟨o.1, o.2.length⟩)) = false) (a : Nat) (ws : List Word)
    (ho : (a, bytesOfWords ws) ∈ outs) (i : Nat) (hi : i < ws.length) :
    memWord (writeAll m outs) (a + 4 * i) = ws.getD i 0#32 := by
  have key : ∀ j, j < 4 → memByte (writeAll m outs) (a + 4 * i + j) = (wordBytes (ws.getD i 0#32)).getD j 0#8 := by
    intro j hj
    rw [memByte_writeAll_of_apart h outs hd _ ho _ (by simp; omega)]
    show (bytesOfWords ws).getD (a + 4 * i + j - a) 0#8 = _
    rw [show a + 4 * i + j - a = 4 * i + j by omega, bytesOfWords_getD _ _ _ hj]
  have k0 := key 0 (by omega)
  have k1 := key 1 (by omega)
  have k2 := key 2 (by omega)
  have k3 := key 3 (by omega)
  rw [Nat.add_zero] at k0
  unfold memWord wordAt
  rw [k0, k1, k2, k3]
  exact bytesWord_wordBytes _

end Sys2Proof.Machine
end

