-- ==== Sys2Proof/Laws/State.lean ====
section
/-! SUPPORT. One lemma per field and update of State, and the reads of ports and instances after an update. -/

namespace Sys2Proof.Machine

variable (s : State) (c k : Nat) (p : Port) (x : Inst)

@[simp] theorem setPort_params : (setPort c p s).params = s.params := rfl
@[simp] theorem setPort_bstate : (setPort c p s).bstate = s.bstate := rfl
@[simp] theorem setPort_faultInfo : (setPort c p s).faultInfo = s.faultInfo := rfl
@[simp] theorem setPort_faultAddr : (setPort c p s).faultAddr = s.faultAddr := rfl
@[simp] theorem setPort_faultSrc : (setPort c p s).faultSrc = s.faultSrc := rfl
@[simp] theorem setPort_ports : (setPort c p s).ports = s.ports.set c p := rfl
@[simp] theorem setPort_insts : (setPort c p s).insts = s.insts := rfl
@[simp] theorem setPort_dmem : (setPort c p s).dmem = s.dmem := rfl
@[simp] theorem setPort_grid : (setPort c p s).grid = s.grid := rfl
@[simp] theorem setPort_chest : (setPort c p s).chest = s.chest := rfl
@[simp] theorem setPort_sched : (setPort c p s).sched = s.sched := rfl
@[simp] theorem setPort_cur : (setPort c p s).cur = s.cur := rfl
@[simp] theorem setPort_draws : (setPort c p s).draws = s.draws := rfl
@[simp] theorem setPort_hostData : (setPort c p s).hostData = s.hostData := rfl

@[simp] theorem setInst_params : (setInst k x s).params = s.params := rfl
@[simp] theorem setInst_bstate : (setInst k x s).bstate = s.bstate := rfl
@[simp] theorem setInst_faultInfo : (setInst k x s).faultInfo = s.faultInfo := rfl
@[simp] theorem setInst_faultAddr : (setInst k x s).faultAddr = s.faultAddr := rfl
@[simp] theorem setInst_faultSrc : (setInst k x s).faultSrc = s.faultSrc := rfl
@[simp] theorem setInst_ports : (setInst k x s).ports = s.ports := rfl
@[simp] theorem setInst_insts : (setInst k x s).insts = s.insts.set k x := rfl
@[simp] theorem setInst_dmem : (setInst k x s).dmem = s.dmem := rfl
@[simp] theorem setInst_grid : (setInst k x s).grid = s.grid := rfl
@[simp] theorem setInst_chest : (setInst k x s).chest = s.chest := rfl
@[simp] theorem setInst_sched : (setInst k x s).sched = s.sched := rfl
@[simp] theorem setInst_cur : (setInst k x s).cur = s.cur := rfl
@[simp] theorem setInst_draws : (setInst k x s).draws = s.draws := rfl
@[simp] theorem setInst_hostData : (setInst k x s).hostData = s.hostData := rfl

/-- A port depends on the list of ports alone. -/
theorem getPort_congr {s t : State} (h : t.ports = s.ports) (c : Nat) : getPort t c = getPort s c := by
  simp [getPort, h]

/-- An instance depends on the list of instances alone. -/
theorem getInst_congr {s t : State} (h : t.insts = s.insts) (k : Nat) : getInst t k = getInst s k := by
  simp [getInst, h]

@[simp] theorem getPort_setInst (c' : Nat) : getPort (setInst k x s) c' = getPort s c' := rfl

@[simp] theorem getInst_setPort (k' : Nat) : getInst (setPort c p s) k' = getInst s k' := rfl

/-- A port after a port has been replaced. -/
theorem getPort_setPort (c' : Nat) :
    getPort (setPort c p s) c' = if c' = c ∧ c < s.ports.length then p else getPort s c' := by
  simp only [getPort, setPort_ports, List.getD_eq_getElem?_getD, List.getElem?_set]
  by_cases h : c = c' <;> by_cases hc : c < s.ports.length
  · subst h
    simp [hc]
  · subst h
    simp [hc]
  · simp [h, Ne.symm h]
  · simp [h, hc]

/-- An instance after an instance has been replaced. -/
theorem getInst_setInst (k' : Nat) :
    getInst (setInst k x s) k' = if k' = k ∧ k < s.insts.length then x else getInst s k' := by
  simp only [getInst, setInst_insts, List.getD_eq_getElem?_getD, List.getElem?_set]
  by_cases h : k = k' <;> by_cases hk : k < s.insts.length
  · subst h
    simp [hk]
  · subst h
    simp [hk]
  · simp [h, Ne.symm h]
  · simp [h, hk]

/-- A port that does not exist reads as at reset. -/
theorem getPort_of_ge {c : Nat} (h : s.ports.length ≤ c) : getPort s c = Port.atReset := by
  simp [getPort, List.getElem?_eq_none h]

/-- An instance that does not exist reads as at reset. -/
theorem getInst_of_ge {k : Nat} (h : s.insts.length ≤ k) : getInst s k = Inst.atReset := by
  simp [getInst, List.getElem?_eq_none h]

end Sys2Proof.Machine
end

