-- ==== Sys2Proof/Laws/Ops.lean ====
section
/-! SUPPORT. What each shared operation can do, said once. -/

namespace Sys2Proof.Machine

/-! ## Draws and choices -/

/-- A choice from a list that is not empty is one of its elements. -/
theorem drawFrom_mem (l : List Nat) (h : l ≠ []) (d : Nat) (id : DrawId) : drawFrom l d id ∈ l := by
  match l, h with
  | [c], _ => simp [drawFrom]
  | a :: b :: rest, _ =>
    simp only [drawFrom]
    have hlt : Config.freeIndex id % (a :: b :: rest).length < (a :: b :: rest).length :=
      Nat.mod_lt _ (by simp)
    rw [List.getD_eq_getElem?_getD, List.getElem?_eq_getElem hlt]
    exact List.getElem_mem hlt

/-- The instance a call receives is free (46_dispatcher_pool.md R131). -/
theorem pickInst_mem (l : List Nat) (h : l ≠ []) (hint : Nat) (id : DrawId) : pickInst l hint id ∈ l := by
  unfold pickInst
  split
  · assumption
  · exact drawFrom_mem l h 0 id

/-- Where a rule admits `goodWithin`, the value is finite and positive (41_transform_precoder.md R80,
42_equalizer.md R85). -/
theorem drawF32_goodWithin (lo hi : Rat) (id : DrawId) : goodNv (drawF32 (.goodWithin lo hi) id) = true := by
  have hs : goodNv (admittedSample (.goodWithin lo hi)) = true := by
    simp only [admittedSample]
    split
    · assumption
    · decide
  simp only [drawF32]
  split
  · rename_i h
    simp only [admits, Bool.and_eq_true] at h
    exact h.1.1
  · split
    · exact hs
    · split
      · assumption
      · exact hs

/-! ## Completion -/

@[simp] theorem releaseLease_ports (c : Nat) (s : State) : (releaseLease c s).ports = s.ports := by
  unfold releaseLease
  split <;> rfl

theorem releaseLease_getPort (c c' : Nat) (s : State) : getPort (releaseLease c s) c' = getPort s c' :=
  getPort_congr (releaseLease_ports c s) c'

theorem releaseLease_rest (c : Nat) (s : State) :
    (releaseLease c s).params = s.params ∧ (releaseLease c s).bstate = s.bstate ∧
    (releaseLease c s).faultInfo = s.faultInfo ∧ (releaseLease c s).faultAddr = s.faultAddr ∧
    (releaseLease c s).faultSrc = s.faultSrc ∧ (releaseLease c s).dmem = s.dmem ∧
    (releaseLease c s).grid = s.grid ∧ (releaseLease c s).chest = s.chest ∧
    (releaseLease c s).sched = s.sched ∧ (releaseLease c s).cur = s.cur ∧
    (releaseLease c s).draws = s.draws ∧ (releaseLease c s).hostData = s.hostData := by
  unfold releaseLease
  split <;> simp

/-- The instances after a lease has been given back: the call's own is free, every other one is as before. -/
theorem releaseLease_getInst (c k : Nat) (s : State) :
    getInst (releaseLease c s) k =
      if callInst (getPort s c).call = some k then { getInst s k with lease := false } else getInst s k := by
  unfold releaseLease
  split
  · rename_i k' hk
    rw [getInst_setInst]
    by_cases h : k = k'
    · subst h
      by_cases hl : k < s.insts.length
      · simp [hl, hk]
      · simp only [hl, and_false, if_false, hk, if_true]
        rw [getInst_of_ge s (Nat.le_of_not_lt hl)]
        rfl
    · have : ¬ (k' = k) := fun e => h e.symm
      simp [h, hk, this]
  · rename_i hk
    simp [hk]

theorem releaseLease_insts_length (c : Nat) (s : State) : (releaseLease c s).insts.length = s.insts.length := by
  unfold releaseLease
  split <;> simp

/-- The ports after `complete(c)`: `c` is idle, every other one is as before (46_dispatcher_pool.md R133). -/
theorem complete_getPort (c c' : Nat) (s : State) :
    getPort (complete c s) c' =
      if c' = c ∧ c < s.ports.length then { getPort s c with call := .idle, disturb := Disturb.none } else getPort s c' := by
  simp only [complete, getPort_setPort, releaseLease_ports, releaseLease_getPort]

/-- The instances after `complete(c)` (46_dispatcher_pool.md R133). -/
theorem complete_getInst (c k : Nat) (s : State) :
    getInst (complete c s) k =
      if callInst (getPort s c).call = some k then { getInst s k with lease := false } else getInst s k :=
  releaseLease_getInst c k s

theorem complete_lengths (c : Nat) (s : State) :
    (complete c s).ports.length = s.ports.length ∧ (complete c s).insts.length = s.insts.length := by
  simp [complete, releaseLease_insts_length]

/-- `complete` changes nothing but the ports and the instances. -/
theorem complete_rest (c : Nat) (s : State) :
    (complete c s).params = s.params ∧ (complete c s).bstate = s.bstate ∧
    (complete c s).faultInfo = s.faultInfo ∧ (complete c s).faultAddr = s.faultAddr ∧
    (complete c s).faultSrc = s.faultSrc ∧ (complete c s).dmem = s.dmem ∧
    (complete c s).grid = s.grid ∧ (complete c s).chest = s.chest ∧
    (complete c s).sched = s.sched ∧ (complete c s).cur = s.cur ∧
    (complete c s).draws = s.draws ∧ (complete c s).hostData = s.hostData := by
  simpa [complete] using releaseLease_rest c s

/-! ## The end of a command -/

/-- `SCRATCH` of the executing instance is all that becomes unspecified (10_state.md R32). -/
theorem scrambleScratch_getInst (s : State) (k : Nat) :
    (getInst (scrambleScratch s) k).lease = (getInst s k).lease ∧
    (getInst (scrambleScratch s) k).owner = (getInst s k).owner ∧
    (getInst (scrambleScratch s) k).op = (getInst s k).op ∧
    (s.cur.inst ≠ some k → getInst (scrambleScratch s) k = getInst s k) := by
  unfold scrambleScratch
  split
  · rename_i k' hk
    rw [getInst_setInst]
    by_cases h : k = k' ∧ k' < s.insts.length
    · rw [if_pos h]
      obtain ⟨rfl, _⟩ := h
      exact ⟨rfl, rfl, rfl, fun hne => absurd hk hne⟩
    · simp [h]
  · simp

theorem scrambleScratch_rest (s : State) :
    (scrambleScratch s).params = s.params ∧ (scrambleScratch s).bstate = s.bstate ∧
    (scrambleScratch s).faultInfo = s.faultInfo ∧ (scrambleScratch s).faultAddr = s.faultAddr ∧
    (scrambleScratch s).faultSrc = s.faultSrc ∧ (scrambleScratch s).ports = s.ports ∧
    (scrambleScratch s).insts.length = s.insts.length ∧ (scrambleScratch s).dmem = s.dmem ∧
    (scrambleScratch s).grid = s.grid ∧ (scrambleScratch s).chest = s.chest ∧
    (scrambleScratch s).sched = s.sched ∧ (scrambleScratch s).cur = s.cur ∧
    (scrambleScratch s).draws = s.draws ∧ (scrambleScratch s).hostData = s.hostData := by
  unfold scrambleScratch
  split <;> simp

/-- Draws replace bytes one for one. -/
theorem taintedBytes_length (t : Taint) (ep : Nat) (r : Bool) (a : Nat) (bs : List Byte) (h : r = true → 4 ≤ bs.length) :
    (taintedBytes t ep r a bs).length = bs.length := by
  cases t with
  | clean => rfl
  | inputs =>
    cases r with
    | true =>
      have := h rfl
      simp [taintedBytes, freeBytes]
      omega
    | false => simp [taintedBytes, freeBytes]
  | outputs => simp [taintedBytes, freeBytes]

/-- The outputs of a command keep their places and lengths whatever becomes of their values. -/
theorem taintedOuts_places (t : Taint) (ep : Nat) (ws : List (Nat × List Byte))
    (h : ∀ a bs rest, ws = (a, bs) :: rest → 4 ≤ bs.length) :
    (taintedOuts t ep ws).map (fun o => (o.1, o.2.length)) = ws.map (fun o => (o.1, o.2.length)) := by
  cases ws with
  | nil => rfl
  | cons w rest =>
    obtain ⟨a, bs⟩ := w
    simp only [taintedOuts, List.map_cons, List.map_map, List.cons.injEq, Prod.mk.injEq, true_and]
    refine ⟨taintedBytes_length t ep true a bs (fun _ => h a bs rest rfl), ?_⟩
    apply List.map_congr_left
    intro o _
    simp [taintedBytes_length]

/-- Outputs that nothing disturbs come out as computed. -/
theorem taintedOuts_clean (ep : Nat) (ws : List (Nat × List Byte)) : taintedOuts .clean ep ws = ws := by
  cases ws with
  | nil => rfl
  | cons w rest =>
    obtain ⟨a, bs⟩ := w
    simp [taintedOuts, taintedBytes]

/-- The ports keep their number, their calls and their registers whatever disturbs them (20_memory.md R48, R49). -/
theorem disturbed_getPort (change : Disturb → Disturb) (except : Option Nat) (s : State) (c : Nat) :
    ∃ x, (disturbed change except s).getD c Port.atReset = { getPort s c with disturb := x } := by
  simp only [disturbed, getPort, List.getD_eq_getElem?_getD, List.getElem?_mapIdx]
  cases h : s.ports[c]? with
  | none => exact ⟨Disturb.none, rfl⟩
  | some p =>
    simp only [Option.map_some, Option.getD_some]
    split
    · exact ⟨_, rfl⟩
    · exact ⟨p.disturb, rfl⟩

@[simp] theorem disturbed_length (change : Disturb → Disturb) (except : Option Nat) (s : State) :
    (disturbed change except s).length = s.ports.length := by
  simp [disturbed]

theorem portsAfter_getPort (outs : List Region) (s : State) (c : Nat) :
    ∃ x, (portsAfter outs s).getD c Port.atReset = { getPort s c with disturb := x } := disturbed_getPort ..

@[simp] theorem portsAfter_length (outs : List Region) (s : State) : (portsAfter outs s).length = s.ports.length :=
  disturbed_length ..

/-- Everything `finish` can do: it writes the outputs and completes the call, or it stops at an address that does not
exist. -/
theorem finish_cases (f : Footprint) (ws : List (Nat × List Byte)) (s : State) :
    (outsInRange s.params.dmemSize ws = true ∧ finish f ws s = .next (complete s.cur.caller
      { scrambleScratch s with
        dmem := writeAll s.dmem (taintedOuts (ownTaint f s) s.draws ws), ports := portsAfter f.outs s,
        draws := s.draws + 1 })) ∨
    (outsInRange s.params.dmemSize ws = false ∧
      finish f ws s = .fault (.dmemOutOfRange (firstOutOfRange s.params.dmemSize ws))) := by
  unfold finish
  cases h : outsInRange s.params.dmemSize ws with
  | true => exact .inl ⟨rfl, rfl⟩
  | false => exact .inr ⟨rfl, by simp⟩

/-- Every output string lies in an output region. -/
def WritesWithin (ws : List (Nat × List Byte)) (outs : List Region) : Prop :=
  ∀ o ∈ ws, ⟨o.1, o.2.length⟩ ∈ outs

/-- A command whose outputs lie in its output regions and in DMEM completes (46_dispatcher_pool.md R132, R133). -/
theorem finish_completed (f : Footprint) (ws : List (Nat × List Byte)) (s : State)
    (hwf : Memory.wf s.dmem = true) (hc : CallerExists s) (hw : WritesWithin ws f.outs)
    (hh : ∀ a bs rest, ws = (a, bs) :: rest → 4 ≤ bs.length) (hr : outsInRange s.params.dmemSize ws = true) :
    ∃ t, finish f ws s = .next t ∧ Completed f.outs s t ∧
      t.dmem = writeAll s.dmem (taintedOuts (ownTaint f s) s.draws ws) := by
  obtain ⟨-, hf⟩ | ⟨hf, -⟩ := finish_cases f ws s
  swap
  · rw [hr] at hf
    cases hf
  refine ⟨_, hf, ?_, ?_⟩
  swap
  · exact (complete_rest _ _).2.2.2.2.2.1
  obtain ⟨s1, s2, s3, s4, s5, s6, s7, s8, s9, s10, s11, s12, s13, s14⟩ := scrambleScratch_rest s
  obtain ⟨c1, c2, c3, c4, c5, c6, c7, c8, c9, c10, c11, c12⟩ := complete_rest s.cur.caller
    { scrambleScratch s with
      dmem := writeAll s.dmem (taintedOuts (ownTaint f s) s.draws ws), ports := portsAfter f.outs s,
      draws := s.draws + 1 }
  have hp : ∀ c', ∃ t, getPort { scrambleScratch s with
      dmem := writeAll s.dmem (taintedOuts (ownTaint f s) s.draws ws), ports := portsAfter f.outs s,
      draws := s.draws + 1 } c' = { getPort s c' with disturb := t } := fun c' => portsAfter_getPort f.outs s c'
  have hi : ∀ k', getInst { scrambleScratch s with
      dmem := writeAll s.dmem (taintedOuts (ownTaint f s) s.draws ws), ports := portsAfter f.outs s,
      draws := s.draws + 1 } k' = getInst (scrambleScratch s) k' := fun k' => rfl
  constructor
  · rw [complete_getPort, if_pos ⟨rfl, by simpa [CallerExists] using hc⟩]
  · intro k hk
    rw [complete_getInst]
    obtain ⟨t, ht⟩ := hp s.cur.caller
    rw [ht, if_pos hk]
  · intro a ha
    rw [c6]
    apply memByte_writeAll_of_outside hwf
    intro o ho
    have hm : (o.1, o.2.length) ∈ ws.map (fun o => (o.1, o.2.length)) := by
      rw [← taintedOuts_places (ownTaint f s) s.draws ws hh]
      exact List.mem_map.2 ⟨o, ho, rfl⟩
    obtain ⟨o', ho', e⟩ := List.mem_map.1 hm
    have h1 : o'.1 = o.1 := (Prod.mk.inj e).1
    have h2 : o'.2.length = o.2.length := (Prod.mk.inj e).2
    have := ha _ (hw o' ho')
    simpa [h1, h2] using this
  · rw [c2]; exact s2
  · rw [c3]; exact s3
  · rw [c4]; exact s4
  · rw [c5]; exact s5
  · exact ⟨c1.trans s1, c7.trans s9, c8.trans s10, c9.trans s11, c10.trans s12, c12.trans s14⟩
  · refine ⟨by simp [(complete_lengths _ _).1], fun c' => ?_, fun c' hne => ?_⟩
    · rw [complete_getPort]
      split
      · obtain ⟨t, ht⟩ := hp s.cur.caller
        rename_i h
        rw [ht, h.1]
      · obtain ⟨t, ht⟩ := hp c'
        rw [ht]
    · rw [complete_getPort, if_neg (fun h => hne h.1)]
      obtain ⟨t, ht⟩ := hp c'
      rw [ht]
      exact ⟨rfl, rfl⟩
  · refine ⟨by simp [(complete_lengths _ _).2, s7], fun k hk hcur => ?_⟩
    rw [complete_getInst]
    obtain ⟨t, ht⟩ := hp s.cur.caller
    rw [ht, if_neg hk, hi]
    exact (scrambleScratch_getInst s k).2.2.2 hcur

/-! ## Faults and reset -/

/-- A fault in a block that has faulted already changes nothing (60_exceptions.md R146, R147). -/
theorem faultEntry_of_faulted (code : FaultCode) (w0 : Word) (c k : Nat) (a : Word) (s : State)
    (h : s.bstate = .faulted) : faultEntry code w0 c k a s = s := by
  simp [faultEntry, h]

/-- A fault in a running block (60_exceptions.md R146). -/
theorem faultEntry_of_run (code : FaultCode) (w0 : Word) (c k : Nat) (a : Word) (s : State) (h : s.bstate = .run) :
    faultEntry code w0 c k a s =
      { s with
        bstate := .faulted, faultInfo := w0Tag w0 ++ w0Opc w0 ++ faultByte code, faultAddr := a,
        faultSrc := 0#20 ++ BitVec.ofNat 4 k ++ 0#4 ++ BitVec.ofNat 4 c,
        dmem := drawRegions s.params.dmemSize s.draws .faultByte s.dmem (otherInFlightOuts s c),
        draws := s.draws + 1 } := by
  simp [faultEntry, h]

/-- The bytes that become draws lie in the regions. -/
theorem drawRegions_byte (size ep : Nat) (site : Site) {m : Memory} (h : Memory.wf m = true) (rs : List Region) (a : Nat)
    (ha : Outside rs a) : memByte (drawRegions size ep site m rs) a = memByte m a := by
  apply memByte_writeAll_of_outside h
  intro o ho
  obtain ⟨r, hr, rfl⟩ := List.mem_map.1 ho
  have := ha r hr
  simp only [freeBytes, List.length_map, List.length_range, clip]
  omega

theorem drawRegions_wf (size ep : Nat) (site : Site) {m : Memory} (h : Memory.wf m = true) (rs : List Region) :
    Memory.wf (drawRegions size ep site m rs) = true := Memory.wf_writeAll h _

theorem drawRegions_bound (size ep : Nat) (site : Site) {m : Memory} (h : ∀ e ∈ m, e.1 < size) (rs : List Region) :
    ∀ e ∈ drawRegions size ep site m rs, e.1 < size := by
  apply writeAll_bound h
  intro o ho
  obtain ⟨r, -, rfl⟩ := List.mem_map.1 ho
  by_cases hl : (clip size r).len = 0
  · exact .inr (by simp [freeBytes, hl])
  · left
    simp only [freeBytes, List.length_map, List.length_range]
    simp only [clip] at hl ⊢
    omega

/-- The command word's fields (30_encoding.md R55). -/
theorem w0Word_fields (tag : BitVec 16) (o : Opcode) :
    w0Tag (w0Word tag o) = tag ∧ w0Opc (w0Word tag o) = opcodeByte o ∧ w0Rsv (w0Word tag o) = 0#8 := by
  refine ⟨?_, ?_, ?_⟩ <;> apply BitVec.eq_of_getLsbD_eq <;> intro i hi <;>
    simp only [w0Tag, w0Opc, w0Rsv, w0Word, BitVec.getLsbD_extractLsb', BitVec.getLsbD_append, hi, decide_true,
      Bool.true_and, BitVec.getLsbD_zero]
  · simp [show ¬ 16 + i < 8 by omega, show ¬ 16 + i - 8 < 8 by omega, show 16 + i - 8 - 8 = i by omega]
  · simp [hi]
  · simp [show ¬ 8 + i < 8 by omega, hi]

/-- A command that raises a fault in a running block (60_exceptions.md R146). -/
theorem raiseFault_faulted (i : Instr) (code : FaultCode) (s : State) (hrun : s.bstate = .run)
    (hwf : Memory.wf s.dmem = true) : ∃ t, raiseFault i code s = .next t ∧ Faulted code i s t := by
  refine ⟨_, rfl, ?_⟩
  rw [faultEntry_of_run _ _ _ _ _ _ hrun]
  obtain ⟨h1, h2, -⟩ := w0Word_fields (instrTag i) (instrOpcode i)
  exact
    { bstate := rfl
      code := by simp only [instrW0, h1, h2]
      faultAddr := rfl
      faultSrc := rfl
      ports := rfl
      leases := fun k => ⟨rfl, rfl, rfl, rfl⟩
      bytes := fun a ha => drawRegions_byte _ _ _ hwf _ _ ha
      around := ⟨rfl, rfl, rfl, rfl, rfl, rfl⟩ }

/-- What a reset leaves (70_reset_and_hazards.md R157, R158). -/
theorem resetBlock_fields (s : State) :
    (resetBlock s).bstate = .run ∧ (resetBlock s).faultInfo = 0#32 ∧ (resetBlock s).faultAddr = 0#32 ∧
    (resetBlock s).faultSrc = 0#32 ∧ (resetBlock s).ports = List.replicate s.params.nCallers Port.atReset ∧
    (resetBlock s).insts = List.replicate s.params.k Inst.atReset ∧ (resetBlock s).params = s.params ∧
    (resetBlock s).grid = s.grid ∧ (resetBlock s).chest = s.chest ∧ (resetBlock s).sched = s.sched :=
  ⟨rfl, rfl, rfl, rfl, rfl, rfl, rfl, rfl, rfl, rfl⟩

end Sys2Proof.Machine
end

