-- ==== Sys2Proof/Laws/Exec.lean ====
section
/-! SUPPORT. What every command can do, said once: it raises a fault, or it ends with its outputs written. -/

namespace Sys2Proof.Machine

/-! ## The lengths of the outputs -/

theorem c64Bytes_length (z : C64) : (c64Bytes z).length = 8 := rfl

theorem flatMap_c64Bytes_length (l : List C64) : (l.flatMap c64Bytes).length = 8 * l.length := by
  induction l with
  | nil => rfl
  | cons z l ih =>
    rw [List.flatMap_cons, List.length_append, ih, c64Bytes_length, List.length_cons]
    omega

theorem length_flatMap_const {α β : Type} (f : α → List β) (n : Nat) (h : ∀ x, (f x).length = n) (l : List α) :
    (l.flatMap f).length = l.length * n := by
  induction l with
  | nil => simp
  | cons x l ih => rw [List.flatMap_cons, List.length_append, ih, h, List.length_cons, Nat.succ_mul, Nat.add_comm]

theorem length_flatten_mapIdx_const {α β : Type} (f : Nat → α → List β) (n : Nat) (h : ∀ i x, (f i x).length = n)
    (l : List α) : (l.mapIdx f).flatten.length = l.length * n := by
  induction l generalizing f with
  | nil => simp
  | cons x l ih =>
    rw [List.mapIdx_cons, List.flatten_cons, List.length_append, ih _ (fun i x => h (i + 1) x), h, List.length_cons,
      Nat.succ_mul, Nat.add_comm]

/-- The record of `PROC.F1` has one entry of six words for every mux entry (30_encoding.md R71). -/
theorem f1Record_length (d : PucchDesc) (s : State) (mux : List Word) :
    (f1Record d s mux).length = 3 + 6 * mux.length := by
  simp only [f1Record, List.length_cons]
  rw [length_flatten_mapIdx_const _ 6 (fun e w => rfl)]
  omega

theorem wordsAt_length (rd : Nat → Byte) (a n : Nat) : (wordsAt rd a n).length = n := by simp [wordsAt]

theorem muxList_length (rd : Nat → Byte) (d : PucchDesc) : (muxList rd d).length = d.bufLen.toNat := wordsAt_length ..

theorem seenMux_length (d : PucchDesc) (s : State) : (seenMux d s).length = d.bufLen.toNat := muxList_length ..

/-- Eight of every twelve subcarriers carry Format 2 data (45_format234.md R113). -/
theorem f2_data_per_prb (n : Nat) : ((List.range (12 * n)).filter (fun k => !f2IsDmrs (k % 12))).length = 8 * n := by
  induction n with
  | zero => rfl
  | succ n ih =>
    have h : List.range (12 * (n + 1)) = List.range (12 * n) ++ (List.range 12).map (12 * n + ·) := by
      rw [show 12 * (n + 1) = 12 * n + 12 by omega, List.range_add]
    rw [h, List.filter_append, List.length_append, ih, List.filter_map, List.length_map]
    have : ((fun k => !f2IsDmrs (k % 12)) ∘ (12 * n + ·)) = fun k => !f2IsDmrs (k % 12) := by
      funext k
      simp [Function.comp]
    rw [this, show ((List.range 12).filter (fun k => !f2IsDmrs (k % 12))).length = 8 from by decide]
    omega

theorem f2Stream_length (d : PucchDesc) (s : State) (ch : Chest) :
    (f2Stream d s ch).length = 8 * d.nofPrb.toNat * nofSym d := by
  simp only [f2Stream, List.length_map, f2DataRes]
  rw [length_flatMap_const _ (8 * d.nofPrb.toNat) (fun i => by simp [f2_data_per_prb])]
  simp [Nat.mul_comm]

theorem f34Deprecoded_length (tol : Rat) (b : List EqIdeal) : (f34Deprecoded tol b).length = b.length := by
  simp [f34Deprecoded]

theorem f3Stream_length (d : PucchDesc) (s : State) (ch : Chest) :
    (f3Stream d s ch).length = (f34Data d).length * (12 * d.nofPrb.toNat) := by
  simp only [f3Stream]
  exact length_flatMap_const _ _ (fun i => by simp [f34Deprecoded_length, f34Block]) _

theorem f4Stream_length (d : PucchDesc) (s : State) (ch : Chest) :
    (f4Stream d s ch).length = (f34Data d).length * (12 / occLen d) := by
  simp only [f4Stream]
  exact length_flatMap_const _ _ (fun i => by simp [despread]) _

theorem llrs_length (tol : Rat) (qm : Nat) (st : List StreamSym) :
    (llrs tol qm st).length = st.length * (if qm = 1 then 1 else 2) := by
  unfold llrs
  split
  · exact length_flatten_mapIdx_const _ 1 (fun i x => by cases x <;> rfl) _
  · exact length_flatMap_const _ 2 (fun x => by cases x <;> rfl) _

theorem llrBytes_length (d : PucchDesc) (s : State) (qm : Nat) (st : List StreamSym) :
    (llrBytes d s qm st).length = st.length * (if qm = 1 then 1 else 2) := by
  simp [llrBytes, llrs_length]

/-- A demodulator writes as many LLR bytes as the table says (45_format234.md R124). -/
theorem llrBytes_length_f2 (d : PucchDesc) (s : State) (ch : Chest) :
    (llrBytes d s 2 (f2Stream d s ch)).length = llrCount .f2 d := by
  rw [llrBytes_length, f2Stream_length]
  simp only [llrCount, if_neg (show ¬ (2 = 1) by decide)]
  rw [Nat.mul_comm _ 2, ← Nat.mul_assoc, ← Nat.mul_assoc]

theorem qmOf_mul (f : Fmt) (d : PucchDesc) : (if qmOf f d = 1 then 1 else 2) = qmOf f d := by
  cases f <;> simp only [qmOf] <;> (try split) <;> rfl

theorem llrBytes_length_f3 (d : PucchDesc) (s : State) (ch : Chest) :
    (llrBytes d s (qmOf .f3 d) (f3Stream d s ch)).length = llrCount .f3 d := by
  rw [llrBytes_length, f3Stream_length, qmOf_mul]
  simp only [llrCount, f34Data]
  ring

theorem llrBytes_length_f4 (d : PucchDesc) (s : State) (ch : Chest) :
    (llrBytes d s (qmOf .f4 d) (f4Stream d s ch)).length = llrCount .f4 d := by
  rw [llrBytes_length, f4Stream_length, qmOf_mul]
  simp only [llrCount, f34Data]
  ring

/-! ## What the checks ensure -/

/-- A list of checks passes iff each does. -/
theorem firstFail_none (l : List (Bool × FaultCode)) : firstFail l = none ↔ ∀ e ∈ l, e.1 = false := by
  induction l with
  | nil => simp [firstFail]
  | cons e l ih =>
    obtain ⟨b, c⟩ := e
    cases b <;> simp [firstFail, ih]

/-- Stage B passes iff none of its checks fails (46_dispatcher_pool.md R137). -/
theorem stageB_none (f : Fmt) (d : PucchDesc) (s : State) :
    stageB f d s = none ↔ failB1 d = false ∧ failB2 f d = false ∧ failB3 f d = false ∧ failB4 s.params d = false ∧
      failB5 f d = false ∧ failB6 f s.params d = false ∧ failB7 f d = false ∧ failB8 f s.params d = false ∧
      failB9 f (seenByte s s.cur.caller) d = false ∧ failB10 f d = false ∧ failB11 f s.params d = false ∧
          failB12 f d = false := by
  unfold stageB
  rw [firstFail_none]
  simp

/-! ## The states in which commands end -/

/-- The state in which a command ends: `PROC.F1` and `VAL.F1` latch their mux list (20_memory.md R46). -/
def latched (i : Instr) (s : State) : State :=
  match i with
  | .procF1 d => latchMux d s
  | .valF1 d => latchSnapMux d s
  | _ => s

/-- Latching a mux list changes nothing that another part of the machine reads. -/
structure LatchedFrom (s t : State) : Prop where
  params    : t.params = s.params
  bstate    : t.bstate = s.bstate
  faultInfo : t.faultInfo = s.faultInfo
  faultAddr : t.faultAddr = s.faultAddr
  faultSrc  : t.faultSrc = s.faultSrc
  dmem      : t.dmem = s.dmem
  grid      : t.grid = s.grid
  chest     : t.chest = s.chest
  sched     : t.sched = s.sched
  cur       : t.cur = s.cur
  draws     : t.draws = s.draws
  hostData  : t.hostData = s.hostData
  nports    : t.ports.length = s.ports.length
  ninsts    : t.insts.length = s.insts.length
  port      : ∀ c, ∃ mux, getPort t c = { getPort s c with snap := ⟨(getPort s c).snap.words, mux⟩ }
  otherPort : ∀ c, c ≠ s.cur.caller → getPort t c = getPort s c
  inst      : ∀ k, ∃ mux, getInst t k = { getInst s k with op := ⟨(getInst s k).op.words, mux⟩ }
  otherInst : ∀ k, s.cur.inst ≠ some k → getInst t k = getInst s k

theorem LatchedFrom.refl (s : State) : LatchedFrom s s := by
  constructor <;> intros <;> first | rfl | exact ⟨_, rfl⟩

theorem latchMux_from (d : PucchDesc) (s : State) : LatchedFrom s (latchMux d s) := by
  unfold latchMux
  split
  swap
  · exact LatchedFrom.refl s
  split
  swap
  · exact LatchedFrom.refl s
  rename_i k hk
  constructor <;> try rfl
  · simp
  · intro c
    exact ⟨_, rfl⟩
  · intro c _
    rfl
  · intro k'
    rw [getInst_setInst]
    by_cases h : k' = k ∧ k < s.insts.length
    · rw [if_pos h, h.1]
      exact ⟨_, rfl⟩
    · rw [if_neg h]
      exact ⟨_, rfl⟩
  · intro k' hne
    rw [getInst_setInst, if_neg]
    rintro ⟨rfl, _⟩
    exact hne hk

theorem latchSnapMux_from (d : PucchDesc) (s : State) : LatchedFrom s (latchSnapMux d s) := by
  unfold latchSnapMux
  split
  swap
  · exact LatchedFrom.refl s
  constructor <;> try rfl
  · simp
  · intro c
    rw [getPort_setPort]
    by_cases h : c = s.cur.caller ∧ s.cur.caller < s.ports.length
    · rw [if_pos h, h.1]
      exact ⟨_, rfl⟩
    · rw [if_neg h]
      exact ⟨_, rfl⟩
  · intro c hne
    rw [getPort_setPort, if_neg]
    rintro ⟨h, _⟩
    exact hne h
  · intro k
    exact ⟨_, rfl⟩
  · intro k _
    rfl

theorem latched_from (i : Instr) (s : State) : LatchedFrom s (latched i s) := by
  cases i <;> first | exact LatchedFrom.refl s | exact latchMux_from _ s | exact latchSnapMux_from _ s

/-! ## Every command -/

/-- The outputs of a command: the record at its result address, at least a header long, and every string an output
region of the command; all of it in DMEM where the record's first word (of a validator: the record) is. -/
structure GoodWrites (i : Instr) (size : Nat) (ws : List (Nat × List Byte)) : Prop where
  within  : WritesWithin ws (outRegions i)
  places  : ws.map (fun o => (⟨o.1, o.2.length⟩ : Region)) = outRegions i
  header  : ∀ a bs rest, ws = (a, bs) :: rest → 4 ≤ bs.length
  inRange : (instrResAddr i).toNat + (if opcodeIsVal (instrOpcode i) then 8 else 4) ≤ size →
    outsInRange size ws = true

theorem GoodWrites.of_places {i : Instr} {size : Nat} {ws : List (Nat × List Byte)}
    (places : ws.map (fun o => (⟨o.1, o.2.length⟩ : Region)) = outRegions i)
    (header : ∀ a bs rest, ws = (a, bs) :: rest → 4 ≤ bs.length)
    (inRange : (instrResAddr i).toNat + (if opcodeIsVal (instrOpcode i) then 8 else 4) ≤ size →
      ∀ r ∈ outRegions i, r.addr + r.len ≤ size) : GoodWrites i size ws := by
  refine ⟨fun o ho => ?_, places, header, fun h => ?_⟩
  · rw [← places]
    exact List.mem_map.2 ⟨o, ho, rfl⟩
  · rw [outsInRange, List.all_eq_true]
    intro o ho
    exact decide_eq_true (inRange h ⟨o.1, o.2.length⟩ (places ▸ List.mem_map.2 ⟨o, ho, rfl⟩))

/-- What a command does: a check fails and it raises the fault, or it ends with its outputs
(46_dispatcher_pool.md R132, R138). -/
inductive ExecCase (i : Instr) (s : State) : Result → Prop
  | trap (code : FaultCode) (notVal : opcodeIsVal (instrOpcode i) = false) :
      ExecCase i s (raiseFault i code (latched i s))
  | done (ws : List (Nat × List Byte)) (good : GoodWrites i s.params.dmemSize ws) :
      ExecCase i s (finish (footprint s.cur.desc i) ws (latched i s))

/-- The record and the buffers of a command that passes its checks, as good writes. -/
theorem doneWrites_good (i : Instr) (size : Nat) (body : List Word) (buffers : List (Nat × List Byte))
    (places : (⟨(instrResAddr i).toNat, 4 * (body.length + 1)⟩ : Region) ::
      buffers.map (fun o => ⟨o.1, o.2.length⟩) = outRegions i)
    (inRange : (instrResAddr i).toNat + (if opcodeIsVal (instrOpcode i) then 8 else 4) ≤ size →
      ∀ r ∈ outRegions i, r.addr + r.len ≤ size) :
    GoodWrites i size (((instrResAddr i).toNat, bytesOfWords (instrHeader i rsDone :: body)) :: buffers) := by
  refine GoodWrites.of_places ?_ (fun a bs rest h => ?_) inRange
  · rw [← places, List.map_cons]
    simp only [bytesOfWords_length, List.length_cons]
  · simp only [List.cons.injEq, Prod.mk.injEq] at h
    obtain ⟨⟨-, rfl⟩, -⟩ := h
    simp only [bytesOfWords_length, List.length_cons]
    omega

theorem inb_iff (size a n : Nat) : inb size a n = true ↔ a + n ≤ size := by simp [inb]

/-- `PROC.F0` (43_format0.md R97). -/
theorem execProcF0_case (d : PucchDesc) (s : State) : ExecCase (.procF0 d) s (execProcF0 d s) := by
  unfold execProcF0
  split
  · exact .trap _ rfl
  · rename_i h
    obtain ⟨-, -, -, -, -, -, -, h8, -⟩ := (stageB_none _ _ _).1 h
    refine .done _ (doneWrites_good (.procF0 d) _ _ [] rfl (fun _ r hr => ?_))
    simp only [failB8, Bool.or_eq_false_iff, Bool.not_eq_false', inb_iff, procRecordSize] at h8
    simp only [outRegions, procBuffers, List.mem_singleton] at hr
    subst hr
    exact h8.1

/-- `PROC.F1` (44_format1.md R110). -/
theorem execProcF1_case (d : PucchDesc) (s : State) : ExecCase (.procF1 d) s (execProcF1 d s) := by
  unfold execProcF1
  split
  · exact .trap _ rfl
  · rename_i h
    obtain ⟨-, -, -, -, -, -, -, h8, -⟩ := (stageB_none _ _ _).1 h
    have hc : (latchMux d s).cur = s.cur := (latchMux_from d s).cur
    have he : finishDone (.procF1 d) (f1Record d s (seenMux d s)) [] (latchMux d s) =
        finish (footprint s.cur.desc (.procF1 d))
          (((instrResAddr (.procF1 d)).toNat, bytesOfWords (instrHeader (.procF1 d) rsDone ::
            f1Record d s (seenMux d s))) :: []) (latchMux d s) := by
      rw [finishDone, hc]
    rw [he]
    refine .done _ (doneWrites_good (.procF1 d) _ _ [] ?_ (fun _ r hr => ?_))
    · rw [f1Record_length, seenMux_length]
      simp only [outRegions, procBuffers, procRecordSize, List.map_nil, instrResAddr]
      congr 2
      omega
    · simp only [failB8, Bool.or_eq_false_iff, Bool.not_eq_false', inb_iff, procRecordSize] at h8
      simp only [outRegions, procBuffers, List.mem_singleton] at hr
      subst hr
      exact h8.1

/-- The end of a demodulator that passes stage B (45_format234.md R126 to R128). -/
theorem demod_good (f : Fmt) (hf : f = .f2 ∨ f = .f3 ∨ f = .f4) (i : Instr) (d : PucchDesc) (s : State)
    (hres : instrResAddr i = d.resAddr)
    (ho : outRegions i = [⟨d.resAddr.toNat, 28⟩, ⟨d.bufAddr.toNat, d.bufLen.toNat⟩])
    (h : stageB f d s = none) (ch : Chest) (bs : List Byte) (hbs : bs.length = llrCount f d) :
    GoodWrites i s.params.dmemSize
      (((instrResAddr i).toNat, bytesOfWords (instrHeader i rsDone :: csiRecord (llrCount f d) ch)) ::
        [(d.bufAddr.toNat, bs)]) := by
  obtain ⟨-, -, -, -, -, -, -, h8, -, -, -, h12⟩ := (stageB_none _ _ _).1 h
  have hlen : d.bufLen.toNat = llrCount f d := by
    rcases hf with rfl | rfl | rfl <;> simpa [failB12] using h12
  have hr : d.resAddr.toNat + 28 ≤ s.params.dmemSize ∧ d.bufAddr.toNat + d.bufLen.toNat ≤ s.params.dmemSize := by
    rcases hf with rfl | rfl | rfl <;>
      simpa [failB8, inb_iff, procRecordSize] using h8
  refine doneWrites_good i _ _ _ ?_ (fun _ r hmem => ?_)
  · rw [ho, hres, hlen, List.map_singleton, hbs]
    rfl
  · rw [ho] at hmem
    simp only [List.mem_cons, List.not_mem_nil, or_false] at hmem
    rcases hmem with rfl | rfl
    · exact hr.1
    · exact hr.2

/-- `PROC.F2` (45_format234.md R126). -/
theorem execProcF2_case (d : PucchDesc) (s : State) : ExecCase (.procF2 d) s (execProcF2 d s) := by
  unfold execProcF2
  split
  · exact .trap _ rfl
  · rename_i h
    exact .done _ (demod_good .f2 (.inl rfl) (.procF2 d) d s rfl rfl h _ _ (llrBytes_length_f2 ..))

/-- `PROC.F3` (45_format234.md R127). -/
theorem execProcF3_case (d : PucchDesc) (s : State) : ExecCase (.procF3 d) s (execProcF3 d s) := by
  unfold execProcF3
  split
  · exact .trap _ rfl
  · rename_i h
    exact .done _ (demod_good .f3 (.inr (.inl rfl)) (.procF3 d) d s rfl rfl h _ _ (llrBytes_length_f3 ..))

/-- `PROC.F4` (45_format234.md R128). -/
theorem execProcF4_case (d : PucchDesc) (s : State) : ExecCase (.procF4 d) s (execProcF4 d s) := by
  unfold execProcF4
  split
  · exact .trap _ rfl
  · rename_i h
    exact .done _ (demod_good .f4 (.inr (.inr rfl)) (.procF4 d) d s rfl rfl h _ _ (llrBytes_length_f4 ..))

/-- A validator's outputs (30_encoding.md R73). -/
theorem validate_good (i : Instr) (d : PucchDesc) (size : Nat) (hres : instrResAddr i = d.resAddr)
    (hv : opcodeIsVal (instrOpcode i) = true) (ho : outRegions i = [⟨d.resAddr.toNat, 8⟩]) (r : Option FaultCode) :
    GoodWrites i size [((instrResAddr i).toNat, bytesOfWords (valRecord i r))] := by
  have hl : (bytesOfWords (valRecord i r)).length = 8 := by cases r <;> simp [valRecord]
  refine GoodWrites.of_places ?_ (fun a bs rest h => ?_) (fun hsz r hr => ?_)
  · rw [ho, List.map_singleton, hl, hres]
  · simp only [List.cons.injEq, Prod.mk.injEq] at h
    obtain ⟨⟨-, rfl⟩, -⟩ := h
    omega
  · rw [ho] at hr
    simp only [List.mem_singleton] at hr
    subst hr
    rw [hv, if_pos rfl, hres] at hsz
    exact hsz

/-- `VAL.F0` to `VAL.F4` (46_dispatcher_pool.md R138 to R143). -/
theorem execVal_case (f : Fmt) (d : PucchDesc) (s : State) : ExecCase (valInstr f d) s (exec (valInstr f d) s) := by
  cases f with
  | f1 =>
    show ExecCase (.valF1 d) s (validate .f1 (.valF1 d) d (latchSnapMux d s))
    have hc : (latchSnapMux d s).cur = s.cur := (latchSnapMux_from d s).cur
    rw [validate, hc]
    exact .done _ (validate_good (.valF1 d) d _ rfl rfl rfl _)
  | f0 => exact .done _ (validate_good (.valF0 d) d _ rfl rfl rfl _)
  | f2 => exact .done _ (validate_good (.valF2 d) d _ rfl rfl rfl _)
  | f3 => exact .done _ (validate_good (.valF3 d) d _ rfl rfl rfl _)
  | f4 => exact .done _ (validate_good (.valF4 d) d _ rfl rfl rfl _)

/-- `DEPRECODE.SYM` (41_transform_precoder.md R81). -/
theorem execDeprecodeSym_case (d : DeprecodeDesc) (s : State) :
    ExecCase (.deprecodeSym d) s (execDeprecodeSym d s) := by
  unfold execDeprecodeSym
  split
  · exact .trap _ rfl
  · rename_i h
    simp only [checkDeprecodeSym, firstFail_none, List.mem_cons, List.not_mem_nil, or_false, forall_eq_or_imp,
      forall_eq, Bool.not_eq_false', Bool.and_eq_true, inb_iff, bne_eq_false_iff_eq] at h
    obtain ⟨-, ⟨-, hout⟩, hlen, -⟩ := h
    refine .done _ (doneWrites_good (.deprecodeSym d) _ [] _ ?_ (fun hsz r hr => ?_))
    · rw [List.map_singleton, flatMap_c64Bytes_length]
      simp [deprecodeSymbols, memC64s, outRegions, instrResAddr, hlen]
    · simp only [outRegions, List.mem_cons, List.not_mem_nil, or_false] at hr
      rcases hr with rfl | rfl
      · exact hsz
      · exact hout

/-- `DEPRECODE.NOISE` (41_transform_precoder.md R82). -/
theorem execDeprecodeNoise_case (d : DeprecodeDesc) (s : State) :
    ExecCase (.deprecodeNoise d) s (execDeprecodeNoise d s) := by
  unfold execDeprecodeNoise
  split
  · exact .trap _ rfl
  · rename_i h
    simp only [checkDeprecodeNoise, firstFail_none, List.mem_cons, List.not_mem_nil, or_false, forall_eq_or_imp,
      forall_eq, Bool.not_eq_false', Bool.and_eq_true, inb_iff, bne_eq_false_iff_eq] at h
    obtain ⟨-, ⟨-, hout⟩, hlen⟩ := h
    refine .done _ (doneWrites_good (.deprecodeNoise d) _ [] _ ?_ (fun hsz r hr => ?_))
    · rw [List.map_singleton, bytesOfWords_length]
      simp [deprecodeNoise, memWords, wordsAt_length, outRegions, instrResAddr, hlen]
    · simp only [outRegions, List.mem_cons, List.not_mem_nil, or_false] at hr
      rcases hr with rfl | rfl
      · exact hsz
      · exact hout

/-- `EQUALIZE` (42_equalizer.md R88). -/
theorem execEqualize_case (d : EqualizeDesc) (s : State) : ExecCase (.equalize d) s (execEqualize d s) := by
  unfold execEqualize
  split
  · exact .trap _ rfl
  · rename_i h
    simp only [checkEqualize, firstFail_none, List.mem_cons, List.not_mem_nil, or_false, forall_eq_or_imp, forall_eq,
      Bool.not_eq_false', Bool.and_eq_true, inb_iff, decide_eq_false_iff_not, not_not] at h
    obtain ⟨-, -, hl, -, -, hr⟩ := h
    refine .done _ (doneWrites_good (.equalize d) _ [] _ ?_ (fun hsz r hmem => ?_))
    · rw [List.map_cons, List.map_singleton, flatMap_c64Bytes_length, bytesOfWords_length]
      simp [eqOutputs, outRegions, instrResAddr, hl]
    · simp only [outRegions, List.mem_cons, List.not_mem_nil, or_false] at hmem
      rcases hmem with rfl | rfl | rfl
      · exact hsz
      · exact hr.1.2
      · exact hr.2

/-- What any command does. -/
theorem exec_case (i : Instr) (s : State) : ExecCase i s (exec i s) := by
  cases i with
  | procF0 d => exact execProcF0_case d s
  | procF1 d => exact execProcF1_case d s
  | procF2 d => exact execProcF2_case d s
  | procF3 d => exact execProcF3_case d s
  | procF4 d => exact execProcF4_case d s
  | valF0 d => exact execVal_case .f0 d s
  | valF1 d => exact execVal_case .f1 d s
  | valF2 d => exact execVal_case .f2 d s
  | valF3 d => exact execVal_case .f3 d s
  | valF4 d => exact execVal_case .f4 d s
  | deprecodeSym d => exact execDeprecodeSym_case d s
  | deprecodeNoise d => exact execDeprecodeNoise_case d s
  | equalize d => exact execEqualize_case d s

end Sys2Proof.Machine
end

