-- ==== Sys2Proof/Laws/Complete.lean ====
section
/-! SUPPORT. The lemmas that carry a statement about a completed command from its outputs to the record's words, and
what stage A ensures of a call that passes it. -/

namespace Sys2Proof.Machine

/-! ## Stage A -/

/-- A call that passes stage A: its descriptor and its result header lie in DMEM, and its words hold its command
(46_dispatcher_pool.md R130). -/
theorem stageA_pass {size : Nat} {rd : Nat → Byte} {d : Word} {ws : List Word} {i : Instr}
    (h : stageA size rd d = .pass ws i) :
    al4 d = true ∧ d.toNat + 4 * opcodeWords (instrOpcode i) ≤ size ∧
      ws = wordsAt rd d.toNat (opcodeWords (instrOpcode i)) ∧ decode ws = .ok i ∧
      (instrResAddr i).toNat + (if opcodeIsVal (instrOpcode i) then 8 else 4) ≤ size ∧
      (instrResAddr i).toNat % 4 = 0 := by
  unfold stageA at h
  simp only at h
  have gen : ∀ o, ∃ n, n = (if opcodeIsVal o then 8 else 4) := fun o => ⟨_, rfl⟩
  split at h
  · cases h
  rename_i h1
  split at h
  · cases h
  split at h
  · cases h
  rename_i o ho
  split at h
  · cases h
  rename_i h3
  split at h
  · cases h
  rename_i h4
  obtain ⟨n, hn⟩ := gen o
  rw [← hn] at h
  split at h
  · cases h
  rename_i h5
  split at h
  · cases h
  rename_i h6
  split at h
  swap
  · cases h
  rename_i j hj
  injection h with hw hi
  subst hi
  have key : instrOpcode j = o ∧ instrResAddr j = (wordsAt rd d.toNat (opcodeWords o)).getD 1 0#32 := by
    cases o <;> simp [opcodeWords, wordsAt, List.range_succ, commandOfWords] at hj <;> subst hj <;>
      exact ⟨rfl, by simp [opcodeWords, wordsAt, List.range_succ, instrResAddr, pucchOfWords, deprecodeOfWords,
        equalizeOfWords]⟩
  obtain ⟨k1, k2⟩ := key
  subst k1
  refine ⟨by simpa using h1, by simpa [inb_iff] using h4, hw.symm, ?_, ?_, ?_⟩
  · rw [← hw]
    have hcons : ∃ rest, wordsAt rd d.toNat (opcodeWords (instrOpcode j)) = wordAt rd d.toNat :: rest := by
      cases instrOpcode j <;> simp [opcodeWords, wordsAt, List.range_succ]
    obtain ⟨rest, hcons⟩ := hcons
    unfold decode
    rw [hcons] at hj ⊢
    simp only [ho, hj]
    rw [if_pos (by simpa using h3)]
  · rw [k2, ← hn]
    simpa [inb_iff] using h6
  · rw [k2]
    simpa [al4] using h5

/-! ## Latching a mux list shows in nothing that a command reads -/

theorem latched_call (i : Instr) (s : State) (c : Nat) :
    (getPort (latched i s) c).call = (getPort s c).call ∧
      (getPort (latched i s) c).callAddr = (getPort s c).callAddr ∧
      (getPort (latched i s) c).snap.words = (getPort s c).snap.words ∧
      (getPort (latched i s) c).disturb = (getPort s c).disturb := by
  obtain ⟨m, h⟩ := (latched_from i s).port c
  rw [h]
  exact ⟨rfl, rfl, rfl, rfl⟩

theorem latched_callOuts (i : Instr) (s : State) (c : Nat) :
    callOuts (latched i s) (getPort (latched i s) c) = callOuts s (getPort s c) := by
  have hl := latched_from i s
  obtain ⟨hcall, -, hsnap, -⟩ := latched_call i s c
  have hinstr : callInstr (latched i s) (getPort (latched i s) c) = callInstr s (getPort s c) := by
    unfold callInstr
    rw [hcall, hsnap, hl.dmem, hl.params]
    cases (getPort s c).call with
    | running d k =>
      obtain ⟨m', hi⟩ := hl.inst k
      show (decode (getInst (latched i s) k).op.words).toOption = _
      rw [hi]
    | _ => rfl
  unfold callOuts
  rw [hinstr]

theorem latched_outs (i : Instr) (s : State) (c : Nat) :
    otherBusyOuts (latched i s) c = otherBusyOuts s c := by
  unfold otherBusyOuts
  rw [(latched_from i s).nports]
  simp only [latched_callOuts]

theorem latched_foreign (i : Instr) (s : State) (c : Nat) : foreignOuts (latched i s) c = foreignOuts s c := by
  unfold foreignOuts
  rw [latched_outs, (latched_call i s c).2.2.2]

theorem latched_taint (i : Instr) (s : State) (f : Footprint) : ownTaint f (latched i s) = ownTaint f s := by
  unfold ownTaint
  dsimp only
  rw [(latched_from i s).cur, latched_foreign, (latched_call i s s.cur.caller).2.2.2]

theorem SameSurroundings.of_latched {i : Instr} {s t : State} (h : SameSurroundings (latched i s) t) :
    SameSurroundings s t := by
  have hl := latched_from i s
  exact ⟨h.params.trans hl.params, h.grid.trans hl.grid, h.chest.trans hl.chest, h.sched.trans hl.sched,
    h.cur.trans hl.cur, h.hostData.trans hl.hostData⟩

theorem Completed.of_latched {i : Instr} {s t : State} {outs : List Region} (h : Completed outs (latched i s) t) :
    Completed outs s t := by
  have hl := latched_from i s
  have hcur := hl.cur
  have hcall := fun c' => (latched_call i s c').1
  constructor
  case idle =>
    have := h.idle
    rwa [hcur] at this
  case released =>
    have := h.released
    rw [hcur, hcall] at this
    exact this
  case bytes => exact fun a ha => by rw [h.bytes a ha, hl.dmem]
  case bstate => exact h.bstate.trans hl.bstate
  case faultInfo => exact h.faultInfo.trans hl.faultInfo
  case faultAddr => exact h.faultAddr.trans hl.faultAddr
  case faultSrc => exact h.faultSrc.trans hl.faultSrc
  case around => exact h.around.of_latched
  case calls =>
    obtain ⟨h1, h2, h3⟩ := h.calls
    refine ⟨h1.trans hl.nports, fun c' => (h2 c').trans (latched_call i s c').2.1, fun c' hne => ?_⟩
    have := h3 c' (by rw [hcur]; exact hne)
    rw [hl.otherPort c' hne] at this
    exact this
  case instances =>
    obtain ⟨h1, h2⟩ := h.instances
    refine ⟨h1.trans hl.ninsts, fun k hk1 hk2 => ?_⟩
    rw [h2 k (by rw [hcur, hcall]; exact hk1) (by rw [hcur]; exact hk2)]
    exact hl.otherInst k hk2

/-! ## Completion -/

/-- A command that ends with good writes completes; undisturbed its outputs come out as they are, and its header does
unless it writes over a region of its own or of another call (20_memory.md R48 to R50). -/
theorem completes {i : Instr} {s : State} {ws : List (Nat × List Byte)} (hc : CallerExists s)
    (hwf : Memory.wf s.dmem = true) (g : GoodWrites i s.params.dmemSize ws)
    (hsz : (instrResAddr i).toNat + (if opcodeIsVal (instrOpcode i) then 8 else 4) ≤ s.params.dmemSize) :
    ∃ t, finish (footprint s.cur.desc i) ws (latched i s) = .next t ∧
      Completed (outRegions i) s t ∧
      (HeaderStands i s → ∃ tt, tt ≠ .outputs ∧ t.dmem = writeAll s.dmem (taintedOuts tt s.draws ws) ∧
        selfOverlap (ws.map (fun o => (⟨o.1, o.2.length⟩ : Region))) = false) ∧
      (Undisturbed i s → t.dmem = writeAll s.dmem ws ∧
        selfOverlap (ws.map (fun o => (⟨o.1, o.2.length⟩ : Region))) = false) := by
  have hl := latched_from i s
  obtain ⟨t, h1, h2, h3⟩ := finish_completed (footprint s.cur.desc i) ws (latched i s)
    (by rw [hl.dmem]; exact hwf) (by unfold CallerExists; rw [hl.cur, hl.nports]; exact hc) g.within g.header
    (by rw [hl.params]; exact g.inRange hsz)
  rw [latched_taint, hl.dmem, hl.draws] at h3
  have apart : HeaderStands i s → selfOverlap (ws.map (fun o => (⟨o.1, o.2.length⟩ : Region))) = false := by
    intro hu
    rw [g.places]
    by_contra hne
    have hne : selfOverlap (outRegions i) = true := by simpa using hne
    apply hu
    simp [ownTaint, outputsHit, footprint, hne]
  refine ⟨t, h1, h2.of_latched, fun hu => ⟨_, hu, h3, apart hu⟩, fun hu => ?_⟩
  have hu' : ownTaint (footprint s.cur.desc i) s = .clean := hu
  rw [hu', taintedOuts_clean] at h3
  exact ⟨h3, apart (by unfold HeaderStands; rw [hu']; decide)⟩

/-- Word `n` of the record that a command wrote. -/
theorem record_word {i : Instr} {s t : State} {hdr : Word} {body : List Word} {bufs : List (Nat × List Byte)}
    (hwf : Memory.wf s.dmem = true)
    (h : t.dmem = writeAll s.dmem (((instrResAddr i).toNat, bytesOfWords (hdr :: body)) :: bufs))
    (hd : selfOverlap ((((instrResAddr i).toNat, bytesOfWords (hdr :: body)) :: bufs).map
      (fun o => (⟨o.1, o.2.length⟩ : Region))) = false)
    (n : Nat) (hn : n < body.length + 1) : recordWord t (instrResAddr i) n = (hdr :: body).getD n 0#32 := by
  unfold recordWord
  rw [h]
  exact memWord_writeAll_of_apart hwf _ hd _ _ (List.mem_cons_self ..) n (by simpa using hn)

/-- The header of the record that a command wrote, where no region of its own or of another call overlaps its outputs. -/
theorem record_header {i : Instr} {s t : State} {tt : Taint} {ep : Nat} {hdr : Word} {body : List Word}
    {bufs : List (Nat × List Byte)} (hwf : Memory.wf s.dmem = true) (htt : tt ≠ .outputs)
    (h : t.dmem = writeAll s.dmem (taintedOuts tt ep (((instrResAddr i).toNat, bytesOfWords (hdr :: body)) :: bufs)))
    (hd : selfOverlap ((((instrResAddr i).toNat, bytesOfWords (hdr :: body)) :: bufs).map
      (fun o => (⟨o.1, o.2.length⟩ : Region))) = false) : recordWord t (instrResAddr i) 0 = hdr := by
  cases tt with
  | outputs => exact absurd rfl htt
  | clean =>
    rw [taintedOuts_clean] at h
    exact record_word hwf h hd 0 (by simp)
  | inputs =>
    have hp := taintedOuts_places .inputs ep (((instrResAddr i).toNat, bytesOfWords (hdr :: body)) :: bufs)
      (by rintro a bs rest e; cases e; simp)
    have hp' : (taintedOuts .inputs ep (((instrResAddr i).toNat, bytesOfWords (hdr :: body)) :: bufs)).map
        (fun o => (⟨o.1, o.2.length⟩ : Region)) =
        (((instrResAddr i).toNat, bytesOfWords (hdr :: body)) :: bufs).map (fun o => (⟨o.1, o.2.length⟩ : Region)) := by
      have := congrArg (List.map (fun q : Nat × Nat => (⟨q.1, q.2⟩ : Region))) hp
      simpa only [List.map_map, Function.comp_def] using this
    have hb : taintedBytes .inputs ep true (instrResAddr i).toNat (bytesOfWords (hdr :: body)) =
        wordBytes hdr ++ freeBytes ep .outByte ((instrResAddr i).toNat + 4) (4 * body.length) := by
      have e : (bytesOfWords (hdr :: body)).take 4 = wordBytes hdr := by
        rw [bytesOfWords_cons, List.take_append_of_le_length (by simp)]
        rfl
      simp only [taintedBytes, e, bytesOfWords_length, List.length_cons, if_true]
      congr 2
    have byte : ∀ j, j < 4 → memByte t.dmem ((instrResAddr i).toNat + j) = (wordBytes hdr).getD j 0#8 := by
      intro j hj
      rw [h]
      rw [memByte_writeAll_of_apart hwf _ (by rw [hp']; exact hd)
        ((instrResAddr i).toNat, taintedBytes .inputs ep true (instrResAddr i).toNat (bytesOfWords (hdr :: body)))
        (by simp [taintedOuts]) _ (by rw [hb]; simp; omega), hb]
      rw [Nat.add_sub_cancel_left, List.getD_append _ _ _ _ (by simpa using hj)]
    have b0 := byte 0 (by omega)
    rw [Nat.add_zero] at b0
    unfold recordWord memWord wordAt
    rw [Nat.mul_zero, Nat.add_zero, b0, byte 1 (by omega), byte 2 (by omega), byte 3 (by omega)]
    exact bytesWord_wordBytes hdr

/-- A pair of words for each complex value. -/
theorem flatMap_c64Bytes_words (zs : List C64) :
    zs.flatMap c64Bytes = bytesOfWords (zs.flatMap (fun z => [z.re, z.im])) := by
  induction zs with
  | nil => rfl
  | cons z zs ih =>
    simp only [List.flatMap_cons, ih, c64Bytes]
    simp

/-- Complex value `i` of a buffer that a command wrote. -/
theorem memC64_writeAll {m : Memory} (h : Memory.wf m = true) (outs : List (Nat × List Byte))
    (hd : selfOverlap (outs.map (fun o => ⟨o.1, o.2.length⟩)) = false) (a : Nat) (zs : List C64)
    (ho : (a, zs.flatMap c64Bytes) ∈ outs) (i : Nat) (hi : i < zs.length) :
    memC64 (writeAll m outs) (a + 8 * i) = zs.getD i ⟨0#32, 0#32⟩ := by
  rw [flatMap_c64Bytes_words] at ho
  have hl : (zs.flatMap (fun z => [z.re, z.im])).length = 2 * zs.length := by
    clear ho hi
    induction zs with
    | nil => rfl
    | cons z zs ih =>
      simp only [List.flatMap_cons, List.length_append, ih]
      simp
      omega
  have w0 := memWord_writeAll_of_apart h outs hd a _ ho (2 * i) (by omega)
  have w1 := memWord_writeAll_of_apart h outs hd a _ ho (2 * i + 1) (by omega)
  have g : ∀ (zs : List C64) i, i < zs.length →
      (zs.flatMap (fun z => [z.re, z.im])).getD (2 * i) 0#32 = (zs.getD i ⟨0#32, 0#32⟩).re ∧
      (zs.flatMap (fun z => [z.re, z.im])).getD (2 * i + 1) 0#32 = (zs.getD i ⟨0#32, 0#32⟩).im := by
    intro zs
    induction zs with
    | nil => simp
    | cons z zs ih =>
      intro i hi
      cases i with
      | zero => simp
      | succ i =>
        have := ih i (by simpa using hi)
        rw [show 2 * (i + 1) = 2 * i + 1 + 1 by omega]
        simpa using this
  obtain ⟨g1, g2⟩ := g zs i hi
  unfold memC64
  rw [show a + 8 * i = a + 4 * (2 * i) by omega, w0,
    show a + 4 * (2 * i) + 4 = a + 4 * (2 * i + 1) by omega, w1, g1, g2]

/-- Stage B leaves room for the result header (46_dispatcher_pool.md R137). -/
theorem stageB_res {f : Fmt} {d : PucchDesc} {s : State} (h : stageB f d s = none) :
    d.resAddr.toNat + 4 ≤ s.params.dmemSize := by
  obtain ⟨-, -, -, -, -, -, -, h8, -⟩ := (stageB_none _ _ _).1 h
  simp only [failB8, Bool.or_eq_false_iff, Bool.not_eq_false', inb_iff] at h8
  have := h8.1
  cases f <;> simp only [procRecordSize] at this <;> omega

/-! ## Values -/

/-- The fields of a UCI word (30_encoding.md R69). -/
theorem uciWord_shape (valid nofSr sr : Bool) (q : BitVec 2) (a b : Bool) :
    UciShape (uciWord valid nofSr sr q a b) nofSr q ∧ (uciWord valid nofSr sr q a b).getLsbD 3 = sr ∧
      (uciWord valid nofSr sr q a b).getLsbD 6 = a ∧ (uciWord valid nofSr sr q a b).getLsbD 7 = b := by
  have h : ∀ valid nofSr sr a b, ∀ q : BitVec 2,
      ((uciWord valid nofSr sr q a b).extractLsb' 0 2 = 1#2 ∨ (uciWord valid nofSr sr q a b).extractLsb' 0 2 = 2#2) ∧
      (uciWord valid nofSr sr q a b).getLsbD 2 = nofSr ∧ (uciWord valid nofSr sr q a b).extractLsb' 4 2 = q ∧
      (uciWord valid nofSr sr q a b).extractLsb' 8 24 = 0#24 ∧ (uciWord valid nofSr sr q a b).getLsbD 3 = sr ∧
      (uciWord valid nofSr sr q a b).getLsbD 6 = a ∧ (uciWord valid nofSr sr q a b).getLsbD 7 = b := by
    decide +kernel
  obtain ⟨h1, h2, h3, h4, h5⟩ := h valid nofSr sr a b q
  exact ⟨⟨h1, h2, h3, h4⟩, h5⟩

/-- A list of checks and the list of the conditions they stand for. -/
theorem firstFails_cons {b : Bool} {p : Prop} {code : FaultCode} {l : List (Bool × FaultCode)}
    {l' : List (Prop × FaultCode)} (h : b = true ↔ p) (h' : FirstFails l' (firstFail l)) :
    FirstFails ((p, code) :: l') (firstFail ((b, code) :: l)) := by
  cases b with
  | true => exact ⟨fun _ => rfl, fun hn => absurd (h.1 rfl) hn⟩
  | false => exact ⟨fun hp => absurd (h.2 hp) (by simp), fun _ => h'⟩

/-- Two values of a function on `0..n-1` are equal iff its list of values has a repeat. -/
theorem hasRepeat_map {α : Type} [DecidableEq α] (f : Nat → α) (n : Nat) :
    hasRepeat ((List.range n).map f) = true ↔ ∃ i j, i < j ∧ j < n ∧ f i = f j := by
  have nodup : ∀ l : List α, hasRepeat l = true ↔ ¬ l.Nodup := by
    intro l
    induction l with
    | nil => simp [hasRepeat]
    | cons x l ih =>
      simp [hasRepeat, ih]
      tauto
  rw [nodup, List.Nodup, List.pairwise_map]
  constructor
  · intro h
    by_contra hc
    push Not at hc
    apply h
    rw [List.pairwise_iff_getElem]
    intro i j hi hj hij
    simp only [List.length_range] at hi hj
    simp only [List.getElem_range]
    exact hc i j hij hj
  · rintro ⟨i, j, hij, hj, he⟩ h
    rw [List.pairwise_iff_getElem] at h
    have := h i j (by simp; omega) (by simpa using hj) hij
    simp only [List.getElem_range] at this
    exact this he

end Sys2Proof.Machine
end

