-- ==== Sys2Proof/Laws/Values.lean ====
section
/-! SUPPORT. The machine's ideal values are those of the rules: the equalizer, the deprecoder and the demodulator over the
real and complex numbers, and the byte that an LLR comes out as. -/

namespace Sys2Proof.Machine

/-! ## Magnitudes and roots -/

theorem qcOf_complex (z : C64) : (⟨((qcOf z).re : ℝ), ((qcOf z).im : ℝ)⟩ : ℂ) = complexOf z := rfl

theorem qcAbs2_norm (z : C64) : ((qcAbs2 (qcOf z) : Rat) : ℝ) = ‖complexOf z‖ ^ 2 := by
  rw [← Complex.normSq_eq_norm_sq]
  unfold qcAbs2
  push_cast
  rfl

theorem qcAbs2_nonneg (z : QC) : 0 ≤ qcAbs2 z := add_nonneg (mul_self_nonneg _) (mul_self_nonneg _)

/-- The upper bound of a magnitude is close. -/
theorem qcAbsHi_bounds (z : C64) :
    ‖complexOf z‖ ≤ (qcAbsHi (qcOf z) : ℝ) ∧ (qcAbsHi (qcOf z) : ℝ) ≤ ‖complexOf z‖ * (1 + 1 / 2 ^ 64) := by
  obtain ⟨-, h2, h3, -⟩ := sqrt_bounds (qcAbs2_nonneg (qcOf z))
  rw [qcAbs2_norm, Real.sqrt_sq (norm_nonneg _)] at h2 h3
  exact ⟨h2, h3⟩

theorem invSqrt_encl (n : Nat) : (invSqrt n).Encl (1 / Real.sqrt n) (1 / Real.sqrt n * (1 / 2 ^ 63)) := by
  have h0 : (0 : Rat) ≤ 1 / (n : Rat) := by positivity
  obtain ⟨h1, h2, h3, h4⟩ := sqrt_bounds h0
  have e : Real.sqrt ((1 / (n : Rat) : Rat) : ℝ) = 1 / Real.sqrt n := by
    push_cast
    rw [Real.sqrt_div zero_le_one, Real.sqrt_one]
  rw [e] at h1 h2 h3 h4
  refine ⟨⟨h1, h2⟩, ?_⟩
  simp only [invSqrt]
  have : (1 : ℝ) / 2 ^ 63 = 1 / 2 ^ 64 + 1 / 2 ^ 64 := by norm_num
  rw [this]
  linarith

theorem sqrt8_encl : sqrt8.Encl (2 * Real.sqrt 2) (2 * Real.sqrt 2 * (1 / 2 ^ 63)) := by
  obtain ⟨h1, h2, h3, h4⟩ := sqrt_bounds (show (0 : Rat) ≤ 8 by norm_num)
  have e : Real.sqrt ((8 : Rat) : ℝ) = 2 * Real.sqrt 2 := by
    rw [show ((8 : Rat) : ℝ) = 2 ^ 2 * 2 by norm_num, Real.sqrt_mul (by positivity), Real.sqrt_sq (by norm_num)]
  rw [e] at h1 h2 h3 h4
  refine ⟨⟨h1, h2⟩, ?_⟩
  simp only [sqrt8]
  have : (1 : ℝ) / 2 ^ 63 = 1 / 2 ^ 64 + 1 / 2 ^ 64 := by norm_num
  rw [this]
  linarith

theorem ratSum_cast (l : List Rat) : ((ratSum l : Rat) : ℝ) = (l.map (fun x : Rat => (x : ℝ))).sum := by
  induction l with
  | nil => simp [ratSum]
  | cons x l ih =>
    rw [List.map_cons, List.sum_cons, ← ih]
    simp [ratSum]

theorem sum_map_range {β : Type} [AddCommMonoid β] (n : Nat) (f : Nat → β) :
    ((List.range n).map f).sum = ∑ k ∈ Finset.range n, f k := by
  induction n with
  | zero => rfl
  | succ n ih => rw [List.range_succ, List.map_append, List.sum_append, Finset.sum_range_succ, ih]; simp

/-! ## The deprecoder (41_transform_precoder.md R79) -/

/-- The complex value of an exact pair. -/
noncomputable def qcValue (z : QC) : ℂ := ⟨(z.re : ℝ), (z.im : ℝ)⟩

theorem mapIdx_range {α β : Type} (d : α) (f : Nat → α → β) (l : List α) :
    l.mapIdx f = (List.range l.length).map (fun k => f k (l.getD k d)) := by
  apply List.ext_getElem
  · simp
  · intro i h1 h2
    rw [List.length_mapIdx] at h1
    rw [List.getElem_mapIdx, List.getElem_map, List.getElem_range, List.getD_eq_getElem _ _ h1]

/-- The ideal deprecoded value is enclosed. -/
theorem deprecodeIdeal_encl (x : List QC) (m : Nat) :
    (deprecodeIdeal x m).Encl (deprecodeValue x.length (fun k => qcValue (x.getD k ⟨0, 0⟩)) m)
      (1 / 2 ^ 58 * deprecodeScaleValue x.length (fun k => ‖qcValue (x.getD k ⟨0, 0⟩)‖)) := by
  set n := x.length with hn
  set z : Nat → ℂ := fun k => qcValue (x.getD k ⟨0, 0⟩) with hz
  have hsum : (cbSum (x.mapIdx (fun k z => cbMul (cbOf z.re z.im) (cis (((m * k : Nat) : Rat) / (n : Rat)))))).Encl
      (∑ k ∈ Finset.range n, z k * rootOf ((m * k : ℝ) / n)) (∑ k ∈ Finset.range n, ‖z k‖ * (1 / 2 ^ 60)) := by
    rw [mapIdx_range ⟨0, 0⟩, ← sum_map_range, ← sum_map_range]
    refine cbSum_encl _ _ _ _ (fun k _ => ?_)
    have hc := cis_encl (((m * k : Nat) : Rat) / (n : Rat))
    have e : (((((m * k : Nat) : Rat) / (n : Rat)) : Rat) : ℝ) = (m * k : ℝ) / n := by push_cast; rfl
    rw [e] at hc
    refine (cbMul_encl (cbOf_encl _ _) hc (le_refl _) (rootOf_norm _).le).mono (le_of_eq ?_)
    have : (1 : ℝ) / 2 ^ 60 = 4 * (1 / 2 ^ 62) := by norm_num
    rw [this]
    simp only [hz, qcValue]
    ring
  rw [← Finset.sum_mul] at hsum
  set T := ∑ k ∈ Finset.range n, ‖z k‖ with hT
  set Z := ∑ k ∈ Finset.range n, z k * rootOf ((m * k : ℝ) / n) with hZ
  have hZT : ‖Z‖ ≤ T := by
    refine (norm_sum_le _ _).trans (Finset.sum_le_sum (fun k _ => ?_))
    rw [norm_mul, rootOf_norm, mul_one]
  have hT0 : 0 ≤ T := (norm_nonneg _).trans hZT
  set A := 1 / Real.sqrt n with hA
  have hA0 : 0 ≤ A := by positivity
  have hi := invSqrt_encl n
  rw [← hA] at hi
  have hv : deprecodeValue n z m = (A : ℂ) * Z := by
    unfold deprecodeValue
    rw [← hA, ← hZ]
  rw [hv]
  have width : 2 * (A * (T * (1 / 2 ^ 60)) + T * (A * (1 / 2 ^ 63)) + A * (1 / 2 ^ 63) * (T * (1 / 2 ^ 60))) ≤
      1 / 2 ^ 58 * deprecodeScaleValue n (fun k => ‖z k‖) := by
    unfold deprecodeScaleValue
    rw [← hA, ← hT]
    have h : 0 ≤ A * T := mul_nonneg hA0 hT0
    have e : 2 * (A * (T * (1 / 2 ^ 60)) + T * (A * (1 / 2 ^ 63)) + A * (1 / 2 ^ 63) * (T * (1 / 2 ^ 60))) =
        A * T * (2 * (1 / 2 ^ 60 + 1 / 2 ^ 63 + 1 / 2 ^ 63 * (1 / 2 ^ 60))) := by ring
    rw [e, mul_comm (1 / 2 ^ 58 : ℝ)]
    exact mul_le_mul_of_nonneg_left (by norm_num) h
  have hAa : |A| ≤ A := (abs_of_nonneg hA0).le
  refine ⟨?_, ?_⟩
  · rw [Complex.re_ofReal_mul]
    exact (ivMul_encl hi hsum.1 hAa ((Complex.abs_re_le_norm Z).trans hZT)).mono width
  · rw [Complex.im_ofReal_mul]
    exact (ivMul_encl hi hsum.2 hAa ((Complex.abs_im_le_norm Z).trans hZT)).mono width

theorem list_sum_range (l : List ℝ) : l.sum = ∑ k ∈ Finset.range l.length, l.getD k 0 := by
  rw [← sum_map_range]
  congr 1
  apply List.ext_getElem
  · simp
  · intro i h1 h2
    rw [List.getElem_map, List.getElem_range, List.getD_eq_getElem _ _ h1]

/-- The scale that the deprecoder takes lies close above the rule's. -/
theorem deprecodeScale_bounds (l : List Rat) (scale : Nat → ℝ) (h0 : ∀ k, k < l.length → 0 ≤ scale k)
    (h : ∀ k, k < l.length → scale k ≤ ((l.getD k 0 : Rat) : ℝ) ∧ ((l.getD k 0 : Rat) : ℝ) ≤ scale k * (1 + 1 / 2 ^ 62)) :
    deprecodeScaleValue l.length scale ≤ (deprecodeScale l : ℝ) ∧
      (deprecodeScale l : ℝ) ≤ deprecodeScaleValue l.length scale * (1 + 1 / 2 ^ 61) := by
  obtain ⟨⟨-, i2⟩, i3⟩ := invSqrt_encl l.length
  have i1 := (invSqrt_encl l.length).1.1
  set A := 1 / Real.sqrt l.length with hA
  have hA0 : 0 ≤ A := by positivity
  have hs : ((ratSum l : Rat) : ℝ) = ∑ k ∈ Finset.range l.length, ((l.getD k 0 : Rat) : ℝ) := by
    rw [ratSum_cast, list_sum_range, List.length_map]
    refine Finset.sum_congr rfl (fun k hk => ?_)
    have hk : k < l.length := Finset.mem_range.1 hk
    rw [List.getD_eq_getElem _ _ (by simpa using hk), List.getD_eq_getElem _ _ hk, List.getElem_map]
  have s1 : ∑ k ∈ Finset.range l.length, scale k ≤ ((ratSum l : Rat) : ℝ) := by
    rw [hs]
    exact Finset.sum_le_sum (fun k hk => (h k (Finset.mem_range.1 hk)).1)
  have s2 : ((ratSum l : Rat) : ℝ) ≤ (∑ k ∈ Finset.range l.length, scale k) * (1 + 1 / 2 ^ 62) := by
    rw [hs, Finset.sum_mul]
    exact Finset.sum_le_sum (fun k hk => (h k (Finset.mem_range.1 hk)).2)
  have s0 : 0 ≤ ∑ k ∈ Finset.range l.length, scale k :=
    Finset.sum_nonneg (fun k hk => h0 k (Finset.mem_range.1 hk))
  unfold deprecodeScale deprecodeScaleValue
  rw [← hA]
  push_cast
  set S := ∑ k ∈ Finset.range l.length, scale k
  have hhi : ((invSqrt l.length).hi : ℝ) ≤ A * (1 + 1 / 2 ^ 63) := by
    rw [mul_add, mul_one]
    linarith
  have hr0 : (0 : ℝ) ≤ ((ratSum l : Rat) : ℝ) := s0.trans s1
  constructor
  · exact mul_le_mul i2 s1 s0 (hA0.trans i2)
  · refine (mul_le_mul hhi s2 hr0 (by positivity)).trans ?_
    have e : A * (1 + 1 / 2 ^ 63) * (S * (1 + 1 / 2 ^ 62)) = A * S * ((1 + 1 / 2 ^ 63) * (1 + 1 / 2 ^ 62)) := by ring
    rw [e]
    exact mul_le_mul_of_nonneg_left (by norm_num) (mul_nonneg hA0 s0)

/-! ## The equalizer (42_equalizer.md R84, R85) -/

/-- The lanes of an element. -/
def Element.lanes (r : Element) : List EqLane :=
  (List.range r.ports).map (fun p => ⟨r.y p, r.h p, r.nv p⟩)

theorem eqIsBad_lanes (r : Element) : eqIsBad r.lanes = r.bad := by
  simp [eqIsBad, Element.lanes, Element.bad, List.any_map, Function.comp_def]

theorem finite_lanes (r : Element) : r.lanes.all (fun l => c64Finite l.y) = r.finite := by
  simp [Element.lanes, Element.finite, List.all_map, Function.comp_def]

theorem sum_lanes (r : Element) (f : EqLane → Rat) :
    ((ratSum (r.lanes.map f) : Rat) : ℝ) = ∑ p ∈ Finset.range r.ports, ((f ⟨r.y p, r.h p, r.nv p⟩ : Rat) : ℝ) := by
  rw [ratSum_cast, Element.lanes, List.map_map, List.map_map, sum_map_range]
  rfl

theorem eqGain_lanes (r : Element) : ((eqGain r.lanes : Rat) : ℝ) = r.gain := by
  rw [eqGain, sum_lanes]
  refine Finset.sum_congr rfl (fun p _ => ?_)
  push_cast
  rw [qcAbs2_norm]
  rfl

theorem Element.nv_pos {r : Element} (h : r.bad = false) {p : Nat} (hp : p < r.ports) : 0 < realOf (r.nv p) := by
  simp only [Element.bad, List.any_eq_false, List.mem_range, Bool.not_eq_true, Bool.or_eq_false_iff,
    Bool.not_eq_false'] at h
  exact (Rat.cast_pos (K := ℝ)).2 ((goodNv_iff _).1 (h p hp).1.1).2

theorem Element.gain_nonneg {r : Element} (h : r.bad = false) : 0 ≤ r.gain :=
  Finset.sum_nonneg (fun _ hp => div_nonneg (sq_nonneg _) (r.nv_pos h (Finset.mem_range.1 hp)).le)

theorem Element.denominator_pos {r : Element} (h : r.bad = false) (hp : 0 < r.ports) (algo : EqAlgo) :
    0 < r.denominator algo := by
  have hg : 0 < r.gain := by
    refine Finset.sum_pos' (fun _ hp => div_nonneg (sq_nonneg _) (r.nv_pos h (Finset.mem_range.1 hp)).le)
      ⟨0, Finset.mem_range.2 hp, div_pos ?_ (r.nv_pos h hp)⟩
    have hb : (!goodNv (r.nv 0) || c64IsZero (r.h 0) || !c64Finite (r.h 0)) = false := by
      simp only [Element.bad, List.any_eq_false, List.mem_range, Bool.not_eq_true] at h
      exact h 0 hp
    simp only [Bool.or_eq_false_iff] at hb
    have hz := hb.1.2
    have : complexOf (r.h 0) ≠ 0 := by
      intro e
      apply Bool.noConfusion (hz.symm.trans (show c64IsZero (r.h 0) = true from ?_))
      have e1 : (f32Rat (r.h 0).re : ℝ) = 0 := congrArg Complex.re e
      have e2 : (f32Rat (r.h 0).im : ℝ) = 0 := congrArg Complex.im e
      rw [c64IsZero, Bool.and_eq_true]
      exact ⟨(f32IsZero_iff _).2 (by exact_mod_cast e1), (f32IsZero_iff _).2 (by exact_mod_cast e2)⟩
    positivity
  unfold Element.denominator
  cases algo
  · exact hg
  · positivity

theorem eqDenominator_lanes (algo : EqAlgo) (r : Element) :
    ((eqDenominator algo r.lanes : Rat) : ℝ) = r.denominator algo := by
  unfold eqDenominator Element.denominator
  cases algo
  · exact eqGain_lanes r
  · push_cast
    rw [eqGain_lanes]

/-- The ideal output of an element that is not bad: the rules' symbol exactly, its scale closely from above, the noise
variance exactly. -/
theorem equalizeIdeal_good (algo : EqAlgo) (sf : Rat) (hsf : 0 ≤ sf) (r : Element) (hb : r.bad = false)
    (hf : r.finite = true) (hp : 0 < r.ports) :
    ∃ z scale e, equalizeIdeal algo sf r.lanes = .good z scale e ∧ qcValue z = r.symbol algo sf ∧
      (r.symbolScale algo sf ≤ (scale : ℝ) ∧ (scale : ℝ) ≤ r.symbolScale algo sf * (1 + 1 / 2 ^ 63)) ∧
      0 ≤ r.symbolScale algo sf ∧ (e : ℝ) = r.noise algo sf := by
  have hd := r.denominator_pos hb hp algo
  have hsf' : (0 : ℝ) ≤ sf := by exact_mod_cast hsf
  have he : equalizeIdeal algo sf r.lanes =
      .good ⟨ratSum ((r.lanes.map eqMatched).map (·.re)) * sf / eqDenominator algo r.lanes,
          ratSum ((r.lanes.map eqMatched).map (·.im)) * sf / eqDenominator algo r.lanes⟩
        (ratSum (r.lanes.map (fun l => sqrtHi (qcAbs2 (qcOf l.h) * qcAbs2 (qcOf l.y)) / f32Rat l.nv)) * sf /
          eqDenominator algo r.lanes) (sf * sf / eqDenominator algo r.lanes) := by
    unfold equalizeIdeal
    rw [eqIsBad_lanes, hb, finite_lanes, hf]
    rfl
  refine ⟨_, _, _, he, ?_, ?_, ?_, ?_⟩
  · unfold Element.symbol
    rw [hb]
    simp only [Bool.false_eq_true, if_false]
    have hm : ∀ f : QC → Rat, ((ratSum ((r.lanes.map eqMatched).map f) : Rat) : ℝ) =
        ∑ p ∈ Finset.range r.ports, ((f (eqMatched ⟨r.y p, r.h p, r.nv p⟩) : Rat) : ℝ) := by
      intro f
      rw [List.map_map, sum_lanes]
      rfl
    have term : ∀ p, starRingEnd ℂ (complexOf (r.h p)) * complexOf (r.y p) / (realOf (r.nv p) : ℂ) =
        qcValue (eqMatched ⟨r.y p, r.h p, r.nv p⟩) := by
      intro p
      apply Complex.ext
      · rw [Complex.div_ofReal_re]
        simp only [qcValue, eqMatched, complexOf, realOf, qcOf, Complex.mul_re, Complex.conj_re, Complex.conj_im]
        push_cast
        ring
      · rw [Complex.div_ofReal_im]
        simp only [qcValue, eqMatched, complexOf, realOf, qcOf, Complex.mul_im, Complex.conj_re, Complex.conj_im]
        push_cast
        ring
    have hmat : r.matched = ⟨((ratSum ((r.lanes.map eqMatched).map (·.re)) : Rat) : ℝ),
        ((ratSum ((r.lanes.map eqMatched).map (·.im)) : Rat) : ℝ)⟩ := by
      unfold Element.matched
      apply Complex.ext
      · rw [Complex.re_sum]
        refine Eq.trans (Finset.sum_congr rfl (fun p _ => ?_)) (hm (·.re)).symm
        rw [term]
        rfl
      · rw [Complex.im_sum]
        refine Eq.trans (Finset.sum_congr rfl (fun p _ => ?_)) (hm (·.im)).symm
        rw [term]
        rfl
    rw [hmat, ← eqDenominator_lanes]
    apply Complex.ext
    · rw [Complex.div_ofReal_re, Complex.re_mul_ofReal]
      simp only [qcValue]
      push_cast
      rfl
    · rw [Complex.div_ofReal_im, Complex.im_mul_ofReal]
      simp only [qcValue]
      push_cast
      rfl
  · unfold Element.symbolScale
    rw [hb]
    simp only [Bool.false_eq_true, if_false]
    push_cast
    rw [eqDenominator_lanes, sum_lanes]
    have lane : ∀ p, p < r.ports → ‖complexOf (r.h p)‖ * ‖complexOf (r.y p)‖ / realOf (r.nv p) ≤
        (((sqrtHi (qcAbs2 (qcOf (r.h p)) * qcAbs2 (qcOf (r.y p))) / f32Rat (r.nv p)) : Rat) : ℝ) ∧
        (((sqrtHi (qcAbs2 (qcOf (r.h p)) * qcAbs2 (qcOf (r.y p))) / f32Rat (r.nv p)) : Rat) : ℝ) ≤
          ‖complexOf (r.h p)‖ * ‖complexOf (r.y p)‖ / realOf (r.nv p) * (1 + 1 / 2 ^ 64) := by
      intro p hp
      have hn := r.nv_pos hb hp
      obtain ⟨-, h2, h3, -⟩ := sqrt_bounds (mul_nonneg (qcAbs2_nonneg (qcOf (r.h p))) (qcAbs2_nonneg (qcOf (r.y p))))
      rw [Rat.cast_mul, qcAbs2_norm, qcAbs2_norm, ← mul_pow, Real.sqrt_sq (by positivity)] at h2 h3
      rw [Rat.cast_div]
      refine ⟨div_le_div_of_nonneg_right h2 hn.le, ?_⟩
      rw [div_mul_eq_mul_div]
      exact div_le_div_of_nonneg_right h3 hn.le
    have s1 : r.matchedScale ≤ ∑ p ∈ Finset.range r.ports,
        (((sqrtHi (qcAbs2 (qcOf (r.h p)) * qcAbs2 (qcOf (r.y p))) / f32Rat (r.nv p)) : Rat) : ℝ) :=
      Finset.sum_le_sum (fun p hp => (lane p (Finset.mem_range.1 hp)).1)
    have s2 : ∑ p ∈ Finset.range r.ports,
        (((sqrtHi (qcAbs2 (qcOf (r.h p)) * qcAbs2 (qcOf (r.y p))) / f32Rat (r.nv p)) : Rat) : ℝ) ≤
          r.matchedScale * (1 + 1 / 2 ^ 64) := by
      unfold Element.matchedScale
      rw [Finset.sum_mul]
      exact Finset.sum_le_sum (fun p hp => (lane p (Finset.mem_range.1 hp)).2)
    have k : (0 : ℝ) ≤ sf / r.denominator algo := div_nonneg hsf' hd.le
    constructor
    · rw [mul_div_assoc, mul_div_assoc]
      exact mul_le_mul_of_nonneg_right s1 k
    · rw [mul_div_assoc, mul_div_assoc]
      have m0 : 0 ≤ r.matchedScale := Finset.sum_nonneg (fun p hp =>
        div_nonneg (by positivity) (r.nv_pos hb (Finset.mem_range.1 hp)).le)
      have : r.matchedScale * (1 + 1 / 2 ^ 64) ≤ r.matchedScale * (1 + 1 / 2 ^ 63) :=
        mul_le_mul_of_nonneg_left (by norm_num) m0
      calc _ ≤ r.matchedScale * (1 + 1 / 2 ^ 63) * (sf / r.denominator algo) :=
            mul_le_mul_of_nonneg_right (s2.trans this) k
        _ = _ := by ring
  · unfold Element.symbolScale
    rw [hb]
    simp only [Bool.false_eq_true, if_false]
    exact div_nonneg (mul_nonneg (Finset.sum_nonneg (fun p hp =>
        div_nonneg (by positivity) (r.nv_pos hb (Finset.mem_range.1 hp)).le)) hsf') hd.le
  · unfold Element.noise
    push_cast
    rw [eqDenominator_lanes, sq]

/-! ## The byte of an LLR (45_format234.md R121 to R123) -/

/-- A pattern and its negative have levels of opposite signs (00_scope.md R9). -/
theorem qLlr_neg (p : Params) (x : F32) : qLlr p (f32Neg x) = -qLlr p x := by
  have h : (f32Neg x).extractLsb' 0 31 = x.extractLsb' 0 31 := BitVec.eq_of_toNat_eq (f32Neg_mag x)
  unfold qLlr
  rw [h, f32Neg_msb]
  cases x.msb <;> simp

theorem qLlr_bounds (p : Params) (x : F32) : -(llrMax p : Int) ≤ qLlr p x ∧ qLlr p x ≤ (llrMax p : Int) := by
  have h := List.length_filter_le (fun t : F32 => decide (t.toNat ≤ (x.extractLsb' 0 31).toNat)) p.llrThr
  unfold qLlr llrMax
  dsimp only
  split <;> omega

/-- The byte of an enclosed LLR: the level of a binary32 value near the LLR, with the sign that the descrambler gives. -/
theorem llrByte_returns {p : Params} (hq : ParamQuantiser p) {l : Ival} {q w scale : ℝ} {bound : Rat}
    (h : l.Encl q w) (hb : p.tol * scale ≤ bound) (hw : bound + w ≤ errorBound p.tol scale) (epoch n : Nat)
    (flip : Bool) : ReturnsLlr p flip q scale (llrByte p epoch n (llrFlip flip (.near l bound))) := by
  rintro ⟨v, v1, v2⟩
  have hflip : ∃ l', llrFlip flip (.near l bound) = .near l' bound ∧
      l'.Encl (if flip then -q else q) w := by
    cases flip
    · exact ⟨l, rfl, h⟩
    · exact ⟨ivNeg l, rfl, ivNeg_encl h⟩
  obtain ⟨l', e, h'⟩ := hflip
  set q' : ℝ := if flip then -q else q with hq'
  have hv : ∃ v', f32Finite v' = true ∧ |realOf v' - q'| ≤ bound := by
    cases flip
    · exact ⟨v, v1, v2.trans hb⟩
    · refine ⟨f32Neg v, by rwa [f32Finite_neg], ?_⟩
      have : realOf (f32Neg v) - q' = -(realOf v - q) := by
        simp only [hq', if_true, realOf, f32Rat_neg]
        push_cast
        ring
      rw [this, abs_neg]
      exact v2.trans hb
  obtain ⟨v', f1, f2⟩ := hv
  obtain ⟨⟨a1, a2⟩, a3⟩ := h'
  obtain ⟨b1, b2⟩ := abs_le.1 f2
  have near : ∃ x, f32Finite x = true ∧ |realOf x - q'| ≤ errorBound p.tol scale ∧
      (llrByte p epoch n (.near l' bound)).toInt = qLlr p x := by
    have lo : l'.lo - bound ≤ f32Rat v' := by
      have : ((l'.lo - bound : Rat) : ℝ) ≤ realOf v' := by push_cast; linarith
      exact (Rat.cast_le (K := ℝ)).1 this
    have hi : f32Rat v' ≤ l'.hi + bound := by
      have : realOf v' ≤ ((l'.hi + bound : Rat) : ℝ) := by push_cast; linarith
      exact (Rat.cast_le (K := ℝ)).1 this
    have hc := f32Ceil_spec (l'.lo - bound)
    obtain ⟨g1, g2⟩ := f32Floor_spec (l'.hi + bound)
    obtain ⟨a, ha⟩ : ∃ a, f32Ceil (l'.lo - bound) = some a := by
      cases hx : f32Ceil (l'.lo - bound) with
      | none => exact absurd lo (not_le.2 (hc.none_spec hx v' f1))
      | some a => exact ⟨a, rfl⟩
    obtain ⟨b, hbb⟩ : ∃ b, f32Floor (l'.hi + bound) = some b := by
      cases hx : f32Floor (l'.hi + bound) with
      | none => exact absurd hi (not_le.2 (g2 hx v' f1))
      | some b => exact ⟨b, rfl⟩
    obtain ⟨c1, c2, c3⟩ := hc.some_spec a ha
    obtain ⟨d1, d2, d3⟩ := g1 b hbb
    have hab : f32Rank a ≤ f32Rank b := (f32Rank_le_iff a b).2 ((c3 v' f1 lo).trans (d3 v' f1 hi))
    have hlev : llrLevels p (.near l' bound) = (llrPoints p a b).map (qLlr p) := by
      simp only [llrLevels, ha, hbb, hab, if_true]
    set levels := (llrLevels p (.near l' bound)).dedup with hl
    have hne : List.range levels.length ≠ [] := by
      have hm : qLlr p a ∈ levels := by
        rw [hl, List.mem_dedup, hlev]
        exact List.mem_map_of_mem (by simp [llrPoints])
      intro e
      have : levels.length = 0 := by simpa using congrArg List.length e
      rw [List.length_eq_zero_iff.1 this] at hm
      cases hm
    have hmem := drawFrom_mem _ hne 0 ⟨epoch, .llr, n⟩
    rw [List.mem_range] at hmem
    have hx : levels.getD (drawFrom (List.range levels.length) 0 ⟨epoch, .llr, n⟩) 0 ∈ levels := by
      rw [List.getD_eq_getElem _ _ hmem]
      exact List.getElem_mem _
    have hbyte : llrByte p epoch n (.near l' bound) =
        BitVec.ofInt 8 (levels.getD (drawFrom (List.range levels.length) 0 ⟨epoch, .llr, n⟩) 0) := rfl
    generalize levels.getD (drawFrom (List.range levels.length) 0 ⟨epoch, .llr, n⟩) 0 = lev at hx hbyte
    rw [hl, List.mem_dedup, hlev] at hx
    obtain ⟨x, hx1, rfl⟩ := List.mem_map.1 hx
    have hxr : f32Rank a ≤ f32Rank x ∧ f32Rank x ≤ f32Rank b := by
      rcases List.mem_append.1 hx1 with hx1 | hx1
      · rcases List.mem_cons.1 hx1 with rfl | hx1
        · exact ⟨le_refl _, hab⟩
        · rw [List.mem_singleton.1 hx1]
          exact ⟨hab, le_refl _⟩
      · have := List.of_mem_filter hx1
        simpa using this
    have x1 := (f32Rank_le_iff a x).1 hxr.1
    have x2 := (f32Rank_le_iff x b).1 hxr.2
    have y1 := (Rat.cast_le (K := ℝ)).2 (c2.trans x1)
    have y2 := (Rat.cast_le (K := ℝ)).2 (x2.trans d2)
    push_cast at y1 y2
    refine ⟨x, f32Finite_between c1 d1 hxr.1 hxr.2, ?_, ?_⟩
    · refine le_trans ?_ hw
      unfold realOf
      rw [abs_le]
      constructor <;> linarith
    · rw [hbyte, BitVec.toInt_ofInt]
      obtain ⟨k1, k2⟩ := qLlr_bounds p x
      have hm : llrMax p ≤ 127 := hq.1.2
      exact Int.bmod_eq_of_le (by norm_num; omega) (by norm_num; omega)
  obtain ⟨x, n1, n2, n3⟩ := near
  rw [e]
  cases flip
  · exact ⟨x, n1, n2, n3⟩
  · refine ⟨f32Neg x, by rwa [f32Finite_neg], ?_, ?_⟩
    · have : realOf (f32Neg x) - q = -(realOf x - q') := by
        simp only [hq', if_true, realOf, f32Rat_neg]
        push_cast
        ring
      rw [this, abs_neg]
      exact n2
    · rw [if_pos rfl, qLlr_neg, neg_neg]
      exact n3

end Sys2Proof.Machine
end

