-- ==== Sys2Proof/Laws/Demodulator.lean ====
section
/-! SUPPORT. The demodulators' symbol streams over the complex numbers, and the bytes their symbols come out as
(45_format234.md R117 to R123). -/

namespace Sys2Proof.Machine

/-! ## Stream elements -/

/-- The stream element is the symbol `sym` of a scale, with noise variance `e`: its box holds `sym`, and box and scale are
far tighter than any error bound. -/
def StreamSym.Is (x : StreamSym) (sym : ℂ) (scale e : ℝ) : Prop :=
  ∃ box sc er, x = .value box sc er ∧ box.Encl sym (1 / 2 ^ 50 * scale) ∧ ‖sym‖ ≤ scale ∧ scale ≤ ((sc : Rat) : ℝ) ∧
    ((sc : Rat) : ℝ) ≤ scale * (1 + 1 / 2 ^ 50) ∧ ((er : Rat) : ℝ) = e

/-- A symbol that binary32 holds within its error bound is no open one. -/
theorem streamSym_is {tol : Rat} {box : CBox} {sym : ℂ} {scale e : ℝ} {sc er : Rat} (ht : 0 ≤ tol)
    (hb : box.Encl sym (1 / 2 ^ 50 * scale)) (hn : ‖sym‖ ≤ scale) (h1 : scale ≤ sc)
    (h2 : (sc : ℝ) ≤ scale * (1 + 1 / 2 ^ 50)) (he : (er : ℝ) = e) (held : ComplexHeld tol sym scale) :
    (streamSym tol box sc er).Is sym scale e := by
  obtain ⟨v, v1, v2⟩ := held
  have ht' : (0 : ℝ) ≤ tol := by exact_mod_cast ht
  have hs : cAdmitsSome (.disk box (tol * sc)) = true := by
    refine cAdmits_sample ?_ (cAdmits_near hb.has ?_ v1 v2)
    · rintro box' rad e
      cases e
      exact ⟨hb.1.1.le, hb.2.1.le⟩
    · push_cast
      exact mul_le_mul_of_nonneg_left h1 ht'
  refine ⟨box, sc, er, ?_, hb, hn, h1, h2, he⟩
  rw [streamSym, if_pos hs]

/-! ## LLRs (45_format234.md R121) -/

/-- `2*sqrt(2)*x/e` of an enclosed `x`, no larger than a scale. -/
theorem llr_encl {a : Ival} {x scale e : ℝ} {er : Rat} (ha : a.Encl x (1 / 2 ^ 49 * scale)) (hx : |x| ≤ scale)
    (he : (er : ℝ) = e) (hpos : 0 < e) :
    (ivMul sqrt8 (ivScale (1 / er) a)).Encl (2 * Real.sqrt 2 * x / e) (1 / 2 ^ 44 * (2 * Real.sqrt 2 * scale / e)) := by
  have hs : 0 ≤ scale := (abs_nonneg x).trans hx
  have hr : (0 : ℝ) ≤ 2 * Real.sqrt 2 := by positivity
  have hsc := ivScale_encl (1 / er) ha
  have e1 : (((1 / er : Rat) : ℝ)) = 1 / e := by push_cast; rw [he]
  rw [e1, abs_of_pos (one_div_pos.2 hpos)] at hsc
  have hx' : |1 / e * x| ≤ scale / e := by
    rw [abs_mul, abs_of_pos (one_div_pos.2 hpos), one_div, inv_mul_eq_div]
    gcongr
  have hm := ivMul_encl sqrt8_encl hsc (le_of_eq (abs_of_nonneg hr)) hx'
  have e2 : 2 * Real.sqrt 2 * (1 / e * x) = 2 * Real.sqrt 2 * x / e := by ring
  rw [e2] at hm
  refine hm.mono ?_
  have hk : 0 ≤ 2 * Real.sqrt 2 * scale / e := by positivity
  have e3 : 2 * (2 * Real.sqrt 2 * (1 / e * (1 / 2 ^ 49 * scale)) + scale / e * (2 * Real.sqrt 2 * (1 / 2 ^ 63)) +
      2 * Real.sqrt 2 * (1 / 2 ^ 63) * (1 / e * (1 / 2 ^ 49 * scale))) =
      2 * (1 / 2 ^ 49 + 1 / 2 ^ 63 + 1 / 2 ^ 63 * (1 / 2 ^ 49)) * (2 * Real.sqrt 2 * scale / e) := by ring
  rw [e3]
  exact mul_le_mul_of_nonneg_right (by norm_num) hk

/-- The error bound of an LLR holds what the rule asks for, and little more. -/
theorem llr_bound {tol : Rat} {scale e : ℝ} {sc er : Rat} (ht : 0 ≤ tol) (hs : 0 ≤ scale) (h1 : scale ≤ sc)
    (h2 : (sc : ℝ) ≤ scale * (1 + 1 / 2 ^ 50)) (he : (er : ℝ) = e) (hpos : 0 < e) :
    tol * (2 * Real.sqrt 2 * scale / e) ≤ ((tol * (sqrt8.hi * sc / er) : Rat) : ℝ) ∧
      ((tol * (sqrt8.hi * sc / er) : Rat) : ℝ) + 1 / 2 ^ 44 * (2 * Real.sqrt 2 * scale / e) ≤
        errorBound tol (2 * Real.sqrt 2 * scale / e) := by
  have ht' : (0 : ℝ) ≤ tol := by exact_mod_cast ht
  obtain ⟨⟨-, r1⟩, r2⟩ := sqrt8_encl
  have r0 := sqrt8_encl.1.1
  have hr : (0 : ℝ) ≤ 2 * Real.sqrt 2 := by positivity
  have hsc : 0 ≤ ((sc : Rat) : ℝ) := hs.trans h1
  have hhi : (sqrt8.hi : ℝ) ≤ 2 * Real.sqrt 2 * (1 + 1 / 2 ^ 63) := by
    rw [mul_add, mul_one]
    linarith
  push_cast
  rw [he]
  have hk : 0 ≤ 2 * Real.sqrt 2 * scale / e := by positivity
  constructor
  · refine mul_le_mul_of_nonneg_left (div_le_div_of_nonneg_right ?_ hpos.le) ht'
    exact mul_le_mul r1 h1 hs (hr.trans r1)
  · have up : (sqrt8.hi : ℝ) * sc / e ≤ 2 * Real.sqrt 2 * scale / e * ((1 + 1 / 2 ^ 63) * (1 + 1 / 2 ^ 50)) := by
      have := mul_le_mul hhi h2 hsc (by positivity)
      refine (div_le_div_of_nonneg_right this hpos.le).trans (le_of_eq ?_)
      ring
    refine (add_le_add_left (mul_le_mul_of_nonneg_left up ht') _).trans ?_
    rw [errorBound]
    have e1 : ((tol : ℝ) * (2 * Real.sqrt 2 * scale / e * ((1 + 1 / 2 ^ 63) * (1 + 1 / 2 ^ 50))) +
        1 / 2 ^ 44 * (2 * Real.sqrt 2 * scale / e)) =
        ((tol : ℝ) * ((1 + 1 / 2 ^ 63) * (1 + 1 / 2 ^ 50)) + 1 / 2 ^ 44) * (2 * Real.sqrt 2 * scale / e) := by ring
    rw [e1]
    refine mul_le_mul_of_nonneg_right (add_le_add (mul_le_mul_of_nonneg_left (by norm_num) ht') (by norm_num)) hk

/-- The two LLR bytes of a settled QPSK symbol. -/
theorem qpsk_returns {p : Params} (hq : ParamQuantiser p) (ht : 0 ≤ p.tol) {x : StreamSym} {sym : ℂ} {scale e : ℝ}
    (hx : x.Is sym scale e) (hpos : 0 < e) :
    ∃ a b, llrsQpsk p.tol x = [a, b] ∧ ∀ (epoch n : Nat) (flip : Bool),
      ReturnsLlr p flip (2 * Real.sqrt 2 * sym.re / e) (2 * Real.sqrt 2 * scale / e)
        (llrByte p epoch n (llrFlip flip a)) ∧
      ReturnsLlr p flip (2 * Real.sqrt 2 * sym.im / e) (2 * Real.sqrt 2 * scale / e)
        (llrByte p epoch n (llrFlip flip b)) := by
  obtain ⟨box, sc, er, rfl, hb, hn, h1, h2, he⟩ := hx
  have hs : 0 ≤ scale := (norm_nonneg _).trans hn
  obtain ⟨b1, b2⟩ := llr_bound ht hs h1 h2 he hpos
  have wide : 1 / 2 ^ 50 * scale ≤ 1 / 2 ^ 49 * scale := mul_le_mul_of_nonneg_right (by norm_num) hs
  exact ⟨_, _, rfl, fun epoch n flip =>
    ⟨llrByte_returns hq (llr_encl (hb.1.mono wide) ((Complex.abs_re_le_norm _).trans hn) he hpos) b1 b2 epoch n flip,
      llrByte_returns hq (llr_encl (hb.2.mono wide) ((Complex.abs_im_le_norm _).trans hn) he hpos) b1 b2 epoch n flip⟩⟩

/-- The LLR byte of settled pi/2-BPSK symbol `n` of a stream. -/
theorem bpsk_returns {p : Params} (hq : ParamQuantiser p) (ht : 0 ≤ p.tol) {x : StreamSym} {sym : ℂ} {scale e : ℝ}
    (hx : x.Is sym scale e) (hpos : 0 < e) (n : Nat) :
    ∃ a, llrsBpsk p.tol n x = [a] ∧ ∀ (epoch : Nat) (flip : Bool),
      let r := sym * rootOf (-((n % 2 : Nat) : ℝ) / 4)
      ReturnsLlr p flip (2 * Real.sqrt 2 * (r.re + r.im) / e) (2 * Real.sqrt 2 * (2 * scale) / e)
        (llrByte p epoch n (llrFlip flip a)) := by
  obtain ⟨box, sc, er, rfl, hb, hn, h1, h2, he⟩ := hx
  have hs : 0 ≤ scale := (norm_nonneg _).trans hn
  have hturn : Complex.I ^ (4 - n % 2) * sym = sym * rootOf (-((n % 2 : Nat) : ℝ) / 4) := by
    rw [mul_comm]
    congr 1
    rcases Nat.mod_two_eq_zero_or_one n with h | h
    · rw [h]
      simp [rootOf, Complex.I_pow_four]
    · rw [h]
      have := rootOf_quarter 3
      have e3 : rootOf (-((1 : Nat) : ℝ) / 4) = rootOf ((3 : Nat) / 4) := by
        have h4 := rootOf_add (-1) ((3 : Nat) / 4)
        have hm : rootOf (-1) = 1 := by
          have := rootOf_int (-1)
          push_cast at this
          exact this
        rw [hm, one_mul] at h4
        rw [← h4]
        congr 1
        push_cast
        norm_num
      rw [e3, this]
  have hq4 := cbQuarter_encl (4 - n % 2) hb
  rw [hturn] at hq4
  set r := sym * rootOf (-((n % 2 : Nat) : ℝ) / 4) with hr
  have hrn : ‖r‖ ≤ scale := by
    rw [hr, norm_mul, rootOf_norm, mul_one]
    exact hn
  have hadd := ivAdd_encl hq4.1 hq4.2
  have hx : |r.re + r.im| ≤ 2 * scale := by
    refine (abs_add_le _ _).trans ?_
    have := Complex.abs_re_le_norm r
    have := Complex.abs_im_le_norm r
    linarith
  have wide : 1 / 2 ^ 50 * scale + 1 / 2 ^ 50 * scale ≤ 1 / 2 ^ 49 * (2 * scale) := by
    have : 1 / 2 ^ 50 * scale + 1 / 2 ^ 50 * scale = 1 / 2 ^ 50 * (2 * scale) := by ring
    rw [this]
    exact mul_le_mul_of_nonneg_right (by norm_num) (by positivity)
  have c1 : 2 * scale ≤ ((2 * sc : Rat) : ℝ) := by
    push_cast
    linarith
  have c2 : ((2 * sc : Rat) : ℝ) ≤ 2 * scale * (1 + 1 / 2 ^ 50) := by
    push_cast
    linarith
  obtain ⟨b1, b2⟩ := llr_bound ht (by positivity) c1 c2 he hpos
  exact ⟨_, rfl, fun epoch flip => llrByte_returns hq (llr_encl (hadd.mono wide) hx he hpos) b1 b2 epoch n flip⟩

/-! ## The LLR buffer (45_format234.md R121 to R123) -/

/-- The settled stream keeps a symbol that is no open one. -/
theorem StreamSym.Is.settled {x : StreamSym} {sym : ℂ} {scale e : ℝ} (h : x.Is sym scale e) (epoch n : Nat) :
    settled epoch n x = x := by
  obtain ⟨box, sc, er, rfl, -⟩ := h
  rfl

theorem getElem?_flatMap_const {α β : Type} (l : List α) (f : α → List β) (c : Nat) (h : ∀ x, (f x).length = c)
    (i j : Nat) (hj : j < c) : (l.flatMap f)[c * i + j]? = (l[i]?).bind (fun x => (f x)[j]?) := by
  induction l generalizing i with
  | nil => simp
  | cons x l ih =>
    rw [List.flatMap_cons]
    cases i with
    | zero =>
      rw [List.getElem?_append_left (by rw [h]; omega)]
      simp
    | succ i =>
      rw [List.getElem?_append_right (by rw [h, Nat.mul_succ]; omega), h,
        show c * (i + 1) + j - c = c * i + j by rw [Nat.mul_succ]; omega, ih]
      simp

theorem flatten_mapIdx_single {α β : Type} (f : Nat → α → List β) (g : Nat → α → β) (h : ∀ i x, f i x = [g i x])
    (l : List α) : (l.mapIdx f).flatten = l.mapIdx g := by
  induction l generalizing f g with
  | nil => rfl
  | cons x l ih =>
    rw [List.mapIdx_cons, List.mapIdx_cons, List.flatten_cons, h, ih _ (fun i => g (i + 1)) (fun i x => h (i + 1) x)]
    rfl

/-- The memory holds the LLR bytes of a stream at an address. -/
def HoldsLlrs (d : PucchDesc) (s : State) (qm : Nat) (stream : List StreamSym) (m : Memory) : Prop :=
  ∀ j b, (llrBytes d s qm stream)[j]? = some b → memByte m (d.bufAddr.toNat + j) = b

/-- Symbol `n` of a QPSK stream in the LLR buffer. -/
theorem holds_qpsk {d : PucchDesc} {s : State} {stream : List StreamSym} {m : Memory} (hq : ParamQuantiser s.params)
    (ht : 0 ≤ s.params.tol) (hm : HoldsLlrs d s 2 stream m) {n : Nat} {x : StreamSym} (hx : stream[n]? = some x)
    {sym : ℂ} {scale e : ℝ} (h : x.Is sym scale e) (hpos : 0 < e) :
    ReturnsQpsk s.params (d.rnti.toNat * 2 ^ 15 + d.nId.toNat) sym scale e n d.bufAddr.toNat m := by
  obtain ⟨a, b, hl, hr⟩ := qpsk_returns hq ht h hpos
  have at_ (j : Nat) (hj : j < 2) (y : LlrIdeal) (hy : [a, b][j]? = some y) :
      memByte m (d.bufAddr.toNat + (2 * n + j)) =
        llrByte s.params s.draws (2 * n + j) (llrFlip (prnBit s.params (cInit d) (2 * n + j)) y) := by
    apply hm
    have hs : (stream.mapIdx (settled s.draws))[n]? = some x := by
      rw [List.getElem?_mapIdx, hx, Option.map_some, h.settled]
    rw [llrBytes, llrs, if_neg (by decide), List.getElem?_mapIdx,
      getElem?_flatMap_const _ _ 2 (fun x => by cases x <;> rfl) n j hj, hs, Option.bind_some, hl, hy, Option.map_some]
  refine ⟨?_, ?_⟩
  · have := at_ 0 (by omega) a rfl
    rw [Nat.add_zero] at this
    rw [this]
    exact (hr _ _ _).1
  · rw [at_ 1 (by omega) b rfl]
    exact (hr _ _ _).2

/-- Symbol `n` of a pi/2-BPSK stream in the LLR buffer. -/
theorem holds_bpsk {d : PucchDesc} {s : State} {stream : List StreamSym} {m : Memory} (hq : ParamQuantiser s.params)
    (ht : 0 ≤ s.params.tol) (hm : HoldsLlrs d s 1 stream m) {n : Nat} {x : StreamSym} (hx : stream[n]? = some x)
    {sym : ℂ} {scale e : ℝ} (h : x.Is sym scale e) (hpos : 0 < e) :
    ReturnsBpsk s.params (d.rnti.toNat * 2 ^ 15 + d.nId.toNat) sym scale e n d.bufAddr.toNat m := by
  obtain ⟨a, hl, hr⟩ := bpsk_returns hq ht h hpos n
  have hb : memByte m (d.bufAddr.toNat + n) =
      llrByte s.params s.draws n (llrFlip (prnBit s.params (cInit d) n) a) := by
    apply hm
    have hs : (stream.mapIdx (settled s.draws))[n]? = some x := by
      rw [List.getElem?_mapIdx, hx, Option.map_some, h.settled]
    have single (i : Nat) (x : StreamSym) :
        llrsBpsk s.params.tol i x = [(llrsBpsk s.params.tol i x).headD .zero] := by cases x <;> rfl
    rw [llrBytes, llrs, if_pos rfl, flatten_mapIdx_single _ _ single, List.getElem?_mapIdx, List.getElem?_mapIdx, hs,
      Option.map_some, Option.map_some, hl]
    rfl
  rw [ReturnsBpsk, hb]
  exact hr _ _

/-- A demodulator that wrote its LLR bytes beside its record. -/
theorem holds_of_write {d : PucchDesc} {s t : State} {qm : Nat} {stream : List StreamSym} {rec : Nat × List Byte}
    (hwf : Memory.wf s.dmem = true)
    (h : t.dmem = writeAll s.dmem [rec, (d.bufAddr.toNat, llrBytes d s qm stream)])
    (hd : selfOverlap ([rec, (d.bufAddr.toNat, llrBytes d s qm stream)].map
      (fun o => (⟨o.1, o.2.length⟩ : Region))) = false) : HoldsLlrs d s qm stream t.dmem := by
  intro j b hb
  have hj : j < (llrBytes d s qm stream).length := by
    by_contra hge
    rw [List.getElem?_eq_none (by omega)] at hb
    cases hb
  rw [h, memByte_writeAll_of_apart hwf _ hd (d.bufAddr.toNat, llrBytes d s qm stream) (by simp) _ (by simp; omega)]
  show (llrBytes d s qm stream).getD (d.bufAddr.toNat + j - d.bufAddr.toNat) 0#8 = b
  rw [Nat.add_sub_cancel_left, List.getD_eq_getElem?_getD, hb]
  rfl

/-! ## Where the data subcarriers stand (45_format234.md R113) -/

/-- The eight data subcarriers of every PRB, in rising order. -/
theorem f2_data_at (n r q : Nat) (hr : r < n) (hq : q < 8) :
    ((List.range (12 * n)).filter (fun k => !f2IsDmrs (k % 12)))[8 * r + q]? =
      some (12 * r + [0, 2, 3, 5, 6, 8, 9, 11].getD q 0) := by
  induction n with
  | zero => omega
  | succ n ih =>
    have hstep : (List.range (12 * (n + 1))).filter (fun k => !f2IsDmrs (k % 12)) =
        (List.range (12 * n)).filter (fun k => !f2IsDmrs (k % 12)) ++
          [0, 2, 3, 5, 6, 8, 9, 11].map (fun x => 12 * n + x) := by
      rw [Nat.mul_succ, List.range_add, List.filter_append, List.filter_map]
      have : ((fun k => !f2IsDmrs (k % 12)) ∘ fun x => 12 * n + x) = fun x => !f2IsDmrs (x % 12) := by
        funext x
        simp
      rw [this, show (List.range 12).filter (fun x => !f2IsDmrs (x % 12)) = [0, 2, 3, 5, 6, 8, 9, 11] by decide]
    rw [hstep]
    by_cases h : r < n
    · rw [List.getElem?_append_left (by rw [f2_data_per_prb]; omega)]
      exact ih h
    · obtain rfl : r = n := by omega
      rw [List.getElem?_append_right (by rw [f2_data_per_prb]; omega), f2_data_per_prb, Nat.add_sub_cancel_left]
      interval_cases q <;> rfl

/-- The resource element of symbol `8 * (i * NOF_PRB + r) + q` of a Format 2 stream. -/
theorem f2DataRes_at (d : PucchDesc) (i r q : Nat) (hi : i < d.nofSym.toNat) (hr : r < d.nofPrb.toNat) (hq : q < 8) :
    (f2DataRes d)[8 * (i * d.nofPrb.toNat + r) + q]? =
      some (d.startSym.toNat + i, 12 * (prbBase d i + r) + [0, 2, 3, 5, 6, 8, 9, 11].getD q 0) := by
  have := getElem?_flatMap_const (List.range (nofSym d)) (fun i =>
    ((List.range (12 * d.nofPrb.toNat)).filter (fun k => !f2IsDmrs (k % 12))).map
      (fun k => (startSym d + i, 12 * prbBase d i + k))) (8 * d.nofPrb.toNat)
    (fun x => by rw [List.length_map, f2_data_per_prb]) i (8 * r + q) (by omega)
  rw [f2DataRes, show 8 * (i * d.nofPrb.toNat + r) + q = 8 * d.nofPrb.toNat * i + (8 * r + q) by ring, this,
    List.getElem?_range (by exact hi), Option.bind_some, List.getElem?_map, f2_data_at _ r q hr hq, Option.map_some,
    startSym]
  congr 2
  ring

/-! ## Equalized elements (42_equalizer.md R84, R85) -/

theorem reLanes_element (d : PucchDesc) (s : State) (ch : Chest) (l k : Nat) :
    reLanes d s ch l k = (elementAt d s ch l k).lanes := rfl

/-- Every term of a sum has its scale. -/
theorem Element.symbol_le (algo : EqAlgo) (r : Element) (hb : r.bad = false) (hp : 0 < r.ports) :
    ‖r.symbol algo 1‖ ≤ r.symbolScale algo 1 := by
  have hd := r.denominator_pos hb hp algo
  have hm : ‖r.matched‖ ≤ r.matchedScale := by
    refine (norm_sum_le _ _).trans (Finset.sum_le_sum (fun p hp => ?_))
    have hn := r.nv_pos hb (Finset.mem_range.1 hp)
    rw [norm_div, norm_mul, RCLike.norm_conj, Complex.norm_real, Real.norm_eq_abs, abs_of_pos hn]
  rw [Element.symbol, Element.symbolScale, hb]
  simp only [Bool.false_eq_true, if_false, Complex.ofReal_one, mul_one]
  rw [norm_div, Complex.norm_real, Real.norm_eq_abs, abs_of_pos hd]
  exact div_le_div_of_nonneg_right hm hd.le

/-- An element that is not bad, with finite samples, comes out of the equalizer as its symbol. -/
theorem equalized_is {tol : Rat} (ht : 0 ≤ tol) (algo : EqAlgo) (r : Element) (hb : r.bad = false) (hf : r.finite =
    true)
    (hp : 0 < r.ports) (held : ComplexHeld tol (r.symbol algo 1) (r.symbolScale algo 1)) :
    (streamOfEq tol (equalizeIdeal algo 1 r.lanes)).Is (r.symbol algo 1) (r.symbolScale algo 1) (r.noise algo 1) := by
  obtain ⟨z, sc, e, h1, h2, ⟨h3, h4⟩, h5, h6⟩ := equalizeIdeal_good algo 1 zero_le_one r hb hf hp
  rw [Rat.cast_one] at h2 h3 h4 h5 h6
  rw [h1]
  have hbox : (cbOf z.re z.im).Encl (r.symbol algo 1) (1 / 2 ^ 50 * r.symbolScale algo 1) := by
    rw [← h2]
    exact (cbOf_encl z.re z.im).mono (by positivity)
  exact streamSym_is ht hbox (r.symbol_le algo hb hp) h3
    (h4.trans (mul_le_mul_of_nonneg_left (by norm_num) h5)) h6 held

theorem Element.noise_pos {r : Element} (hb : r.bad = false) (hp : 0 < r.ports) (algo : EqAlgo) :
    0 < r.noise algo 1 := by
  have := r.denominator_pos hb hp algo
  unfold Element.noise
  positivity

theorem ports_pos {f : Fmt} {d : PucchDesc} {s : State} (h : stageB f d s = none) : 0 < d.nofPorts.toNat := by
  obtain ⟨-, -, -, b4, -⟩ := (stageB_none _ _ _).1 h
  simp only [failB4, Bool.or_eq_false_iff, nofPorts] at b4
  exact Nat.pos_of_ne_zero (of_decide_eq_false b4.1.1.1)

/-! ## Deprecoded blocks (41_transform_precoder.md R79, R80; 45_format234.md R119) -/

/-- The equalizer's outputs over a block of elements. -/
def equalizedBlock (algo : EqAlgo) (n : Nat) (r : Nat → Element) : List EqIdeal :=
  (List.range n).map (fun k => equalizeIdeal algo 1 (r k).lanes)

/-- What the equalizer gives an element of a closed block: nothing for a bad one, else its symbol, scale and noise
variance. -/
theorem block_element {tol : Rat} {algo : EqAlgo} {n : Nat} {r : Nat → Element} (hp : ∀ k, 0 < (r k).ports)
    (hc : BlockClosed tol algo n r) (ht : 0 ≤ tol) {k : Nat} (hk : k < n) :
    let x := equalizeIdeal algo 1 (r k).lanes
    qcValue (eqSymScale x).1 = (r k).symbol algo 1 ∧ (r k).symbolScale algo 1 ≤ (((eqSymScale x).2 : Rat) : ℝ) ∧
      (((eqSymScale x).2 : Rat) : ℝ) ≤ (r k).symbolScale algo 1 * (1 + 1 / 2 ^ 62) ∧ 0 ≤ (r k).symbolScale algo 1 ∧
      ‖(r k).symbol algo 1‖ ≤ (r k).symbolScale algo 1 ∧ eqIsOpen tol x = false ∧
      ((r k).bad = true ∧ eqE x = none ∨
        (r k).bad = false ∧ ∃ e, eqE x = some e ∧ ((e : Rat) : ℝ) = (r k).noise algo 1) := by
  intro x
  cases hb : (r k).bad with
  | true =>
    have hx : x = .bad := by
      show equalizeIdeal algo 1 (r k).lanes = .bad
      rw [equalizeIdeal, if_pos (by rw [eqIsBad_lanes, hb])]
    rw [hx]
    have zero : qcValue (⟨0, 0⟩ : QC) = 0 := by simp [qcValue, Complex.ext_iff]
    simp [Element.symbol, Element.symbolScale, hb, eqSymScale, zero, eqIsOpen, eqE]
  | false =>
    obtain ⟨hf, held⟩ := hc k hk hb
    obtain ⟨z, sc, e, h1, h2, ⟨h3, h4⟩, h5, h6⟩ := equalizeIdeal_good algo 1 zero_le_one (r k) hb hf (hp k)
    rw [Rat.cast_one] at h2 h3 h4 h5 h6
    have hx : x = .good z sc e := h1
    rw [hx]
    refine ⟨h2, h3, h4.trans (mul_le_mul_of_nonneg_left (by norm_num) h5), h5, (r k).symbol_le algo hb (hp k), ?_,
      .inr ⟨rfl, e, rfl, h6⟩⟩
    obtain ⟨v, v1, v2⟩ := held
    have : cAdmitsSome (.disk (cbOf z.re z.im) (tol * sc)) = true := by
      refine cAdmits_sample ?_ (cAdmits_near (z := (r k).symbol algo 1) ?_ ?_ v1 v2)
      · rintro box' rad e
        cases e
        exact ⟨le_refl _, le_refl _⟩
      · rw [← h2]
        exact cbOf_has z.re z.im
      · push_cast
        exact mul_le_mul_of_nonneg_left h3 (by exact_mod_cast ht)
    simp [eqIsOpen, this]

/-- The mean of the noise variances of the elements that are not bad. -/
theorem block_mean {tol : Rat} {algo : EqAlgo} {n : Nat} {r : Nat → Element} (hp : ∀ k, 0 < (r k).ports)
    (hc : BlockClosed tol algo n r) (ht : 0 ≤ tol) :
    ((meanOf ((equalizedBlock algo n r).filterMap eqE) : Rat) : ℝ) = blockNoise algo n r := by
  have key : ∀ m, m ≤ n →
      ((ratSum ((equalizedBlock algo m r).filterMap eqE) : Rat) : ℝ) =
        ∑ k ∈ Finset.range m, (if (r k).bad then 0 else (r k).noise algo 1) ∧
      ((equalizedBlock algo m r).filterMap eqE).length = ((Finset.range m).filter (fun k => (r k).bad =
          false)).card := by
    intro m hm
    induction m with
    | zero => simp [equalizedBlock, ratSum]
    | succ m ih =>
      obtain ⟨i1, i2⟩ := ih (by omega)
      obtain ⟨-, -, -, -, -, -, hcase⟩ := block_element hp hc ht (k := m) (by omega)
      have happ : equalizedBlock algo (m + 1) r = equalizedBlock algo m r ++ [equalizeIdeal algo 1 (r m).lanes] := by
        rw [equalizedBlock, List.range_succ, List.map_append]
        rfl
      rw [happ, List.filterMap_append, Finset.sum_range_succ, Finset.range_add_one, Finset.filter_insert]
      rw [ratSum_cast] at i1 ⊢
      rw [List.map_append, List.sum_append, i1, List.length_append, i2]
      rcases hcase with ⟨hb, he⟩ | ⟨hb, e, he, hv⟩
      · simp [hb, he]
      · simp [hb, he, hv]
  obtain ⟨k1, k2⟩ := key n le_rfl
  rw [meanOf, blockNoise]
  push_cast
  rw [k1, k2]

theorem blockNoise_pos {algo : EqAlgo} {n : Nat} {r : Nat → Element} (hp : ∀ k, 0 < (r k).ports) {m : Nat} (hm : m < n)
    (hb : (r m).bad = false) : 0 < blockNoise algo n r := by
  refine div_pos ?_ ?_
  · refine Finset.sum_pos' (fun k _ => ?_) ⟨m, Finset.mem_range.2 hm, ?_⟩
    · split
      · exact le_rfl
      · rename_i h
        exact (Element.noise_pos (by simpa using h) (hp k) algo).le
    · rw [hb]
      exact Element.noise_pos hb (hp m) algo
  · exact_mod_cast Finset.card_pos.2 ⟨m, Finset.mem_filter.2 ⟨Finset.mem_range.2 hm, hb⟩⟩

theorem deprecodeValue_le (n : Nat) (x : Nat → ℂ) (scale : Nat → ℝ) (h : ∀ k, k < n → ‖x k‖ ≤ scale k) (m : Nat) :
    ‖deprecodeValue n x m‖ ≤ deprecodeScaleValue n scale := by
  have hA : (0 : ℝ) ≤ 1 / Real.sqrt n := by positivity
  rw [deprecodeValue, deprecodeScaleValue, norm_mul, Complex.norm_real, Real.norm_eq_abs, abs_of_nonneg hA]
  refine mul_le_mul_of_nonneg_left ((norm_sum_le _ _).trans (Finset.sum_le_sum (fun k hk => ?_))) hA
  rw [norm_mul, rootOf_norm, mul_one]
  exact h k (Finset.mem_range.1 hk)

theorem f34Deprecoded_at {tol : Rat} {block : List EqIdeal} {m : Nat} {x : EqIdeal} (h : block[m]? = some x)
    (he : (eqE x).isNone = false) (ho : block.any (eqIsOpen tol) = false) :
    (f34Deprecoded tol block)[m]? = some (streamSym tol (deprecodeIdeal ((block.map eqSymScale).map (·.1)) m)
      (deprecodeScale ((block.map eqSymScale).map (·.2))) (meanOf (block.filterMap eqE))) := by
  simp only [f34Deprecoded, List.getElem?_mapIdx, h, Option.map_some, he, ho, Bool.false_eq_true, if_false]

/-- An element of a closed block that is not bad comes out of the deprecoder as its deprecoded symbol, with the mean noise
variance. -/
theorem deprecoded_is {tol : Rat} {algo : EqAlgo} {n : Nat} {r : Nat → Element} (ht : 0 ≤ tol)
    (hp : ∀ k, 0 < (r k).ports) (hc : BlockClosed tol algo n r) {m : Nat} (hm : m < n) (hb : (r m).bad = false)
    (held : ComplexHeld tol (deprecodeValue n (fun k => (r k).symbol algo 1) m)
      (deprecodeScaleValue n (fun k => (r k).symbolScale algo 1))) :
    ∃ x, (f34Deprecoded tol (equalizedBlock algo n r))[m]? = some x ∧
      x.Is (deprecodeValue n (fun k => (r k).symbol algo 1) m)
        (deprecodeScaleValue n (fun k => (r k).symbolScale algo 1)) (blockNoise algo n r) := by
  obtain ⟨block, hblock⟩ : ∃ block, block = equalizedBlock algo n r := ⟨_, rfl⟩
  rw [← hblock]
  have hlen : block.length = n := by simp [hblock, equalizedBlock]
  have hat (k : Nat) (hk : k < n) : block[k]? = some (equalizeIdeal algo 1 (r k).lanes) := by
    rw [hblock, equalizedBlock, List.getElem?_map, List.getElem?_range hk, Option.map_some]
  have hopen : block.any (eqIsOpen tol) = false := by
    rw [List.any_eq_false]
    intro x hx
    rw [hblock] at hx
    obtain ⟨k, hk, rfl⟩ := List.mem_map.1 hx
    obtain ⟨-, -, -, -, -, h, -⟩ := block_element hp hc ht (List.mem_range.1 hk)
    simp [h]
  have hE : (eqE (equalizeIdeal algo 1 (r m).lanes)).isNone = false := by
    obtain ⟨-, -, -, -, -, -, ⟨h, -⟩ | ⟨-, e, he, -⟩⟩ := block_element hp hc ht hm
    · rw [hb] at h
      cases h
    · rw [he]
      rfl
  obtain ⟨xs, hxs⟩ : ∃ xs, xs = block.map eqSymScale := ⟨_, rfl⟩
  have hx1 (k : Nat) (hk : k < n) : (xs.map (·.1)).getD k ⟨0, 0⟩ = (eqSymScale (equalizeIdeal algo 1
      (r k).lanes)).1 := by
    rw [List.getD_eq_getElem?_getD, hxs, List.getElem?_map, List.getElem?_map, hat k hk]
    rfl
  have hx2 (k : Nat) (hk : k < n) : (xs.map (·.2)).getD k 0 = (eqSymScale (equalizeIdeal algo 1 (r k).lanes)).2 := by
    rw [List.getD_eq_getElem?_getD, hxs, List.getElem?_map, List.getElem?_map, hat k hk]
    rfl
  have hl1 : (xs.map (·.1)).length = n := by simp [hxs, hlen]
  have hl2 : (xs.map (·.2)).length = n := by simp [hxs, hlen]
  have hsym (k : Nat) (hk : k < n) : qcValue ((xs.map (·.1)).getD k ⟨0, 0⟩) = (r k).symbol algo 1 := by
    rw [hx1 k hk]
    exact (block_element hp hc ht hk).1
  have hval : deprecodeValue n (fun k => qcValue ((xs.map (·.1)).getD k ⟨0, 0⟩)) m =
      deprecodeValue n (fun k => (r k).symbol algo 1) m := by
    unfold deprecodeValue
    congr 1
    exact Finset.sum_congr rfl (fun k hk => by dsimp only; rw [hsym k (Finset.mem_range.1 hk)])
  have hA : (0 : ℝ) ≤ 1 / Real.sqrt n := by positivity
  have hnn : 0 ≤ deprecodeScaleValue n (fun k => (r k).symbolScale algo 1) :=
    mul_nonneg hA (Finset.sum_nonneg (fun k hk => (block_element hp hc ht (Finset.mem_range.1 hk)).2.2.2.1))
  have hencl := deprecodeIdeal_encl (xs.map (·.1)) m
  rw [hl1, hval] at hencl
  have hle : deprecodeScaleValue n (fun k => ‖qcValue ((xs.map (·.1)).getD k ⟨0, 0⟩)‖) ≤
      deprecodeScaleValue n (fun k => (r k).symbolScale algo 1) := by
    refine mul_le_mul_of_nonneg_left (Finset.sum_le_sum (fun k hk => ?_)) hA
    have hk := Finset.mem_range.1 hk
    rw [hsym k hk]
    exact (block_element hp hc ht hk).2.2.2.2.1
  obtain ⟨s1, s2⟩ := deprecodeScale_bounds (xs.map (·.2)) (fun k => (r k).symbolScale algo 1)
    (fun k hk => (block_element hp hc ht (by rwa [hl2] at hk)).2.2.2.1)
    (fun k hk => by
      rw [hl2] at hk
      rw [hx2 k hk]
      obtain ⟨-, h2, h3, -⟩ := block_element hp hc ht hk
      exact ⟨h2, h3⟩)
  rw [hl2] at s1 s2
  have hmean : ((meanOf (block.filterMap eqE) : Rat) : ℝ) = blockNoise algo n r := by
    rw [hblock]
    exact block_mean hp hc ht
  refine ⟨streamSym tol (deprecodeIdeal (xs.map (·.1)) m) (deprecodeScale (xs.map (·.2))) (meanOf
      (block.filterMap eqE)),
    ?_, ?_⟩
  · rw [f34Deprecoded_at (hat m hm) hE hopen, hxs]
  · refine streamSym_is ht (hencl.mono ?_) (deprecodeValue_le _ _ _ (fun k hk => (block_element hp hc ht
        hk).2.2.2.2.1) m) s1
      (s2.trans (mul_le_mul_of_nonneg_left (by norm_num) hnn)) hmean held
    have h0 : 0 ≤ deprecodeScaleValue n (fun k => ‖qcValue ((xs.map (·.1)).getD k ⟨0, 0⟩)‖) :=
      mul_nonneg hA (Finset.sum_nonneg (fun k _ => norm_nonneg _))
    linarith

/-! ## Despread symbols (45_format234.md R117) -/

/-- Copies that are symbols come out of the despreader as their average. -/
theorem despread_is {tol : Rat} (ht : 0 ≤ tol) {sf : Nat} {turn : Nat → Nat} {x : Nat → StreamSym} {sym : Nat → ℂ}
    {scale e : Nat → ℝ} (hx : ∀ q, q < sf → (x q).Is (sym q) (scale q) (e q)) (hw : ∀ q, q < sf → turn q < 4)
    (held : ComplexHeld tol (1 / sf * ∑ q ∈ Finset.range sf, starRingEnd ℂ (Complex.I ^ turn q) * sym q)
      (1 / sf * ∑ q ∈ Finset.range sf, scale q)) :
    (despreadCopies tol sf ((List.range sf).map (fun q => (4 - turn q, x q)))).Is
      (1 / sf * ∑ q ∈ Finset.range sf, starRingEnd ℂ (Complex.I ^ turn q) * sym q)
      (1 / sf * ∑ q ∈ Finset.range sf, scale q) (1 / (sf : ℝ) ^ 2 * ∑ q ∈ Finset.range sf, e q) := by
  have parts (q : Nat) (hq : q < sf) : ∃ box sc er, streamParts (x q) = (box, sc, er) ∧
      box.Encl (sym q) (1 / 2 ^ 50 * scale q) ∧ ‖sym q‖ ≤ scale q ∧ scale q ≤ ((sc : Rat) : ℝ) ∧
      ((sc : Rat) : ℝ) ≤ scale q * (1 + 1 / 2 ^ 50) ∧ ((er : Rat) : ℝ) = e q ∧ (x q == .unusable) = false ∧
      streamIsOpen (x q) = false := by
    obtain ⟨box, sc, er, h, h1, h2, h3, h4, h5⟩ := hx q hq
    rw [h]
    exact ⟨box, sc, er, rfl, h1, h2, h3, h4, h5, rfl, rfl⟩
  have conj (k : Nat) (hk : k < 4) : starRingEnd ℂ (Complex.I ^ k) = Complex.I ^ (4 - k) := by
    interval_cases k <;> simp [pow_succ]
  set copies := (List.range sf).map (fun q => (4 - turn q, x q)) with hcopies
  have c1 : copies.any (fun c => c.2 == .unusable) = false := by
    rw [List.any_eq_false]
    intro c hc
    obtain ⟨q, hq, rfl⟩ := List.mem_map.1 hc
    obtain ⟨_, _, _, -, -, -, -, -, -, h, -⟩ := parts q (List.mem_range.1 hq)
    simpa using h
  have c2 : copies.any (fun c => streamIsOpen c.2) = false := by
    rw [List.any_eq_false]
    intro c hc
    obtain ⟨q, hq, rfl⟩ := List.mem_map.1 hc
    obtain ⟨_, _, _, -, -, -, -, -, -, -, h⟩ := parts q (List.mem_range.1 hq)
    simp [h]
  have hcop : despreadCopies tol sf copies = streamSym tol
      (cbScale (1 / (sf : Rat)) (cbSum (copies.map (fun c => cbQuarter c.1 (streamParts c.2).1))))
      (1 / (sf : Rat) * ratSum (copies.map (fun c => (streamParts c.2).2.1)))
      (1 / (sf : Rat) * (1 / (sf : Rat)) * ratSum (copies.map (fun c => (streamParts c.2).2.2))) := by
    rw [despreadCopies]
    dsimp only
    rw [c1, c2]
    rfl
  have f0 : (0 : ℝ) ≤ 1 / (sf : ℝ) := by positivity
  have hs (q : Nat) (hq : q < sf) : 0 ≤ scale q := by
    obtain ⟨_, _, _, -, -, h, -⟩ := parts q hq
    exact (norm_nonneg _).trans h
  rw [hcop]
  have hsum := cbSum_encl (List.range sf) (fun q => cbQuarter (4 - turn q) (streamParts (x q)).1)
    (fun q => starRingEnd ℂ (Complex.I ^ turn q) * sym q) (fun q => 1 / 2 ^ 50 * scale q) (fun q hq => by
      have hq := List.mem_range.1 hq
      obtain ⟨box, sc, er, h, h1, -⟩ := parts q hq
      rw [h, conj _ (hw q hq)]
      exact cbQuarter_encl _ h1)
  rw [sum_map_range, sum_map_range] at hsum
  have hbox := cbScale_encl (1 / (sf : Rat)) hsum
  refine streamSym_is ht ?_ ?_ ?_ ?_ ?_ held
  · rw [hcopies, List.map_map]
    have e1 : ((1 / (sf : Rat) : Rat) : ℂ) = 1 / (sf : ℂ) := by push_cast; rfl
    rw [e1] at hbox
    refine hbox.mono (le_of_eq ?_)
    push_cast
    rw [abs_of_nonneg f0, ← Finset.mul_sum]
    ring
  · rw [norm_mul]
    have e1 : ‖(1 / (sf : ℂ))‖ = 1 / (sf : ℝ) := by simp
    rw [e1]
    refine mul_le_mul_of_nonneg_left ((norm_sum_le _ _).trans (Finset.sum_le_sum (fun q hq => ?_))) f0
    obtain ⟨_, _, _, -, -, h, -⟩ := parts q (Finset.mem_range.1 hq)
    rw [norm_mul, RCLike.norm_conj, norm_pow, Complex.norm_I, one_pow, one_mul]
    exact h
  · push_cast
    rw [ratSum_cast, hcopies, List.map_map, List.map_map, sum_map_range]
    refine mul_le_mul_of_nonneg_left (Finset.sum_le_sum (fun q hq => ?_)) f0
    obtain ⟨box, sc, er, h, -, -, h3, -⟩ := parts q (Finset.mem_range.1 hq)
    simp only [Function.comp, h]
    exact h3
  · push_cast
    rw [ratSum_cast, hcopies, List.map_map, List.map_map, sum_map_range, mul_assoc, Finset.sum_mul]
    refine mul_le_mul_of_nonneg_left (Finset.sum_le_sum (fun q hq => ?_)) f0
    obtain ⟨box, sc, er, h, -, -, -, h4, -⟩ := parts q (Finset.mem_range.1 hq)
    simp only [Function.comp, h]
    exact h4
  · push_cast
    rw [ratSum_cast, hcopies, List.map_map, List.map_map, sum_map_range]
    rw [show (1 / (sf : ℝ) * (1 / sf)) = 1 / (sf : ℝ) ^ 2 by ring]
    congr 1
    refine Finset.sum_congr rfl (fun q hq => ?_)
    obtain ⟨box, sc, er, h, -, -, -, -, h5, -⟩ := parts q (Finset.mem_range.1 hq)
    simp only [Function.comp, h]
    exact h5

/-! ## Unusable symbols (45_format234.md R120) -/

theorem llrByte_zero (p : Params) (epoch n : Nat) (bit : Bool) : llrByte p epoch n (llrFlip bit .zero) = 0#8 := by
  simp [llrFlip, llrByte, llrLevels, drawFrom]

/-- An unusable symbol of a QPSK stream has two LLR bytes of 0 (45_format234.md R120). -/
theorem unusable_qpsk {d : PucchDesc} {s : State} {stream : List StreamSym} {m : Memory}
    (hm : HoldsLlrs d s 2 stream m) {n : Nat} (hx : stream[n]? = some .unusable) :
    memByte m (d.bufAddr.toNat + 2 * n) = 0#8 ∧ memByte m (d.bufAddr.toNat + (2 * n + 1)) = 0#8 := by
  have at_ (j : Nat) (hj : j < 2) : memByte m (d.bufAddr.toNat + (2 * n + j)) = 0#8 := by
    apply hm
    have hs : (stream.mapIdx (settled s.draws))[n]? = some .unusable := by
      rw [List.getElem?_mapIdx, hx]
      rfl
    have hz : (llrsQpsk s.params.tol .unusable)[j]? = some .zero := by interval_cases j <;> rfl
    rw [llrBytes, llrs, if_neg (by decide), List.getElem?_mapIdx,
      getElem?_flatMap_const _ _ 2 (fun x => by cases x <;> rfl) n j hj, hs, Option.bind_some, hz, Option.map_some,
      llrByte_zero]
  exact ⟨at_ 0 (by omega), at_ 1 (by omega)⟩

/-- An unusable symbol of a pi/2-BPSK stream has an LLR byte of 0 (45_format234.md R120). -/
theorem unusable_bpsk {d : PucchDesc} {s : State} {stream : List StreamSym} {m : Memory}
    (hm : HoldsLlrs d s 1 stream m) {n : Nat} (hx : stream[n]? = some .unusable) :
    memByte m (d.bufAddr.toNat + n) = 0#8 := by
  apply hm
  have hs : (stream.mapIdx (settled s.draws))[n]? = some .unusable := by
    rw [List.getElem?_mapIdx, hx]
    rfl
  have single (i : Nat) (x : StreamSym) :
      llrsBpsk s.params.tol i x = [(llrsBpsk s.params.tol i x).headD .zero] := by cases x <;> rfl
  rw [llrBytes, llrs, if_pos rfl, flatten_mapIdx_single _ _ single, List.getElem?_mapIdx, List.getElem?_mapIdx, hs,
    Option.map_some, Option.map_some]
  exact congrArg some (llrByte_zero _ _ _ _)

theorem equalized_bad (algo : EqAlgo) (sf : Rat) (r : Element) (hb : r.bad = true) :
    equalizeIdeal algo sf r.lanes = .bad := by
  rw [equalizeIdeal, if_pos (by rw [eqIsBad_lanes, hb])]

/-- A bad element of a block comes out of the deprecoder as unusable, whatever the others hold. -/
theorem deprecoded_bad {tol : Rat} {algo : EqAlgo} {n : Nat} {r : Nat → Element} {m : Nat} (hm : m < n)
    (hb : (r m).bad = true) : (f34Deprecoded tol (equalizedBlock algo n r))[m]? = some .unusable := by
  have : (equalizedBlock algo n r)[m]? = some .bad := by
    rw [equalizedBlock, List.getElem?_map, List.getElem?_range hm, Option.map_some, equalized_bad _ _ _ hb]
  simp only [f34Deprecoded, List.getElem?_mapIdx, this, Option.map_some]
  rfl

/-- Copies of which one is unusable come out of the despreader as unusable. -/
theorem despread_bad {tol : Rat} {sf : Nat} {copies : List (Nat × StreamSym)} (h : ∃ c ∈ copies, c.2 = .unusable) :
    despreadCopies tol sf copies = .unusable := by
  obtain ⟨c, hc, h⟩ := h
  rw [despreadCopies]
  dsimp only
  rw [if_pos (List.any_eq_true.2 ⟨c, hc, by rw [h]; rfl⟩)]

end Sys2Proof.Machine
end

