-- ==== Sys2Proof/Laws/Components.lean ====
section
/-! SUPPORT. The values that the component commands return (41_transform_precoder.md R79, 42_equalizer.md R85). -/

namespace Sys2Proof.Machine

/-- A pair of zeros is finite and has the value 0. -/
theorem c64IsZero_value {z : C64} (h : c64IsZero z = true) : c64Finite z = true ∧ complexOf z = 0 := by
  simp only [c64IsZero, Bool.and_eq_true] at h
  have fin (x : F32) (hx : f32IsZero x = true) : f32Finite x = true := by
    have he : x.extractLsb' 23 8 = 0#8 := by
      simp only [f32IsZero, beq_iff_eq] at hx
      apply BitVec.eq_of_getLsbD_eq
      intro i hi
      have := congrArg (fun y : BitVec 31 => y.getLsbD (23 + i)) hx
      simp only [BitVec.getLsbD_extractLsb', BitVec.getLsbD_zero] at this ⊢
      simp [show 23 + i < 31 by omega] at this
      simp [hi, this]
    simp [f32Finite, f32Exp, he]
  refine ⟨by simp [c64Finite, fin _ h.1, fin _ h.2], ?_⟩
  rw [complexOf, realOf, realOf, (f32IsZero_iff _).1 h.1, (f32IsZero_iff _).1 h.2]
  simp [Complex.ext_iff]

/-- A finite pair of the value 0 is a pair of zeros. -/
theorem c64IsZero_of_value {z : C64} (h : complexOf z = 0) : c64IsZero z = true := by
  have hr := congrArg Complex.re h
  have hi := congrArg Complex.im h
  simp only [complexOf, realOf, Complex.zero_re, Complex.zero_im] at hr hi
  simp only [c64IsZero, Bool.and_eq_true]
  exact ⟨(f32IsZero_iff _).2 (by exact_mod_cast hr), (f32IsZero_iff _).2 (by exact_mod_cast hi)⟩

/-- An output of the deprecoder on finite inputs (41_transform_precoder.md R79). -/
theorem deprecoded_returns {tol : Rat} (ht : 0 ≤ tol) {n : Nat} {x : Nat → C64} (hf : ∀ k, k < n → c64Finite (x k) = true)
    (m : Nat) (id : DrawId) :
    ReturnsComplex tol (deprecodeValue n (fun k => complexOf (x k)) m) (deprecodeScaleValue n (fun k => ‖complexOf (x k)‖))
      (drawC64 (deprecodeAdmitted tol ((List.range n).map x) m) id) := by
  intro held
  obtain ⟨xs, hxs⟩ : ∃ xs, xs = (List.range n).map x := ⟨_, rfl⟩
  rw [← hxs]
  have hfin : xs.all c64Finite = true := by
    rw [List.all_eq_true, hxs]
    intro z hz
    obtain ⟨k, hk, rfl⟩ := List.mem_map.1 hz
    exact hf k (List.mem_range.1 hk)
  have hl : xs.length = n := by simp [hxs]
  have hat (k : Nat) (hk : k < n) : xs[k]? = some (x k) := by simp [hxs, hk]
  have h1 (k : Nat) (hk : k < n) : qcValue ((xs.map qcOf).getD k ⟨0, 0⟩) = complexOf (x k) := by
    rw [List.getD_eq_getElem?_getD, List.getElem?_map, hat k hk]
    rfl
  have h2 (k : Nat) (hk : k < n) : (xs.map (fun z => qcAbsHi (qcOf z))).getD k 0 = qcAbsHi (qcOf (x k)) := by
    rw [List.getD_eq_getElem?_getD, List.getElem?_map, hat k hk]
    rfl
  have hencl := deprecodeIdeal_encl (xs.map qcOf) m
  rw [List.length_map, hl] at hencl
  have hv : deprecodeValue n (fun k => qcValue ((xs.map qcOf).getD k ⟨0, 0⟩)) m =
      deprecodeValue n (fun k => complexOf (x k)) m := by
    unfold deprecodeValue
    congr 1
    exact Finset.sum_congr rfl (fun k hk => by dsimp only; rw [h1 k (Finset.mem_range.1 hk)])
  have hs : deprecodeScaleValue n (fun k => ‖qcValue ((xs.map qcOf).getD k ⟨0, 0⟩)‖) =
      deprecodeScaleValue n (fun k => ‖complexOf (x k)‖) := by
    unfold deprecodeScaleValue
    congr 1
    exact Finset.sum_congr rfl (fun k hk => by dsimp only; rw [h1 k (Finset.mem_range.1 hk)])
  rw [hv, hs] at hencl
  obtain ⟨s1, s2⟩ := deprecodeScale_bounds (xs.map (fun z => qcAbsHi (qcOf z))) (fun k => ‖complexOf (x k)‖)
    (fun k _ => norm_nonneg _) (fun k hk => by
      rw [List.length_map, hl] at hk
      rw [h2 k hk]
      obtain ⟨b1, b2⟩ := qcAbsHi_bounds (x k)
      exact ⟨b1, b2.trans (mul_le_mul_of_nonneg_left (by norm_num) (norm_nonneg _))⟩)
  rw [List.length_map, hl] at s1 s2
  have ht' : (0 : ℝ) ≤ tol := by exact_mod_cast ht
  have hA : (0 : ℝ) ≤ 1 / Real.sqrt n := by positivity
  have hS : 0 ≤ deprecodeScaleValue n (fun k => ‖complexOf (x k)‖) :=
    mul_nonneg hA (Finset.sum_nonneg (fun k _ => norm_nonneg _))
  have hsc : (0 : Rat) ≤ deprecodeScale (xs.map (fun z => qcAbsHi (qcOf z))) := by
    exact_mod_cast hS.trans s1
  rw [deprecodeAdmitted, if_pos hfin]
  obtain ⟨r1, r2⟩ := cDraw_near hencl (bound := tol * deprecodeScaleValue n (fun k => ‖complexOf (x k)‖))
    (b := tol * deprecodeScale (xs.map (fun z => qcAbsHi (qcOf z))))
    (by push_cast; exact mul_le_mul_of_nonneg_left s1 ht') (mul_nonneg ht hsc) id held
  refine ⟨r1, r2.trans ?_⟩
  push_cast
  have := mul_le_mul_of_nonneg_left s2 ht'
  rw [errorBound]
  generalize deprecodeScaleValue n (fun k => ‖complexOf (x k)‖) = S at *
  nlinarith [mul_nonneg ht' hS]

/-- What the equalizer returns for an element that is not bad (42_equalizer.md R85): a finite positive noise variance
within its error bound, and where the samples are finite a symbol within its own. -/
theorem equalized_returns {tol : Rat} (ht : 0 ≤ tol) (ht1 : tol < 1) (algo : EqAlgo) {sf : Rat} (hsf : 0 ≤ sf) (r : Element)
    (hb : r.bad = false) (hp : 0 < r.ports) (epoch n : Nat) :
    let x := equalizeIdeal algo sf r.lanes
    goodNv (eqNoise tol epoch n x) = true ∧
      (0 < sf → ReturnsReal tol (r.noise algo sf) (r.noise algo sf) (eqNoise tol epoch n x)) ∧
      (r.finite = true → ReturnsComplex tol (r.symbol algo sf) (r.symbolScale algo sf) (eqSymbol tol epoch n x)) := by
  intro x
  have hd := r.denominator_pos hb hp algo
  have ht' : (0 : ℝ) ≤ tol := by exact_mod_cast ht
  obtain ⟨e, he, hx⟩ : ∃ e, ((e : Rat) : ℝ) = r.noise algo sf ∧
      eqNoise tol epoch n x = drawF32 (.goodWithin (e - tol * e) (e + tol * e)) ⟨epoch, .eqNoise, n⟩ := by
    cases hf : r.finite with
    | true =>
      obtain ⟨z, sc, e, h1, -, -, -, h6⟩ := equalizeIdeal_good algo sf hsf r hb hf hp
      exact ⟨e, h6, by rw [show x = _ from h1]; rfl⟩
    | false =>
      refine ⟨sf * sf / eqDenominator algo r.lanes, ?_, ?_⟩
      · push_cast
        rw [eqDenominator_lanes, Element.noise, sq]
      · have : x = .openSymbol (sf * sf / eqDenominator algo r.lanes) := by
          show equalizeIdeal algo sf r.lanes = _
          rw [equalizeIdeal, if_neg (by rw [eqIsBad_lanes, hb]; simp), if_neg (by rw [finite_lanes, hf]; simp)]
        rw [this]
        rfl
  refine ⟨by rw [hx]; exact drawF32_goodWithin _ _ _, fun hpos held => ?_, fun hf held => ?_⟩
  · obtain ⟨v, v1, v2⟩ := held
    have hn : 0 < r.noise algo sf := by
      have : (0 : ℝ) < sf := by exact_mod_cast hpos
      unfold Element.noise
      positivity
    have hs : (0 : ℝ) < sf := by exact_mod_cast hpos
    obtain ⟨c1, c2⟩ := abs_le.1 v2
    rw [← he] at c1 c2 hn ⊢
    have g1 : e - tol * e ≤ f32Rat v := by
      have : ((e - tol * e : Rat) : ℝ) ≤ realOf v := by push_cast; linarith
      exact (Rat.cast_le (K := ℝ)).1 this
    have g2 : f32Rat v ≤ e + tol * e := by
      have : realOf v ≤ ((e + tol * e : Rat) : ℝ) := by push_cast; linarith
      exact (Rat.cast_le (K := ℝ)).1 this
    have he0 : 0 < e := by exact_mod_cast hn
    have hv : admits (.goodWithin (e - tol * e) (e + tol * e)) v = true := by
      have hg : goodNv v = true := (goodNv_iff v).2 ⟨v1, by nlinarith⟩
      simp [admits, hg, g1, g2]
    have hd := drawF32_admits (id := ⟨epoch, .eqNoise, n⟩) ⟨v, hv⟩
    rw [hx]
    generalize drawF32 (.goodWithin (e - tol * e) (e + tol * e)) ⟨epoch, .eqNoise, n⟩ = w at hd
    simp only [admits, Bool.and_eq_true, decide_eq_true_eq] at hd
    obtain ⟨⟨d1, d2⟩, d3⟩ := hd
    have d2 := (Rat.cast_le (K := ℝ)).2 d2
    have d3 := (Rat.cast_le (K := ℝ)).2 d3
    push_cast at d2 d3
    refine ⟨((goodNv_iff w).1 d1).1, ?_⟩
    rw [errorBound, abs_le]
    unfold realOf
    constructor <;> nlinarith [mul_nonneg ht' hn.le]
  · obtain ⟨z, sc, e', h1, h2, ⟨h3, h4⟩, h5, -⟩ := equalizeIdeal_good algo sf hsf r hb hf hp
    rw [show x = _ from h1]
    have hbox : (cbOf z.re z.im).Encl (r.symbol algo sf) 0 := by
      rw [← h2]
      exact cbOf_encl z.re z.im
    have hsc : (0 : Rat) ≤ sc := by exact_mod_cast h5.trans h3
    obtain ⟨r1, r2⟩ := cDraw_near hbox (bound := tol * r.symbolScale algo sf) (b := tol * sc)
      (by push_cast; exact mul_le_mul_of_nonneg_left h3 ht') (mul_nonneg ht hsc) ⟨epoch, .eqSymbol, n⟩ held
    refine ⟨r1, r2.trans ?_⟩
    push_cast
    rw [errorBound]
    have := mul_le_mul_of_nonneg_left h4 ht'
    generalize r.symbolScale algo sf = S at *
    nlinarith [mul_nonneg ht' h5]

end Sys2Proof.Machine
end

