-- ==== Sys2Proof/Laws/Detector.lean ====
section
/-! SUPPORT. The sums of the Format 0 and Format 1 detectors over the complex numbers, where the base sequences are given
exactly (43_format0.md R93, 44_format1.md R102 to R107). -/

namespace Sys2Proof.Machine

/-! ## Formal sums with exact coefficients -/

/-- The value of a term whose coefficient is a point. -/
noncomputable def Term.value (t : Term) : ℂ := ⟨(t.coef.re.lo : ℝ), (t.coef.im.lo : ℝ)⟩ * rootOf (t.turn : ℝ)

/-- The value of a formal sum whose coefficients are points. -/
noncomputable def csValue (s : CSum) : ℂ := (s.map Term.value).sum

/-- The sum of the magnitudes of the terms. -/
noncomputable def csNorm (s : CSum) : ℝ := (s.map (fun t => ‖t.value‖)).sum

/-- Every coefficient is a point. -/
def CSum.Exact (s : CSum) : Prop := ∀ t ∈ s, cbIsPoint t.coef = true

theorem cbIsPoint_encl {b : CBox} (h : cbIsPoint b = true) : b.Encl ⟨(b.re.lo : ℝ), (b.im.lo : ℝ)⟩ 0 := by
  simp only [cbIsPoint, Bool.and_eq_true, beq_iff_eq] at h
  exact ⟨⟨⟨le_rfl, by rw [← h.1]⟩, by rw [← h.1]; simp⟩, ⟨⟨le_rfl, by rw [← h.2]⟩, by rw [← h.2]; simp⟩⟩

/-- An enclosure of width 0 is the point itself. -/
theorem point_of_encl {b : CBox} {z : ℂ} (h : b.Encl z 0) :
    cbIsPoint b = true ∧ (⟨(b.re.lo : ℝ), (b.im.lo : ℝ)⟩ : ℂ) = z := by
  have pt {a : Ival} {x : ℝ} (h : a.Encl x 0) : a.lo = a.hi ∧ (a.lo : ℝ) = x := by
    obtain ⟨⟨e1, e2⟩, e3⟩ := h
    have e4 : (a.lo : ℝ) = a.hi := by linarith
    exact ⟨by exact_mod_cast e4, by linarith⟩
  obtain ⟨a1, a2⟩ := pt h.1
  obtain ⟨b1, b2⟩ := pt h.2
  exact ⟨by rw [cbIsPoint, a1, b1, beq_self_eq_true, beq_self_eq_true]; rfl, Complex.ext a2 b2⟩

theorem csNorm_nonneg (s : CSum) : 0 ≤ csNorm s :=
  List.sum_nonneg (fun x hx => by
    obtain ⟨t, -, rfl⟩ := List.mem_map.1 hx
    exact norm_nonneg _)

theorem csValue_le (s : CSum) : ‖csValue s‖ ≤ csNorm s := by
  induction s with
  | nil => simp [csValue, csNorm]
  | cons t s ih =>
    simp only [csValue, csNorm, List.map_cons, List.sum_cons] at *
    exact (norm_add_le _ _).trans (add_le_add_right ih _)

/-- The enclosure of an exact sum is tight. -/
theorem csBox_encl {s : CSum} (h : s.Exact) : (csBox s).Encl (csValue s) (1 / 2 ^ 60 * csNorm s) := by
  have := cbSum_encl s (fun t => cbMul t.coef (cis t.turn)) Term.value (fun t => 1 / 2 ^ 60 * ‖t.value‖) (fun t ht => by
    have hm := cbMul_encl (cbIsPoint_encl (h t ht)) (cis_encl t.turn) le_rfl (le_of_eq (rootOf_norm _))
    have hn : ‖t.value‖ = ‖(⟨(t.coef.re.lo : ℝ), (t.coef.im.lo : ℝ)⟩ : ℂ)‖ := by
      rw [Term.value, norm_mul, rootOf_norm, mul_one]
    refine hm.mono (le_of_eq ?_)
    rw [hn]
    ring)
  rw [List.sum_map_mul_left] at this
  exact this

theorem csRot_exact {s : CSum} (h : s.Exact) (turn : Rat) : (csRot turn s).Exact := by
  intro t ht
  obtain ⟨u, hu, rfl⟩ := List.mem_map.1 ht
  exact h u hu

theorem csRot_value (s : CSum) (turn : Rat) : csValue (csRot turn s) = rootOf (turn : ℝ) * csValue s := by
  induction s with
  | nil => simp [csRot, csValue]
  | cons t s ih =>
    simp only [csRot, csValue, List.map_cons, List.sum_cons] at *
    rw [ih, mul_add]
    congr 1
    simp only [Term.value]
    push_cast
    rw [rootOf_add]
    ring

theorem csRot_norm (s : CSum) (turn : Rat) : csNorm (csRot turn s) = csNorm s := by
  induction s with
  | nil => rfl
  | cons t s ih =>
    simp only [csRot, csNorm, List.map_cons, List.sum_cons] at *
    rw [ih]
    simp [Term.value, rootOf_norm]

theorem csScale_exact {s : CSum} (h : s.Exact) (r : Rat) : (csScale r s).Exact := by
  intro t ht
  obtain ⟨u, hu, rfl⟩ := List.mem_map.1 ht
  have := h u hu
  simp only [cbIsPoint, Bool.and_eq_true, beq_iff_eq] at *
  simp only [cbScale, ivScale]
  split <;> simp [this.1, this.2]

theorem csScale_value {s : CSum} (h : s.Exact) (r : Rat) : csValue (csScale r s) = (r : ℂ) * csValue s := by
  induction s with
  | nil => simp [csScale, csValue]
  | cons t s ih =>
    have ih := ih (fun x hx => h x (List.mem_cons_of_mem _ hx))
    have ht := h t (List.mem_cons_self ..)
    simp only [cbIsPoint, Bool.and_eq_true, beq_iff_eq] at ht
    simp only [csScale, csValue, List.map_cons, List.sum_cons] at *
    rw [ih, mul_add]
    congr 1
    simp only [Term.value, cbScale, ivScale]
    rw [← mul_assoc]
    congr 1
    split <;> apply Complex.ext <;> simp [ht.1, ht.2]

theorem csValue_append (a b : CSum) : csValue (a ++ b) = csValue a + csValue b := by simp [csValue]

theorem csNorm_append (a b : CSum) : csNorm (a ++ b) = csNorm a + csNorm b := by simp [csNorm]

theorem csValue_flatten (l : List CSum) : csValue l.flatten = (l.map csValue).sum := by
  induction l with
  | nil => rfl
  | cons s l ih => rw [List.flatten_cons, csValue_append, ih, List.map_cons, List.sum_cons]

theorem csNorm_flatten (l : List CSum) : csNorm l.flatten = (l.map csNorm).sum := by
  induction l with
  | nil => rfl
  | cons s l ih => rw [List.flatten_cons, csNorm_append, ih, List.map_cons, List.sum_cons]

theorem flatten_exact {l : List CSum} (h : ∀ s ∈ l, s.Exact) : CSum.Exact l.flatten := by
  intro t ht
  obtain ⟨s, hs, ht⟩ := List.mem_flatten.1 ht
  exact h s hs t ht

/-! ## Base sequences (00_scope.md R11) -/

/-- An exact element has modulus 1, and is the element of the rule. -/
theorem lowPapr_exact {p : Params} (he : ParamsExact p) (hs : ParamSequences p) (q : SeqVal) (t k : Nat) :
    let u := lowPapr p q t k
    cbIsPoint u.unit = true ∧ ‖(⟨(u.unit.re.lo : ℝ), (u.unit.im.lo : ℝ)⟩ : ℂ)‖ = 1 ∧
      ⟨(u.unit.re.lo : ℝ), (u.unit.im.lo : ℝ)⟩ * rootOf (u.turn : ℝ) = lowPaprValue p q t k := by
  intro u
  have hcase : ∃ b : UnitPhase, (b = UnitPhase.one ∨ ∃ e ∈ p.paprTab, b ∈ e.2) ∧
      ∀ t, lowPapr p q t k = { b with turn := b.turn + ((t * k : Nat) : Rat) / 12 } := by
    unfold lowPapr
    cases hf : p.paprTab.find? (fun e => e.1 == (q.u, q.v)) with
    | none => exact ⟨_, .inl rfl, fun _ => rfl⟩
    | some e =>
      refine ⟨e.2.getD k UnitPhase.one, ?_, fun _ => rfl⟩
      rw [List.getD_eq_getElem?_getD]
      cases hg : e.2[k]? with
      | none => exact .inl rfl
      | some b => exact .inr ⟨e, List.mem_of_find?_eq_some hf, List.mem_of_getElem? hg⟩
  obtain ⟨b, hb, hlow⟩ := hcase
  have hpt : cbIsPoint b.unit = true ∧ ‖(⟨(b.unit.re.lo : ℝ), (b.unit.im.lo : ℝ)⟩ : ℂ)‖ = 1 := by
    rcases hb with rfl | ⟨e, he1, he2⟩
    · refine ⟨by decide, ?_⟩
      have : (⟨((UnitPhase.one.unit.re.lo : Rat) : ℝ), ((UnitPhase.one.unit.im.lo : Rat) : ℝ)⟩ : ℂ) = 1 := by
        simp [UnitPhase.one, cbOf, ivOf, Complex.ext_iff]
      rw [this, norm_one]
    · have hp := he e he1 b he2
      obtain ⟨-, -, h1, h2⟩ := hs e he1 b he2
      refine ⟨hp, ?_⟩
      have henc := cbAbs2_has (cbIsPoint_encl hp).has
      have hw := (cbAbs2_encl (cbIsPoint_encl hp) le_rfl).2
      simp only [mul_zero, add_zero] at hw
      have h1' : ((cbAbs2 b.unit).lo : ℝ) ≤ 1 := by exact_mod_cast h1
      have h2' : (1 : ℝ) ≤ (cbAbs2 b.unit).hi := by exact_mod_cast h2
      have : Complex.normSq ⟨(b.unit.re.lo : ℝ), (b.unit.im.lo : ℝ)⟩ = 1 := by
        obtain ⟨e1, e2⟩ := henc
        linarith
      rw [Complex.normSq_eq_norm_sq] at this
      have h0 := norm_nonneg (⟨(b.unit.re.lo : ℝ), (b.unit.im.lo : ℝ)⟩ : ℂ)
      nlinarith
  have hu : u = { b with turn := b.turn + ((t * k : Nat) : Rat) / 12 } := hlow t
  rw [hu]
  refine ⟨hpt.1, hpt.2, ?_⟩
  rw [lowPaprValue, hlow 0]
  dsimp only
  rw [mul_assoc, ← rootOf_add]
  congr 2
  push_cast
  ring

/-! ## Correlations (43_format0.md R93, 44_format1.md R102) -/

/-- The terms of a correlation, each of the magnitude of its sample. -/
theorem correlate_terms {d : PucchDesc} {s : State} (he : ParamsExact s.params) (hs : ParamSequences s.params)
    (i p t : Nat) : ∃ f : Nat → Term,
      correlate s.params (rxBlock d s i p) ((t + (rxBlock d s i p).seq.ncs.val) % 12) = (List.range 12).map f ∧
      ∀ k, cbIsPoint (f k).coef = true ∧
        (f k).value = complexOf (sampleAt d s i p k) *
          starRingEnd ℂ (lowPaprValue s.params (sequenceAt d s i) ((t + (sequenceAt d s i).ncs.val) % 12) k) ∧
        ‖(f k).value‖ = ‖complexOf (sampleAt d s i p k)‖ := by
  refine ⟨fun k =>
      let r := lowPapr s.params (sequenceAt d s i) ((t + (sequenceAt d s i).ncs.val) % 12) k
      ⟨cbMul (cbOf (f32Rat (sampleAt d s i p k).re) (f32Rat (sampleAt d s i p k).im)) (cbConj r.unit), -r.turn⟩, ?_,
    fun k => ?_⟩
  · show ((List.range 12).map (fun k => sampleAt d s i p k)).mapIdx _ = _
    rw [mapIdx_range ⟨0#32, 0#32⟩, List.length_map, List.length_range]
    refine List.map_congr_left (fun k hk => ?_)
    have hk := List.mem_range.1 hk
    rw [List.getD_eq_getElem?_getD, List.getElem?_map, List.getElem?_range hk]
    rfl
  · dsimp only
    obtain ⟨h1, h2, h3⟩ := lowPapr_exact he hs (sequenceAt d s i) ((t + (sequenceAt d s i).ncs.val) % 12) k
    rw [← h3]
    generalize lowPapr s.params (sequenceAt d s i) ((t + (sequenceAt d s i).ncs.val) % 12) k = u at h1 h2
    have hconj : starRingEnd ℂ (rootOf (u.turn : ℝ)) = rootOf (((-u.turn : Rat) : Rat) : ℝ) := by
      push_cast
      apply Complex.ext
      · rw [Complex.conj_re, rootOf_re, rootOf_re, mul_neg, Real.cos_neg]
      · rw [Complex.conj_im, rootOf_im, rootOf_im, mul_neg, Real.sin_neg]
    have henc := cbMul_encl (cbOf_encl (f32Rat (sampleAt d s i p k).re) (f32Rat (sampleAt d s i p k).im))
      (cbConj_encl (cbIsPoint_encl h1)) le_rfl le_rfl
    simp only [mul_zero, add_zero] at henc
    obtain ⟨hpt, hval⟩ := point_of_encl henc
    set coef := cbMul (cbOf (f32Rat (sampleAt d s i p k).re) (f32Rat (sampleAt d s i p k).im)) (cbConj u.unit)
    have hval : (⟨coef, -u.turn⟩ : Term).value = complexOf (sampleAt d s i p k) *
        starRingEnd ℂ (⟨(u.unit.re.lo : ℝ), (u.unit.im.lo : ℝ)⟩ * rootOf (u.turn : ℝ)) := by
      rw [Term.value, map_mul, hconj, ← mul_assoc]
      congr 1
    refine ⟨hpt, hval, ?_⟩
    rw [hval, norm_mul, RCLike.norm_conj, norm_mul, rootOf_norm, mul_one, h2, mul_one]

/-- A block of an allocation is exactly correlated: value and norm. -/
theorem correlate_value {d : PucchDesc} {s : State} (he : ParamsExact s.params) (hs : ParamSequences s.params)
    (i p t : Nat) :
    let c := correlate s.params (rxBlock d s i p) ((t + (rxBlock d s i p).seq.ncs.val) % 12)
    c.Exact ∧ csValue c = correlation d s i p t ∧ csNorm c = amplitude d s i p := by
  obtain ⟨f, hc, term⟩ := correlate_terms (d := d) he hs i p t
  intro c
  have hc : c = _ := hc
  rw [hc]
  refine ⟨fun x hx => ?_, ?_, ?_⟩
  · obtain ⟨k, -, rfl⟩ := List.mem_map.1 hx
    exact (term k).1
  · rw [csValue, List.map_map, sum_map_range]
    exact Finset.sum_congr rfl (fun k _ => (term k).2.1)
  · rw [csNorm, List.map_map, sum_map_range]
    exact Finset.sum_congr rfl (fun k _ => (term k).2.2)

/-- The model's amplitude of a block is a tight upper bound of the rule's scale. -/
theorem blockAmp_bounds (d : PucchDesc) (s : State) (i p : Nat) :
    amplitude d s i p ≤ ((blockAmp (rxBlock d s i p) : Rat) : ℝ) ∧
      ((blockAmp (rxBlock d s i p) : Rat) : ℝ) ≤ amplitude d s i p * (1 + 1 / 2 ^ 64) := by
  have : ((blockAmp (rxBlock d s i p) : Rat) : ℝ) =
      ∑ k ∈ Finset.range 12, ((qcAbsHi (qcOf (sampleAt d s i p k)) : Rat) : ℝ) := by
    rw [blockAmp, ratSum_cast, rxBlock, List.map_map, List.map_map, sum_map_range]
    rfl
  rw [this, amplitude, Finset.sum_mul]
  exact ⟨Finset.sum_le_sum (fun k _ => (qcAbsHi_bounds _).1), Finset.sum_le_sum (fun k _ => (qcAbsHi_bounds _).2)⟩

theorem amplitude_nonneg (d : PucchDesc) (s : State) (i p : Nat) : 0 ≤ amplitude d s i p :=
  Finset.sum_nonneg (fun _ _ => norm_nonneg _)

theorem correlation_le {d : PucchDesc} {s : State} (he : ParamsExact s.params) (hs : ParamSequences s.params)
    (i p t : Nat) : ‖correlation d s i p t‖ ≤ amplitude d s i p := by
  obtain ⟨-, h2, h3⟩ := correlate_value (d := d) he hs i p t
  rw [← h2, ← h3]
  exact csValue_le _

/-- The blocks of an allocation, summed. -/
theorem sum_blocks (d : PucchDesc) (s : State) (f : RxBlock → ℝ) :
    ((rxBlocks d s).map f).sum =
      ∑ i ∈ Finset.range d.nofSym.toNat, ∑ p ∈ Finset.range d.nofPorts.toNat, f (rxBlock d s i p) := by
  rw [← sum_map_range, rxBlocks]
  have : ∀ l : List Nat, ((l.flatMap (fun i => (List.range (nofPorts d)).map (rxBlock d s i))).map f).sum =
      (l.map (fun i => ∑ p ∈ Finset.range d.nofPorts.toNat, f (rxBlock d s i p))).sum := by
    intro l
    induction l with
    | nil => rfl
    | cons i l ih =>
      rw [List.flatMap_cons, List.map_append, List.sum_append, ih, List.map_cons, List.sum_cons, List.map_map,
        ← sum_map_range]
      rfl
  exact this _

theorem rxFinite_of {d : PucchDesc} {s : State} (h : SamplesFinite d s) : rxFinite (rxBlocks d s) = true := by
  rw [rxFinite, List.all_eq_true]
  intro b hb
  obtain ⟨i, hi, hb⟩ := List.mem_flatMap.1 hb
  obtain ⟨p, hp, rfl⟩ := List.mem_map.1 hb
  rw [List.all_eq_true]
  intro z hz
  obtain ⟨k, hk, rfl⟩ := List.mem_map.1 hz
  exact h i p k (List.mem_range.1 hi) (List.mem_range.1 hp) (List.mem_range.1 hk)

/-! ## Format 0 (43_format0.md R93, R95) -/

/-- The correlation power of a candidate is enclosed. -/
theorem f0Power_encl {d : PucchDesc} {s : State} (he : ParamsExact s.params) (hs : ParamSequences s.params)
    (c : F0Cand) :
    (f0Power s.params d (rxBlocks d s) c).Encl (candidatePower d s c) (1 / 2 ^ 56 * candidatePowerScale d s) := by
  have h := ivSum_encl (rxBlocks d s)
    (fun b => ivScale (1 / 12) (cbAbs2 (csBox (correlate s.params b (f0Shift d c b)))))
    (fun b => ‖csValue (correlate s.params b (f0Shift d c b))‖ ^ 2 / 12)
    (fun b => 1 / 2 ^ 56 * (csNorm (correlate s.params b (f0Shift d c b)) ^ 2 / 12)) (fun b hb => by
      obtain ⟨i, hi, hb⟩ := List.mem_flatMap.1 hb
      obtain ⟨p, hp, rfl⟩ := List.mem_map.1 hb
      obtain ⟨h1, h2, h3⟩ := correlate_value (d := d) he hs i p (d.initCs.toNat + c.mcs)
      have hbox := cbAbs2_encl (csBox_encl h1) (csValue_le _)
      have := ivScale_encl (1 / 12) hbox
      rw [Complex.normSq_eq_norm_sq] at this
      have e : (((1 / 12 : Rat) : ℝ)) = 1 / 12 := by push_cast; rfl
      rw [e, abs_of_nonneg (by norm_num), one_div_mul_eq_div] at this
      refine this.mono ?_
      show _ ≤ 1 / 2 ^ 56 * (csNorm _ ^ 2 / 12)
      rw [show f0Shift d c (rxBlock d s i p) =
        (d.initCs.toNat + c.mcs + (rxBlock d s i p).seq.ncs.val) % 12 from rfl]
      generalize csNorm (correlate s.params (rxBlock d s i p)
        ((d.initCs.toNat + c.mcs + (rxBlock d s i p).seq.ncs.val) % 12)) = A
      nlinarith [sq_nonneg A])
  rw [sum_blocks, sum_blocks] at h
  have e1 : (∑ i ∈ Finset.range d.nofSym.toNat, ∑ p ∈ Finset.range d.nofPorts.toNat,
      ‖csValue (correlate s.params (rxBlock d s i p) (f0Shift d c (rxBlock d s i p)))‖ ^ 2 / 12) =
      candidatePower d s c := by
    refine Finset.sum_congr rfl (fun i _ => Finset.sum_congr rfl (fun p _ => ?_))
    rw [← (correlate_value (d := d) he hs i p (d.initCs.toNat + c.mcs)).2.1]
    rfl
  have e2 : (∑ i ∈ Finset.range d.nofSym.toNat, ∑ p ∈ Finset.range d.nofPorts.toNat,
      1 / 2 ^ 56 * (csNorm (correlate s.params (rxBlock d s i p) (f0Shift d c (rxBlock d s i p))) ^ 2 / 12)) =
      1 / 2 ^ 56 * candidatePowerScale d s := by
    rw [candidatePowerScale, Finset.mul_sum]
    refine Finset.sum_congr rfl (fun i _ => ?_)
    rw [Finset.mul_sum]
    refine Finset.sum_congr rfl (fun p _ => ?_)
    rw [← (correlate_value (d := d) he hs i p (d.initCs.toNat + c.mcs)).2.2]
    rfl
  rw [e1, e2] at h
  exact h

/-- The model's scale of the powers is a tight upper bound of the rule's. -/
theorem f0PowerScale_bounds (d : PucchDesc) (s : State) :
    candidatePowerScale d s ≤ ((f0PowerScale (rxBlocks d s) : Rat) : ℝ) ∧
      ((f0PowerScale (rxBlocks d s) : Rat) : ℝ) ≤ candidatePowerScale d s * (1 + 1 / 2 ^ 60) := by
  have e : ((f0PowerScale (rxBlocks d s) : Rat) : ℝ) = ∑ i ∈ Finset.range d.nofSym.toNat,
      ∑ p ∈ Finset.range d.nofPorts.toNat, ((blockAmp (rxBlock d s i p) : Rat) : ℝ) ^ 2 / 12 := by
    rw [f0PowerScale, ratSum_cast, List.map_map, ← sum_blocks d s (fun b => ((blockAmp b : Rat) : ℝ) ^ 2 / 12)]
    congr 2
    funext b
    simp only [Function.comp]
    push_cast
    ring
  rw [e, candidatePowerScale, Finset.sum_mul]
  have each (i p : Nat) : amplitude d s i p ^ 2 / 12 ≤ ((blockAmp (rxBlock d s i p) : Rat) : ℝ) ^ 2 / 12 ∧
      ((blockAmp (rxBlock d s i p) : Rat) : ℝ) ^ 2 / 12 ≤ amplitude d s i p ^ 2 / 12 * (1 + 1 / 2 ^ 60) := by
    obtain ⟨b1, b2⟩ := blockAmp_bounds d s i p
    have a0 := amplitude_nonneg d s i p
    have s1 := mul_self_le_mul_self a0 b1
    have s2 := mul_self_le_mul_self (a0.trans b1) b2
    constructor
    · nlinarith
    · have : amplitude d s i p * (1 + 1 / 2 ^ 64) * (amplitude d s i p * (1 + 1 / 2 ^ 64)) ≤
          amplitude d s i p ^ 2 * (1 + 1 / 2 ^ 60) := by
        have e : amplitude d s i p * (1 + 1 / 2 ^ 64) * (amplitude d s i p * (1 + 1 / 2 ^ 64)) =
            amplitude d s i p ^ 2 * ((1 + 1 / 2 ^ 64) * (1 + 1 / 2 ^ 64)) := by ring
        rw [e]
        exact mul_le_mul_of_nonneg_left (by norm_num) (sq_nonneg _)
      nlinarith
  refine ⟨Finset.sum_le_sum (fun i _ => Finset.sum_le_sum (fun p _ => (each i p).1)), ?_⟩
  refine Finset.sum_le_sum (fun i _ => ?_)
  rw [Finset.sum_mul]
  exact Finset.sum_le_sum (fun p _ => (each i p).2)

theorem candidatePower_le {d : PucchDesc} {s : State} (he : ParamsExact s.params) (hs : ParamSequences s.params)
    (c : F0Cand) : candidatePower d s c ≤ candidatePowerScale d s := by
  refine Finset.sum_le_sum (fun i _ => Finset.sum_le_sum (fun p _ => ?_))
  have := correlation_le (d := d) he hs i p (d.initCs.toNat + c.mcs)
  have h0 := norm_nonneg (correlation d s i p (d.initCs.toNat + c.mcs))
  have := mul_self_le_mul_self h0 this
  nlinarith

/-- Some candidate may win. -/
theorem f0MayWin_ne {bound : Rat} (hb : 0 ≤ bound) {powers : List Ival} (hne : powers ≠ [])
    (hle : ∀ q ∈ powers, q.lo ≤ q.hi) :
    f0MayWin bound powers ≠ [] := by
  unfold f0MayWin
  split
  · simp
  · have hargmax : ∃ q ∈ powers, ∀ q' ∈ powers, q'.hi ≤ q.hi := by
      clear hle
      induction powers with
      | nil => exact absurd rfl hne
      | cons a l ih =>
        cases l with
        | nil => exact ⟨a, List.mem_cons_self .., fun q' h => by rw [List.mem_singleton.1 h]⟩
        | cons b l =>
          obtain ⟨q, h1, h2⟩ := ih (by simp)
          rcases le_total a.hi q.hi with h | h
          · exact ⟨q, List.mem_cons_of_mem _ h1, fun q' h' => by
              rcases List.mem_cons.1 h' with rfl | h'
              · exact h
              · exact h2 q' h'⟩
          · exact ⟨a, List.mem_cons_self .., fun q' h' => by
              rcases List.mem_cons.1 h' with rfl | h'
              · exact le_rfl
              · exact (h2 q' h').trans h⟩
    obtain ⟨q, h1, h2⟩ := hargmax
    obtain ⟨c, hc, hq⟩ := List.mem_iff_getElem.1 h1
    refine List.ne_nil_of_mem (a := c) (List.mem_filter.2 ⟨List.mem_range.2 hc, ?_⟩)
    rw [List.all_eq_true]
    intro q' h'
    rw [List.getD_eq_getElem _ _ hc, hq]
    have := hle q' h'
    have := h2 q' h'
    exact decide_eq_true (by linarith)

/-- A candidate that may win has a power that may reach every other's. -/
theorem f0MayWin_spec {bound : Rat} {powers : List Ival} (hne : powers ≠ []) {c : Nat} (h : c ∈ f0MayWin bound powers) :
    c < powers.length ∧ (bound = 0 ∨ ∀ q ∈ powers, q.lo - bound ≤ (powers.getD c (ivOf 0)).hi + bound) := by
  unfold f0MayWin at h
  split at h
  · rename_i hb
    rw [List.mem_singleton.1 h]
    exact ⟨List.length_pos_of_ne_nil hne, .inl hb⟩
  · obtain ⟨h1, h2⟩ := List.mem_filter.1 h
    rw [List.all_eq_true] at h2
    exact ⟨List.mem_range.1 h1, .inr (fun q hq => of_decide_eq_true (h2 q hq))⟩

theorem candidatePower_nonneg (d : PucchDesc) (s : State) (c : F0Cand) : 0 ≤ candidatePower d s c :=
  Finset.sum_nonneg (fun _ _ => Finset.sum_nonneg (fun _ _ => by positivity))

theorem candidatePowerScale_nonneg (d : PucchDesc) (s : State) : 0 ≤ candidatePowerScale d s :=
  Finset.sum_nonneg (fun _ _ => Finset.sum_nonneg (fun _ _ => by positivity))

/-- What the Format 0 detector decides on finite samples: a candidate whose power may reach every other's, with its
RSRP. -/
theorem f0Detect_spec {d : PucchDesc} {s : State} (ht0 : 0 < s.params.tol) (he : ParamsExact s.params)
    (hs : ParamSequences s.params) (hf : SamplesFinite d s) (hne : f0Cands d ≠ []) :
    let r := f0Detect d s
    let n : ℝ := (12 * d.nofPorts.toNat * d.nofSym.toNat : ℝ)
    r.cand ∈ f0Cands d ∧
      (∀ c', c' ∈ f0Cands d →
        candidatePower d s c' ≤ candidatePower d s r.cand + 2 * errorBound s.params.tol (candidatePowerScale d s)) ∧
      ReturnsReal s.params.tol (candidatePower d s r.cand / n) (candidatePowerScale d s / n) r.rsrp := by
  intro r n
  have ht := ht0.le
  obtain ⟨powers, hpw⟩ : ∃ l, l = (f0Cands d).map (f0Power s.params d (rxBlocks d s)) := ⟨_, rfl⟩
  obtain ⟨c, hc⟩ : ∃ c, c = drawFrom (f0MayWin (s.params.tol * f0PowerScale (rxBlocks d s)) powers) 0
      ⟨s.draws, .f0Winner, 0⟩ := ⟨_, rfl⟩
  have hcand : r.cand = (f0Cands d).getD c default := by
    show (f0Detect d s).cand = _
    rw [hc, hpw]
    simp only [f0Detect, rxFinite_of hf, if_true]
  have hrsrp : r.rsrp = drawF32 (admitNear
      (ivScale (1 / ((12 * nofPorts d * nofSym d : Nat) : Rat)) (powers.getD c (ivOf 0)))
      (s.params.tol * (f0PowerScale (rxBlocks d s) / ((12 * nofPorts d * nofSym d : Nat) : Rat)))) ⟨s.draws, .f0Rsrp,
          0⟩ := by
    show (f0Detect d s).rsrp = _
    rw [hc, hpw]
    simp only [f0Detect, rxFinite_of hf, if_true]
  have hpne : powers ≠ [] := by rw [hpw]; simpa using hne
  have encl (c) : (f0Power s.params d (rxBlocks d s) c).Encl (candidatePower d s c)
      (1 / 2 ^ 56 * candidatePowerScale d s) :=
    f0Power_encl he hs c
  obtain ⟨s1, s2⟩ := f0PowerScale_bounds d s
  have ht' : (0 : ℝ) ≤ s.params.tol := by exact_mod_cast ht
  have hS := candidatePowerScale_nonneg d s
  have hb : 0 ≤ s.params.tol * f0PowerScale (rxBlocks d s) := mul_nonneg ht (by exact_mod_cast hS.trans s1)
  have hmem := drawFrom_mem _ (f0MayWin_ne hb hpne (fun q hq => by
    rw [hpw] at hq
    obtain ⟨c, -, rfl⟩ := List.mem_map.1 hq
    exact (encl c).1.le)) 0 ⟨s.draws, .f0Winner, 0⟩
  rw [← hc] at hmem
  obtain ⟨hlt, hwin⟩ := f0MayWin_spec hpne hmem
  have hlt' : c < (f0Cands d).length := by simpa [hpw] using hlt
  have hpc : powers.getD c (ivOf 0) = f0Power s.params d (rxBlocks d s) r.cand := by
    rw [hcand, List.getD_eq_getElem _ _ hlt, List.getD_eq_getElem _ _ hlt']
    simp only [hpw, List.getElem_map]
  have hmemc : r.cand ∈ f0Cands d := by
    rw [hcand, List.getD_eq_getElem _ _ hlt']
    exact List.getElem_mem _
  have hsl : ((s.params.tol : Rat) : ℝ) * f0PowerScale (rxBlocks d s) ≤
      s.params.tol * (candidatePowerScale d s * (1 + 1 / 2 ^ 60)) :=
    mul_le_mul_of_nonneg_left s2 ht'
  refine ⟨hmemc, fun c' hc' => ?_, fun held => ?_⟩
  · have eb : 0 ≤ errorBound s.params.tol (candidatePowerScale d s) := by unfold errorBound; positivity
    rcases hwin with h0 | hwin
    · have h1 : ((f0PowerScale (rxBlocks d s) : Rat) : ℝ) = 0 := by
        exact_mod_cast (mul_eq_zero.1 h0).resolve_left ht0.ne'
      have := candidatePower_le (d := d) he hs c'
      have := candidatePower_nonneg d s r.cand
      linarith
    · have h1 := hwin _ (by rw [hpw]; exact List.mem_map_of_mem hc')
      rw [hpc] at h1
      have h1 := (Rat.cast_le (K := ℝ)).2 h1
      push_cast at h1
      obtain ⟨⟨a1, a2⟩, a3⟩ := encl c'
      obtain ⟨⟨b1, b2⟩, b3⟩ := encl r.cand
      unfold errorBound
      nlinarith [mul_nonneg ht' hS]
  · rw [hrsrp, hpc]
    have hn : (((12 * nofPorts d * nofSym d : Nat) : Rat) : ℝ) = n := by
      push_cast; rfl
    have hn0 : 0 ≤ n := by rw [← hn]; exact_mod_cast Nat.zero_le _
    have hsc := ivScale_encl (1 / ((12 * nofPorts d * nofSym d : Nat) : Rat)) (encl r.cand)
    have hcast : ((1 / ((12 * nofPorts d * nofSym d : Nat) : Rat) : Rat) : ℝ) = 1 / n := by
      rw [Rat.cast_div, hn, Rat.cast_one]
    rw [hcast, abs_of_nonneg (by positivity), one_div_mul_eq_div] at hsc
    obtain ⟨r1, r2⟩ := draw_near hsc (bound := s.params.tol * (candidatePowerScale d s / n))
      (b := s.params.tol * (f0PowerScale (rxBlocks d s) / ((12 * nofPorts d * nofSym d : Nat) : Rat)))
      (by rw [Rat.cast_mul, Rat.cast_div, hn]; exact mul_le_mul_of_nonneg_left (div_le_div_of_nonneg_right s1 hn0) ht')
      ⟨s.draws, .f0Rsrp, 0⟩ held
    refine ⟨r1, r2.trans ?_⟩
    rw [Rat.cast_mul, Rat.cast_div, hn]
    have : ((f0PowerScale (rxBlocks d s) : Rat) : ℝ) / n ≤ candidatePowerScale d s / n * (1 + 1 / 2 ^ 60) := by
      rw [div_mul_eq_mul_div]
      exact div_le_div_of_nonneg_right s2 hn0
    have e2 : 1 / n * (1 / 2 ^ 56 * candidatePowerScale d s) = 1 / 2 ^ 56 * (candidatePowerScale d s / n) := by ring
    rw [e2]
    have h1 := mul_le_mul_of_nonneg_left this ht'
    have h0 : 0 ≤ candidatePowerScale d s / n := by positivity
    unfold errorBound
    generalize candidatePowerScale d s / n = S at *
    nlinarith [mul_nonneg ht' h0]

/-- A Format 0 descriptor that passes stage B has candidates (43_format0.md R90). -/
theorem f0Cands_ne {d : PucchDesc} {s : State} (h : stageB .f0 d s = none) : f0Cands d ≠ [] := by
  obtain ⟨-, -, -, -, h5, -, -, -, -, h10, -⟩ := (stageB_none _ _ _).1 h
  have table : ∀ n, n < 3 → ∀ sr, (decide (n = 0) && !sr) = false → f0Table n sr ≠ [] := by decide
  refine table _ ?_ _ h10
  simp [failB5] at h5
  omega

/-- The Format 0 record and its command's end (30_encoding.md R70). -/
theorem procF0_good {d : PucchDesc} {s : State} (h : stageB .f0 d s = none) :
    GoodWrites (.procF0 d) s.params.dmemSize
      [(d.resAddr.toNat, bytesOfWords (instrHeader (.procF0 d) rsDone :: f0Record d (f0Detect d s)))] := by
  obtain ⟨-, -, -, -, -, -, -, h8, -⟩ := (stageB_none _ _ _).1 h
  refine doneWrites_good (.procF0 d) _ _ [] rfl (fun _ r hr => ?_)
  simp only [failB8, Bool.or_eq_false_iff, Bool.not_eq_false', inb_iff, procRecordSize] at h8
  simp only [outRegions, procBuffers, List.mem_singleton] at hr
  subst hr
  exact h8.1

/-! ## Format 1 (44_format1.md R99 to R107) -/

theorem f1HopSymbols_eq (d : PucchDesc) (h : Nat) (dmrs : Bool) : f1HopSymbols d h dmrs = symbolsOfHop d h dmrs := by
  refine List.filter_congr (fun i _ => ?_)
  have : i % 2 = 0 ∨ i % 2 = 1 := by omega
  cases dmrs <;> rcases this with h | h <;> simp [h, Bool.beq_eq_decide_eq]

theorem nofHops_eq (d : PucchDesc) : nofHops d = hopCount d := by simp [nofHops, hopCount, hopEn]

theorem rootOf_conj (t : ℝ) : starRingEnd ℂ (rootOf t) = rootOf (-t) := by
  apply Complex.ext
  · rw [Complex.conj_re, rootOf_re, rootOf_re, mul_neg, Real.cos_neg]
  · rw [Complex.conj_im, rootOf_im, rootOf_im, mul_neg, Real.sin_neg]

/-- A despread sum is exact: value and norm (44_format1.md R103). -/
theorem f1Despread_value {d : PucchDesc} {s : State} (he : ParamsExact s.params) (hs : ParamSequences s.params)
    (dmrs : Bool) (h p occ m0 : Nat) :
    let x := f1Despread d s dmrs h p occ m0
    x.Exact ∧ csValue x = despreadValue d s dmrs h p occ m0 ∧ csNorm x = despreadScale d s dmrs h p := by
  intro x
  obtain ⟨l, hl⟩ : ∃ l, l = symbolsOfHop d h dmrs := ⟨_, rfl⟩
  have hx : x = ((List.range l.length).map (fun m => csRot (-(f1OccTurn l.length occ m))
      (correlate s.params (rxBlock d s (l.getD m 0) p) ((m0 + (rxBlock d s (l.getD m 0) p).seq.ncs.val) %
          12)))).flatten := by
    show f1Despread d s dmrs h p occ m0 = _
    rw [f1Despread, f1HopSymbols_eq, ← hl, mapIdx_range 0]
  have cv (m : Nat) := correlate_value (d := d) he hs (l.getD m 0) p m0
  refine ⟨?_, ?_, ?_⟩
  · rw [hx]
    refine flatten_exact (fun y hy => ?_)
    obtain ⟨m, -, rfl⟩ := List.mem_map.1 hy
    exact csRot_exact (cv m).1 _
  · rw [hx, csValue_flatten, List.map_map, sum_map_range, despreadValue, ← hl]
    refine Finset.sum_congr rfl (fun m _ => ?_)
    rw [Function.comp, csRot_value, (cv m).2.1, rootOf_conj, f1OccTurn]
    push_cast
    rfl
  · rw [hx, csNorm_flatten, List.map_map, sum_map_range, despreadScale, ← hl]
    refine Finset.sum_congr rfl (fun m _ => ?_)
    rw [Function.comp, csRot_norm, (cv m).2.2]

theorem despreadScale_nonneg (d : PucchDesc) (s : State) (dmrs : Bool) (h p : Nat) : 0 ≤ despreadScale d s dmrs h p :=
  Finset.sum_nonneg (fun _ _ => amplitude_nonneg d s _ _)

theorem despreadValue_le {d : PucchDesc} {s : State} (he : ParamsExact s.params) (hs : ParamSequences s.params)
    (dmrs : Bool) (h p occ m0 : Nat) : ‖despreadValue d s dmrs h p occ m0‖ ≤ despreadScale d s dmrs h p := by
  obtain ⟨-, h2, h3⟩ := f1Despread_value (d := d) he hs dmrs h p occ m0
  rw [← h2, ← h3]
  exact csValue_le _

/-- The model's scale of a despread sum is a tight upper bound of the rule's. -/
theorem f1Amp_bounds (d : PucchDesc) (s : State) (dmrs : Bool) (h p : Nat) :
    despreadScale d s dmrs h p ≤ ((f1Amp d s dmrs h p : Rat) : ℝ) ∧
      ((f1Amp d s dmrs h p : Rat) : ℝ) ≤ despreadScale d s dmrs h p * (1 + 1 / 2 ^ 64) := by
  obtain ⟨l, hl⟩ : ∃ l, l = symbolsOfHop d h dmrs := ⟨_, rfl⟩
  have e : ((f1Amp d s dmrs h p : Rat) : ℝ) =
      ∑ m ∈ Finset.range l.length, ((blockAmp (rxBlock d s (l.getD m 0) p) : Rat) : ℝ) := by
    rw [f1Amp, f1HopSymbols_eq, ← hl, ratSum_cast, List.map_map, ← sum_map_range]
    refine congrArg List.sum (List.ext_getElem (by simp) (fun m h1 h2 => ?_))
    rw [List.length_map] at h1
    simp only [List.getElem_map, List.getElem_range, Function.comp, List.getD_eq_getElem _ _ h1]
  rw [e, despreadScale, ← hl, Finset.sum_mul]
  exact ⟨Finset.sum_le_sum (fun m _ => (blockAmp_bounds d s (l.getD m 0) p).1),
    Finset.sum_le_sum (fun m _ => (blockAmp_bounds d s (l.getD m 0) p).2)⟩

/-- Every hop with every port, summed. -/
theorem sum_lanes_f1 {β : Type} [AddCommMonoid β] (d : PucchDesc) (f : Nat × Nat → β) :
    ((f1Lanes d).map f).sum = ∑ h ∈ Finset.range (hopCount d), ∑ p ∈ Finset.range d.nofPorts.toNat, f (h, p) := by
  rw [← sum_map_range, f1Lanes, nofHops_eq]
  generalize List.range (hopCount d) = l
  induction l with
  | nil => rfl
  | cons h l ih =>
    rw [List.flatMap_cons, List.map_append, List.sum_append, ih, List.map_cons, List.sum_cons, List.map_map, f1Ports,
      ← sum_map_range]
    rfl

theorem crossScale_nonneg (d : PucchDesc) (s : State) : 0 ≤ crossScale d s :=
  Finset.sum_nonneg (fun _ _ => Finset.sum_nonneg (fun _ _ => mul_nonneg (despreadScale_nonneg ..)
      (despreadScale_nonneg ..)))

/-- `Xc` of a key is enclosed (44_format1.md R107). -/
theorem f1Cross_encl {d : PucchDesc} {s : State} (he : ParamsExact s.params) (hs : ParamSequences s.params)
    (occ m0 : Nat) : (f1Cross d s occ m0).Encl (crossValue d s occ m0) (1 / 2 ^ 56 * crossScale d s) := by
  have h := cbSum_encl (f1Lanes d)
    (fun hp => cbMul (cbConj (csBox (f1Despread d s true hp.1 hp.2 occ m0))) (csBox
        (f1Despread d s false hp.1 hp.2 occ m0)))
    (fun hp => starRingEnd ℂ (despreadValue d s true hp.1 hp.2 occ m0) * despreadValue d s false hp.1 hp.2 occ m0)
    (fun hp => 1 / 2 ^ 56 * (despreadScale d s true hp.1 hp.2 * despreadScale d s false hp.1 hp.2)) (fun hp _ => by
      have box (dmrs : Bool) : (csBox (f1Despread d s dmrs hp.1 hp.2 occ m0)).Encl
          (despreadValue d s dmrs hp.1 hp.2 occ m0) (1 / 2 ^ 60 * despreadScale d s dmrs hp.1 hp.2) := by
        obtain ⟨h1, h2, h3⟩ := f1Despread_value (d := d) he hs dmrs hp.1 hp.2 occ m0
        rw [← h2, ← h3]
        exact csBox_encl h1
      have le (dmrs : Bool) := despreadValue_le (d := d) he hs dmrs hp.1 hp.2 occ m0
      refine (cbMul_encl (cbConj_encl (box true)) (box false) (A := despreadScale d s true hp.1 hp.2) (by
        rw [RCLike.norm_conj]
        exact le true) (le false)).mono ?_
      have a0 := despreadScale_nonneg d s true hp.1 hp.2
      have b0 := despreadScale_nonneg d s false hp.1 hp.2
      generalize despreadScale d s true hp.1 hp.2 = A at *
      generalize despreadScale d s false hp.1 hp.2 = B at *
      nlinarith [mul_nonneg a0 b0])
  rw [sum_lanes_f1, sum_lanes_f1] at h
  simp only [← Finset.mul_sum] at h
  exact h

/-- The model's scale of `Xc` is a tight upper bound of the rule's. -/
theorem f1CrossScale_bounds (d : PucchDesc) (s : State) :
    crossScale d s ≤ ((f1CrossScale d s : Rat) : ℝ) ∧ ((f1CrossScale d s : Rat) : ℝ) ≤ crossScale d s *
        (1 + 1 / 2 ^ 60) := by
  have e : ((f1CrossScale d s : Rat) : ℝ) = ∑ h ∈ Finset.range (hopCount d), ∑ p ∈ Finset.range d.nofPorts.toNat,
      ((f1Amp d s true h p : Rat) : ℝ) * ((f1Amp d s false h p : Rat) : ℝ) := by
    rw [f1CrossScale, ratSum_cast, List.map_map, sum_lanes_f1]
    refine Finset.sum_congr rfl (fun h _ => Finset.sum_congr rfl (fun p _ => ?_))
    simp [Function.comp]
  rw [e, crossScale, Finset.sum_mul]
  have each (h p : Nat) : despreadScale d s true h p * despreadScale d s false h p ≤
      ((f1Amp d s true h p : Rat) : ℝ) * ((f1Amp d s false h p : Rat) : ℝ) ∧
      ((f1Amp d s true h p : Rat) : ℝ) * ((f1Amp d s false h p : Rat) : ℝ) ≤
        despreadScale d s true h p * despreadScale d s false h p * (1 + 1 / 2 ^ 60) := by
    obtain ⟨a1, a2⟩ := f1Amp_bounds d s true h p
    obtain ⟨b1, b2⟩ := f1Amp_bounds d s false h p
    have a0 := despreadScale_nonneg d s true h p
    have b0 := despreadScale_nonneg d s false h p
    refine ⟨mul_le_mul a1 b1 b0 (a0.trans a1), ?_⟩
    refine (mul_le_mul a2 b2 (b0.trans b1) (mul_nonneg a0 (by norm_num))).trans ?_
    rw [show despreadScale d s true h p * (1 + 1 / 2 ^ 64) * (despreadScale d s false h p * (1 + 1 / 2 ^ 64)) =
      despreadScale d s true h p * despreadScale d s false h p * ((1 + 1 / 2 ^ 64) * (1 + 1 / 2 ^ 64)) by ring]
    exact mul_le_mul_of_nonneg_left (by norm_num) (mul_nonneg a0 b0)
  refine ⟨Finset.sum_le_sum (fun h _ => Finset.sum_le_sum (fun p _ => (each h p).1)), ?_⟩
  refine Finset.sum_le_sum (fun h _ => ?_)
  rw [Finset.sum_mul]
  exact Finset.sum_le_sum (fun p _ => (each h p).2)

/-- A sign test decides as the value does outside its error bound (44_format1.md R107, 00_scope.md R15). -/
theorem f1Negative_of {x : Ival} {v w : ℝ} (h : x.Encl v w) {bound : Rat} (hb : 0 ≤ bound) (id : DrawId) :
    (bound + w < v → f1Negative x bound id = false) ∧ (v < -(bound + w) → f1Negative x bound id = true) := by
  obtain ⟨⟨h1, h2⟩, h3⟩ := h
  constructor
  · intro hv
    have : ¬ x.lo - bound < 0 := by
      have : (0 : ℝ) < ((x.lo - bound : Rat) : ℝ) := by push_cast; linarith
      exact not_lt.2 (by exact_mod_cast this.le)
    simp [f1Negative, drawBool, this]
  · intro hv
    have a : ¬ 0 ≤ x.hi + bound := by
      have : ((x.hi + bound : Rat) : ℝ) < 0 := by push_cast; linarith
      exact not_le.2 (by exact_mod_cast this)
    have b : x.lo - bound < 0 := by
      have hb : (0 : ℝ) ≤ bound := by exact_mod_cast hb
      have : ((x.lo - bound : Rat) : ℝ) < 0 := by push_cast; linarith
      exact_mod_cast this
    simp [f1Negative, drawBool, a, b]

theorem csScale_norm {s : CSum} (h : s.Exact) (r : Rat) : csNorm (csScale r s) = |(r : ℝ)| * csNorm s := by
  have each (t : Term) (ht : cbIsPoint t.coef = true) :
      ‖(⟨cbScale r t.coef, t.turn⟩ : Term).value‖ = |(r : ℝ)| * ‖t.value‖ := by
    have := csScale_value (s := [t]) (fun x hx => by rw [List.mem_singleton.1 hx]; exact ht) r
    simp only [csScale, csValue, List.map_cons, List.map_nil, List.sum_cons, List.sum_nil, add_zero] at this
    rw [this, norm_mul]
    simp
  rw [csNorm, csNorm, csScale, List.map_map, ← List.sum_map_mul_left]
  exact congrArg List.sum (List.map_congr_left (fun t ht => each t (h t ht)))

/-- The power of an exact sum is tightly enclosed. -/
theorem csPower_encl {s : CSum} (h : s.Exact) : (cbAbs2 (csBox s)).Encl (‖csValue s‖ ^ 2)
    (1 / 2 ^ 56 * csNorm s ^ 2) := by
  have := cbAbs2_encl (csBox_encl h) (csValue_le s)
  rw [Complex.normSq_eq_norm_sq] at this
  refine this.mono ?_
  generalize csNorm s = A
  nlinarith [sq_nonneg A]

/-- The channel estimate of a key, value and norm (44_format1.md R105). -/
theorem f1Chan_value {d : PucchDesc} {s : State} (he : ParamsExact s.params) (hs : ParamSequences s.params)
    (h p occ m0 : Nat) :
    let x := f1Chan d s h p occ m0
    let n : ℝ := 12 * (symbolsOfHop d h true).length
    x.Exact ∧ ‖csValue x‖ = ‖despreadValue d s true h p occ m0‖ / n ∧ csNorm x = despreadScale d s true h p / n := by
  intro x n
  obtain ⟨h1, h2, h3⟩ := f1Despread_value (d := d) he hs true h p occ m0
  have hx : x = csScale (1 / ((12 * f1Nd d h : Nat) : Rat)) (f1Despread d s true h p occ m0) := rfl
  have hn : ((1 / ((12 * f1Nd d h : Nat) : Rat) : Rat) : ℝ) = 1 / n := by
    rw [f1Nd, f1HopSymbols_eq]
    push_cast
    rfl
  have hn0 : (0 : ℝ) ≤ 1 / n := by positivity
  refine ⟨csScale_exact h1 _, ?_, ?_⟩
  · rw [hx, csScale_value h1, norm_mul, h2]
    have : ‖(((1 / ((12 * f1Nd d h : Nat) : Rat) : Rat) : ℝ) : ℂ)‖ = 1 / n := by
      rw [hn, Complex.norm_real, Real.norm_of_nonneg hn0]
    push_cast at this ⊢
    rw [this]
    ring
  · rw [hx, csScale_norm h1, hn, abs_of_nonneg hn0, h3]
    ring

/-- `RSRP` of a key is enclosed (44_format1.md R107). -/
theorem f1Rsrp_encl {d : PucchDesc} {s : State} (he : ParamsExact s.params) (hs : ParamSequences s.params)
    (occ m0 : Nat) : (f1Rsrp d s occ m0).Encl (rsrpValue d s occ m0) (1 / 2 ^ 56 * rsrpScale d s) := by
  have h := ivSum_encl (f1Lanes d) (fun hp => cbAbs2 (csBox (f1Chan d s hp.1 hp.2 occ m0)))
    (fun hp => (‖despreadValue d s true hp.1 hp.2 occ m0‖ / (12 * (symbolsOfHop d hp.1 true).length)) ^ 2)
    (fun hp => 1 / 2 ^ 56 * (despreadScale d s true hp.1 hp.2 / (12 * (symbolsOfHop d hp.1 true).length)) ^ 2)
    (fun hp _ => by
      obtain ⟨h1, h2, h3⟩ := f1Chan_value (d := d) he hs hp.1 hp.2 occ m0
      rw [← h2, ← h3]
      exact csPower_encl h1)
  rw [sum_lanes_f1, sum_lanes_f1] at h
  simp only [← Finset.mul_sum] at h
  have := ivScale_encl (1 / ((nofPorts d * nofHops d : Nat) : Rat)) h
  have hn : ((1 / ((nofPorts d * nofHops d : Nat) : Rat) : Rat) : ℝ) = 1 / (d.nofPorts.toNat * hopCount d) := by
    rw [nofHops_eq]
    push_cast
    rfl
  rw [hn, abs_of_nonneg (by positivity)] at this
  rw [f1Rsrp, rsrpValue, rsrpScale]
  convert this using 1 <;> ring

theorem rsrpScale_nonneg (d : PucchDesc) (s : State) : 0 ≤ rsrpScale d s := by
  unfold rsrpScale
  exact div_nonneg (Finset.sum_nonneg (fun _ _ => Finset.sum_nonneg (fun _ _ => sq_nonneg _))) (by positivity)

/-- The model's scale of `RSRP` is a tight upper bound of the rule's. -/
theorem f1RsrpScale_bounds (d : PucchDesc) (s : State) :
    rsrpScale d s ≤ ((f1RsrpScale d s : Rat) : ℝ) ∧ ((f1RsrpScale d s : Rat) : ℝ) ≤ rsrpScale d s *
        (1 + 1 / 2 ^ 60) := by
  have e : ((f1RsrpScale d s : Rat) : ℝ) = (∑ h ∈ Finset.range (hopCount d), ∑ p ∈ Finset.range d.nofPorts.toNat,
      (((f1Amp d s true h p : Rat) : ℝ) / (12 * (symbolsOfHop d h true).length)) ^ 2) /
        (d.nofPorts.toNat * hopCount d) := by
    rw [f1RsrpScale, Rat.cast_div, ratSum_cast, List.map_map, sum_lanes_f1, nofHops_eq]
    congr 1
    · refine Finset.sum_congr rfl (fun h _ => Finset.sum_congr rfl (fun p _ => ?_))
      simp only [Function.comp, f1ChanAmp, f1Nd, f1HopSymbols_eq]
      push_cast
      ring
    · push_cast
      rfl
  have each (h p : Nat) :
      (despreadScale d s true h p / (12 * (symbolsOfHop d h true).length)) ^ 2 ≤
        (((f1Amp d s true h p : Rat) : ℝ) / (12 * (symbolsOfHop d h true).length)) ^ 2 ∧
      (((f1Amp d s true h p : Rat) : ℝ) / (12 * (symbolsOfHop d h true).length)) ^ 2 ≤
        (despreadScale d s true h p / (12 * (symbolsOfHop d h true).length)) ^ 2 * (1 + 1 / 2 ^ 60) := by
    obtain ⟨a1, a2⟩ := f1Amp_bounds d s true h p
    have a0 := despreadScale_nonneg d s true h p
    have n0 : (0 : ℝ) ≤ 12 * (symbolsOfHop d h true).length := by positivity
    generalize (12 * ((symbolsOfHop d h true).length : ℝ)) = n at *
    have q1 := div_le_div_of_nonneg_right a1 n0
    have q2 := div_le_div_of_nonneg_right a2 n0
    have q0 := div_nonneg a0 n0
    rw [mul_div_right_comm] at q2
    generalize despreadScale d s true h p / n = A at *
    generalize ((f1Amp d s true h p : Rat) : ℝ) / n = B at *
    refine ⟨pow_le_pow_left₀ q0 q1 2, (pow_le_pow_left₀ (q0.trans q1) q2 2).trans ?_⟩
    rw [mul_pow]
    exact mul_le_mul_of_nonneg_left (by norm_num) (sq_nonneg _)
  have n0 : (0 : ℝ) ≤ d.nofPorts.toNat * hopCount d := by positivity
  rw [e, rsrpScale, div_mul_eq_mul_div, Finset.sum_mul]
  constructor
  · exact div_le_div_of_nonneg_right (Finset.sum_le_sum (fun h _ => Finset.sum_le_sum (fun p _ => (each h p).1))) n0
  · refine div_le_div_of_nonneg_right (Finset.sum_le_sum (fun h _ => ?_)) n0
    rw [Finset.sum_mul]
    exact Finset.sum_le_sum (fun p _ => (each h p).2)

/-! ## The mux list and the record of Format 1 -/

/-- Bytes of an input of an undisturbed command read as memory has them (20_memory.md R48). -/
theorem seenByte_of_undisturbed {i : Instr} {s : State} (hu : Undisturbed i s) {r : Region}
    (hr : r ∈ (footprint s.cur.desc i).ins) {a : Nat} (ha : r.addr ≤ a ∧ a < r.addr + r.len) :
    seenByte s s.cur.caller a = memByte s.dmem a := by
  have hin : inputsHit (footprint s.cur.desc i) (foreignOuts s s.cur.caller) (getPort s s.cur.caller).disturb =
      false := by
    by_contra h
    have h : inputsHit (footprint s.cur.desc i) (foreignOuts s s.cur.caller) (getPort s s.cur.caller).disturb =
        true := by
      simpa using h
    unfold Undisturbed ownTaint at hu
    dsimp only at hu
    split at hu
    · cases hu
    · cases hu
  simp only [inputsHit, Bool.or_eq_false_iff, anyOverlap, List.any_eq_false, List.mem_append] at hin
  rw [seenByte, if_neg]
  intro h
  obtain ⟨q, hq, hh⟩ := List.any_eq_true.1 h
  apply hin.1.1 q (.inr hq)
  rw [List.any_eq_true]
  refine ⟨r, hr, ?_⟩
  simp only [regionHas, Bool.and_eq_true, decide_eq_true_eq] at hh
  simp only [overlaps, Bool.and_eq_true, decide_eq_true_eq]
  omega

/-- The mux list that an undisturbed `PROC.F1` sees is the one in memory (20_memory.md R46, 30_encoding.md R64). -/
theorem seenMux_undisturbed {d : PucchDesc} {s : State} (hu : Undisturbed (.procF1 d) s) {e : Nat}
    (he : e < d.bufLen.toNat) : (seenMux d s)[e]? = some (memWord s.dmem (d.bufAddr.toNat + 4 * e)) := by
  rw [seenMux, muxList, wordsAt, List.getElem?_map, List.getElem?_range he, Option.map_some]
  have b (j : Nat) (hj : j < 4) : seenByte s s.cur.caller (d.bufAddr.toNat + 4 * e + j) =
      memByte s.dmem (d.bufAddr.toNat + 4 * e + j) :=
    seenByte_of_undisturbed hu (r := ⟨d.bufAddr.toNat, 4 * d.bufLen.toNat⟩) (by simp [footprint, inBuffers])
      ⟨by dsimp only; omega, by dsimp only; omega⟩
  have b0 := b 0 (by omega)
  rw [Nat.add_zero] at b0
  rw [memWord, wordAt, wordAt, b0, b 1 (by omega), b 2 (by omega), b 3 (by omega)]

/-- Word `j` of entry `e` of the Format 1 record (30_encoding.md R71). -/
theorem f1Record_entry (d : PucchDesc) (s : State) {mux : List Word} {e : Nat} {w : Word} (hw : mux[e]? = some w)
    {j : Nat} (hj : j < 6) :
    (f1Record d s mux)[3 + 6 * e + j]? =
      (f1Entry d s (f1NormOf d s mux) (f1ThrOf d) (f1NoiseOf (f1Samples d s (f1Occs mux))) (f1Epre d s) e w)[j]? := by
  obtain ⟨he, hg⟩ := List.getElem?_eq_some_iff.1 hw
  rw [f1Record, show 3 + 6 * e + j = (6 * e + j) + 1 + 1 + 1 by omega, List.getElem?_cons_succ, List.getElem?_cons_succ,
    List.getElem?_cons_succ, mapIdx_range 0#32, ← List.flatMap_def,
    getElem?_flatMap_const _ _ 6 (fun _ => rfl) e j hj, List.getElem?_range he, Option.bind_some,
    List.getD_eq_getElem _ _ he, hg]

/-- An entry on finite samples: its bits are those of the sign tests, and its status, metric, RSRP and SINR what the
rules admit (44_format1.md R107). -/
theorem f1Entry_finite {d : PucchDesc} {s : State} (hf : rxFinite (rxBlocks d s) = true) (norm thr : Rat) (nz : F1Noise)
    (epre : F32) (e : Nat) (w : Word) :
    let entry := f1Entry d s norm thr nz epre e w
    let xc := f1Cross d s (muxOcc w) (muxCs w)
    let bound := s.params.tol * f1CrossScale d s
    ∃ b0 b1,
      (muxHarq w ≤ 1 → b0 = f1Negative (ivAdd xc.re xc.im) (2 * bound) ⟨s.draws, .f1Bit0, e⟩) ∧
      (1 < muxHarq w → b0 = f1Negative xc.re bound ⟨s.draws, .f1Bit0, e⟩ ∧
        b1 = f1Negative xc.im bound ⟨s.draws, .f1Bit1, e⟩) ∧
      let turn := f1SymbolTurn (muxHarq w) b0 b1
      let metric := f1MetricAdmitted s.params.tol norm (f1Num d s turn (muxOcc w) (muxCs w)) (f1NumScale d s)
        (f1NumPositive d s turn (muxOcc w) (muxCs w)) nz
      entry.getD 1 0#32 =
        f1Uci (muxHarq w) (drawBool (mayExceed metric thr) (mayNotExceed metric thr) ⟨s.draws, .f1Pass, e⟩) b0 b1 ∧
      entry.getD 2 0#32 = drawF32 metric ⟨s.draws, .f1Metric, e⟩ ∧
      entry.getD 4 0#32 =
        drawF32 (admitNear (f1Rsrp d s (muxOcc w) (muxCs w)) (s.params.tol * f1RsrpScale d s)) ⟨s.draws, .f1Rsrp, e⟩ ∧
      entry.getD 5 0#32 = drawF32 (f1SinrAdmitted s.params.tol (f1Rsrp d s (muxOcc w) (muxCs w)) (f1RsrpScale d s) nz)
        ⟨s.draws, .f1Sinr, e⟩ := by
  intro entry xc bound
  by_cases hq : muxHarq w ≤ 1
  · refine ⟨f1Negative (ivAdd xc.re xc.im) (2 * bound) ⟨s.draws, .f1Bit0, e⟩, false, fun _ => rfl,
      fun h => absurd hq (not_le.2 h), ?_⟩
    simp only [entry, f1Entry, hf, Bool.not_true, Bool.false_eq_true, if_false, if_true, if_pos hq]
    exact ⟨rfl, rfl, rfl, rfl⟩
  · refine ⟨f1Negative xc.re bound ⟨s.draws, .f1Bit0, e⟩, f1Negative xc.im bound ⟨s.draws, .f1Bit1, e⟩,
      fun h => absurd h hq, fun _ => ⟨rfl, rfl⟩, ?_⟩
    simp only [entry, f1Entry, hf, Bool.not_true, Bool.false_eq_true, if_false, if_true, if_neg hq]
    exact ⟨rfl, rfl, rfl, rfl⟩

/-! ## Constant sums -/

theorem ivSum_const {α : Type} (l : List α) (f : α → Ival) (c : Rat) (h : ∀ x ∈ l, f x = ivOf c) :
    ivSum (l.map f) = ivOf (l.length * c) := by
  induction l with
  | nil => simp [ivSum, ivOf]
  | cons x l ih =>
    have := ih (fun y hy => h y (List.mem_cons_of_mem _ hy))
    simp only [ivSum, List.map_cons, List.foldr_cons] at *
    rw [this, h x (List.mem_cons_self ..)]
    simp only [ivAdd, ivOf, List.length_cons]
    congr 1 <;> push_cast <;> ring

theorem ratSum_const {α : Type} (l : List α) (f : α → Rat) (c : Rat) (h : ∀ x ∈ l, f x = c) :
    ratSum (l.map f) = l.length * c := by
  induction l with
  | nil => simp [ratSum]
  | cons x l ih =>
    have := ih (fun y hy => h y (List.mem_cons_of_mem _ hy))
    simp only [ratSum, List.map_cons, List.foldr_cons] at *
    rw [this, h x (List.mem_cons_self ..)]
    simp only [List.length_cons]
    push_cast
    ring

/-! ## The blocks of an allocation -/

theorem rxBlocks_length (d : PucchDesc) (s : State) : (rxBlocks d s).length = nofSym d * nofPorts d := by
  simp [rxBlocks, List.length_flatMap]

theorem mem_rxBlocks {d : PucchDesc} {s : State} {b : RxBlock} (h : b ∈ rxBlocks d s) :
    ∃ i p, i < d.nofSym.toNat ∧ p < d.nofPorts.toNat ∧ b = rxBlock d s i p := by
  obtain ⟨i, hi, hb⟩ := List.mem_flatMap.1 h
  obtain ⟨p, hp, rfl⟩ := List.mem_map.1 hb
  exact ⟨i, p, List.mem_range.1 hi, List.mem_range.1 hp, rfl⟩

/-- The values of a block's samples. -/
def blockVals (b : RxBlock) : List (Rat × Rat) := b.ys.map (fun y => (f32Rat y.re, f32Rat y.im))

theorem blockEnergy_vals (b : RxBlock) : blockEnergy b = ratSum ((blockVals b).map
    (fun z => z.1 * z.1 + z.2 * z.2)) := by
  rw [blockEnergy, blockVals, List.map_map]; rfl

theorem blockAmp_vals (b : RxBlock) : blockAmp b = ratSum ((blockVals b).map (fun z => sqrtHi
    (z.1 * z.1 + z.2 * z.2))) := by
  rw [blockAmp, blockVals, List.map_map]; rfl

/-! ## Where no base sequence is listed (00_scope.md R11, log entry 16) -/

/-- With base sequences of ones a correlation depends on the values of the samples alone. -/
theorem correlate_ones {p : Params} (h : p.paprTab = []) (b : RxBlock) (t : Nat) :
    correlate p b t = (blockVals b).mapIdx (fun k z =>
      ⟨cbOf z.1 z.2, -(((t * k : Nat) : Rat) / 12)⟩) := by
  have one (a : Rat) (c : Rat) : cbMul (cbOf a c) (cbConj (cbOf 1 0)) = cbOf a c := by
    simp [cbMul, cbOf, cbConj, ivNeg, ivOf, ivSub, ivAdd, ivMul, ratMin, ratMax]
  apply List.ext_getElem
  · simp [correlate, blockVals]
  · intro k h1 h2
    simp only [correlate, blockVals, List.getElem_mapIdx, List.getElem_map, lowPapr, h, List.find?_nil,
        UnitPhase.one, one, zero_add]

/-! ## The answers of the Format 0 detector -/

/-- A listed threshold is positive and below the least strong metric (00_scope.md R8). -/
theorem f0Thr_pos {p : Params} (hp : ParamsLegal p) {dof n : Nat} {x : F32} (h : f0Thr p dof n = some x) :
    0 < f32Rat x ∧ f32Rat x < 1 / (4 * p.tol) := by
  unfold f0Thr at h
  cases hf : p.f0Thr.find? (fun e => e.dof == dof && e.ncand == n) with
  | none => rw [hf] at h; cases h
  | some e =>
    rw [hf] at h
    injection h with h
    subst h
    obtain ⟨g1, g2⟩ := hp.2.1.2.2.2.2.1 e (List.mem_of_find?_eq_some hf)
    exact ⟨((goodNv_iff _).1 g1).2, g2⟩

/-- The detector's answer on finite samples, field by field. -/
theorem f0Detect_finite {d : PucchDesc} {s : State} (hf : rxFinite (rxBlocks d s) = true) :
    let p := s.params
    let bs := rxBlocks d s
    let powers := (f0Cands d).map (f0Power p d bs)
    let scale := f0PowerScale bs
    let nre : Rat := ((12 * nofPorts d * nofSym d : Nat) : Rat)
    let thr := f32Rat ((f0Thr p (nofPorts d * nofSym d) (f0Cands d).length).getD f32Zero)
    let energy := ratSum (bs.map blockEnergy)
    ∃ c, c = drawFrom (f0MayWin (p.tol * scale) powers) 0 ⟨s.draws, .f0Winner, 0⟩ ∧
      let r := f0Detect d s
      let metric := f0MetricAdmitted p.tol energy scale (powers.getD c (ivOf 0)) (f0ResidualZero p d bs r.cand)
      r.cand = (f0Cands d).getD c default ∧
      r.valid = drawBool (mayExceed metric thr) (mayNotExceed metric thr) ⟨s.draws, .f0Pass, 0⟩ ∧
      r.metric = drawF32 metric ⟨s.draws, .f0Metric, 0⟩ ∧
      r.epre = drawF32 (admitNear (ivOf (energy / nre)) (p.tol * (energy / nre))) ⟨s.draws, .f0Epre, 0⟩ ∧
      r.rsrp = drawF32 (admitNear (ivScale (1 / nre) (powers.getD c (ivOf 0))) (p.tol * (scale / nre))) ⟨s.draws,
          .f0Rsrp, 0⟩ ∧
      r.sinr = drawF32 metric ⟨s.draws, .f0Sinr, 0⟩ := by
  intro p bs powers scale nre thr energy
  refine ⟨_, rfl, ?_⟩
  simp only [f0Detect, hf, if_true]
  exact ⟨rfl, rfl, rfl, rfl, rfl, rfl⟩

/-- A value that must be 0 is a zero. -/
theorem draw_zero {a : Admitted} (ha : a = .within 0 0) (id : DrawId) : f32IsZero (drawF32 a id) = true := by
  have : admits a (drawF32 a id) = true := drawF32_admits ⟨0#32, by rw [ha]; decide +kernel⟩
  rw [ha] at this ⊢
  simp only [admits, Bool.and_eq_true, decide_eq_true_eq] at this
  exact (f32IsZero_iff _).2 (le_antisymm this.2 this.1.2)

end Sys2Proof.Machine
end

