-- ==== Sys2Proof/Laws/ExactZero.lean ====
section
/-! SUPPORT. What a formal sum known to be 0 is: the sum over the roots of unity behind the exact zeros of 43_format0.md
R94 and 44_format1.md R108. -/

namespace Sys2Proof.Machine

/-- Coefficients as a polynomial, at a point. -/
noncomputable def coeffValue (z : ℂ) (c : List Rat) : ℂ := ∑ j ∈ Finset.range c.length, (c.getD j 0 : ℂ) * z ^ j

theorem cyclicKill_length (step : Nat) (c : List Rat) : (cyclicKill step c).length = c.length := by simp [cyclicKill]

/-- Multiplication by `1 - x^step`, cyclically, at a root of unity. -/
theorem cyclicKill_value {z : ℂ} {c : List Rat} (hz : z ^ c.length = 1) {step : Nat} (hs : step ≤ c.length) :
    coeffValue z (cyclicKill step c) = (1 - z ^ step) * coeffValue z c := by
  unfold coeffValue
  rw [cyclicKill_length]
  generalize hn : c.length = n at *
  have entry (j : Nat) (hj : j < n) : (cyclicKill step c).getD j 0 = c.getD j 0 - c.getD ((j + n - step) % n) 0 := by
    rw [List.getD_eq_getElem _ _ (by rw [cyclicKill_length, hn]; exact hj)]
    simp [cyclicKill, hn]
  have power (m : Nat) : z ^ (m % n) = z ^ m := by
    conv_rhs => rw [← Nat.div_add_mod m n, pow_add, pow_mul, hz, one_pow, one_mul]
  have shift : ∑ j ∈ Finset.range n, (c.getD ((j + n - step) % n) 0 : ℂ) * z ^ j =
      ∑ i ∈ Finset.range n, (c.getD i 0 : ℂ) * z ^ (i + step) := by
    refine Finset.sum_nbij' (fun j => (j + n - step) % n) (fun i => (i + step) % n) ?_ ?_ ?_ ?_ ?_
    · intro j hj
      have := Finset.mem_range.1 hj
      exact Finset.mem_range.2 (Nat.mod_lt _ (by omega))
    · intro i hi
      have := Finset.mem_range.1 hi
      exact Finset.mem_range.2 (Nat.mod_lt _ (by omega))
    · intro j hj
      have := Finset.mem_range.1 hj
      show ((j + n - step) % n + step) % n = j
      rw [Nat.mod_add_mod, show j + n - step + step = j + n by omega, Nat.add_mod_right, Nat.mod_eq_of_lt this]
    · intro i hi
      have hi := Finset.mem_range.1 hi
      show ((i + step) % n + n - step) % n = i
      rw [Nat.add_sub_assoc hs, Nat.mod_add_mod, show i + step + (n - step) = i + n by omega, Nat.add_mod_right,
        Nat.mod_eq_of_lt hi]
    · intro j hj
      have := Finset.mem_range.1 hj
      show _ = _ * z ^ ((j + n - step) % n + step)
      rw [pow_add, power, ← pow_add, show j + n - step + step = j + n by omega, pow_add, hz, mul_one]
  rw [sub_mul, one_mul, Finset.mul_sum]
  have : ∑ i ∈ Finset.range n, z ^ step * ((c.getD i 0 : ℂ) * z ^ i) = ∑ i ∈ Finset.range n, (c.getD i 0 : ℂ) * z ^
      (i + step) :=
    Finset.sum_congr rfl (fun i _ => by rw [pow_add]; ring)
  rw [this, ← shift, ← Finset.sum_sub_distrib]
  refine Finset.sum_congr rfl (fun j hj => ?_)
  rw [entry j (Finset.mem_range.1 hj)]
  push_cast
  ring

theorem rootOf_pow (t : ℝ) (m : Nat) : rootOf t ^ m = rootOf (m * t) := by
  unfold rootOf
  rw [← Complex.exp_nat_mul]
  congr 1
  push_cast
  ring

/-- A root of unity is 1 at whole turns only. -/
theorem rootOf_ne_one {m n : Nat} (h0 : 0 < m) (h1 : m < n) : rootOf ((m : ℝ) / n) ≠ 1 := by
  intro h
  unfold rootOf at h
  obtain ⟨k, hk⟩ := Complex.exp_eq_one_iff.1 h
  have hn : (0 : ℝ) < n := by exact_mod_cast h0.trans h1
  have e : ((m : ℝ) / n) = k := by
    have h2 : (((2 * Real.pi * ((m : ℝ) / n) : ℝ) : ℂ)) * Complex.I = ((2 * Real.pi * k : ℝ) : ℂ) * Complex.I := by
      rw [hk]; push_cast; ring
    have h3 := mul_right_cancel₀ Complex.I_ne_zero h2
    have h4 : 2 * Real.pi * ((m : ℝ) / n) = 2 * Real.pi * k := by exact_mod_cast h3
    exact mul_left_cancel₀ (by positivity) h4
  rw [div_eq_iff hn.ne'] at e
  have e : (m : ℤ) = k * n := by exact_mod_cast e
  have h0 : (0 : ℤ) < m := by exact_mod_cast h0
  have h1 : (m : ℤ) < n := by exact_mod_cast h1
  have : 0 < k := by
    by_contra hk
    nlinarith
  nlinarith

theorem csOrder_spec (s : CSum) : 0 < csOrder s ∧ 4 ∣ csOrder s ∧ ∀ t ∈ s, t.turn.den ∣ csOrder s := by
  induction s with
  | nil => exact ⟨by decide, by decide, nofun⟩
  | cons t s ih =>
    obtain ⟨h1, h2, h3⟩ := ih
    have e : csOrder (t :: s) = Nat.lcm t.turn.den (csOrder s) := rfl
    rw [e]
    refine ⟨Nat.lcm_pos t.turn.den_pos h1, h2.trans (Nat.dvd_lcm_right _ _), fun x hx => ?_⟩
    rcases List.mem_cons.1 hx with rfl | hx
    · exact Nat.dvd_lcm_left _ _
    · exact (h3 x hx).trans (Nat.dvd_lcm_right _ _)

/-- The coefficients of an exact sum, at the root, are its value. -/
theorem csCoeffs_value (s : CSum) : coeffValue (rootOf (1 / csOrder s)) (csCoeffs s) = csValue s := by
  obtain ⟨n0, n4, nd⟩ := csOrder_spec s
  generalize hn : csOrder s = n at *
  have hR : (0 : ℝ) < n := by exact_mod_cast n0
  have zpow (m : Nat) : rootOf (1 / n) ^ m = rootOf ((m : ℝ) / n) := by rw [rootOf_pow, mul_one_div]
  have zn : rootOf (1 / (n : ℝ)) ^ n = 1 := by
    rw [zpow, div_self hR.ne']
    exact_mod_cast rootOf_int 1
  have power (m : Nat) : rootOf (1 / (n : ℝ)) ^ (m % n) = rootOf (1 / (n : ℝ)) ^ m := by
    conv_rhs => rw [← Nat.div_add_mod m n, pow_add, pow_mul, zn, one_pow, one_mul]
  have zq : rootOf (1 / (n : ℝ)) ^ (n / 4) = Complex.I := by
    obtain ⟨k, rfl⟩ := n4
    rw [zpow, Nat.mul_div_cancel_left _ (by decide), ← pow_one Complex.I, ← rootOf_quarter]
    congr 1
    push_cast at hR ⊢
    have : (0 : ℝ) < k := by linarith
    field_simp
  let at_ (t : Term) : Nat := ((t.turn * (n : Rat)).floor % (n : Int)).toNat
  have hc : csCoeffs s = (List.range n).map (fun j =>
      ratSum (s.map (fun t => (if at_ t = j then t.coef.re.lo else 0) +
        (if (at_ t + n / 4) % n = j then t.coef.im.lo else 0)))) := by rw [csCoeffs, hn]
  have at_lt (t : Term) : at_ t < n := by
    have := Int.emod_lt_of_pos (t.turn * (n : Rat)).floor (show (0 : Int) < n by exact_mod_cast n0)
    have := Int.emod_nonneg (t.turn * (n : Rat)).floor (show (n : Int) ≠ 0 by omega)
    show (_ : Int).toNat < n
    omega
  have at_root (t : Term) (ht : t ∈ s) : rootOf (1 / (n : ℝ)) ^ at_ t = rootOf (t.turn : ℝ) := by
    obtain ⟨k, hk⟩ := nd t ht
    have hd : (t.turn.den : Rat) ≠ 0 := by exact_mod_cast t.turn.den_nz
    have e : t.turn * (n : Rat) = ((t.turn.num * k : Int) : Rat) := by
      rw [hk]
      push_cast
      rw [← mul_assoc]
      congr 1
      exact_mod_cast Rat.mul_den_eq_num t.turn
    have hf : (t.turn * (n : Rat)).floor = t.turn.num * k := by rw [e]; exact Rat.floor_intCast _
    have hm := Int.emod_nonneg (t.turn * (n : Rat)).floor (show (n : Int) ≠ 0 by omega)
    have hdiv := Int.mul_ediv_add_emod (t.turn * (n : Rat)).floor n
    have cast : ((at_ t : Nat) : ℝ) = (t.turn : ℝ) * n - ((t.turn * (n : Rat)).floor / (n : Int) : Int) * n := by
      have h1 : ((at_ t : Nat) : Int) = (t.turn * (n : Rat)).floor % (n : Int) := Int.toNat_of_nonneg hm
      have h2 : ((at_ t : Nat) : ℝ) = (((t.turn * (n : Rat)).floor % (n : Int) : Int) : ℝ) := by exact_mod_cast h1
      have h3 : (((t.turn * (n : Rat)).floor : Int) : ℝ) = (t.turn : ℝ) * n := by
        have : (((t.turn * (n : Rat)).floor : Int) : Rat) = t.turn * n := by rw [hf, e]
        exact_mod_cast this
      have h4 : ((n : ℤ) * ((t.turn * (n : Rat)).floor / (n : Int)) + (t.turn * (n : Rat)).floor % (n : Int) : ℤ) =
        (((t.turn * (n : Rat)).floor : Int)) := hdiv
      have h5 : ((n : ℝ) * (((t.turn * (n : Rat)).floor / (n : Int) : Int) : ℝ) +
        (((t.turn * (n : Rat)).floor % (n : Int) : Int) : ℝ)) = (((t.turn * (n : Rat)).floor : Int) : ℝ) := by
        exact_mod_cast h4
      rw [h2]
      linarith
    rw [zpow, cast, sub_div, mul_div_assoc, div_self hR.ne', mul_one, mul_div_assoc, div_self hR.ne', mul_one,
        sub_eq_add_neg,
      rootOf_add]
    have := rootOf_int (-((t.turn * (n : Rat)).floor / (n : Int)))
    push_cast at this
    rw [this, mul_one]
  unfold coeffValue
  rw [hc, List.length_map, List.length_range]
  have step : ∀ l : CSum, (∀ t ∈ l, t ∈ s) → ∑ j ∈ Finset.range n,
      ((ratSum (l.map (fun t => (if at_ t = j then t.coef.re.lo else 0) +
        (if (at_ t + n / 4) % n = j then t.coef.im.lo else 0))) : Rat) : ℂ) * rootOf (1 / (n : ℝ)) ^ j = csValue l := by
    intro l
    induction l with
    | nil => simp [ratSum, csValue]
    | cons t l ih =>
      intro hl
      have ih := ih (fun x hx => hl x (List.mem_cons_of_mem _ hx))
      have ht := hl t (List.mem_cons_self ..)
      have e : ∑ j ∈ Finset.range n, (((if at_ t = j then t.coef.re.lo else 0) +
          (if (at_ t + n / 4) % n = j then t.coef.im.lo else 0) : Rat) : ℂ) * rootOf (1 / (n : ℝ)) ^ j = t.value := by
        push_cast
        simp only [add_mul, Finset.sum_add_distrib, ite_mul, zero_mul, apply_ite (fun q : Rat => (q : ℂ)),
            Rat.cast_zero]
        rw [Finset.sum_ite_eq, Finset.sum_ite_eq, if_pos (Finset.mem_range.2 (at_lt t)),
          if_pos (Finset.mem_range.2 (Nat.mod_lt _ n0)), power, pow_add, zq, at_root t ht, Term.value]
        have : (⟨(t.coef.re.lo : ℝ), (t.coef.im.lo : ℝ)⟩ : ℂ) = (t.coef.re.lo : ℂ) +
            (t.coef.im.lo : ℂ) * Complex.I := by
          apply Complex.ext <;> simp
        rw [this]
        ring
      have : csValue (t :: l) = t.value + csValue l := by simp [csValue]
      rw [this, ← ih, ← e, ← Finset.sum_add_distrib]
      refine Finset.sum_congr rfl (fun j _ => ?_)
      rw [List.map_cons, ratSum, List.foldr_cons, ← ratSum]
      push_cast
      ring
  rw [← step s (fun _ h => h)]
  refine Finset.sum_congr rfl (fun j hj => ?_)
  rw [List.getD_eq_getElem _ _ (by simpa using hj), List.getElem_map, List.getElem_range]

/-- A sum known to be 0 is 0. -/
theorem csIsZero_value {s : CSum} (h : csIsZero s = true) : s.Exact ∧ csValue s = 0 := by
  simp only [csIsZero, Bool.and_eq_true] at h
  obtain ⟨hex, hz⟩ := h
  have hex : s.Exact := by simpa [csIsExact, CSum.Exact] using hex
  refine ⟨hex, ?_⟩
  rw [← csCoeffs_value s]
  obtain ⟨n0, -, -⟩ := csOrder_spec s
  generalize hn : csOrder s = n at *
  have hR : (0 : ℝ) < n := by exact_mod_cast n0
  set z := rootOf (1 / (n : ℝ)) with hzd
  have zpow (m : Nat) : z ^ m = rootOf ((m : ℝ) / n) := by rw [hzd, rootOf_pow, mul_one_div]
  have zn : z ^ n = 1 := by
    rw [zpow, div_self hR.ne']
    exact_mod_cast rootOf_int 1
  have prime {p : Nat} (hp : p ∈ primeDivisors n) : 0 < n / p ∧ n / p < n := by
    simp only [primeDivisors, List.mem_filter, List.mem_range, Bool.and_eq_true, decide_eq_true_eq] at hp
    exact ⟨Nat.div_pos (by omega) (by omega), Nat.div_lt_self n0 (by omega)⟩
  have hlen : (csCoeffs s).length = n := by simp [csCoeffs, hn]
  have fold : ∀ l : List Nat, (∀ p ∈ l, p ∈ primeDivisors n) →
      (l.foldr (fun p c => cyclicKill (n / p) c) (csCoeffs s)).length = n ∧
      (coeffValue z (l.foldr (fun p c => cyclicKill (n / p) c) (csCoeffs s)) = 0 → coeffValue z (csCoeffs s) = 0) := by
    intro l
    induction l with
    | nil => exact fun _ => ⟨hlen, id⟩
    | cons p l ih =>
      intro hl
      obtain ⟨i1, i2⟩ := ih (fun x hx => hl x (List.mem_cons_of_mem _ hx))
      obtain ⟨p1, p2⟩ := prime (hl p (List.mem_cons_self ..))
      rw [List.foldr_cons]
      refine ⟨by rw [cyclicKill_length, i1], fun h0 => i2 ?_⟩
      rw [cyclicKill_value (by rw [i1]; exact zn) (by omega)] at h0
      refine (mul_eq_zero.1 h0).resolve_left ?_
      rw [sub_eq_zero, eq_comm, zpow]
      exact rootOf_ne_one p1 p2
  refine (fold _ (fun _ h => h)).2 ?_
  unfold coeffValue
  refine Finset.sum_eq_zero (fun j hj => ?_)
  have : (List.foldr (fun p c => cyclicKill (n / p) c) (csCoeffs s) (primeDivisors n)).getD j 0 = 0 := by
    rw [List.getD_eq_getElem _ _ (Finset.mem_range.1 hj)]
    exact beq_iff_eq.1 (List.all_eq_true.1 hz _ (List.getElem_mem _))
  rw [this]
  simp

end Sys2Proof.Machine
end

