-- ==== Sys2Proof/Laws/Ratio.lean ====
section
/-! SUPPORT. The ratios of the detectors outside their corner cases, with the threshold test on them, and the metric of
Format 0 (43_format0.md R91 to R95, 00_scope.md R15). -/

namespace Sys2Proof.Machine

/-! ## Ratios (00_scope.md R15, 43_format0.md R94) -/

/-- `q` stands for a real to within what `errorBound` allows beyond its bound: it is at least the real and little more. -/
def Tight (q : Rat) (x : ℝ) : Prop := x ≤ (q : ℝ) ∧ (q : ℝ) ≤ x * (1 + 1 / 2 ^ 44)

theorem errorBound_mul (tol : Rat) (scale : ℝ) : errorBound tol scale = (tol * (1 + 1 / 2 ^ 40) + 1 / 2 ^ 40) * scale
    := rfl

theorem errorBound_nonneg {tol : Rat} (ht : 0 ≤ tol) {x : ℝ} (hx : 0 ≤ x) : 0 ≤ errorBound tol x := by
  have ht : (0 : ℝ) ≤ tol := by exact_mod_cast ht
  rw [errorBound]
  positivity

/-- A bound with an enclosure's width is within the error bound. -/
theorem bound_le {tol q : Rat} (ht : 0 ≤ tol) {x : ℝ} (hx : 0 ≤ x) (hq : Tight q x) :
    ((tol * q : Rat) : ℝ) + 1 / 2 ^ 44 * x ≤ errorBound tol x := by
  have ht : (0 : ℝ) ≤ tol := by exact_mod_cast ht
  have := mul_le_mul_of_nonneg_left hq.2 ht
  rw [errorBound]
  push_cast
  nlinarith [mul_nonneg ht hx]

/-- What the rules admit for a ratio whose denominator is farther than its error bound from 0. -/
theorem admitRatio_spec {tol : Rat} (ht : 0 ≤ tol) {num den : Ival} {x X y Y : ℝ} {S b : Rat}
    (hn : num.Encl x (1 / 2 ^ 44 * X)) (hx : 0 ≤ x) (hX : 0 ≤ X) (hS : Tight S X)
    (hd : den.Encl y (1 / 2 ^ 44 * Y)) (hY : 0 ≤ Y) (hb : tol * Y ≤ (b : ℝ))
    (hb' : (b : ℝ) + 1 / 2 ^ 44 * Y ≤ errorBound tol Y) (hy : errorBound tol Y < y) :
    b < den.lo ∧ ∃ lo hi, admitRatio tol num S den b = .within lo hi ∧ ratioLow tol x X y Y ≤ (lo : ℝ) ∧
      (hi : ℝ) ≤ ratioHigh tol x X y Y ∧
      ∀ v : ℝ, |v - x / y| ≤ tol * (X / y) → (lo : ℝ) ≤ v ∧ v ≤ (hi : ℝ) := by
  have ht' : (0 : ℝ) ≤ tol := by exact_mod_cast ht
  have hbound := bound_le ht hX hS
  push_cast at hbound
  obtain ⟨⟨n1, n2⟩, n3⟩ := hn
  obtain ⟨⟨d1, d2⟩, d3⟩ := hd
  have b0 : (0 : ℝ) ≤ b := le_trans (mul_nonneg ht' hY) hb
  have hlt : (b : ℝ) < den.lo := by linarith
  refine ⟨by exact_mod_cast hlt, _, _, rfl, ?_⟩
  have mcast (A B : Ival) : (((ivMul A B).lo : Rat) : ℝ) =
      min (min ((A.lo : ℝ) * B.lo) ((A.lo : ℝ) * B.hi)) (min ((A.hi : ℝ) * B.lo) ((A.hi : ℝ) * B.hi)) ∧
      (((ivMul A B).hi : Rat) : ℝ) =
      max (max ((A.lo : ℝ) * B.lo) ((A.lo : ℝ) * B.hi)) (max ((A.hi : ℝ) * B.lo) ((A.hi : ℝ) * B.hi)) := by
    simp only [ivMul, ratMin_cast, ratMax_cast, Rat.cast_mul, and_self]
  obtain ⟨p1, p2⟩ := mcast ⟨num.lo - tol * S, num.hi + tol * S⟩ ⟨1 / (den.hi + b), 1 / (den.lo - b)⟩
  push_cast at p1 p2
  have S0 : (0 : ℝ) ≤ S := hX.trans hS.1
  have tS : (0 : ℝ) ≤ tol * S := mul_nonneg ht' S0
  have hE : 0 ≤ errorBound tol X := errorBound_nonneg ht hX
  set eX := errorBound tol X with heX
  set eY := errorBound tol Y with heY
  -- the ends of numerator and denominator
  have nlo : x - eX ≤ num.lo - tol * S := by linarith
  have nhi : num.hi + tol * S ≤ x + eX := by linarith
  have dlo : y - eY ≤ den.lo - b := by linarith
  have dhi : (den.hi : ℝ) + b ≤ y + eY := by linarith
  have y0 : 0 < y - eY := by linarith
  have y1 : 0 < (den.lo : ℝ) - b := by linarith
  have y2 : 0 < (den.hi : ℝ) + b := by linarith
  have yle : (den.lo : ℝ) - b ≤ den.hi + b := by linarith
  have ileft : 1 / ((den.hi : ℝ) + b) ≤ 1 / ((den.lo : ℝ) - b) := one_div_le_one_div_of_le y1 yle
  have i0 : 0 < 1 / ((den.hi : ℝ) + b) := by positivity
  have iup : 1 / ((den.lo : ℝ) - b) ≤ 1 / (y - eY) := one_div_le_one_div_of_le y0 dlo
  have idn : 1 / (y + eY) ≤ 1 / ((den.hi : ℝ) + b) := one_div_le_one_div_of_le y2 dhi
  have dl0 : (0 : ℝ) < den.lo := lt_of_le_of_lt b0 hlt
  -- the slack
  have slack : (tol : ℝ) * (S / den.lo) ≤ errorBound tol (X / (y - eY)) := by
    have e1 : (S : ℝ) / den.lo ≤ S / (y - eY) := div_le_div_of_nonneg_left S0 y0 (by linarith)
    have e2 := mul_le_mul_of_nonneg_left e1 ht'
    have e3 : errorBound tol (X / (y - eY)) = eX / (y - eY) := by rw [heX, errorBound_mul, errorBound_mul]; ring
    rw [e3]
    refine e2.trans ?_
    rw [← mul_div_assoc]
    exact div_le_div_of_nonneg_right (by nlinarith) y0.le
  have slack0 : (0 : ℝ) ≤ tol * (S / den.lo) := mul_nonneg ht' (div_nonneg S0 dl0.le)
  set nl : ℝ := num.lo - tol * S
  set nh : ℝ := num.hi + tol * S
  set il : ℝ := 1 / ((den.hi : ℝ) + b)
  set ih : ℝ := 1 / ((den.lo : ℝ) - b)
  have nh0 : 0 ≤ nh := by show 0 ≤ (num.hi : ℝ) + tol * S; linarith
  have nlh : nl ≤ nh := by show (num.lo : ℝ) - tol * S ≤ num.hi + tol * S; linarith
  have ih0 : 0 < ih := lt_of_lt_of_le i0 ileft
  -- the products
  have phi : max (max (nl * il) (nl * ih)) (max (nh * il) (nh * ih)) ≤ nh * ih := by
    refine max_le (max_le ?_ ?_) (max_le ?_ le_rfl)
    · exact (mul_le_mul_of_nonneg_right nlh i0.le).trans (mul_le_mul_of_nonneg_left ileft nh0)
    · exact mul_le_mul_of_nonneg_right nlh ih0.le
    · exact mul_le_mul_of_nonneg_left ileft nh0
  have plo : min (nl * il) (nl * ih) ≤ min (min (nl * il) (nl * ih)) (min (nh * il) (nh * ih)) := by
    refine le_min le_rfl (le_min ?_ ?_)
    · exact (min_le_left _ _).trans (mul_le_mul_of_nonneg_right nlh i0.le)
    · exact (min_le_right _ _).trans (mul_le_mul_of_nonneg_right nlh ih0.le)
  refine ⟨?_, ?_, fun v hv => ?_⟩
  · push_cast
    rw [p1]
    refine sub_le_sub (le_trans ?_ plo) slack
    show min ((x - eX) / (y + eY)) ((x - eX) / (y - eY)) ≤ _
    rw [div_eq_mul_one_div (x - eX), div_eq_mul_one_div (x - eX)]
    have one (i : ℝ) (hi0 : 0 < i) (h1 : 1 / (y + eY) ≤ i) (h2 : i ≤ 1 / (y - eY)) :
        min ((x - eX) * (1 / (y + eY))) ((x - eX) * (1 / (y - eY))) ≤ nl * i := by
      refine le_trans ?_ (mul_le_mul_of_nonneg_right nlo hi0.le)
      rcases le_total 0 (x - eX) with h | h
      · exact (min_le_left _ _).trans (mul_le_mul_of_nonneg_left h1 h)
      · exact (min_le_right _ _).trans (mul_le_mul_of_nonpos_left h2 h)
    exact le_min (one il i0 idn (ileft.trans iup)) (one ih ih0 (idn.trans ileft) iup)
  · push_cast
    rw [p2]
    refine add_le_add (phi.trans ?_) slack
    rw [div_eq_mul_one_div]
    exact mul_le_mul nhi iup ih0.le (nh0.trans nhi)
  · obtain ⟨v1, v2⟩ := abs_le.1 hv
    have ypos : 0 < y := by linarith
    have q1 : (tol : ℝ) * (X / y) ≤ tol * (S / den.lo) := by
      refine mul_le_mul_of_nonneg_left ?_ ht'
      exact div_le_div₀ S0 hS.1 dl0 d1
    have inside := ivMul_has (a := ⟨num.lo - tol * S, num.hi + tol * S⟩) (b := ⟨1 / (den.hi + b), 1 / (den.lo - b)⟩)
      (x := x) (y := 1 / y) ⟨by push_cast; linarith, by push_cast; linarith⟩
      ⟨by push_cast; exact one_div_le_one_div_of_le ypos (by linarith), by push_cast; exact one_div_le_one_div_of_le y1 (by linarith)⟩
    rw [mul_one_div] at inside
    obtain ⟨k1, k2⟩ := inside
    constructor
    · push_cast; linarith
    · push_cast; linarith

/-- A value drawn from a range that holds a binary32 value lies in it. -/
theorem draw_within {lo hi : Rat} (hex : ∃ v, f32Finite v = true ∧ (lo : ℝ) ≤ realOf v ∧ realOf v ≤ (hi : ℝ))
    (id : DrawId) :
    let x := drawF32 (.within lo hi) id
    f32Finite x = true ∧ (lo : ℝ) ≤ realOf x ∧ realOf x ≤ (hi : ℝ) := by
  obtain ⟨v, v1, v2, v3⟩ := hex
  have h := drawF32_admits (a := .within lo hi) (id := id) ⟨v, by
    simp only [admits, v1, Bool.true_and, Bool.and_eq_true, decide_eq_true_eq]
    rw [realOf] at v2 v3
    exact ⟨by exact_mod_cast v2, by exact_mod_cast v3⟩⟩
  simp only [admits, Bool.and_eq_true, decide_eq_true_eq] at h
  simp only [realOf]
  exact ⟨h.1.1, by exact_mod_cast h.1.2, by exact_mod_cast h.2⟩

theorem f32Between_of {lo hi : Rat} {v : F32} (hf : f32Finite v = true) (h1 : lo ≤ f32Rat v) (h2 : f32Rat v ≤ hi) :
    f32Between lo hi = true := by
  have hc := f32Ceil_spec lo
  unfold f32Between
  cases e : f32Ceil lo with
  | none => exact absurd (hc.2 e v hf) (not_lt.2 h1)
  | some x => exact decide_eq_true ((hc.1 x e).2.2 v hf h1 |>.trans h2)

/-- The threshold test on a metric whose range holds a binary32 value: decided where the range lies on one side. -/
theorem within_decides {lo hi thr : Rat} (hex : ∃ v, f32Finite v = true ∧ (lo : ℝ) ≤ realOf v ∧ realOf v ≤ (hi : ℝ))
    (id : DrawId) :
    (thr < lo → drawBool (mayExceed (.within lo hi) thr) (mayNotExceed (.within lo hi) thr) id = true) ∧
    (hi ≤ thr → drawBool (mayExceed (.within lo hi) thr) (mayNotExceed (.within lo hi) thr) id = false) := by
  obtain ⟨v, v1, v2, v3⟩ := hex
  rw [realOf] at v2 v3
  have v2 : lo ≤ f32Rat v := by exact_mod_cast v2
  have v3 : f32Rat v ≤ hi := by exact_mod_cast v3
  have hb := f32Between_of v1 v2 v3
  obtain ⟨f1, f2⟩ := f32Floor_spec hi
  constructor
  · intro h
    have below : f32Between lo (ratMin hi thr) = false := by
      unfold f32Between
      cases e : f32Ceil lo with
      | none => rfl
      | some x =>
        have := ((f32Ceil_spec lo).1 x e).2.1
        refine decide_eq_false (not_le.2 (lt_of_lt_of_le ?_ this))
        unfold ratMin
        split <;> linarith
    have above : f32BetweenAbove lo hi thr = true := by
      unfold f32BetweenAbove
      cases e : f32Floor hi with
      | none => exact absurd (f2 e v v1) (not_lt.2 v3)
      | some x =>
        have := (f1 x e).2.2 v v1 v3
        simp only [Bool.and_eq_true, decide_eq_true_eq]
        exact ⟨v2.trans this, by linarith⟩
    simp [drawBool, mayExceed, mayNotExceed, hb, above, below]
  · intro h
    have above : f32BetweenAbove lo hi thr = false := by
      unfold f32BetweenAbove
      cases e : f32Floor hi with
      | none => rfl
      | some x =>
        have := (f1 x e).2.1
        simp only [Bool.and_eq_false_iff, decide_eq_false_iff_not]
        exact .inr (not_lt.2 (this.trans h))
    simp [drawBool, mayExceed, mayNotExceed, hb, above]

/-- A ratio outside its corner cases: what the rules admit, and that binary32 holds such a value. -/
theorem admitRatio_closed {tol : Rat} (ht : 0 ≤ tol) {num den : Ival} {x X y Y : ℝ} {S b : Rat}
    (hn : num.Encl x (1 / 2 ^ 44 * X)) (hx : 0 ≤ x) (hX : 0 ≤ X) (hS : Tight S X)
    (hd : den.Encl y (1 / 2 ^ 44 * Y)) (hY : 0 ≤ Y) (hb : tol * Y ≤ (b : ℝ))
    (hb' : (b : ℝ) + 1 / 2 ^ 44 * Y ≤ errorBound tol Y) (hc : RatioClosed tol x X y Y) :
    b < den.lo ∧ ∃ lo hi, admitRatio tol num S den b = .within lo hi ∧ ratioLow tol x X y Y ≤ (lo : ℝ) ∧
      (hi : ℝ) ≤ ratioHigh tol x X y Y ∧ ∃ v, f32Finite v = true ∧ (lo : ℝ) ≤ realOf v ∧ realOf v ≤ (hi : ℝ) := by
  obtain ⟨hy, v, v1, v2⟩ := hc
  obtain ⟨h0, lo, hi, h1, h2, h3, h4⟩ := admitRatio_spec ht hn hx hX hS hd hY hb hb' hy
  exact ⟨h0, lo, hi, h1, h2, h3, v, v1, h4 _ v2⟩

/-- Value and decision of a metric that is such a ratio. -/
theorem ratio_answers {tol : Rat} {x X y Y : ℝ} {a : Admitted}
    (h : RatioClosed tol x X y Y → ∃ lo hi, a = .within lo hi ∧ ratioLow tol x X y Y ≤ (lo : ℝ) ∧
      (hi : ℝ) ≤ ratioHigh tol x X y Y ∧ ∃ v, f32Finite v = true ∧ (lo : ℝ) ≤ realOf v ∧ realOf v ≤ (hi : ℝ)) :
    (∀ id, ReturnsRatio tol x X y Y (drawF32 a id)) ∧
    ∀ (thr : Rat) (id : DrawId), RatioClosed tol x X y Y →
      ((thr : ℝ) < ratioLow tol x X y Y → drawBool (mayExceed a thr) (mayNotExceed a thr) id = true) ∧
      (ratioHigh tol x X y Y ≤ thr → drawBool (mayExceed a thr) (mayNotExceed a thr) id = false) := by
  constructor
  · intro id hc
    obtain ⟨lo, hi, rfl, h2, h3, h4⟩ := h hc
    obtain ⟨d1, d2, d3⟩ := draw_within h4 id
    exact ⟨d1, h2.trans d2, d3.trans h3⟩
  · intro thr id hc
    obtain ⟨lo, hi, rfl, h2, h3, h4⟩ := h hc
    obtain ⟨d1, d2⟩ := within_decides (thr := thr) h4 id
    exact ⟨fun g => d1 (by exact_mod_cast lt_of_lt_of_le g h2), fun g => d2 (by exact_mod_cast h3.trans g)⟩

/-! ## The metric of Format 0 (43_format0.md R93 to R95) -/

theorem blockEnergy_value (d : PucchDesc) (s : State) (i p : Nat) :
    ((blockEnergy (rxBlock d s i p) : Rat) : ℝ) = ∑ k ∈ Finset.range 12, ‖complexOf (sampleAt d s i p k)‖ ^ 2 := by
  rw [blockEnergy, ratSum_cast, rxBlock, List.map_map, List.map_map, sum_map_range]
  exact Finset.sum_congr rfl (fun k _ => qcAbs2_norm _)

theorem energy_value (d : PucchDesc) (s : State) :
    ((ratSum ((rxBlocks d s).map blockEnergy) : Rat) : ℝ) = allocationEnergy d s := by
  rw [ratSum_cast, List.map_map]
  refine (sum_blocks d s (fun b => ((blockEnergy b : Rat) : ℝ))).trans ?_
  exact Finset.sum_congr rfl (fun i _ => Finset.sum_congr rfl (fun p _ => blockEnergy_value d s i p))

/-- The scale of the powers is at most the energy. -/
theorem candidatePowerScale_le (d : PucchDesc) (s : State) : candidatePowerScale d s ≤ allocationEnergy d s := by
  refine Finset.sum_le_sum (fun i _ => Finset.sum_le_sum (fun p _ => ?_))
  have := sq_sum_le_card_mul_sum_sq (s := Finset.range 12) (f := fun k => ‖complexOf (sampleAt d s i p k)‖)
  rw [Finset.card_range] at this
  rw [div_le_iff₀ (by norm_num), amplitude]
  push_cast at this
  linarith

/-- A residual known to be 0 is 0. -/
theorem f0ResidualZero_value {d : PucchDesc} {s : State} (he : ParamsExact s.params) (hs : ParamSequences s.params)
    {c : F0Cand} (h : f0ResidualZero s.params d (rxBlocks d s) c = true) :
    allocationEnergy d s = candidatePower d s c := by
  refine Finset.sum_congr rfl (fun i hi => Finset.sum_congr rfl (fun p hp => ?_))
  obtain ⟨f, hc, term⟩ := correlate_terms (d := d) he hs i p (d.initCs.toNat + c.mcs)
  obtain ⟨h1, h2, -⟩ := correlate_value (d := d) he hs i p (d.initCs.toNat + c.mcs)
  have hb := List.all_eq_true.1 h (rxBlock d s i p)
    (List.mem_flatMap.2 ⟨i, List.mem_range.2 (Finset.mem_range.1 hi), List.mem_map.2 ⟨p, List.mem_range.2
        (Finset.mem_range.1 hp), rfl⟩⟩)
  dsimp only at hb
  rw [show f0Shift d c (rxBlock d s i p) = (d.initCs.toNat + c.mcs + (rxBlock d s i p).seq.ncs.val) % 12 from rfl] at hb
  have each (k : Nat) (hk : k < 12) : ‖complexOf (sampleAt d s i p k)‖ = ‖correlation d s i p
      (d.initCs.toNat + c.mcs)‖ / 12 := by
    have hz := (csIsZero_value (List.all_eq_true.1 hb (f k) (by rw [hc]; exact List.mem_map_of_mem (List.mem_range.2 hk)))).2
    have : (f k).value + csValue (csScale (-1 / 12) (correlate s.params (rxBlock d s i p)
      ((d.initCs.toNat + c.mcs + (rxBlock d s i p).seq.ncs.val) % 12))) = 0 := by
      simpa only [csValue, List.map_cons, List.sum_cons] using hz
    rw [csScale_value h1, h2] at this
    rw [← (term k).2.2, eq_neg_of_add_eq_zero_left this, norm_neg, norm_mul]
    have : ‖(((-1 / 12 : Rat) : Rat) : ℂ)‖ = 1 / 12 := by
      push_cast
      norm_num
    rw [this]
    ring
  rw [Finset.sum_congr rfl (fun k hk => by rw [each k (Finset.mem_range.1 hk)]), Finset.sum_const, Finset.card_range]
  simp only [nsmul_eq_mul]
  push_cast
  ring

/-- The metric of a candidate on finite samples, outside its corner cases (43_format0.md R93, R94). -/
theorem f0MetricAdmitted_closed {d : PucchDesc} {s : State} (ht : 0 ≤ s.params.tol) (he : ParamsExact s.params)
    (hs : ParamSequences s.params) (c : F0Cand) :
    let P := candidatePower d s c
    let S := candidatePowerScale d s
    let E := allocationEnergy d s
    RatioClosed s.params.tol P S (E - P) (E + P) →
      ∃ lo hi, f0MetricAdmitted s.params.tol (ratSum ((rxBlocks d s).map blockEnergy)) (f0PowerScale (rxBlocks d s))
          (f0Power s.params d (rxBlocks d s) c) (f0ResidualZero s.params d (rxBlocks d s) c) = .within lo hi ∧
        ratioLow s.params.tol P S (E - P) (E + P) ≤ (lo : ℝ) ∧ (hi : ℝ) ≤ ratioHigh s.params.tol P S (E - P) (E + P) ∧
        ∃ v, f32Finite v = true ∧ (lo : ℝ) ≤ realOf v ∧ realOf v ≤ (hi : ℝ) := by
  intro P S E hc
  have ht' : (0 : ℝ) ≤ s.params.tol := by exact_mod_cast ht
  have hP : 0 ≤ P := candidatePower_nonneg d s c
  have hS : 0 ≤ S := candidatePowerScale_nonneg d s
  have hSE : S ≤ E := candidatePowerScale_le d s
  have hPE : 0 ≤ E + P := by linarith
  have hy := hc.1
  have hy0 := errorBound_nonneg ht hPE
  have hpow : (f0Power s.params d (rxBlocks d s) c).Encl P (1 / 2 ^ 56 * S) := f0Power_encl he hs c
  obtain ⟨s1, s2⟩ := f0PowerScale_bounds d s
  have hen : ((ratSum ((rxBlocks d s).map blockEnergy) : Rat) : ℝ) = E := energy_value d s
  generalize hq : ratSum ((rxBlocks d s).map blockEnergy) = q at hen
  generalize hpw : f0Power s.params d (rxBlocks d s) c = pow at hpow
  generalize hsc : f0PowerScale (rxBlocks d s) = sc at s1 s2
  have tight : Tight sc S := ⟨s1, s2.trans (mul_le_mul_of_nonneg_left (by norm_num) hS)⟩
  have hsub : (ivSub (ivOf q) pow).Encl (E - P) (0 + 1 / 2 ^ 56 * S) := by
    rw [← hen]
    exact ivSub_encl (ivOf_encl q) hpow
  have hden : (ivClamp0 (ivSub (ivOf q) pow)).Encl (E - P) (1 / 2 ^ 44 * (E + P)) := by
    obtain ⟨⟨c1, c2⟩, c3⟩ := hsub
    have c0 : 0 ≤ E - P := by linarith
    refine ⟨⟨?_, ?_⟩, ?_⟩ <;> simp only [ivClamp0, ratMax_cast, Rat.cast_zero]
    · exact max_le c0 c1
    · exact c2.trans (le_max_right _ _)
    · rw [max_eq_right (c0.trans c2)]
      have := le_max_right (0 : ℝ) ((ivSub (ivOf q) pow).lo : ℝ)
      have : (0 : ℝ) + 1 / 2 ^ 56 * S ≤ 1 / 2 ^ 44 * (E + P) := by nlinarith
      linarith
  obtain ⟨⟨w1, w2⟩, w3⟩ := hpow
  have hb : s.params.tol * (E + P) ≤ ((s.params.tol * (q + pow.hi) : Rat) : ℝ) := by
    push_cast
    rw [hen]
    exact mul_le_mul_of_nonneg_left (by linarith) ht'
  have hb' : ((s.params.tol * (q + pow.hi) : Rat) : ℝ) + 1 / 2 ^ 44 * (E + P) ≤ errorBound s.params.tol (E + P) := by
    push_cast
    rw [hen, errorBound_mul]
    have : (pow.hi : ℝ) ≤ P + 1 / 2 ^ 56 * (E + P) := by nlinarith
    have := mul_le_mul_of_nonneg_left this ht'
    nlinarith [mul_nonneg ht' hPE]
  have hpow' : pow.Encl P (1 / 2 ^ 44 * S) := ⟨⟨w1, w2⟩, w3.trans (by nlinarith)⟩
  obtain ⟨hlo, lo, hi, h1, h2⟩ := admitRatio_closed ht hpow' hP hS tight hden hPE hb hb' hc
  refine ⟨lo, hi, ?_, h2⟩
  have hsc0 : sc ≠ 0 := by
    intro h0
    have h0 : S ≤ 0 := by rw [h0] at s1; simpa using s1
    -- with no amplitude there is no energy
    have hamp : ∀ i ∈ Finset.range d.nofSym.toNat, ∀ p ∈ Finset.range d.nofPorts.toNat, amplitude d s i p = 0 := by
      intro i hi p hp
      have hz : S = 0 := le_antisymm h0 hS
      have h3 := (Finset.sum_eq_zero_iff_of_nonneg (fun i _ => Finset.sum_nonneg (fun p _ => by positivity))).1 hz i hi
      have h4 := (Finset.sum_eq_zero_iff_of_nonneg (fun p _ => by positivity)).1 h3 p hp
      nlinarith [amplitude_nonneg d s i p]
    have hE0 : E = 0 := by
      refine Finset.sum_eq_zero (fun i hi => Finset.sum_eq_zero (fun p hp => Finset.sum_eq_zero (fun k hk => ?_)))
      have := (Finset.sum_eq_zero_iff_of_nonneg (fun k _ => norm_nonneg _)).1 (hamp i hi p hp) k hk
      rw [this]
      norm_num
    linarith
  have hrz : f0ResidualZero s.params d (rxBlocks d s) c = false := by
    by_contra h
    have := f0ResidualZero_value he hs (Bool.eq_true_of_not_eq_false h)
    have : E = P := this
    linarith
  unfold f0MetricAdmitted
  dsimp only
  rw [if_neg hsc0, hrz, if_neg (by decide), if_neg (not_le.2 hlo), h1]

end Sys2Proof.Machine
end

