-- ==== Sys2Proof/Laws/Noise.lean ====
section
/-! SUPPORT. The folded sum, the kept shifts, the noise estimate, the metric and the SINR of Format 1 over the complex
numbers (44_format1.md R105 to R108). -/

namespace Sys2Proof.Machine

/-! ## The folded sum of Format 1 (44_format1.md R107) -/

theorem rootOf_eighth (n : Nat) : rootOf ((n : ℝ) / 8) = ((1 + Complex.I) / Real.sqrt 2) ^ n := by
  have h1 : rootOf (1 / 8) = (1 + Complex.I) / Real.sqrt 2 := by
    have h0 : (Real.sqrt 2 : ℂ) ≠ 0 := by exact_mod_cast (Real.sqrt_pos.2 (by norm_num)).ne'
    have hs : (Real.sqrt 2 : ℂ) * Real.sqrt 2 = 2 := by exact_mod_cast Real.mul_self_sqrt (by norm_num : (0 : ℝ) ≤ 2)
    have e : rootOf (1 / 8) = ((Real.sqrt 2 / 2 : ℝ) : ℂ) * (1 + Complex.I) := by
      apply Complex.ext
      · rw [rootOf_re, show 2 * Real.pi * (1 / 8) = Real.pi / 4 by ring, Real.cos_pi_div_four]; simp
      · rw [rootOf_im, show 2 * Real.pi * (1 / 8) = Real.pi / 4 by ring, Real.sin_pi_div_four]; simp
    rw [e, eq_div_iff h0]
    push_cast
    linear_combination (1 + Complex.I) / 2 * hs
  rw [← h1, rootOf_pow]
  congr 1
  ring

/-- The model's phase of the decided symbol is the rule's symbol. -/
theorem f1SymbolTurn_value (q : Nat) (b0 b1 : Bool) : rootOf ((f1SymbolTurn q b0 b1 : Rat) : ℝ) =
    decidedSymbol q b0 b1 := by
  have e (n : Nat) : rootOf (((n / 8 : Rat) : Rat) : ℝ) = ((1 + Complex.I) / Real.sqrt 2) ^ n := by
    rw [← rootOf_eighth]; push_cast; rfl
  have e1 := e 1
  have e3 := e 3
  have e5 := e 5
  have e7 := e 7
  set r := (1 + Complex.I) / (Real.sqrt 2 : ℂ) with hr
  have h0 : (Real.sqrt 2 : ℂ) ≠ 0 := by exact_mod_cast (Real.sqrt_pos.2 (by norm_num)).ne'
  have hs : (Real.sqrt 2 : ℂ) * Real.sqrt 2 = 2 := by exact_mod_cast Real.mul_self_sqrt (by norm_num : (0 : ℝ) ≤ 2)
  have r2 : r ^ 2 = Complex.I := by
    rw [hr, div_pow, pow_two (Real.sqrt 2 : ℂ), hs]
    linear_combination (1 / 2) * Complex.I_sq
  have r3 : r ^ 3 = Complex.I * r := by rw [pow_succ, r2]
  have r5 : r ^ 5 = -r := by rw [show r ^ 5 = (r ^ 2) ^ 2 * r by ring, r2, Complex.I_sq]; ring
  have r7 : r ^ 7 = -(Complex.I * r) := by rw [show r ^ 7 = (r ^ 2) ^ 2 * (r ^ 2) * r by ring, r2, Complex.I_sq]; ring
  have ir : Complex.I * r = (-1 + Complex.I) / Real.sqrt 2 := by
    rw [hr, ← mul_div_assoc]
    congr 1
    linear_combination Complex.I_sq
  norm_num at e1 e3 e5 e7
  unfold f1SymbolTurn decidedSymbol
  by_cases hq : q ≤ 1
  · simp only [if_pos hq]
    cases b0
    · simp only [Bool.false_eq_true, if_false]
      push_cast
      rw [e1, one_mul]
    · simp only [if_true]
      push_cast
      rw [e5, r5, hr]
      ring
  · simp only [if_neg hq]
    cases b0 <;> cases b1 <;> simp only [Bool.false_eq_true, if_false, if_true] <;> push_cast
    · rw [e1, hr, mul_one]
    · rw [e7, r7, ir]; ring
    · rw [e3, r3, ir, mul_one]
    · rw [e5, r5, hr]; ring

theorem numScaleValue_nonneg (d : PucchDesc) (s : State) : 0 ≤ numScaleValue d s :=
  Finset.sum_nonneg (fun _ _ => Finset.sum_nonneg (fun _ _ => sq_nonneg _))

/-- `num` is the sum of the squared magnitudes of `D + conj(dhat) * X`. -/
theorem numValue_eq (d : PucchDesc) (s : State) {z : ℂ} (hz : ‖z‖ = 1) (occ m0 : Nat) :
    numValue d s z occ m0 = ∑ h ∈ Finset.range (hopCount d), ∑ p ∈ Finset.range d.nofPorts.toNat,
      ‖despreadValue d s true h p occ m0 + starRingEnd ℂ z * despreadValue d s false h p occ m0‖ ^ 2 := by
  rw [numValue, mainValue, crossValue, Finset.mul_sum, Complex.re_sum, Finset.mul_sum, ← Finset.sum_add_distrib]
  refine Finset.sum_congr rfl (fun h _ => ?_)
  rw [Finset.mul_sum, Complex.re_sum, Finset.mul_sum, ← Finset.sum_add_distrib]
  refine Finset.sum_congr rfl (fun p _ => ?_)
  generalize despreadValue d s true h p occ m0 = D
  generalize despreadValue d s false h p occ m0 = X
  rw [← Complex.normSq_eq_norm_sq, ← Complex.normSq_eq_norm_sq, ← Complex.normSq_eq_norm_sq, Complex.normSq_add,
    Complex.normSq_mul, Complex.normSq_conj, Complex.normSq_eq_norm_sq z, hz]
  have : (starRingEnd ℂ z * (starRingEnd ℂ D * X)).re = (D * starRingEnd ℂ (starRingEnd ℂ z * X)).re := by
    rw [map_mul, Complex.conj_conj, ← Complex.conj_re (starRingEnd ℂ z * _)]
    simp only [map_mul, Complex.conj_conj]
    ring_nf
  rw [this]
  ring

theorem numValue_nonneg (d : PucchDesc) (s : State) {z : ℂ} (hz : ‖z‖ = 1) (occ m0 : Nat) : 0 ≤
    numValue d s z occ m0 := by
  rw [numValue_eq d s hz]
  exact Finset.sum_nonneg (fun _ _ => Finset.sum_nonneg (fun _ _ => sq_nonneg _))

/-- `num` is enclosed. -/
theorem f1Num_encl {d : PucchDesc} {s : State} (he : ParamsExact s.params) (hs : ParamSequences s.params)
    (turn : Rat) (occ m0 : Nat) :
    (f1Num d s turn occ m0).Encl (numValue d s (rootOf (turn : ℝ)) occ m0) (1 / 2 ^ 56 * numScaleValue d s) := by
  have h := ivSum_encl (f1Lanes d) (fun hp => cbAbs2 (csBox (f1Folded d s turn occ m0 hp)))
    (fun hp => ‖despreadValue d s true hp.1 hp.2 occ m0 +
      starRingEnd ℂ (rootOf (turn : ℝ)) * despreadValue d s false hp.1 hp.2 occ m0‖ ^ 2)
    (fun hp => 1 / 2 ^ 56 * (despreadScale d s true hp.1 hp.2 + despreadScale d s false hp.1 hp.2) ^ 2)
    (fun hp _ => by
      obtain ⟨a1, a2, a3⟩ := f1Despread_value (d := d) he hs true hp.1 hp.2 occ m0
      obtain ⟨b1, b2, b3⟩ := f1Despread_value (d := d) he hs false hp.1 hp.2 occ m0
      have hex : (f1Folded d s turn occ m0 hp).Exact := by
        intro t ht
        rcases List.mem_append.1 ht with h | h
        · exact a1 t h
        · exact csRot_exact b1 _ t h
      have := csPower_encl hex
      rw [f1Folded, csValue_append, csNorm_append, csRot_value, csRot_norm, a2, a3, b2, b3] at this
      rw [rootOf_conj]
      push_cast at this
      exact this)
  rw [sum_lanes_f1, sum_lanes_f1] at h
  simp only [← Finset.mul_sum] at h
  rw [numValue_eq d s (rootOf_norm _)]
  exact h

theorem f1NumScale_tight (d : PucchDesc) (s : State) : Tight (f1NumScale d s) (numScaleValue d s) := by
  have e : ((f1NumScale d s : Rat) : ℝ) = ∑ h ∈ Finset.range (hopCount d), ∑ p ∈ Finset.range d.nofPorts.toNat,
      (((f1Amp d s true h p : Rat) : ℝ) + ((f1Amp d s false h p : Rat) : ℝ)) ^ 2 := by
    rw [f1NumScale, ratSum_cast, List.map_map, sum_lanes_f1]
    refine Finset.sum_congr rfl (fun h _ => Finset.sum_congr rfl (fun p _ => ?_))
    simp only [Function.comp]
    push_cast
    ring
  have each (h p : Nat) : (despreadScale d s true h p + despreadScale d s false h p) ^ 2 ≤
      (((f1Amp d s true h p : Rat) : ℝ) + ((f1Amp d s false h p : Rat) : ℝ)) ^ 2 ∧
      (((f1Amp d s true h p : Rat) : ℝ) + ((f1Amp d s false h p : Rat) : ℝ)) ^ 2 ≤
        (despreadScale d s true h p + despreadScale d s false h p) ^ 2 * (1 + 1 / 2 ^ 44) := by
    obtain ⟨a1, a2⟩ := f1Amp_bounds d s true h p
    obtain ⟨b1, b2⟩ := f1Amp_bounds d s false h p
    have a0 := despreadScale_nonneg d s true h p
    have b0 := despreadScale_nonneg d s false h p
    refine ⟨pow_le_pow_left₀ (by linarith) (by linarith) 2, ?_⟩
    refine (pow_le_pow_left₀ (by linarith) (show _ ≤ (despreadScale d s true h p + despreadScale d s false h p) * (1 + 1 / 2 ^ 64) by linarith) 2).trans ?_
    rw [mul_pow]
    exact mul_le_mul_of_nonneg_left (by norm_num) (sq_nonneg _)
  rw [Tight, e, numScaleValue, Finset.sum_mul]
  refine ⟨Finset.sum_le_sum (fun h _ => Finset.sum_le_sum (fun p _ => (each h p).1)), Finset.sum_le_sum (fun h _ => ?_)⟩
  rw [Finset.sum_mul]
  exact Finset.sum_le_sum (fun p _ => (each h p).2)

/-! ## The kept shifts (44_format1.md R105) -/

theorem chanValue_eq {d : PucchDesc} {s : State} (he : ParamsExact s.params) (hs : ParamSequences s.params)
    (h p occ m0 : Nat) :
    (f1Chan d s h p occ m0).Exact ∧ csValue (f1Chan d s h p occ m0) = chanValue d s h p occ m0 ∧
      csNorm (f1Chan d s h p occ m0) = despreadScale d s true h p / (12 * (symbolsOfHop d h true).length) := by
  obtain ⟨h1, h2, -⟩ := f1Despread_value (d := d) he hs true h p occ m0
  obtain ⟨c1, -, c3⟩ := f1Chan_value (d := d) he hs h p occ m0
  refine ⟨c1, ?_, c3⟩
  rw [f1Chan, csScale_value h1, h2, chanValue, f1Nd, f1HopSymbols_eq]
  push_cast
  ring

theorem chanValue_le {d : PucchDesc} {s : State} (he : ParamsExact s.params) (hs : ParamSequences s.params)
    (h p occ m0 : Nat) :
    ‖chanValue d s h p occ m0‖ ≤ despreadScale d s true h p / (12 * (symbolsOfHop d h true).length) := by
  obtain ⟨-, c2, c3⟩ := chanValue_eq (d := d) he hs h p occ m0
  rw [← c2, ← c3]
  exact csValue_le _

theorem shiftScale_nonneg (d : PucchDesc) (s : State) (h : Nat) : 0 ≤ shiftScale d s h :=
  Finset.sum_nonneg (fun _ _ => sq_nonneg _)

theorem f1Energy_encl {d : PucchDesc} {s : State} (he : ParamsExact s.params) (hs : ParamSequences s.params)
    (h occ m0 : Nat) :
    (f1Energy d s h occ m0).Encl (shiftEnergy d s h occ m0) (1 / 2 ^ 56 * shiftScale d s h) := by
  have hsum := ivSum_encl (f1Ports d) (fun p => cbAbs2 (csBox (f1Chan d s h p occ m0)))
    (fun p => ‖chanValue d s h p occ m0‖ ^ 2)
    (fun p => 1 / 2 ^ 56 * (despreadScale d s true h p / (12 * (symbolsOfHop d h true).length)) ^ 2)
    (fun p _ => by
      obtain ⟨c1, c2, c3⟩ := chanValue_eq (d := d) he hs h p occ m0
      rw [← c2, ← c3]
      exact csPower_encl c1)
  rw [f1Ports, sum_map_range, sum_map_range, ← Finset.mul_sum] at hsum
  exact hsum

/-- The bound of an energy, as the model computes it, with the width of its enclosure. -/
theorem f1KeepBound (d : PucchDesc) (s : State) (ht : 0 ≤ s.params.tol) (h : Nat) :
    let bound := s.params.tol * ratSum ((f1Ports d).map (fun p => f1ChanAmp d s h p * f1ChanAmp d s h p))
    0 ≤ bound ∧ (bound : ℝ) + 1 / 2 ^ 56 * shiftScale d s h ≤ errorBound s.params.tol (shiftScale d s h) := by
  intro bound
  have e : ((ratSum ((f1Ports d).map (fun p => f1ChanAmp d s h p * f1ChanAmp d s h p)) : Rat) : ℝ) =
      ∑ p ∈ Finset.range d.nofPorts.toNat, (((f1Amp d s true h p : Rat) : ℝ) / (12 *
          (symbolsOfHop d h true).length)) ^ 2 := by
    rw [ratSum_cast, f1Ports, List.map_map, sum_map_range]
    refine Finset.sum_congr rfl (fun p _ => ?_)
    simp only [Function.comp, f1ChanAmp, f1Nd, f1HopSymbols_eq]
    push_cast
    ring
  have tight : Tight (ratSum ((f1Ports d).map (fun p => f1ChanAmp d s h p * f1ChanAmp d s h p)))
      (shiftScale d s h) := by
    rw [Tight, e, shiftScale, Finset.sum_mul]
    have each (p : Nat) :
        (despreadScale d s true h p / (12 * (symbolsOfHop d h true).length)) ^ 2 ≤
          (((f1Amp d s true h p : Rat) : ℝ) / (12 * (symbolsOfHop d h true).length)) ^ 2 ∧
        (((f1Amp d s true h p : Rat) : ℝ) / (12 * (symbolsOfHop d h true).length)) ^ 2 ≤
          (despreadScale d s true h p / (12 * (symbolsOfHop d h true).length)) ^ 2 * (1 + 1 / 2 ^ 44) := by
      obtain ⟨a1, a2⟩ := f1Amp_bounds d s true h p
      have a0 := despreadScale_nonneg d s true h p
      have n0 : (0 : ℝ) ≤ 12 * (symbolsOfHop d h true).length := by positivity
      generalize (12 * ((symbolsOfHop d h true).length : ℝ)) = n at *
      have q1 := div_le_div_of_nonneg_right a1 n0
      have q2 := div_le_div_of_nonneg_right a2 n0
      have q0 := div_nonneg a0 n0
      rw [mul_div_right_comm] at q2
      refine ⟨pow_le_pow_left₀ q0 q1 2, (pow_le_pow_left₀ (q0.trans q1) q2 2).trans ?_⟩
      rw [mul_pow]
      exact mul_le_mul_of_nonneg_left (by norm_num) (sq_nonneg _)
    exact ⟨Finset.sum_le_sum (fun p _ => (each p).1), Finset.sum_le_sum (fun p _ => (each p).2)⟩
  have hS := shiftScale_nonneg d s h
  have hle := bound_le ht hS tight
  refine ⟨mul_nonneg ht (by exact_mod_cast hS.trans tight.1), ?_⟩
  have : (1 : ℝ) / 2 ^ 56 * shiftScale d s h ≤ 1 / 2 ^ 44 * shiftScale d s h :=
    mul_le_mul_of_nonneg_right (by norm_num) hS
  linarith

/-- `Emax` is the largest of the energies, ends apart. -/
theorem f1MaxEnergy_spec (d : PucchDesc) (s : State) (occs : List Nat) (h : Nat) :
    (∀ occ m0, occ ∈ occs → m0 < 12 → (f1Energy d s h occ m0).lo ≤ (f1MaxEnergy d s occs h).lo) ∧
    ((f1MaxEnergy d s occs h).hi = 0 ∨ ∃ occ m0, occ ∈ occs ∧ m0 < 12 ∧
      (f1MaxEnergy d s occs h).hi = (f1Energy d s h occ m0).hi) ∧
    ((∀ occ m0, (f1Energy d s h occ m0).lo ≤ (f1Energy d s h occ m0).hi) →
      (f1MaxEnergy d s occs h).lo ≤ (f1MaxEnergy d s occs h).hi) := by
  have mx (a b : Rat) : a ≤ ratMax a b ∧ b ≤ ratMax a b ∧ (ratMax a b = a ∨ ratMax a b = b) := by
    unfold ratMax
    split
    · exact ⟨‹_›, le_rfl, .inr rfl⟩
    · exact ⟨le_rfl, le_of_lt (not_le.1 ‹_›), .inl rfl⟩
  have fold : ∀ l : List Ival,
      (∀ a ∈ l, a.lo ≤ (l.foldr (fun a b : Ival => ⟨ratMax a.lo b.lo, ratMax a.hi b.hi⟩) (ivOf 0)).lo) ∧
      ((l.foldr (fun a b : Ival => ⟨ratMax a.lo b.lo, ratMax a.hi b.hi⟩) (ivOf 0)).hi = 0 ∨
        ∃ a ∈ l, (l.foldr (fun a b : Ival => ⟨ratMax a.lo b.lo, ratMax a.hi b.hi⟩) (ivOf 0)).hi = a.hi) ∧
      ((∀ a ∈ l, a.lo ≤ a.hi) → (l.foldr (fun a b : Ival => ⟨ratMax a.lo b.lo, ratMax a.hi b.hi⟩) (ivOf 0)).lo ≤
        (l.foldr (fun a b : Ival => ⟨ratMax a.lo b.lo, ratMax a.hi b.hi⟩) (ivOf 0)).hi) := by
    intro l
    induction l with
    | nil => exact ⟨nofun, .inl rfl, fun _ => le_rfl⟩
    | cons x l ih =>
      obtain ⟨i1, i2, i3⟩ := ih
      rw [List.foldr_cons]
      dsimp only
      refine ⟨fun a ha => ?_, ?_, fun hl => ?_⟩
      · rcases List.mem_cons.1 ha with rfl | ha
        · exact (mx _ _).1
        · exact (i1 a ha).trans (mx _ _).2.1
      · rcases (mx x.hi (l.foldr (fun a b : Ival => ⟨ratMax a.lo b.lo, ratMax a.hi b.hi⟩) (ivOf 0)).hi).2.2 with e | e
        · exact .inr ⟨x, List.mem_cons_self .., e⟩
        · rw [e]
          rcases i2 with i2 | ⟨a, ha, i2⟩
          · exact .inl i2
          · exact .inr ⟨a, List.mem_cons_of_mem _ ha, i2⟩
      · have hx := hl x (List.mem_cons_self ..)
        have i := i3 (fun a ha => hl a (List.mem_cons_of_mem _ ha))
        generalize l.foldr (fun a b : Ival => ⟨ratMax a.lo b.lo, ratMax a.hi b.hi⟩) (ivOf 0) = y at i
        obtain ⟨-, -, e | e⟩ := mx x.lo y.lo
        · rw [e]; exact hx.trans (mx x.hi y.hi).1
        · rw [e]; exact i.trans (mx x.hi y.hi).2.1
  obtain ⟨f1, f2, f3⟩ := fold (occs.flatMap (fun i => (List.range 12).map (f1Energy d s h i)))
  refine ⟨fun occ m0 ho hm => f1 _ (List.mem_flatMap.2 ⟨occ, ho, List.mem_map.2 ⟨m0, List.mem_range.2 hm, rfl⟩⟩), ?_,
      fun hle => f3 (fun a ha => ?_)⟩
  · rcases f2 with f2 | ⟨a, ha, f2⟩
    · exact .inl f2
    · obtain ⟨occ, ho, ha⟩ := List.mem_flatMap.1 ha
      obtain ⟨m0, hm, rfl⟩ := List.mem_map.1 ha
      exact .inr ⟨occ, m0, ho, List.mem_range.1 hm, f2⟩
  · obtain ⟨occ, -, ha⟩ := List.mem_flatMap.1 ha
    obtain ⟨m0, -, rfl⟩ := List.mem_map.1 ha
    exact hle occ m0

/-- The shifts that the detector keeps are those of the rule. -/
theorem f1Keep_kept {d : PucchDesc} {s : State} (ht : 0 ≤ s.params.tol) (he : ParamsExact s.params)
    (hs : ParamSequences s.params) (occs : List Nat) :
    KeptShifts d s occs.toFinset (f1Keep d s occs) := by
  have energy (h occ m0 : Nat) := f1Energy_encl (d := d) he hs h occ m0
  have e0 (h occ m0 : Nat) : 0 ≤ shiftEnergy d s h occ m0 := Finset.sum_nonneg (fun _ _ => sq_nonneg _)
  constructor
  · intro h occ m0 ho hm hst
    have ho := List.mem_toFinset.1 ho
    obtain ⟨b0, hb⟩ := f1KeepBound d s ht h
    obtain ⟨⟨e1, e2⟩, e3⟩ := energy h occ m0
    obtain ⟨m1, m2, m3⟩ := f1MaxEnergy_spec d s occs h
    have hself := m1 occ m0 ho hm
    unfold f1Keep
    dsimp only
    set bound := s.params.tol * ratSum ((f1Ports d).map (fun p => f1ChanAmp d s h p * f1ChanAmp d s h p)) with hbd
    set EB := errorBound s.params.tol (shiftScale d s h)
    have bR : (0 : ℝ) ≤ bound := by exact_mod_cast b0
    have hmax : ((f1MaxEnergy d s occs h).hi : ℝ) + bound ≤ 10 * ((f1Energy d s h occ m0).lo - bound) := by
      rcases m2 with m2 | ⟨occ', m0', ho', hm', m2⟩
      · have := hst occ m0 (List.mem_toFinset.2 ho) hm
        have := e0 h occ m0
        rw [m2]
        push_cast
        linarith
      · have := hst occ' m0' (List.mem_toFinset.2 ho') hm'
        obtain ⟨⟨q1, q2⟩, q3⟩ := energy h occ' m0'
        rw [m2]
        linarith
    have hlohi := m3 (fun occ m0 => (energy h occ m0).1.le)
    have not : ¬ (f1Energy d s h occ m0).lo - bound < ((f1MaxEnergy d s occs h).hi + bound) / 10 := by
      rw [not_lt, div_le_iff₀ (by norm_num)]
      have : ((f1MaxEnergy d s occs h).hi + bound) ≤ 10 * ((f1Energy d s h occ m0).lo - bound) := by exact_mod_cast hmax
      linarith
    have may : ((f1MaxEnergy d s occs h).lo - bound) / 10 ≤ (f1Energy d s h occ m0).hi + bound := by
      rw [div_le_iff₀ (by norm_num)]
      have := (energy h occ m0).1.le
      have : ((f1MaxEnergy d s occs h).hi + bound) ≤ 10 * ((f1Energy d s h occ m0).lo - bound) := by exact_mod_cast hmax
      linarith
    simp [drawBool, decide_eq_true may, not]
  · rintro h occ m0 ho hm ⟨occ', m0', ho', hm', hlt⟩
    obtain ⟨b0, hb⟩ := f1KeepBound d s ht h
    obtain ⟨⟨e1, e2⟩, e3⟩ := energy h occ m0
    obtain ⟨⟨q1, q2⟩, q3⟩ := energy h occ' m0'
    have hself := (f1MaxEnergy_spec d s occs h).1 occ' m0' (List.mem_toFinset.1 ho') hm'
    unfold f1Keep
    dsimp only
    set bound := s.params.tol * ratSum ((f1Ports d).map (fun p => f1ChanAmp d s h p * f1ChanAmp d s h p)) with hbd
    have hself : ((f1Energy d s h occ' m0').lo : ℝ) ≤ (f1MaxEnergy d s occs h).lo := by exact_mod_cast hself
    have may : ¬ ((f1MaxEnergy d s occs h).lo - bound) / 10 ≤ (f1Energy d s h occ m0).hi + bound := by
      rw [not_le, lt_div_iff₀ (by norm_num)]
      have : (((f1Energy d s h occ m0).hi : ℝ) + bound) * 10 < (f1MaxEnergy d s occs h).lo - bound := by linarith
      exact_mod_cast this
    simp [drawBool, may]

/-! ## The noise estimate of Format 1 (44_format1.md R106, R108) -/

/-- A sum times an exact factor of modulus 1. -/
theorem csTimes_value {f : UnitPhase} (hf : cbIsPoint f.unit = true) {s : CSum} (h : s.Exact) :
    (csTimes f s).Exact ∧
      csValue (csTimes f s) = (⟨(f.unit.re.lo : ℝ), (f.unit.im.lo : ℝ)⟩ * rootOf (f.turn : ℝ)) * csValue s ∧
      csNorm (csTimes f s) = ‖(⟨(f.unit.re.lo : ℝ), (f.unit.im.lo : ℝ)⟩ : ℂ)‖ * csNorm s := by
  have each (t : Term) (ht : cbIsPoint t.coef = true) :
      cbIsPoint (cbMul t.coef f.unit) = true ∧ (⟨cbMul t.coef f.unit, t.turn + f.turn⟩ : Term).value =
        (⟨(f.unit.re.lo : ℝ), (f.unit.im.lo : ℝ)⟩ * rootOf (f.turn : ℝ)) * t.value := by
    have := cbMul_encl (cbIsPoint_encl ht) (cbIsPoint_encl hf) le_rfl le_rfl
    simp only [mul_zero, add_zero] at this
    obtain ⟨p1, p2⟩ := point_of_encl this
    refine ⟨p1, ?_⟩
    rw [Term.value, Term.value, p2]
    push_cast
    rw [rootOf_add]
    ring
  induction s with
  | nil => exact ⟨nofun, by simp [csTimes, csValue], by simp [csTimes, csNorm]⟩
  | cons t s ih =>
    obtain ⟨i1, i2, i3⟩ := ih (fun x hx => h x (List.mem_cons_of_mem _ hx))
    obtain ⟨e1, e2⟩ := each t (h t (List.mem_cons_self ..))
    refine ⟨fun x hx => ?_, ?_, ?_⟩
    · rcases List.mem_cons.1 hx with rfl | hx
      · exact e1
      · exact i1 x hx
    · simp only [csTimes, csValue, List.map_cons, List.sum_cons] at *
      rw [i2, e2, mul_add]
    · simp only [csTimes, csNorm, List.map_cons, List.sum_cons] at *
      rw [i3, e2, norm_mul, norm_mul, rootOf_norm, mul_one, mul_add]

/-- A sum over the kept covers and shifts. -/
theorem sum_kept {β : Type} [AddCommMonoid β] (d : PucchDesc) (s : State) {occs : List Nat} (hn : occs.Nodup) (h : Nat)
    (f : Nat → Nat → β) :
    ((f1Kept d s occs h).map (fun key => f key.1 key.2)).sum =
      ∑ occ ∈ occs.toFinset, ∑ m0 ∈ Finset.range 12, if f1Keep d s occs h occ m0 then f occ m0 else 0 := by
  have filt : ∀ (l : List (Nat × Nat)) (q : Nat × Nat → Bool), ((l.filter q).map (fun key => f key.1 key.2)).sum =
      (l.map (fun key => if q key then f key.1 key.2 else 0)).sum := by
    intro l q
    induction l with
    | nil => rfl
    | cons x l ih =>
      rw [List.filter_cons, List.map_cons, List.sum_cons, ← ih]
      split
      · rw [List.map_cons, List.sum_cons]
      · rw [zero_add]
  rw [f1Kept, filt, List.sum_toFinset _ hn]
  generalize f1Keep d s occs h = keep
  clear hn
  induction occs with
  | nil => rfl
  | cons i l ih =>
    rw [List.flatMap_cons, List.map_append, List.sum_append, ih, List.map_cons, List.sum_cons, List.map_map,
        ← sum_map_range]
    rfl

/-- The residual of a DM-RS sample: exact, its value and its norm. -/
theorem f1Residual_value {d : PucchDesc} {s : State} (he : ParamsExact s.params) (hs : ParamSequences s.params)
    {occs : List Nat} (hn : occs.Nodup) (h p m k : Nat) :
    let i := (symbolsOfHop d h true).getD m 0
    let x := f1Residual d s h p m (rxBlock d s i p) (f1Kept d s occs h) k (dmrsSample d s h p m k)
    x.Exact ∧
      csValue x = complexOf (dmrsSample d s h p m k) - replicaValue d s occs.toFinset (f1Keep d s occs) h p m k ∧
      csNorm x = ‖complexOf (dmrsSample d s h p m k)‖ + (f1Kept d s occs h).length *
        (despreadScale d s true h p / (12 * (symbolsOfHop d h true).length)) := by
  intro i x
  set y := dmrsSample d s h p m k with hy
  set b := rxBlock d s i p with hb
  let g (key : Nat × Nat) : CSum := csTimes (f1ReplicaPhase d s h m b key k) (f1Chan d s h p key.1 key.2)
  have each (key : Nat × Nat) : (g key).Exact ∧
      csValue (g key) = chanValue d s h p key.1 key.2 *
        rootOf ((f1OccPhase (symbolsOfHop d h true).length key.1 m : ℝ) / (symbolsOfHop d h true).length) *
        lowPaprValue s.params (sequenceAt d s i) ((key.2 + (sequenceAt d s i).ncs.val) % 12) k ∧
      csNorm (g key) = despreadScale d s true h p / (12 * (symbolsOfHop d h true).length) := by
    obtain ⟨u1, u2, u3⟩ := lowPapr_exact he hs (sequenceAt d s i) ((key.2 + (sequenceAt d s i).ncs.val) % 12) k
    obtain ⟨c1, c2, c3⟩ := chanValue_eq (d := d) he hs h p key.1 key.2
    obtain ⟨t1, t2, t3⟩ := csTimes_value (f := f1ReplicaPhase d s h m b key k) u1 c1
    refine ⟨t1, ?_, ?_⟩
    · rw [show csValue (g key) = _ from t2, c2, ← u3]
      simp only [f1ReplicaPhase, f1OccTurn, f1Nd, f1HopSymbols_eq]
      push_cast
      rw [rootOf_add]
      have : b.seq = sequenceAt d s i := rfl
      rw [this]
      ring
    · rw [show csNorm (g key) = _ from t3, c3]
      have : ‖(⟨((f1ReplicaPhase d s h m b key k).unit.re.lo : ℝ), ((f1ReplicaPhase d s h m b key k).unit.im.lo : ℝ)⟩
          : ℂ)‖ = 1 := u2
      rw [this, one_mul]
  have hflat : (f1Kept d s occs h).flatMap g = ((f1Kept d s occs h).map g).flatten := List.flatMap_def ..
  have hfex : CSum.Exact ((f1Kept d s occs h).flatMap g) := by
    rw [hflat]
    refine flatten_exact (fun q hq => ?_)
    obtain ⟨key, -, rfl⟩ := List.mem_map.1 hq
    exact (each key).1
  have hfv : csValue ((f1Kept d s occs h).flatMap g) = replicaValue d s occs.toFinset (f1Keep d s occs) h p m k := by
    rw [hflat, csValue_flatten, List.map_map]
    have e := sum_kept d s hn h (fun occ m0 => csValue (g (occ, m0)))
    refine (congrArg List.sum (List.map_congr_left (fun key _ => rfl))).trans (e.trans ?_)
    refine Finset.sum_congr rfl (fun occ _ => Finset.sum_congr rfl (fun m0 _ => ?_))
    rw [(each (occ, m0)).2.1]
  have hfn : csNorm ((f1Kept d s occs h).flatMap g) = (f1Kept d s occs h).length *
      (despreadScale d s true h p / (12 * (symbolsOfHop d h true).length)) := by
    rw [hflat, csNorm_flatten, List.map_map]
    refine (congrArg List.sum (List.map_congr_left (fun key _ => (each key).2.2))).trans ?_
    simp
  have hx : x = ⟨cbOf (f32Rat y.re) (f32Rat y.im), 0⟩ :: csScale (-1) ((f1Kept d s occs h).flatMap g) := rfl
  have hhead : (⟨cbOf (f32Rat y.re) (f32Rat y.im), 0⟩ : Term).value = complexOf y := by
    simp [Term.value, cbOf, ivOf, rootOf, complexOf, realOf]
  rw [hx]
  refine ⟨fun t ht => ?_, ?_, ?_⟩
  · rcases List.mem_cons.1 ht with rfl | ht
    · simp [cbIsPoint, cbOf, ivOf]
    · exact csScale_exact hfex _ t ht
  · have : csValue (⟨cbOf (f32Rat y.re) (f32Rat y.im), 0⟩ :: csScale (-1) ((f1Kept d s occs h).flatMap g)) =
        (⟨cbOf (f32Rat y.re) (f32Rat y.im), 0⟩ : Term).value + csValue (csScale (-1)
            ((f1Kept d s occs h).flatMap g)) := by
      simp [csValue]
    rw [this, hhead, csScale_value hfex, hfv]
    push_cast
    ring
  · have : csNorm (⟨cbOf (f32Rat y.re) (f32Rat y.im), 0⟩ :: csScale (-1) ((f1Kept d s occs h).flatMap g)) =
        ‖(⟨cbOf (f32Rat y.re) (f32Rat y.im), 0⟩ : Term).value‖ + csNorm (csScale (-1)
            ((f1Kept d s occs h).flatMap g)) := by
      simp [csNorm]
    rw [this, hhead, csScale_norm hfex, hfn]
    simp

/-- The DM-RS samples as hop, port, position and subcarrier give them. -/
theorem f1Samples_eq (d : PucchDesc) (s : State) (occs : List Nat) :
    f1Samples d s occs = (f1Lanes d).flatMap (fun hp => (List.range (symbolsOfHop d hp.1 true).length).flatMap (fun m =>
      (List.range 12).map (fun k =>
        ⟨dmrsSample d s hp.1 hp.2 m k,
          f1Residual d s hp.1 hp.2 m (rxBlock d s ((symbolsOfHop d hp.1 true).getD m 0) hp.2) (f1Kept d s occs hp.1) k
            (dmrsSample d s hp.1 hp.2 m k),
          ratSum ((f1Kept d s occs hp.1).map (fun key => cbAbsHi (csBox (f1Chan d s hp.1 hp.2 key.1 key.2))))⟩))) := by
  rw [f1Samples]
  congr 1
  funext hp
  dsimp only
  rw [f1HopSymbols_eq, mapIdx_range 0, List.flatMap_def]
  congr 1

/-- A sum over the DM-RS samples. -/
theorem sum_samples (d : PucchDesc) (F : Nat → Nat → Nat → Nat → F1Sample) (f : F1Sample → ℝ) :
    (((f1Lanes d).flatMap (fun hp => (List.range (symbolsOfHop d hp.1 true).length).flatMap (fun m =>
      (List.range 12).map (fun k => F hp.1 hp.2 m k)))).map f).sum =
    ∑ h ∈ Finset.range (hopCount d), ∑ p ∈ Finset.range d.nofPorts.toNat,
      ∑ m ∈ Finset.range (symbolsOfHop d h true).length, ∑ k ∈ Finset.range 12, f (F h p m k) := by
  have flat {α : Type} (l : List α) (g : α → List F1Sample) :
      ((l.flatMap g).map f).sum = (l.map (fun x => ((g x).map f).sum)).sum := by
    induction l with
    | nil => rfl
    | cons x l ih => rw [List.flatMap_cons, List.map_append, List.sum_append, ih, List.map_cons, List.sum_cons]
  rw [flat, sum_lanes_f1]
  refine Finset.sum_congr rfl (fun h _ => Finset.sum_congr rfl (fun p _ => ?_))
  rw [flat, sum_map_range]
  refine Finset.sum_congr rfl (fun m _ => ?_)
  rw [List.map_map, sum_map_range]
  rfl

/-- The mean magnitude of the DM-RS samples of a hop and port: the scale of every `hh` there. -/
noncomputable def laneMean (d : PucchDesc) (s : State) (h p : Nat) : ℝ :=
  despreadScale d s true h p / (12 * (symbolsOfHop d h true).length)

theorem laneMean_nonneg (d : PucchDesc) (s : State) (h p : Nat) : 0 ≤ laneMean d s h p :=
  div_nonneg (despreadScale_nonneg ..) (by positivity)

/-- The square of the mean is at most the mean square. -/
theorem laneMean_sq (d : PucchDesc) (s : State) (h p : Nat) :
    ∑ _m ∈ Finset.range (symbolsOfHop d h true).length, ∑ _k ∈ Finset.range 12, laneMean d s h p ^ 2 ≤
      ∑ m ∈ Finset.range (symbolsOfHop d h true).length, ∑ k ∈ Finset.range 12,
        ‖complexOf (dmrsSample d s h p m k)‖ ^ 2 := by
  have e : despreadScale d s true h p = ∑ m ∈ Finset.range (symbolsOfHop d h true).length, ∑ k ∈ Finset.range 12,
      ‖complexOf (dmrsSample d s h p m k)‖ := rfl
  rw [laneMean, e, ← Finset.sum_product', ← Finset.sum_product', ← Finset.sum_product']
  set T := (Finset.range (symbolsOfHop d h true).length) ×ˢ (Finset.range 12) with hT
  have hcard : (T.card : ℝ) = 12 * (symbolsOfHop d h true).length := by
    rw [hT, Finset.card_product, Finset.card_range, Finset.card_range]
    push_cast
    ring
  have cs := sq_sum_le_card_mul_sum_sq (s := T) (f := fun q => ‖complexOf (dmrsSample d s h p q.1 q.2)‖)
  rw [Finset.sum_const, nsmul_eq_mul, ← hcard, div_pow]
  rcases Nat.eq_zero_or_pos T.card with h0 | h0
  · rw [h0]
    simp only [Nat.cast_zero, zero_mul]
    exact Finset.sum_nonneg (fun _ _ => sq_nonneg _)
  · have : (0 : ℝ) < T.card := by exact_mod_cast h0
    rw [mul_div_assoc', div_le_iff₀ (by positivity)]
    nlinarith

theorem f1Kept_length (d : PucchDesc) (s : State) {occs : List Nat} (hn : occs.Nodup) (h8 : ∀ o ∈ occs, o < 8)
    (h : Nat) :
    (f1Kept d s occs h).length ≤ 96 := by
  have h1 : occs.length ≤ 8 := by
    have := (List.Nodup.subperm hn (fun o ho => List.mem_range.2 (h8 o ho))).length_le
    simpa using this
  refine (List.length_filter_le _ _).trans ?_
  rw [List.length_flatMap]
  simp only [List.length_map, List.length_range, List.map_const', List.sum_replicate, smul_eq_mul]
  omega

/-- The magnitude of a channel estimate, as the model bounds it. -/
theorem chanMagnitude {d : PucchDesc} {s : State} (he : ParamsExact s.params) (hs : ParamSequences s.params)
    (h p occ m0 : Nat) :
    ‖chanValue d s h p occ m0‖ ≤ ((cbAbsHi (csBox (f1Chan d s h p occ m0)) : Rat) : ℝ) ∧
      ((cbAbsHi (csBox (f1Chan d s h p occ m0)) : Rat) : ℝ) ≤
        (‖chanValue d s h p occ m0‖ + 1 / 2 ^ 58 * laneMean d s h p) * (1 + 1 / 2 ^ 64) := by
  obtain ⟨c1, c2, c3⟩ := chanValue_eq (d := d) he hs h p occ m0
  have hbox := csBox_encl c1
  rw [c2, c3] at hbox
  have A0 := laneMean_nonneg d s h p
  have hA : despreadScale d s true h p / (12 * (symbolsOfHop d h true).length) = laneMean d s h p := rfl
  rw [hA] at hbox
  obtain ⟨⟨b1, b2⟩, b3⟩ := cbAbs2_encl hbox le_rfl
  rw [Complex.normSq_eq_norm_sq] at b1 b2
  have z0 := norm_nonneg (chanValue d s h p occ m0)
  set z := ‖chanValue d s h p occ m0‖
  set A := laneMean d s h p
  set q := cbAbs2 (csBox (f1Chan d s h p occ m0))
  have q0 : 0 ≤ q.hi := by
    have : (0 : ℝ) ≤ q.hi := (sq_nonneg z).trans b2
    exact_mod_cast this
  obtain ⟨-, s2, s3, -⟩ := sqrt_bounds q0
  have up : Real.sqrt (q.hi : ℝ) ≤ z + 1 / 2 ^ 58 * A := by
    rw [Real.sqrt_le_left (by positivity)]
    nlinarith [mul_nonneg z0 A0, mul_nonneg A0 A0]
  refine ⟨((le_abs_self z).trans (Real.abs_le_sqrt b2)).trans s2, ?_⟩
  exact s3.trans (mul_le_mul_of_nonneg_right up (by norm_num))

/-- The scale of a reconstruction, as the model bounds it. -/
theorem f1Sy_bounds {d : PucchDesc} {s : State} (he : ParamsExact s.params) (hs : ParamSequences s.params)
    {occs : List Nat} (hn : occs.Nodup) (h8 : ∀ o ∈ occs, o < 8) (h p : Nat) :
    let sy := ratSum ((f1Kept d s occs h).map (fun key => cbAbsHi (csBox (f1Chan d s h p key.1 key.2))))
    let r := replicaScale d s occs.toFinset (f1Keep d s occs) h p
    0 ≤ r ∧ r ≤ (sy : ℝ) ∧ (sy : ℝ) ≤ r * (1 + 1 / 2 ^ 64) + 1 / 2 ^ 50 * laneMean d s h p := by
  intro sy r
  have hr : r = ((f1Kept d s occs h).map (fun key => ‖chanValue d s h p key.1 key.2‖)).sum :=
    (sum_kept d s hn h (fun occ m0 => ‖chanValue d s h p occ m0‖)).symm
  have hsy : (sy : ℝ) = ((f1Kept d s occs h).map (fun key => ((cbAbsHi (csBox (f1Chan d s h p key.1 key.2)) : Rat) :
      ℝ))).sum := by
    rw [ratSum_cast, List.map_map]
    rfl
  have A0 := laneMean_nonneg d s h p
  have len := f1Kept_length d s hn h8 h
  have step : ∀ l : List (Nat × Nat),
      0 ≤ (l.map (fun key => ‖chanValue d s h p key.1 key.2‖)).sum ∧
      (l.map (fun key => ‖chanValue d s h p key.1 key.2‖)).sum ≤
        (l.map (fun key => ((cbAbsHi (csBox (f1Chan d s h p key.1 key.2)) : Rat) : ℝ))).sum ∧
      (l.map (fun key => ((cbAbsHi (csBox (f1Chan d s h p key.1 key.2)) : Rat) : ℝ))).sum ≤
        (l.map (fun key => ‖chanValue d s h p key.1 key.2‖)).sum * (1 + 1 / 2 ^ 64) +
          l.length * (1 / 2 ^ 57 * laneMean d s h p) := by
    intro l
    induction l with
    | nil => simp
    | cons key l ih =>
      obtain ⟨i0, i1, i2⟩ := ih
      obtain ⟨m1, m2⟩ := chanMagnitude (d := d) he hs h p key.1 key.2
      simp only [List.map_cons, List.sum_cons, List.length_cons]
      push_cast
      have := norm_nonneg (chanValue d s h p key.1 key.2)
      refine ⟨by linarith, by linarith, ?_⟩
      nlinarith
  obtain ⟨t0, t1, t2⟩ := step (f1Kept d s occs h)
  rw [← hr] at t0 t1 t2
  rw [← hsy] at t1 t2
  refine ⟨t0, t1, t2.trans ?_⟩
  have : ((f1Kept d s occs h).length : ℝ) ≤ 96 := by exact_mod_cast len
  nlinarith [mul_le_mul_of_nonneg_right this (mul_nonneg (by norm_num : (0 : ℝ) ≤ 1 / 2 ^ 57) A0)]

theorem replicaValue_le (d : PucchDesc) (s : State) (he : ParamsExact s.params) (hs : ParamSequences s.params)
    (occs : Finset Nat) (keep : Nat → Nat → Nat → Bool) (h p m k : Nat) :
    ‖replicaValue d s occs keep h p m k‖ ≤ replicaScale d s occs keep h p := by
  refine (norm_sum_le _ _).trans (Finset.sum_le_sum (fun occ _ => (norm_sum_le _ _).trans (Finset.sum_le_sum
      (fun m0 _ => ?_))))
  split
  · obtain ⟨u1, u2, u3⟩ := lowPapr_exact he hs (sequenceAt d s ((symbolsOfHop d h true).getD m 0))
      ((m0 + (sequenceAt d s ((symbolsOfHop d h true).getD m 0)).ncs.val) % 12) k
    rw [← u3, norm_mul, norm_mul, norm_mul, rootOf_norm, rootOf_norm, u2]
    simp
  · simp

theorem replicaScale_nonneg (d : PucchDesc) (s : State) (occs : Finset Nat) (keep : Nat → Nat → Nat → Bool)
    (h p : Nat) :
    0 ≤ replicaScale d s occs keep h p := by
  refine Finset.sum_nonneg (fun _ _ => Finset.sum_nonneg (fun _ _ => ?_))
  split
  · exact norm_nonneg _
  · exact le_rfl

theorem noiseValue_le (d : PucchDesc) (s : State) (he : ParamsExact s.params) (hs : ParamSequences s.params)
    (occs : Finset Nat) (keep : Nat → Nat → Nat → Bool) : noiseValue d s occs keep ≤ noiseScaleValue d s occs keep := by
  refine div_le_div_of_nonneg_right (Finset.sum_le_sum (fun h _ => Finset.sum_le_sum (fun p _ => Finset.sum_le_sum
    (fun m _ => Finset.sum_le_sum (fun k _ => pow_le_pow_left₀ (norm_nonneg _) ?_ 2))))) ?_
  · exact (norm_sub_le _ _).trans (add_le_add_right (replicaValue_le d s he hs occs keep h p m k) _)
  · positivity

/-- The noise estimate: `sigma2` enclosed, its scale tight, and a `sigma2` known to be 0 is 0. -/
theorem f1Noise_spec {d : PucchDesc} {s : State} (he : ParamsExact s.params) (hs : ParamSequences s.params)
    {occs : List Nat} (hn : occs.Nodup) (h8 : ∀ o ∈ occs, o < 8) :
    let nz := f1NoiseOf (f1Samples d s occs)
    let keep := f1Keep d s occs
    nz.sigma2.Encl (noiseValue d s occs.toFinset keep) (1 / 2 ^ 44 * noiseScaleValue d s occs.toFinset keep) ∧
      Tight nz.scale (noiseScaleValue d s occs.toFinset keep) ∧
      (nz.isZero = true → noiseValue d s occs.toFinset keep = 0) := by
  intro nz keep
  let F (h p m k : Nat) : F1Sample :=
    ⟨dmrsSample d s h p m k,
      f1Residual d s h p m (rxBlock d s ((symbolsOfHop d h true).getD m 0) p) (f1Kept d s occs h) k
          (dmrsSample d s h p m k),
      ratSum ((f1Kept d s occs h).map (fun key => cbAbsHi (csBox (f1Chan d s h p key.1 key.2))))⟩
  have hF : f1Samples d s occs = (f1Lanes d).flatMap (fun hp => (List.range (symbolsOfHop d hp.1
      true).length).flatMap (fun m =>
      (List.range 12).map (fun k => F hp.1 hp.2 m k))) := f1Samples_eq d s occs
  have total (f : F1Sample → ℝ) : ((f1Samples d s occs).map f).sum = _ := (congrArg (fun l =>
      (List.map f l).sum) hF).trans (sum_samples d F f)
  -- the number of samples
  have hlen : ((f1Samples d s occs).length : ℝ) =
      12 * d.nofPorts.toNat * ∑ h ∈ Finset.range (hopCount d), ((symbolsOfHop d h true).length : ℝ) := by
    have := total (fun _ => 1)
    simp only [List.map_const', List.sum_replicate, Finset.sum_const, Finset.card_range, nsmul_eq_mul, mul_one] at this
    rw [this, Finset.mul_sum]
    refine Finset.sum_congr rfl (fun h _ => ?_)
    push_cast
    ring
  have hcast : ((1 / ((f1Samples d s occs).length : Rat) : Rat) : ℝ) = 1 / ((f1Samples d s occs).length : ℝ) :=
      by push_cast; rfl
  have n0 : (0 : ℝ) ≤ 1 / ((f1Samples d s occs).length : ℝ) := by positivity
  have mean (f : Nat → Nat → Nat → Nat → ℝ) : dmrsMean d f = 1 / ((f1Samples d s occs).length : ℝ) *
      ∑ h ∈ Finset.range (hopCount d), ∑ p ∈ Finset.range d.nofPorts.toNat,
        ∑ m ∈ Finset.range (symbolsOfHop d h true).length, ∑ k ∈ Finset.range 12, f h p m k := by
    rw [dmrsMean, hlen]
    push_cast
    ring
  let α (h p m k : Nat) : ℝ := ‖complexOf (dmrsSample d s h p m k)‖ + replicaScale d s occs.toFinset keep h p
  have α0 (h p m k : Nat) : 0 ≤ α h p m k := add_nonneg (norm_nonneg _) (replicaScale_nonneg ..)
  -- what is spread by the mean of a lane is within the scale
  have spread (c : ℝ) (hc : 0 ≤ c) : ∑ h ∈ Finset.range (hopCount d), ∑ p ∈ Finset.range d.nofPorts.toNat,
      ∑ m ∈ Finset.range (symbolsOfHop d h true).length, ∑ k ∈ Finset.range 12, c *
          (α h p m k ^ 2 + laneMean d s h p ^ 2) ≤
      2 * c * ∑ h ∈ Finset.range (hopCount d), ∑ p ∈ Finset.range d.nofPorts.toNat,
        ∑ m ∈ Finset.range (symbolsOfHop d h true).length, ∑ k ∈ Finset.range 12, α h p m k ^ 2 := by
    rw [Finset.mul_sum]
    refine Finset.sum_le_sum (fun h _ => ?_)
    rw [Finset.mul_sum]
    refine Finset.sum_le_sum (fun p _ => ?_)
    have lane := laneMean_sq d s h p
    have le : ∑ m ∈ Finset.range (symbolsOfHop d h true).length, ∑ k ∈ Finset.range 12, ‖complexOf
        (dmrsSample d s h p m k)‖ ^ 2 ≤
        ∑ m ∈ Finset.range (symbolsOfHop d h true).length, ∑ k ∈ Finset.range 12, α h p m k ^ 2 :=
      Finset.sum_le_sum (fun m _ => Finset.sum_le_sum (fun k _ => pow_le_pow_left₀ (norm_nonneg _)
        (le_add_of_nonneg_right (replicaScale_nonneg ..)) 2))
    simp only [mul_add, Finset.sum_add_distrib, ← Finset.mul_sum] at *
    nlinarith
  -- the enclosure
  have encl := ivSum_encl (f1Samples d s occs) (fun x => cbAbs2 (csBox x.residual)) (fun x => ‖csValue x.residual‖ ^ 2)
    (fun x => 4 * (2 * ‖csValue x.residual‖ * (1 / 2 ^ 60 * csNorm x.residual) + (1 / 2 ^ 60 * csNorm x.residual) *
        (1 / 2 ^ 60 * csNorm x.residual)))
    (fun x hx => by
      rw [hF] at hx
      obtain ⟨hp, -, hx⟩ := List.mem_flatMap.1 hx
      obtain ⟨m, -, hx⟩ := List.mem_flatMap.1 hx
      obtain ⟨k, -, rfl⟩ := List.mem_map.1 hx
      have := cbAbs2_encl (csBox_encl (f1Residual_value (d := d) he hs hn hp.1 hp.2 m k).1) le_rfl
      rw [Complex.normSq_eq_norm_sq] at this
      exact this)
  rw [total, total] at encl
  have value (h p m k : Nat) : csValue (F h p m k).residual =
      complexOf (dmrsSample d s h p m k) - replicaValue d s occs.toFinset keep h p m k :=
    (f1Residual_value (d := d) he hs hn h p m k).2.1
  have width (h p m k : Nat) : 4 * (2 * ‖csValue (F h p m k).residual‖ * (1 / 2 ^ 60 * csNorm (F h p m k).residual) +
      (1 / 2 ^ 60 * csNorm (F h p m k).residual) * (1 / 2 ^ 60 * csNorm (F h p m k).residual)) ≤
      1 / 2 ^ 50 * (α h p m k ^ 2 + laneMean d s h p ^ 2) := by
    have hv : ‖csValue (F h p m k).residual‖ ≤ α h p m k := by
      rw [value]
      exact (norm_sub_le _ _).trans (add_le_add_right (replicaValue_le d s he hs _ keep h p m k) _)
    have hnorm : csNorm (F h p m k).residual ≤ α h p m k + 96 * laneMean d s h p := by
      rw [show csNorm (F h p m k).residual = _ from (f1Residual_value (d := d) he hs hn h p m k).2.2]
      have : ((f1Kept d s occs h).length : ℝ) ≤ 96 := by exact_mod_cast f1Kept_length d s hn h8 h
      have := mul_le_mul_of_nonneg_right this (laneMean_nonneg d s h p)
      have r0 := replicaScale_nonneg d s occs.toFinset keep h p
      show ‖complexOf (dmrsSample d s h p m k)‖ + _ * laneMean d s h p ≤ ‖complexOf
          (dmrsSample d s h p m k)‖ + replicaScale d s occs.toFinset keep h p + 96 * laneMean d s h p
      linarith
    have A0 := laneMean_nonneg d s h p
    have a0 := α0 h p m k
    have v0 := norm_nonneg (csValue (F h p m k).residual)
    have c0 := csNorm_nonneg (F h p m k).residual
    generalize ‖csValue (F h p m k).residual‖ = v at *
    generalize csNorm (F h p m k).residual = c at *
    generalize α h p m k = a at *
    generalize laneMean d s h p = A at *
    have h1 : v * c ≤ a * (a + 96 * A) := mul_le_mul hv hnorm c0 a0
    have h2 : c * c ≤ (a + 96 * A) * (a + 96 * A) := mul_le_mul hnorm hnorm c0 (by linarith)
    have h3 : a * A ≤ (a ^ 2 + A ^ 2) / 2 := by nlinarith [sq_nonneg (a - A)]
    nlinarith [sq_nonneg a, sq_nonneg A]
  have encl := (encl.mono ((Finset.sum_le_sum (fun h _ => Finset.sum_le_sum (fun p _ => Finset.sum_le_sum (fun m _ =>
    Finset.sum_le_sum (fun k _ => width h p m k))))).trans (spread _ (by norm_num))))
  have sig := ivScale_encl (1 / ((f1Samples d s occs).length : Rat)) encl
  rw [hcast, abs_of_nonneg n0] at sig
  have hval : noiseValue d s occs.toFinset keep = 1 / ((f1Samples d s occs).length : ℝ) *
      ∑ h ∈ Finset.range (hopCount d), ∑ p ∈ Finset.range d.nofPorts.toNat,
        ∑ m ∈ Finset.range (symbolsOfHop d h true).length, ∑ k ∈ Finset.range 12, ‖csValue
            (F h p m k).residual‖ ^ 2 := by
    rw [noiseValue, mean]
    simp only [value]
  have hscale : noiseScaleValue d s occs.toFinset keep = 1 / ((f1Samples d s occs).length : ℝ) *
      ∑ h ∈ Finset.range (hopCount d), ∑ p ∈ Finset.range d.nofPorts.toNat,
        ∑ m ∈ Finset.range (symbolsOfHop d h true).length, ∑ k ∈ Finset.range 12, α h p m k ^ 2 := mean _
  have hT0 : 0 ≤ ∑ h ∈ Finset.range (hopCount d), ∑ p ∈ Finset.range d.nofPorts.toNat,
        ∑ m ∈ Finset.range (symbolsOfHop d h true).length, ∑ k ∈ Finset.range 12, α h p m k ^ 2 :=
    Finset.sum_nonneg (fun _ _ => Finset.sum_nonneg (fun _ _ => Finset.sum_nonneg (fun _ _ => Finset.sum_nonneg
        (fun _ _ => sq_nonneg _))))
  refine ⟨?_, ?_, ?_⟩
  · rw [hval, hscale]
    refine sig.mono ?_
    set T := ∑ h ∈ Finset.range (hopCount d), ∑ p ∈ Finset.range d.nofPorts.toNat,
        ∑ m ∈ Finset.range (symbolsOfHop d h true).length, ∑ k ∈ Finset.range 12, α h p m k ^ 2
    have := mul_nonneg n0 hT0
    nlinarith
  · have e : (nz.scale : ℝ) = 1 / ((f1Samples d s occs).length : ℝ) *
        ∑ h ∈ Finset.range (hopCount d), ∑ p ∈ Finset.range d.nofPorts.toNat,
          ∑ m ∈ Finset.range (symbolsOfHop d h true).length, ∑ k ∈ Finset.range 12,
            (((qcAbsHi (qcOf (F h p m k).y) : Rat) : ℝ) + ((F h p m k).sy : ℝ)) ^ 2 := by
      show ((ratSum ((f1Samples d s occs).map _) / ((f1Samples d s occs).length : Rat) : Rat) : ℝ) = _
      rw [Rat.cast_div, ratSum_cast, List.map_map]
      have := total (fun x => (((qcAbsHi (qcOf x.y) : Rat) : ℝ) + (x.sy : ℝ)) ^ 2)
      rw [← this, Rat.cast_natCast, div_eq_mul_one_div, mul_comm]
      congr 3
      funext x
      simp only [Function.comp]
      push_cast
      ring
    have each (h p m k : Nat) : α h p m k ^ 2 ≤ (((qcAbsHi (qcOf (F h p m k).y) : Rat) : ℝ) +
        ((F h p m k).sy : ℝ)) ^ 2 ∧
        (((qcAbsHi (qcOf (F h p m k).y) : Rat) : ℝ) + ((F h p m k).sy : ℝ)) ^ 2 ≤
          α h p m k ^ 2 + 1 / 2 ^ 48 * (α h p m k ^ 2 + laneMean d s h p ^ 2) := by
      obtain ⟨y1, y2⟩ := qcAbsHi_bounds (dmrsSample d s h p m k)
      obtain ⟨r0, r1, r2⟩ := f1Sy_bounds (d := d) he hs hn h8 h p
      have hy : (F h p m k).y = dmrsSample d s h p m k := rfl
      have hsy : (F h p m k).sy = ratSum ((f1Kept d s occs h).map (fun key => cbAbsHi (csBox
          (f1Chan d s h p key.1 key.2)))) := rfl
      have hα : α h p m k = ‖complexOf (dmrsSample d s h p m k)‖ + replicaScale d s occs.toFinset keep h p := rfl
      have z0 := norm_nonneg (complexOf (dmrsSample d s h p m k))
      have A0 := laneMean_nonneg d s h p
      have a0 := α0 h p m k
      rw [hy, hsy]
      have low : α h p m k ≤ ((qcAbsHi (qcOf (dmrsSample d s h p m k)) : Rat) : ℝ) + ((ratSum ((f1Kept d s occs h).map
          (fun key => cbAbsHi (csBox (f1Chan d s h p key.1 key.2)))) : Rat) : ℝ) := by rw [hα]; exact add_le_add y1 r1
      have up : ((qcAbsHi (qcOf (dmrsSample d s h p m k)) : Rat) : ℝ) + ((ratSum ((f1Kept d s occs h).map
          (fun key => cbAbsHi (csBox (f1Chan d s h p key.1 key.2)))) : Rat) : ℝ) ≤ α h p m k + 1 / 2 ^ 50 *
              (α h p m k + laneMean d s h p) := by
        rw [hα]
        change _ ≤ replicaScale d s occs.toFinset keep h p * (1 + 1 / 2 ^ 64) + _ at r2
        change 0 ≤ replicaScale d s occs.toFinset keep h p at r0
        nlinarith
      refine ⟨pow_le_pow_left₀ a0 low 2, (pow_le_pow_left₀ (a0.trans low) up 2).trans ?_⟩
      generalize α h p m k = a at *
      generalize laneMean d s h p = A at *
      have h3 : a * A ≤ (a ^ 2 + A ^ 2) / 2 := by nlinarith [sq_nonneg (a - A)]
      nlinarith [sq_nonneg a, sq_nonneg A]
    refine ⟨?_, ?_⟩
    · rw [e, hscale]
      exact mul_le_mul_of_nonneg_left (Finset.sum_le_sum (fun h _ => Finset.sum_le_sum (fun p _ => Finset.sum_le_sum
          (fun m _ =>
        Finset.sum_le_sum (fun k _ => (each h p m k).1))))) n0
    · rw [e, hscale, mul_assoc]
      refine mul_le_mul_of_nonneg_left ?_ n0
      refine (Finset.sum_le_sum (fun h _ => Finset.sum_le_sum (fun p _ => Finset.sum_le_sum (fun m _ =>
        Finset.sum_le_sum (fun k _ => (each h p m k).2))))).trans ?_
      have sp := spread (1 / 2 ^ 48) (by norm_num)
      simp only [Finset.sum_add_distrib] at sp ⊢
      linarith
  · intro hz
    rw [hval]
    have hz : (f1Samples d s occs).all (fun x => csIsZero x.residual) = true := hz
    have each : ((f1Samples d s occs).map (fun x => ‖csValue x.residual‖ ^ 2)).sum = 0 := by
      refine List.sum_eq_zero (fun y hy => ?_)
      obtain ⟨x, hx, rfl⟩ := List.mem_map.1 hy
      rw [(csIsZero_value (List.all_eq_true.1 hz x hx)).2]
      simp
    rw [total] at each
    rw [each, mul_zero]

/-- Without DM-RS amplitude there is no noise. -/
theorem noiseValue_of_silent {d : PucchDesc} {s : State} (he : ParamsExact s.params) (hs : ParamSequences s.params)
    (occs : Finset Nat) (keep : Nat → Nat → Nat → Bool)
    (h : ∀ h p, h < hopCount d → p < d.nofPorts.toNat → despreadScale d s true h p = 0) :
    noiseValue d s occs keep = 0 := by
  unfold noiseValue dmrsMean
  rw [Finset.sum_eq_zero, zero_div]
  intro hh hm
  refine Finset.sum_eq_zero (fun p hp => Finset.sum_eq_zero (fun m hmm => Finset.sum_eq_zero (fun k hk => ?_)))
  have hz := h hh p (Finset.mem_range.1 hm) (Finset.mem_range.1 hp)
  have hy : ‖complexOf (dmrsSample d s hh p m k)‖ = 0 := by
    have h1 := (Finset.sum_eq_zero_iff_of_nonneg (fun m _ => amplitude_nonneg d s _ p)).1 hz m hmm
    exact (Finset.sum_eq_zero_iff_of_nonneg (fun k _ => norm_nonneg _)).1 h1 k hk
  have hr : replicaValue d s occs keep hh p m k = 0 := by
    refine Finset.sum_eq_zero (fun occ _ => Finset.sum_eq_zero (fun m0 _ => ?_))
    have hc : chanValue d s hh p occ m0 = 0 := by
      have := chanValue_le (d := d) he hs hh p occ m0
      rw [hz, zero_div] at this
      exact norm_le_zero_iff.1 this
    rw [hc]
    simp
  dsimp only
  rw [norm_eq_zero.1 hy, hr]
  simp

/-- What the rules admit for a ratio to the noise variance, times a positive factor, outside its corner cases: none of
the exact zeros, and the range of the ratio (44_format1.md R107, R108). -/
theorem f1Ratio_closed {d : PucchDesc} {s : State} (ht : 0 ≤ s.params.tol) (he : ParamsExact s.params)
    (hs : ParamSequences s.params) {occs : List Nat} (hn : occs.Nodup) (h8 : ∀ o ∈ occs, o < 8) {norm : Rat}
    (hnorm : 0 < norm) {num : Ival} {x X : ℝ} {S : Rat} (hnum : num.Encl x (1 / 2 ^ 44 * X)) (hx : 0 ≤ x) (hX : 0 ≤ X)
    (hS : Tight S X) :
    let keep := f1Keep d s occs
    let nz := f1NoiseOf (f1Samples d s occs)
    let y := norm * noiseValue d s occs.toFinset keep
    let Y := norm * noiseScaleValue d s occs.toFinset keep
    RatioClosed s.params.tol x X y Y →
      0 < y ∧ nz.isZero = false ∧ nz.scale ≠ 0 ∧ ¬ nz.sigma2.lo ≤ s.params.tol * nz.scale ∧
      ∃ lo hi, admitRatio s.params.tol num S (ivScale norm nz.sigma2) (s.params.tol * nz.scale * norm) = .within lo hi ∧
        ratioLow s.params.tol x X y Y ≤ (lo : ℝ) ∧ (hi : ℝ) ≤ ratioHigh s.params.tol x X y Y ∧
        ∃ v, f32Finite v = true ∧ (lo : ℝ) ≤ realOf v ∧ realOf v ≤ (hi : ℝ) := by
  intro keep nz y Y hc
  obtain ⟨n1, n2, n3⟩ := f1Noise_spec (d := d) he hs hn h8
  have nR : (0 : ℝ) < norm := by exact_mod_cast hnorm
  have hle := noiseValue_le d s he hs occs.toFinset keep
  have ht' : (0 : ℝ) ≤ s.params.tol := by exact_mod_cast ht
  have hv0 : 0 ≤ noiseValue d s occs.toFinset keep := by
    unfold noiseValue dmrsMean
    exact div_nonneg (Finset.sum_nonneg (fun _ _ => Finset.sum_nonneg (fun _ _ => Finset.sum_nonneg (fun _ _ =>
      Finset.sum_nonneg (fun _ _ => sq_nonneg _))))) (by positivity)
  have hV0 := hv0.trans hle
  have hY : 0 ≤ Y := mul_nonneg nR.le hV0
  have ypos : 0 < y := lt_of_le_of_lt (errorBound_nonneg ht hY) hc.1
  have vpos : 0 < noiseValue d s occs.toFinset keep := (mul_pos_iff_of_pos_left nR).1 ypos
  have hd : (ivScale norm nz.sigma2).Encl y (1 / 2 ^ 44 * Y) := by
    have := ivScale_encl norm n1
    rw [abs_of_pos nR] at this
    exact this.mono (le_of_eq (by show _ = 1 / 2 ^ 44 * ((norm : ℝ) * _); ring))
  have hb : s.params.tol * Y ≤ ((s.params.tol * nz.scale * norm : Rat) : ℝ) := by
    push_cast
    have := mul_le_mul_of_nonneg_left n2.1 (mul_nonneg ht' nR.le)
    show (s.params.tol : ℝ) * ((norm : ℝ) * _) ≤ _
    nlinarith
  have hb' : ((s.params.tol * nz.scale * norm : Rat) : ℝ) + 1 / 2 ^ 44 * Y ≤ errorBound s.params.tol Y := by
    have := bound_le ht hV0 n2
    rw [errorBound_mul] at this ⊢
    push_cast at this ⊢
    have := mul_le_mul_of_nonneg_right this nR.le
    show _ + 1 / 2 ^ 44 * ((norm : ℝ) * noiseScaleValue d s occs.toFinset keep) ≤ _ *
        ((norm : ℝ) * noiseScaleValue d s occs.toFinset keep)
    linarith
  obtain ⟨hlo, h⟩ := admitRatio_closed ht hnum hx hX hS hd hY hb hb' hc
  refine ⟨ypos, ?_, ?_, ?_, h⟩
  · by_contra hz
    exact vpos.ne' (n3 (Bool.eq_true_of_not_eq_false hz))
  · intro h0
    have := n2.1
    rw [show (f1NoiseOf (f1Samples d s occs)).scale = 0 from h0] at this
    push_cast at this
    linarith
  · have e : (ivScale norm nz.sigma2).lo = norm * nz.sigma2.lo := by
      unfold ivScale
      rw [if_pos hnorm.le]
    rw [e] at hlo
    have : (s.params.tol * nz.scale) * norm < nz.sigma2.lo * norm := by linarith
    exact not_le.2 (lt_of_mul_lt_mul_right this hnorm.le)

/-- The metric of an entry, outside its corner cases (44_format1.md R107). -/
theorem f1MetricAdmitted_closed {d : PucchDesc} {s : State} (ht : 0 ≤ s.params.tol) (he : ParamsExact s.params)
    (hs : ParamSequences s.params) {occs : List Nat} (hn : occs.Nodup) (h8 : ∀ o ∈ occs, o < 8) {norm : Rat}
    (hnorm : 0 < norm) (turn : Rat) (occ m0 : Nat) (positive : Bool) :
    let keep := f1Keep d s occs
    let x := numValue d s (rootOf (turn : ℝ)) occ m0
    let X := numScaleValue d s
    let y := norm * noiseValue d s occs.toFinset keep
    let Y := norm * noiseScaleValue d s occs.toFinset keep
    RatioClosed s.params.tol x X y Y → ∃ lo hi,
      f1MetricAdmitted s.params.tol norm (f1Num d s turn occ m0) (f1NumScale d s) positive
        (f1NoiseOf (f1Samples d s occs)) = .within lo hi ∧
      ratioLow s.params.tol x X y Y ≤ (lo : ℝ) ∧ (hi : ℝ) ≤ ratioHigh s.params.tol x X y Y ∧
      ∃ v, f32Finite v = true ∧ (lo : ℝ) ≤ realOf v ∧ realOf v ≤ (hi : ℝ) := by
  intro keep x X y Y hc
  have hX : 0 ≤ X := numScaleValue_nonneg d s
  have tight := f1NumScale_tight d s
  have hnum : (f1Num d s turn occ m0).Encl x (1 / 2 ^ 44 * X) :=
    (f1Num_encl he hs turn occ m0).mono (mul_le_mul_of_nonneg_right (by norm_num) hX)
  obtain ⟨hy, h1, h2, h3, lo, hi, h4, h5⟩ := f1Ratio_closed ht he hs hn h8 hnorm hnum
    (numValue_nonneg d s (rootOf_norm _) occ m0) hX tight hc
  refine ⟨lo, hi, ?_, h5⟩
  have h0 : f1NumScale d s ≠ 0 := by
    intro h0
    have hz : X = 0 := by
      have := tight.1
      rw [h0] at this
      push_cast at this
      exact le_antisymm this hX
    have := noiseValue_of_silent he hs occs.toFinset keep (fun h p hh hp => by
      have g1 := (Finset.sum_eq_zero_iff_of_nonneg (fun h _ => Finset.sum_nonneg (fun p _ => sq_nonneg _))).1 hz h
          (Finset.mem_range.2 hh)
      have g2 := (Finset.sum_eq_zero_iff_of_nonneg (fun p _ => sq_nonneg _)).1 g1 p (Finset.mem_range.2 hp)
      have a0 := despreadScale_nonneg d s true h p
      have b0 := despreadScale_nonneg d s false h p
      nlinarith [pow_eq_zero_iff (two_ne_zero) |>.1 g2])
    have : y = 0 := by show (norm : ℝ) * _ = 0; rw [this, mul_zero]
    exact hy.ne' this
  unfold f1MetricAdmitted
  rw [if_neg h0, h1, if_neg (by decide), if_neg h3, h4]

/-- The SINR of an entry, outside its corner cases (44_format1.md R107). -/
theorem f1SinrAdmitted_closed {d : PucchDesc} {s : State} (ht : 0 ≤ s.params.tol) (he : ParamsExact s.params)
    (hs : ParamSequences s.params) {occs : List Nat} (hn : occs.Nodup) (h8 : ∀ o ∈ occs, o < 8) (occ m0 : Nat) :
    let keep := f1Keep d s occs
    let x := rsrpValue d s occ m0
    let X := rsrpScale d s
    let y := noiseValue d s occs.toFinset keep
    let Y := noiseScaleValue d s occs.toFinset keep
    RatioClosed s.params.tol x X y Y → ∃ lo hi,
      f1SinrAdmitted s.params.tol (f1Rsrp d s occ m0) (f1RsrpScale d s) (f1NoiseOf (f1Samples d s occs)) =
          .within lo hi ∧
      ratioLow s.params.tol x X y Y ≤ (lo : ℝ) ∧ (hi : ℝ) ≤ ratioHigh s.params.tol x X y Y ∧
      ∃ v, f32Finite v = true ∧ (lo : ℝ) ≤ realOf v ∧ realOf v ≤ (hi : ℝ) := by
  intro keep x X y Y hc
  have hX : 0 ≤ X := rsrpScale_nonneg d s
  have hx : 0 ≤ x := div_nonneg (Finset.sum_nonneg (fun _ _ => Finset.sum_nonneg (fun _ _ => sq_nonneg _)))
      (by positivity)
  obtain ⟨s1, s2⟩ := f1RsrpScale_bounds d s
  have tight : Tight (f1RsrpScale d s) X := ⟨s1, s2.trans (mul_le_mul_of_nonneg_left (by norm_num) hX)⟩
  have hnum : (f1Rsrp d s occ m0).Encl x (1 / 2 ^ 44 * X) :=
    (f1Rsrp_encl he hs occ m0).mono (mul_le_mul_of_nonneg_right (by norm_num) hX)
  have e1 : ((1 : Rat) : ℝ) * noiseValue d s occs.toFinset keep = y := by push_cast; exact one_mul _
  have e2 : ((1 : Rat) : ℝ) * noiseScaleValue d s occs.toFinset keep = Y := by push_cast; exact one_mul _
  have := f1Ratio_closed (d := d) ht he hs hn h8 one_pos hnum hx hX tight
  dsimp only at this
  rw [e1, e2] at this
  obtain ⟨-, h1, h2, h3, lo, hi, h4, h5⟩ := this hc
  refine ⟨lo, hi, ?_, h5⟩
  have e3 : ivScale 1 (f1NoiseOf (f1Samples d s occs)).sigma2 = (f1NoiseOf (f1Samples d s occs)).sigma2 := by
    unfold ivScale
    rw [if_pos (by norm_num), one_mul, one_mul]
  rw [e3, mul_one] at h4
  unfold f1SinrAdmitted
  rw [if_neg h2, h1, if_neg (by decide), if_neg h3, h4]

/-- The reported noise variance (44_format1.md R106). -/
theorem f1NoiseVar_returns {d : PucchDesc} {s : State} (ht : 0 ≤ s.params.tol) (he : ParamsExact s.params)
    (hs : ParamSequences s.params) (hf : rxFinite (rxBlocks d s) = true) {occs : List Nat} (hn : occs.Nodup)
    (h8 : ∀ o ∈ occs, o < 8) :
    ReturnsReal s.params.tol (noiseValue d s occs.toFinset (f1Keep d s occs))
      (noiseScaleValue d s occs.toFinset (f1Keep d s occs)) (f1NoiseVar d s (f1NoiseOf (f1Samples d s occs))) := by
  obtain ⟨n1, n2, -⟩ := f1Noise_spec (d := d) he hs hn h8
  have ht' : (0 : ℝ) ≤ s.params.tol := by exact_mod_cast ht
  have hV0 : 0 ≤ noiseScaleValue d s occs.toFinset (f1Keep d s occs) := by
    have := n1.nonneg
    linarith [(mul_nonneg_iff_of_pos_left (by norm_num : (0 : ℝ) < 1 / 2 ^ 44)).1 this]
  intro held
  unfold f1NoiseVar
  rw [if_pos hf]
  have := draw_near n1 (b := s.params.tol * (f1NoiseOf (f1Samples d s occs)).scale)
    (bound := s.params.tol * noiseScaleValue d s occs.toFinset (f1Keep d s occs))
    (by push_cast; exact mul_le_mul_of_nonneg_left n2.1 ht') ⟨s.draws, .f1Noise, 0⟩ held
  exact ⟨this.1, this.2.trans (bound_le ht hV0 n2)⟩

/-! ## The normalisation and the covers of a command -/

/-- `F1_NORM` is positive (00_scope.md R8). -/
theorem f1NormOf_pos {d : PucchDesc} {s : State} (hp : ParamsLegal s.params) (mux : List Word) : 0 < f1NormOf d s mux
    := by
  obtain ⟨-, -, h1, h2, -⟩ := hp.2.1
  unfold f1NormOf f1Norm
  split
  · exact h2 _ (List.mem_of_find?_eq_some ‹_›)
  · exact h1

/-- `OCCS`: each cover once, each of the three bits of its field (44_format1.md R103, 30_encoding.md R64). -/
theorem f1Occs_spec (mux : List Word) : (f1Occs mux).Nodup ∧ ∀ o ∈ f1Occs mux, o < 8 := by
  refine ⟨List.nodup_dedup _, fun o ho => ?_⟩
  obtain ⟨w, -, rfl⟩ := List.mem_map.1 (List.mem_dedup.1 ho)
  exact (w.extractLsb' 8 3).isLt

/-- The length of every entry of a mux list that passes stage B (44_format1.md R109). -/
theorem muxHarq_le {d : PucchDesc} {s : State} (hB : stageB .f1 d s = none) {w : Word} (hw : w ∈ seenMux d s) :
    muxHarq w ≤ 2 := by
  obtain ⟨-, -, -, -, -, -, -, -, h9, -⟩ := (stageB_none _ _ _).1 hB
  simp only [failB9, Bool.or_eq_false_iff, List.any_eq_false] at h9
  have := h9.1.2 w hw
  simp only [muxEntryBad, Bool.or_eq_true, decide_eq_true_eq, not_or] at this
  omega

end Sys2Proof.Machine
end

