-- ==== Sys2Proof/Laws/PerInstr.lean ====
section
/-! SUPPORT. Statements about every command as syntax, one lemma for each constructor (30_encoding.md R54 to R56). -/

namespace Sys2Proof.Laws

/-! ## The number of words (30_encoding.md R54) -/

/-- A command is written in as many words as its opcode's length says. -/
def EncodeLength.Statement (i : Instr) : Prop := (encode i).length = opcodeWords (instrOpcode i)

theorem EncodeLength.procF0 (d : PucchDesc) : EncodeLength.Statement (.procF0 d) := rfl
theorem EncodeLength.procF1 (d : PucchDesc) : EncodeLength.Statement (.procF1 d) := rfl
theorem EncodeLength.procF2 (d : PucchDesc) : EncodeLength.Statement (.procF2 d) := rfl
theorem EncodeLength.procF3 (d : PucchDesc) : EncodeLength.Statement (.procF3 d) := rfl
theorem EncodeLength.procF4 (d : PucchDesc) : EncodeLength.Statement (.procF4 d) := rfl
theorem EncodeLength.valF0 (d : PucchDesc) : EncodeLength.Statement (.valF0 d) := rfl
theorem EncodeLength.valF1 (d : PucchDesc) : EncodeLength.Statement (.valF1 d) := rfl
theorem EncodeLength.valF2 (d : PucchDesc) : EncodeLength.Statement (.valF2 d) := rfl
theorem EncodeLength.valF3 (d : PucchDesc) : EncodeLength.Statement (.valF3 d) := rfl
theorem EncodeLength.valF4 (d : PucchDesc) : EncodeLength.Statement (.valF4 d) := rfl
theorem EncodeLength.deprecodeSym (d : DeprecodeDesc) : EncodeLength.Statement (.deprecodeSym d) := rfl
theorem EncodeLength.deprecodeNoise (d : DeprecodeDesc) : EncodeLength.Statement (.deprecodeNoise d) := rfl
theorem EncodeLength.equalize (d : EqualizeDesc) : EncodeLength.Statement (.equalize d) := rfl

/-! ## The command word (30_encoding.md R55) -/

/-- The first word of a command holds its opcode, a reserved byte of 0 and its tag. -/
def CommandWord.Statement (i : Instr) : Prop :=
  ∃ w rest, encode i = w :: rest ∧ w0Opc w = opcodeByte (instrOpcode i) ∧ w0Rsv w = 0#8 ∧ w0Tag w = instrTag i

/-- The fields of a command word. -/
theorem commandWord_fields (tag : BitVec 16) (o : Opcode) :
    w0Opc (w0Word tag o) = opcodeByte o ∧ w0Rsv (w0Word tag o) = 0#8 ∧ w0Tag (w0Word tag o) = tag := by
  have h := Sys2Proof.Machine.w0Word_fields tag o
  exact ⟨h.2.1, h.2.2, h.1⟩

theorem CommandWord.procF0 (d : PucchDesc) : CommandWord.Statement (.procF0 d) :=
  ⟨_, _, rfl, commandWord_fields d.tag .procF0⟩
theorem CommandWord.procF1 (d : PucchDesc) : CommandWord.Statement (.procF1 d) :=
  ⟨_, _, rfl, commandWord_fields d.tag .procF1⟩
theorem CommandWord.procF2 (d : PucchDesc) : CommandWord.Statement (.procF2 d) :=
  ⟨_, _, rfl, commandWord_fields d.tag .procF2⟩
theorem CommandWord.procF3 (d : PucchDesc) : CommandWord.Statement (.procF3 d) :=
  ⟨_, _, rfl, commandWord_fields d.tag .procF3⟩
theorem CommandWord.procF4 (d : PucchDesc) : CommandWord.Statement (.procF4 d) :=
  ⟨_, _, rfl, commandWord_fields d.tag .procF4⟩
theorem CommandWord.valF0 (d : PucchDesc) : CommandWord.Statement (.valF0 d) :=
  ⟨_, _, rfl, commandWord_fields d.tag .valF0⟩
theorem CommandWord.valF1 (d : PucchDesc) : CommandWord.Statement (.valF1 d) :=
  ⟨_, _, rfl, commandWord_fields d.tag .valF1⟩
theorem CommandWord.valF2 (d : PucchDesc) : CommandWord.Statement (.valF2 d) :=
  ⟨_, _, rfl, commandWord_fields d.tag .valF2⟩
theorem CommandWord.valF3 (d : PucchDesc) : CommandWord.Statement (.valF3 d) :=
  ⟨_, _, rfl, commandWord_fields d.tag .valF3⟩
theorem CommandWord.valF4 (d : PucchDesc) : CommandWord.Statement (.valF4 d) :=
  ⟨_, _, rfl, commandWord_fields d.tag .valF4⟩
theorem CommandWord.deprecodeSym (d : DeprecodeDesc) : CommandWord.Statement (.deprecodeSym d) :=
  ⟨_, _, rfl, commandWord_fields d.tag .deprecodeSym⟩
theorem CommandWord.deprecodeNoise (d : DeprecodeDesc) : CommandWord.Statement (.deprecodeNoise d) :=
  ⟨_, _, rfl, commandWord_fields d.tag .deprecodeNoise⟩
theorem CommandWord.equalize (d : EqualizeDesc) : CommandWord.Statement (.equalize d) :=
  ⟨_, _, rfl, commandWord_fields d.tag .equalize⟩

/-! ## The result address (30_encoding.md R55) -/

/-- The second word of a command is its result address. -/
def ResultAddress.Statement (i : Instr) : Prop := (encode i)[1]? = some (instrResAddr i)

theorem ResultAddress.procF0 (d : PucchDesc) : ResultAddress.Statement (.procF0 d) := rfl
theorem ResultAddress.procF1 (d : PucchDesc) : ResultAddress.Statement (.procF1 d) := rfl
theorem ResultAddress.procF2 (d : PucchDesc) : ResultAddress.Statement (.procF2 d) := rfl
theorem ResultAddress.procF3 (d : PucchDesc) : ResultAddress.Statement (.procF3 d) := rfl
theorem ResultAddress.procF4 (d : PucchDesc) : ResultAddress.Statement (.procF4 d) := rfl
theorem ResultAddress.valF0 (d : PucchDesc) : ResultAddress.Statement (.valF0 d) := rfl
theorem ResultAddress.valF1 (d : PucchDesc) : ResultAddress.Statement (.valF1 d) := rfl
theorem ResultAddress.valF2 (d : PucchDesc) : ResultAddress.Statement (.valF2 d) := rfl
theorem ResultAddress.valF3 (d : PucchDesc) : ResultAddress.Statement (.valF3 d) := rfl
theorem ResultAddress.valF4 (d : PucchDesc) : ResultAddress.Statement (.valF4 d) := rfl
theorem ResultAddress.deprecodeSym (d : DeprecodeDesc) : ResultAddress.Statement (.deprecodeSym d) := rfl
theorem ResultAddress.deprecodeNoise (d : DeprecodeDesc) : ResultAddress.Statement (.deprecodeNoise d) := rfl
theorem ResultAddress.equalize (d : EqualizeDesc) : ResultAddress.Statement (.equalize d) := rfl

end Sys2Proof.Laws
end

