-- ==== Sys2Proof/WellFormed.lean ====
section
/-! DEFINITION. Which commands are well formed: every field holds one of the legal values that the encoding
tables give it whatever the parameters of the block are (30_encoding.md R55 to R66, 46_dispatcher_pool.md R136). -/

namespace Sys2Proof

/-- Every RSV bit of W2 to W6 is 0 (30_encoding.md R57 to R61, R76). -/
def PucchDesc.reservedClear (d : PucchDesc) : Bool :=
  d.rsv2 == 0 && d.rsv3lo == 0 && d.rsv3hi == 0 && d.rsv4lo == 0 && d.rsv4hi == 0 && d.rsv5 == 0 && d.rsv6 == 0

/-- `MU` in 0..4 and `SLOT_IDX` in 0..10*2^MU-1 (30_encoding.md R57). -/
def PucchDesc.slotLegal (d : PucchDesc) : Bool :=
  decide (d.mu.toNat ≤ 4) && decide (d.slotIdx.toNat < 10 * 2 ^ d.mu.toNat)

/-- `START_PRB` and, with hopping, `SECOND_HOP_PRB` in 0..274 (30_encoding.md R58). -/
def PucchDesc.prbLegal (d : PucchDesc) : Bool :=
  decide (d.startPrb.toNat ≤ 274) && (d.hopEn == 0 || decide (d.secondHopPrb.toNat ≤ 274))

/-- `NOF_SYM`, `START_SYM` and their sum within the format's range (46_dispatcher_pool.md R136). -/
def PucchDesc.symbolsLegal (f : Fmt) (d : PucchDesc) : Bool :=
  let n := d.nofSym.toNat
  let s := d.startSym.toNat
  match f with
  | .f0 | .f2 => decide (1 ≤ n) && decide (n ≤ 2) && decide (s ≤ 13) && decide (s + n ≤ 14)
  | .f1 | .f3 | .f4 => decide (4 ≤ n) && decide (n ≤ 14) && decide (s ≤ 10) && decide (s + n ≤ 14)

/-- The format's own fields within their legal values (30_encoding.md R59, 46_dispatcher_pool.md R136). -/
def PucchDesc.formatFieldsLegal (f : Fmt) (d : PucchDesc) : Bool :=
  match f with
  | .f0 => decide (d.initCs.toNat ≤ 11) && decide (d.nofHarq.toNat ≤ 2)
  | .f1 => decide (d.bufAddr.toNat % 4 = 0) && decide (1 ≤ d.bufLen.toNat) && decide (d.bufLen.toNat ≤ 84)
  | .f2 => decide (1 ≤ d.nofPrb.toNat) && decide (d.nofPrb.toNat ≤ 16)
  | .f3 => [1, 2, 3, 4, 5, 6, 8, 9, 10, 12, 15, 16].contains d.nofPrb.toNat
  | .f4 => decide (d.occIdx.toNat < if d.occLenSel = 0 then 2 else 4)

/-- `NOF_PORTS` in 1..8, the widest range `MAX_PORTS` allows (30_encoding.md R61, 00_scope.md R5). -/
def PucchDesc.portCountLegal (d : PucchDesc) : Bool :=
  decide (1 ≤ d.nofPorts.toNat) && decide (d.nofPorts.toNat ≤ 8)

/-- The result address is a multiple of 4 (30_encoding.md R55). -/
def PucchDesc.resultAligned (d : PucchDesc) : Bool := decide (d.resAddr.toNat % 4 = 0)

/-- All checks of a configuration descriptor. -/
def PucchDesc.wellFormed (f : Fmt) (d : PucchDesc) : Bool :=
  d.resultAligned && d.reservedClear && d.symbolsLegal f && d.prbLegal && d.portCountLegal && d.slotLegal &&
    d.formatFieldsLegal f

/-- Result and buffer addresses are multiples of 4 (30_encoding.md R55, R65). -/
def DeprecodeDesc.wellFormed (d : DeprecodeDesc) : Bool :=
  decide (d.resAddr.toNat % 4 = 0) && decide (d.inAddr.toNat % 4 = 0) && decide (d.outAddr.toNat % 4 = 0)

/-- Addresses aligned, RSV clear, one layer, 1..8 ports, a finite positive scaling (30_encoding.md R55, R66). -/
def EqualizeDesc.wellFormed (d : EqualizeDesc) : Bool :=
  [d.resAddr, d.rxAddr, d.chAddr, d.nvAddr, d.osymAddr, d.onvAddr].all (fun a => decide (a.toNat % 4 = 0)) &&
    d.rsv7 == 0 && decide (1 ≤ d.nofPorts.toNat) && decide (d.nofPorts.toNat ≤ 8) && d.nofLayers == 1 &&
    decide (0 < d.scaling.toNat) && decide (d.scaling.toNat < 0x7F800000)

/-- A command every field of which is legal. -/
def Instr.wellFormed : Instr → Bool
  | .procF0 d => d.wellFormed .f0
  | .procF1 d => d.wellFormed .f1
  | .procF2 d => d.wellFormed .f2
  | .procF3 d => d.wellFormed .f3
  | .procF4 d => d.wellFormed .f4
  | .valF0 d => d.wellFormed .f0
  | .valF1 d => d.wellFormed .f1
  | .valF2 d => d.wellFormed .f2
  | .valF3 d => d.wellFormed .f3
  | .valF4 d => d.wellFormed .f4
  | .deprecodeSym d => d.wellFormed
  | .deprecodeNoise d => d.wellFormed
  | .equalize d => d.wellFormed

end Sys2Proof
end

