-- ==== Sys2Proof/Tests/Slice0.lean ====
section
/-! SUPPORT. The model's own tests: ill-formed commands, written words, one step of each command, and for every
statement with hypotheses a state that meets them. Expected values are those of 95_test_vectors.md and of the rules
cited, worked out by hand. -/

namespace Sys2Proof.Tests

open Sys2Proof Sys2Proof.Machine

-- One theorem after another: each waits for the kernel, and a hundred that wait at once ask for too many threads.
set_option Elab.async false

/-! ## Helpers -/

/-- A state with words stored in DMEM at an address. -/
def withWords (a : Nat) (ws : List Word) (s : State) : State :=
  { s with dmem := writeBytes s.dmem a (bytesOfWords ws) }

/-- After reset, with a command's words at 0x1000, its call running on instance 0 (a validator's: validating), and
that call as the context. -/
def running (ws : List Word) : State :=
  { placeCommand ws State.reset with sched := [], cur := ⟨0, some 0, 0x1000#32⟩ }

/-- The command that words decode to. -/
def commandOf (ws : List Word) : Instr :=
  match decode ws with
  | .ok i => i
  | .error _ => default

/-- The command that words decode to, run on a state. -/
def runOn (ws : List Word) (s : State) : Result := exec (commandOf ws) s

/-- Is the outcome a next state? -/
def isNext : Result → Bool
  | .next _ => true
  | .fault _ | .refused _ => false

/-- What a next state holds, and a default where there is none. -/
def look {α : Type} (dflt : α) (f : State → α) : Result → α
  | .next t => f t
  | .fault _ | .refused _ => dflt

/-- Memory words of a next state. -/
def wordsAfter (a n : Nat) (r : Result) : List Word := look [] (fun t => memWords t.dmem a n) r

/-- `FAULT_INFO` of a next state. -/
def faultAfter (r : Result) : Word := look 0xFFFFFFFF#32 (fun t => t.faultInfo) r

/-- The configuration descriptor with given W0 and W2 to W10, its record at 0x2000. -/
def cfg (w0 w2 w3 w4 w6 w7 w8 w9 : Word) : List Word := [w0, 0x2000#32, w2, w3, w4, 0#32, w6, w7, w8, w9, 0#32]

/-- Program P1's Format 0 descriptor (95_test_vectors.md section 3). -/
def f0Words : List Word := cfg 0x00010001#32 0#32 0#32 0x04000010#32 1#32 0#32 0#32 0#32

/-- Program P2's Format 1 descriptor: 4 symbols, 3 mux entries at 0x1100 (95_test_vectors.md section 3). -/
def f1Words : List Word := cfg 0x00020002#32 0#32 0#32 0x00000040#32 1#32 0#32 0x1100#32 3#32

/-- A mux list with keys (0, 0), (6, 0), (3, 0) and 0, 1, 2 HARQ bits (44_format1.md R109). -/
def muxWords : List Word := [0x00000000#32, 0x00010006#32, 0x00020003#32]

/-- Program P5's Format 2 descriptor: 1 PRB, 1 symbol, 16 LLRs at 0x3000 (95_test_vectors.md section 3). -/
def f2Words : List Word := cfg 0x00050003#32 0#32 0#32 0x00000110#32 1#32 0#32 0x3000#32 16#32

/-- A Format 3 descriptor: 1 PRB, 4 symbols, 3 of them data, QPSK: 72 LLRs (95_test_vectors.md section 2.7). -/
def f3Words : List Word := cfg 0x00060004#32 0#32 0#32 0x00000140#32 1#32 0#32 0x3000#32 72#32

/-- The same with pi/2-BPSK: 36 LLRs (45_format234.md R121, R124). -/
def bpskWords : List Word := cfg 0x00060004#32 0#32 0#32 0x00002140#32 1#32 0#32 0x3000#32 36#32

/-- A Format 4 descriptor: OCC length 2, 4 symbols, 3 of them data, QPSK: 36 LLRs (45_format234.md R124). -/
def f4Words : List Word := cfg 0x00070005#32 0#32 0#32 0x00000040#32 1#32 0#32 0x3000#32 36#32

/-- `DEPRECODE.SYM` of program P3 (95_test_vectors.md section 3). -/
def symWords : List Word := [0x00040021#32, 0x2004#32, 0x3200#32, 0x3300#32, 0x000C000C#32]

/-- `DEPRECODE.NOISE` of three entries, none of them good (95_test_vectors.md section 2.3). -/
def noiseWords : List Word := [0x00030022#32, 0x2000#32, 0x3000#32, 0x3100#32, 0x00030003#32]

/-- `EQUALIZE` of program P3: 2 elements, 2 ports, scaling 1.0 (95_test_vectors.md section 3). -/
def eqWords : List Word :=
  [0x00050023#32, 0x2008#32, 0x3400#32, 0x3500#32, 0x3600#32, 0x3700#32, 0x3800#32, 0x00120002#32, 0x3F800000#32]

/-- The validator with the same words, the opcode in W0 replaced. -/
def withOpcode (w0 : Word) (ws : List Word) : List Word := w0 :: ws.drop 1

/-- The states in which the commands above run: the mux list in place for Format 1, three bad noise variances for
`DEPRECODE.NOISE`, and for `EQUALIZE` a bad element 0 (channel 0 on port 1) and a good element 1. -/
def f1State : State := withWords 0x1100 muxWords (running f1Words)
def noiseState : State := withWords 0x3000 [0x7FC00001#32, 0x80000000#32, 0xFF800000#32] (running noiseWords)
def eqState : State :=
  withWords 0x3400 [0x3F800000#32, 0#32, 0x3F800000#32, 0#32, 0x3F800000#32, 0#32, 0x3F800000#32, 0#32]
    (withWords 0x3500 [0x3F800000#32, 0#32, 0x3F800000#32, 0#32, 0#32, 0#32, 0x3F800000#32, 0#32]
      (withWords 0x3600 [0x3F000000#32, 0x3F800000#32] (running eqWords)))

/-! ## Ill-formed commands: one for each check -/

/-- A well-formed Format 0 descriptor to spoil. -/
def f0Desc : PucchDesc :=
  match commandOf f0Words with
  | .procF0 d => d
  | _ => default

def f1Desc : PucchDesc := { f0Desc with nofSym := 4, bufAddr := 0x1100, bufLen := 3, srOpp := 0 }
def f2Desc : PucchDesc := { f0Desc with nofPrb := 1 }
def f3Desc : PucchDesc := { f0Desc with nofSym := 4, nofPrb := 1 }
def eqDesc : EqualizeDesc :=
  match commandOf eqWords with
  | .equalize d => d
  | _ => default

theorem test_wellFormed :
    (Instr.procF0 f0Desc).wellFormed = true ∧ (Instr.procF1 f1Desc).wellFormed = true ∧
    (Instr.procF2 f2Desc).wellFormed = true ∧ (Instr.procF3 f3Desc).wellFormed = true ∧
    (Instr.procF4 f3Desc).wellFormed = true ∧ (Instr.valF1 f1Desc).wellFormed = true ∧
    (commandOf symWords).wellFormed = true ∧ (commandOf noiseWords).wellFormed = true ∧
    (Instr.equalize eqDesc).wellFormed = true := by decide +kernel

theorem test_illFormed_result : (Instr.procF0 { f0Desc with resAddr := 2 }).wellFormed = false := by decide +kernel
theorem test_illFormed_reserved : (Instr.procF0 { f0Desc with rsv4lo := 1 }).wellFormed = false := by decide +kernel
theorem test_illFormed_symbols :
    (Instr.valF0 { f0Desc with nofSym := 3 }).wellFormed = false ∧
    (Instr.procF0 { f0Desc with startSym := 13, nofSym := 2 }).wellFormed = false ∧
    (Instr.procF1 { f1Desc with startSym := 11 }).wellFormed = false := by decide +kernel
theorem test_illFormed_prb :
    (Instr.procF0 { f0Desc with startPrb := 275 }).wellFormed = false ∧
    (Instr.procF0 { f0Desc with hopEn := 1, secondHopPrb := 275 }).wellFormed = false := by decide +kernel
theorem test_illFormed_ports :
    (Instr.procF0 { f0Desc with nofPorts := 0 }).wellFormed = false ∧
    (Instr.procF0 { f0Desc with nofPorts := 9 }).wellFormed = false := by decide +kernel
theorem test_illFormed_slot :
    (Instr.procF0 { f0Desc with mu := 5 }).wellFormed = false ∧
    (Instr.procF0 { f0Desc with slotIdx := 10 }).wellFormed = false := by decide +kernel
theorem test_illFormed_fields :
    (Instr.procF0 { f0Desc with initCs := 12 }).wellFormed = false ∧
    (Instr.valF1 { f1Desc with bufLen := 85 }).wellFormed = false ∧
    (Instr.procF2 { f2Desc with nofPrb := 17 }).wellFormed = false ∧
    (Instr.valF3 { f3Desc with nofPrb := 7 }).wellFormed = false ∧
    (Instr.procF4 { f3Desc with occIdx := 2 }).wellFormed = false := by decide +kernel
theorem test_illFormed_deprecode :
    (Instr.deprecodeSym ⟨0, 0, 2, 0, 0, 0⟩).wellFormed = false ∧
    (Instr.deprecodeNoise ⟨0, 0, 0, 1, 0, 0⟩).wellFormed = false := by decide +kernel
theorem test_illFormed_equalize :
    (Instr.equalize { eqDesc with rsv7 := 1 }).wellFormed = false ∧
    (Instr.equalize { eqDesc with nofLayers := 2 }).wellFormed = false ∧
    (Instr.equalize { eqDesc with scaling := 0x80000000 }).wellFormed = false ∧
    (Instr.equalize { eqDesc with nvAddr := 1 }).wellFormed = false := by decide +kernel

/-! ## Written words (95_test_vectors.md section 2.1, 30_encoding.md R55 to R66) -/

theorem test_decode_procF0 :
    decode f0Words = .ok (.procF0
      { tag := 1, resAddr := 0x2000, slotIdx := 0, mu := 0, rsv2 := 0, startPrb := 0, rsv3lo := 0, secondHopPrb := 0,
        rsv3hi := 0, hopEn := 0, startSym := 0, nofSym := 1, nofPrb := 0, pi2bpsk := 0, addDmrs := 0, occLenSel := 0,
        occIdx := 0, rsv4lo := 0, initCs := 0, nofHarq := 0, srOpp := 1, rsv4hi := 0, nId := 0, rsv5 := 0, rnti := 0,
        nofPorts := 1, rsv6 := 0, portList := 0, bufAddr := 0, bufLen := 0, gridHandle := 0 }) := by decide +kernel

/-- Every field at a value of its own: `W2 = 0x00000313`, `W3 = 0x800A0003`, `W4 = 0x02B2E7E1`, `W5 = 0x46010001`,
`W6 = 2`, `W7 = 0x10`, `W8 = 0x1100`, `W9 = 3`, `W10 = 0xABCD0001`. -/
theorem test_decode_procF1 :
    decode [0xBEEF0002#32, 0x2000#32, 0x00000313#32, 0x800A0003#32, 0x02B2E7E1#32, 0x46010001#32, 2#32, 0x10#32,
      0x1100#32, 3#32, 0xABCD0001#32] = .ok (.procF1
      { tag := 0xBEEF, resAddr := 0x2000, slotIdx := 0x13, mu := 3, rsv2 := 0, startPrb := 3, rsv3lo := 0,
        secondHopPrb := 10, rsv3hi := 0, hopEn := 1, startSym := 1, nofSym := 14, nofPrb := 7, pi2bpsk := 1,
        addDmrs := 1, occLenSel := 1, occIdx := 2, rsv4lo := 0, initCs := 11, nofHarq := 2, srOpp := 0, rsv4hi := 0,
        nId := 1, rsv5 := 0, rnti := 0x4601, nofPorts := 2, rsv6 := 0, portList := 0x10, bufAddr := 0x1100,
        bufLen := 3, gridHandle := 0xABCD0001 }) := by decide +kernel

/-- The reserved bits, all 1: `W2[31:11]`, `W3[15:9]`, `W3[30:25]`, `W4[19:18]`, `W4[31:27]`, `W5[15:10]`,
`W6[31:4]`. -/
theorem test_decode_procF2 :
    decode [3#32, 0#32, 0xFFFFF800#32, 0x7E00FE00#32, 0xF80C0000#32, 0x0000FC00#32, 0xFFFFFFF0#32, 0#32, 0#32, 0#32,
      0#32] = .ok (.procF2
      { tag := 0, resAddr := 0, slotIdx := 0, mu := 0, rsv2 := 0x1FFFFF, startPrb := 0, rsv3lo := 0x7F,
        secondHopPrb := 0, rsv3hi := 0x3F, hopEn := 0, startSym := 0, nofSym := 0, nofPrb := 0, pi2bpsk := 0,
        addDmrs := 0, occLenSel := 0, occIdx := 0, rsv4lo := 3, initCs := 0, nofHarq := 0, srOpp := 0, rsv4hi := 0x1F,
        nId := 0, rsv5 := 0x3F, rnti := 0, nofPorts := 0, rsv6 := 0xFFFFFFF, portList := 0, bufAddr := 0, bufLen := 0,
        gridHandle := 0 }) := by decide +kernel

theorem test_decode_procF3 :
    decode f3Words = .ok (.procF3
      { f0Desc with tag := 6, srOpp := 0, nofSym := 4, nofPrb := 1, bufAddr := 0x3000, bufLen := 72 }) := by
  decide +kernel
theorem test_decode_procF4 :
    decode (cfg 0x00070005#32 0#32 0#32 0x0002A0E0#32 1#32 0#32 0x3000#32 36#32) = .ok (.procF4
      { f0Desc with
        tag := 7, srOpp := 0, nofSym := 14, pi2bpsk := 1, occLenSel := 1, occIdx := 2, bufAddr := 0x3000
        bufLen := 36 }) := by decide +kernel
theorem test_decode_validators :
    decode (withOpcode 0x00010011#32 f0Words) = .ok (.valF0 f0Desc) ∧
    decode (withOpcode 0x00010012#32 f0Words) = .ok (.valF1 f0Desc) ∧
    decode (withOpcode 0x00010013#32 f0Words) = .ok (.valF2 f0Desc) ∧
    decode (withOpcode 0x00010014#32 f0Words) = .ok (.valF3 f0Desc) ∧
    decode (withOpcode 0x00010015#32 f0Words) = .ok (.valF4 f0Desc) := by decide +kernel
theorem test_decode_deprecodeSym :
    decode symWords = .ok (.deprecodeSym ⟨4, 0x2004, 0x3200, 0x3300, 12, 12⟩) := by decide +kernel
theorem test_decode_deprecodeNoise :
    decode [0x000B0022#32, 0x2000#32, 0x3000#32, 0x3100#32, 0x00060007#32] =
      .ok (.deprecodeNoise ⟨0xB, 0x2000, 0x3000, 0x3100, 7, 6⟩) := by decide +kernel
theorem test_decode_equalize :
    decode [0xBEEF0023#32, 0x2008#32, 0x3400#32, 0x3500#32, 0x3600#32, 0x3700#32, 0x3800#32, 0x01230002#32,
      0x3F800000#32] = .ok (.equalize
      { tag := 0xBEEF, resAddr := 0x2008, rxAddr := 0x3400, chAddr := 0x3500, nvAddr := 0x3600, osymAddr := 0x3700,
        onvAddr := 0x3800, nofRe := 2, nofPorts := 3, nofLayers := 2, rsv7 := 1, scaling := 0x3F800000 }) := by
  decide +kernel
theorem test_decode_refused :
    decode [] = .error .empty ∧ decode [0x00070006#32] = .error .illegalOpcode ∧
    decode [0x00000101#32] = .error .reservedNonzero ∧ decode (f0Words.take 10) = .error .truncated := by
  decide +kernel

/-- The words lie in the table's bit order, little-endian (20_memory.md R39). -/
theorem test_decodeTableWord :
    decodeTableWord 8 0x11 = some (.valF0 default) ∧
    (decodeTableWord 64 0x0000200000010001).isSome = true ∧ decodeTableWord 8 0x06 = none := by decide +kernel

/-- The encoder writes the words that were read (30_encoding.md R54 to R66). -/
theorem test_encode :
    ([[0xBEEF0002#32, 0x2000#32, 0x00000313#32, 0x800A0003#32, 0x02B2E7E1#32, 0x46010001#32, 2#32, 0x10#32, 0x1100#32,
        3#32, 0xABCD0001#32],
      [3#32, 0#32, 0xFFFFF800#32, 0x7E00FE00#32, 0xF80C0000#32, 0x0000FC00#32, 0xFFFFFFF0#32, 0#32, 0#32, 0#32, 0#32],
      symWords, [0xBEEF0023#32, 1#32, 2#32, 3#32, 4#32, 5#32, 6#32, 0x01230002#32, 0x3F800000#32]] : List
          (List Word)).all
      (fun ws => encode (commandOf ws) == ws) = true := by decide +kernel

/-! ## One step of each command -/

/-- A silent grid: `0x0E`, invalid, with candidate 0 (95_test_vectors.md section 2.5). -/
theorem test_procF0_silent :
    (f0Record f0Desc (f0Detect f0Desc (running f0Words))).head? = some 0x0E#32 ∧
    isNext (runOn f0Words (running f0Words)) = true := by decide +kernel
theorem test_procF0_symbolRange :
    faultAfter (runOn (cfg 0x00010001#32 0#32 0#32 0x04000030#32 1#32 0#32 0#32 0#32) (running f0Words)) =
      0x00010105#32 := by decide +kernel
/-- Three entries: the count, and the keys in the order of the list (44_format1.md R111). -/
theorem test_procF1_record :
    (let r := f1Record f1Desc f1State muxWords; [r[0]?, r[3]?, r[9]?, r[15]?]) =
      [some 3#32, some 0#32, some 6#32, some 3#32] := by decide +kernel
/-- Two entries with one key: `MUX_INVALID` (95_test_vectors.md section 2.6). -/
theorem test_procF1_repeat :
    faultAfter (runOn f1Words (withWords 0x1108 [0x00010000#32] f1State)) = 0x0002020A#32 := by decide +kernel
/-- A bad noise variance gives LLRs of 0 (45_format234.md R126). -/
theorem test_procF2_badNoise :
    wordsAfter 0x2000 2 (runOn f2Words (withWords 0x3000 [0xFFFFFFFF#32] (running f2Words))) =
      [0x00050300#32, 16#32] ∧
    wordsAfter 0x3000 4 (runOn f2Words (withWords 0x3000 [0xFFFFFFFF#32] (running f2Words))) =
      [0#32, 0#32, 0#32, 0#32] := by decide +kernel
theorem test_procF2_length :
    faultAfter (runOn (cfg 0x00050003#32 0#32 0#32 0x00000110#32 1#32 0#32 0x3000#32 15#32) (running f2Words)) =
      0x0005030D#32 := by decide +kernel
/-- As `test_procF2_badNoise`, with 72 LLRs (95_test_vectors.md section 2.7). -/
theorem test_procF3_count : wordsAfter 0x2000 2 (runOn f3Words (running f3Words)) = [0x00060400#32, 72#32] := by
  decide +kernel
/-- `NOF_PRB = 7` (95_test_vectors.md program P6). -/
theorem test_procF3_prb :
    faultAfter (runOn (cfg 0x00070004#32 0#32 0#32 0x00000740#32 1#32 0#32 0x3000#32 0#32) (running f3Words)) =
      0x00070406#32 := by decide +kernel
theorem test_procF4_count : wordsAfter 0x2000 2 (runOn f4Words (running f4Words)) = [0x00070500#32, 36#32] := by
  decide +kernel
/-- `OCC_IDX = 2` with `OCC_LEN = 2`: `FIELD_RANGE` (46_dispatcher_pool.md R137). -/
theorem test_procF4_occ :
    faultAfter (runOn (cfg 0x00070005#32 0#32 0#32 0x00020040#32 1#32 0#32 0x3000#32 36#32) (running f4Words)) =
      0x00070508#32 := by decide +kernel

theorem test_valF0_accepts :
    wordsAfter 0x2000 2 (runOn (withOpcode 0x00010011#32 f0Words) (running f0Words)) = [0x00011100#32, 0#32] := by
  decide +kernel
/-- `NOF_HARQ = 0`, `SR_OPP = 0`: `F0_TABLE_UNSUPPORTED` (95_test_vectors.md section 2.5). -/
theorem test_valF0_rejects :
    wordsAfter 0x2000 2 (runOn (cfg 0x00010011#32 0#32 0#32 0x00000010#32 1#32 0#32 0#32 0#32) (running f0Words)) =
      [0x00011102#32, 0x0B#32] := by decide +kernel
theorem test_valF1_accepts :
    wordsAfter 0x2000 2 (runOn (withOpcode 0x00020012#32 f1Words) f1State) = [0x00021200#32, 0#32] := by
  decide +kernel
/-- `E_CS = 12` (95_test_vectors.md section 2.6). -/
theorem test_valF1_rejects :
    wordsAfter 0x2000 2 (runOn (withOpcode 0x00020012#32 f1Words) (withWords 0x1100 [0x0001000C#32] f1State)) =
      [0x00021202#32, 0x0A#32] := by decide +kernel
theorem test_valF2_accepts :
    wordsAfter 0x2000 2 (runOn (withOpcode 0x00050013#32 f2Words) (running f2Words)) = [0x00051300#32, 0#32] := by
  decide +kernel
theorem test_valF2_rejects :
    wordsAfter 0x2000 2 (runOn (cfg 0x00050013#32 0#32 0#32 0x00001110#32 1#32 0#32 0x3000#32 16#32)
      (running f2Words)) = [0x00051302#32, 0x06#32] := by decide +kernel
theorem test_valF3_accepts :
    wordsAfter 0x2000 2 (runOn (withOpcode 0x00060014#32 f3Words) (running f3Words)) = [0x00061400#32, 0#32] := by
  decide +kernel
/-- Program P6 (95_test_vectors.md section 3). -/
theorem test_valF3_rejects :
    wordsAfter 0x2000 2 (runOn (cfg 0x00060014#32 0#32 0#32 0x00000740#32 1#32 0#32 0x3000#32 0#32)
      (running f3Words)) = [0x00061402#32, 0x06#32] := by decide +kernel
theorem test_valF4_accepts :
    wordsAfter 0x2000 2 (runOn (withOpcode 0x00070015#32 f4Words) (running f4Words)) = [0x00071500#32, 0#32] := by
  decide +kernel
theorem test_valF4_rejects :
    wordsAfter 0x2000 2 (runOn (cfg 0x00070015#32 0#32 25#32 0x00000040#32 1#32 0#32 0x3000#32 36#32)
      (running f4Words)) = [0x00071502#32, 0x09#32] := by decide +kernel

/-- 12 elements (1 PRB) are accepted (95_test_vectors.md section 2.2). -/
theorem test_deprecodeSym_accepts : isNext (runOn symWords (running symWords)) = true ∧
    faultAfter (runOn symWords (running symWords)) = 0#32 := by decide +kernel
/-- 7 PRBs: `DEPRECODE_SIZE` (95_test_vectors.md section 2.2). -/
theorem test_deprecodeSym_size :
    faultAfter (runOn [0x00040021#32, 0x2004#32, 0x3200#32, 0x3600#32, 0x00540054#32] (running symWords)) =
      0x0004210E#32 := by decide +kernel
/-- No good entry: the output is the input bit for bit (95_test_vectors.md section 2.3). -/
theorem test_deprecodeNoise_copies :
    wordsAfter 0x3100 3 (runOn noiseWords noiseState) = [0x7FC00001#32, 0x80000000#32, 0xFF800000#32] ∧
    wordsAfter 0x2000 1 (runOn noiseWords noiseState) = [0x00032200#32] := by decide +kernel
theorem test_deprecodeNoise_length :
    faultAfter (runOn [0x00030022#32, 0x2000#32, 0x3000#32, 0x3100#32, 0x00060007#32] noiseState) =
      0x0003220D#32 := by decide +kernel
/-- A zero channel on one port makes element 0 bad, and not element 1 (42_equalizer.md R84). -/
theorem test_equalize_sentinel :
    (eqOutputs eqState.params eqState.dmem eqDesc).map (· == .bad) = [true, false] ∧
    isNext (runOn eqWords eqState) = true := by decide +kernel
/-- Two layers: `LAYERS_UNSUPPORTED` (95_test_vectors.md section 2.4). -/
theorem test_equalize_layers :
    faultAfter (runOn [0x00050023#32, 0x2008#32, 0x3400#32, 0x3500#32, 0x3600#32, 0x3700#32, 0x3800#32, 0x00220002#32,
      0x3F800000#32] eqState) = 0x0005230F#32 := by decide +kernel

/-- Registers after reset (10_state.md R21, R27, R28, with the parameters of 95_test_vectors.md section 0). -/
theorem test_registers :
    [0x000, 0x004, 0x008, 0x014, 0x018, 0x01C, 0x020, 0x100, 0x104].map (readReg State.reset) =
      [0x02020101#32, 0#32, 0#32, 0#32, 0x00002019#32, 0x10000#32, 0#32, 0#32, 0#32] := by decide +kernel

/-! ## Witnesses: for every statement with hypotheses, a state that meets them, clause by clause -/

theorem isNext_iff {r : Result} (h : isNext r = true) : ∃ t, r = .next t := by
  cases r with
  | next t => exact ⟨t, rfl⟩
  | fault f => cases h
  | refused f => cases h

theorem witness_EncodeOfDecode : ∃ i, decode (f0Words ++ [0#32]) = .ok i := ⟨commandOf f0Words, by decide +kernel⟩

theorem witness_ReservedOpcodesRefused :
    ([0x00#32, 0x06#32, 0x10#32, 0x16#32, 0x20#32, 0x24#32, 0xFF#32].map (fun w => (w.extractLsb' 0 8).toNat)) =
      [0x00, 0x06, 0x10, 0x16, 0x20, 0x24, 0xFF] := by decide +kernel

/-- The state that `withFetchWord` makes of the reset state and P1's words, and of a validator's. -/
def f0Fetched : State := placeCommand f0Words State.reset
def v0Fetched : State := placeCommand (withOpcode 0x00010011#32 f0Words) State.reset

theorem witness_StepRunsTheCommand :
    (f0Fetched.sched = [.execute 0] ∧ executable f0Fetched 0 = some ⟨0, some 0, 0x1000#32⟩ ∧
      decode (getInst f0Fetched 0).op.words = .ok (.procF0 f0Desc)) ∧
    (v0Fetched.sched = [.validate 0] ∧ validatable v0Fetched 0 = some ⟨0, none, 0x1000#32⟩ ∧
      decode (getPort v0Fetched 0).snap.words = .ok (.valF0 f0Desc)) := by decide +kernel

/-- The hypotheses of a completion statement: the caller exists, DMEM is well formed, and the command's values come
out as computed. -/
def Ready (i : Instr) (s : State) : Prop := CallerExists s ∧ Memory.wf s.dmem = true ∧ Undisturbed i s

theorem ready_of {i : Instr} {s : State}
    (h : decide (s.cur.caller < s.ports.length) && Memory.wf s.dmem &&
      (ownTaint (footprint s.cur.desc i) s == .clean) = true) : Ready i s := by
  simp only [Bool.and_eq_true, decide_eq_true_eq, beq_iff_eq] at h
  exact ⟨h.1.1, h.1.2, h.2⟩

theorem vector_legal : ParamsLegal vectorParams := by
  refine ⟨?_, ⟨by decide +kernel, by decide +kernel, by decide +kernel, nofun, by decide +kernel, by decide +kernel⟩,
    ⟨by decide +kernel, ?_, by decide +kernel⟩, nofun⟩
  · unfold ParamRanges
    decide +kernel
  · have h : vectorParams.llrThr.all (fun t => decide (0 < t.toNat) && decide (t.toNat ≤ 0x7F800000)) = true := by
      decide +kernel
    intro t ht
    simpa using List.all_eq_true.1 h t ht

theorem realOf_of {x : F32} {q : Rat} (h : f32Rat x = q) : realOf x = q := by rw [realOf, h]

theorem complexOf_of {z : C64} {a b : Rat} (hr : f32Rat z.re = a) (hi : f32Rat z.im = b) :
    complexOf z = ⟨(a : ℝ), (b : ℝ)⟩ := by rw [complexOf, realOf_of hr, realOf_of hi]

/-- A value that binary32 holds exactly is within every error bound. -/
theorem held_exactly {tol : Rat} {z : C64} {q : ℂ} {scale : ℝ} (ht : 0 ≤ tol) (hs : 0 ≤ scale)
    (hf : c64Finite z = true) (hq : complexOf z = q) : ComplexHeld tol q scale := by
  refine ⟨z, hf, ?_⟩
  rw [hq, sub_self, norm_zero]
  exact mul_nonneg (by exact_mod_cast ht) hs

def one : F32 := 0x3F800000#32

/-- An element of one port whose channel is 1 and whose noise variance is 0.5: the symbol is the sample. -/
theorem unit_element {r : Element} (hp : r.ports = 1) (hh : r.h 0 = ⟨one, 0#32⟩) (hn : r.nv 0 = 0x3F000000#32)
    (hy : c64Finite (r.y 0) = true) :
    r.bad = false ∧ r.finite = true ∧ r.symbol .zf 1 = complexOf (r.y 0) ∧
      r.symbolScale .zf 1 = ‖complexOf (r.y 0)‖ ∧ r.noise .zf 1 = 1 / 2 := by
  have hb : r.bad = false := by
    simp only [Element.bad, hp, List.range_one, List.any_cons, List.any_nil, hh, hn]
    decide
  have hc : complexOf (⟨one, 0#32⟩ : C64) = 1 := by
    rw [complexOf_of (a := 1) (b := 0) (by decide +kernel) (by decide +kernel)]
    simp [Complex.ext_iff]
  have hv : realOf 0x3F000000#32 = 1 / 2 := by
    rw [realOf_of (q := 1 / 2) (by decide +kernel)]
    norm_num
  refine ⟨hb, by simp [Element.finite, hp, hy], ?_, ?_, ?_⟩ <;>
    simp [Element.symbol, Element.symbolScale, Element.noise, Element.denominator, Element.gain, Element.matched,
      Element.matchedScale, hb, hp, hh, hn, hc, hv]

/-- `1/sqrt(12)` is within its error bound of a binary32 value. -/
theorem twelfth_held : ComplexHeld (1 / 100000) ((1 / Real.sqrt 12 : ℝ) : ℂ) (1 / Real.sqrt 12) := by
  have h12 : (0 : ℝ) ≤ 12 := by norm_num
  have lo : (3.4641 : ℝ) < Real.sqrt 12 := Real.lt_sqrt_of_sq_lt (by norm_num)
  have hi : Real.sqrt 12 < (3.4642 : ℝ) := (Real.sqrt_lt' (by norm_num)).2 (by norm_num)
  have e : 1 / Real.sqrt 12 = Real.sqrt 12 / 12 := by
    rw [div_eq_div_iff (by positivity) (by norm_num), one_mul, Real.mul_self_sqrt h12]
  refine ⟨⟨0x3E93CD3A#32, 0#32⟩, by decide +kernel, ?_⟩
  rw [complexOf_of (a := 4843165 / 16777216) (b := 0) (by decide +kernel) (by decide +kernel)]
  have : (⟨((4843165 / 16777216 : Rat) : ℝ), ((0 : Rat) : ℝ)⟩ : ℂ) - ((1 / Real.sqrt 12 : ℝ) : ℂ) =
      ((4843165 / 16777216 - 1 / Real.sqrt 12 : ℝ) : ℂ) := by
    apply Complex.ext <;> simp
  rw [this, Complex.norm_real, Real.norm_eq_abs, abs_le, e]
  push_cast
  have : Real.sqrt 12 * Real.sqrt 12 = 12 := Real.mul_self_sqrt h12
  constructor <;> nlinarith

/-- The placed commands run with the parameters of the vectors. -/
theorem params_of (ws : List Word) (s : State) (h : s.params = (running ws).params) : s.params = vectorParams := by
  rw [h]
  unfold running placeCommand
  dsimp only
  split
  · split <;> rfl
  · rfl

theorem running_params (ws : List Word) (s : State) (h : s.params = (running ws).params) : ParamsLegal s.params := by
  rw [params_of ws s h]
  exact vector_legal

theorem running_tol (ws : List Word) (s : State) (h : s.params = (running ws).params) :
    s.params.tol = 1 / 100000 := by
  rw [params_of ws s h]
  rfl

/-- Every sample of an allocation meets a condition. -/
def samplesAll (d : PucchDesc) (s : State) (ok : Nat → Nat → Nat → C64 → Bool) : Bool :=
  (List.range d.nofSym.toNat).all (fun i => (List.range d.nofPorts.toNat).all (fun p => (List.range 12).all (fun k =>
    ok i p k (sampleAt d s i p k))))

theorem samples_of {d : PucchDesc} {s : State} {ok : Nat → Nat → Nat → C64 → Bool} (h : samplesAll d s ok = true) :
    ∀ i p k, i < d.nofSym.toNat → p < d.nofPorts.toNat → k < 12 → ok i p k (sampleAt d s i p k) = true := by
  intro i p k hi hp hk
  simp only [samplesAll, List.all_eq_true, List.mem_range] at h
  exact h i hi p hp k hk

/-- A grid of port 0 at handle 0, given by its samples: symbol, subcarrier, parts. -/
def litBy (samples : List (Nat × Nat × F32 × F32)) (s : State) : State :=
  { s with grid := samples.map (fun e => (gridKey 0#32 0 e.1 e.2.1, ⟨e.2.2.1, e.2.2.2⟩)) }

theorem witness_ProcF0Completes :
    Ready (.procF0 f0Desc) (running f0Words) ∧ stageB .f0 f0Desc (running f0Words) = none :=
  ⟨ready_of (by decide +kernel), by decide +kernel⟩

/-- Three entries, with 0, 1 and 2 HARQ bits. -/
theorem witness_ProcF1Completes :
    Ready (.procF1 f1Desc) f1State ∧ stageB .f1 f1Desc f1State = none ∧
      (memWords f1State.dmem 0x1100 3).map muxHarq = [0, 1, 2] ∧ f1Desc.bufLen.toNat = 3 :=
  ⟨ready_of (by decide +kernel), by decide +kernel⟩

/-- The descriptor of words. -/
def descOf (ws : List Word) : PucchDesc :=
  match commandOf ws with
  | .procF0 d | .procF1 d | .procF2 d | .procF3 d | .procF4 d => d
  | .valF0 d | .valF1 d | .valF2 d | .valF3 d | .valF4 d => d
  | _ => default

/-- An estimate whose noise variance of port 0 is good, beside the one of all zeros, whose is bad. -/
def goodChest : Chest := ⟨[⟨0, 0, 0, ⟨0x3F800000#32, 0#32⟩⟩], [0x3F000000#32], 0#32, 0#32, 0#32, true, 5#32⟩

theorem witness_ProcF2Completes :
    Ready (.procF2 (descOf f2Words)) (running f2Words) ∧ stageB .f2 (descOf f2Words) (running f2Words) = none ∧
      goodNv (chNv (chEst (running f2Words) (encode (.procF2 (descOf f2Words)))) 0) = false ∧
      goodNv (chNv goodChest 0) = true :=
  ⟨ready_of (by decide +kernel), by decide +kernel⟩
theorem witness_ProcF3Completes :
    Ready (.procF3 (descOf f3Words)) (running f3Words) ∧ stageB .f3 (descOf f3Words) (running f3Words) = none ∧
      goodNv (chNv (chEst (running f3Words) (encode (.procF3 (descOf f3Words)))) 0) = false :=
  ⟨ready_of (by decide +kernel), by decide +kernel⟩
theorem witness_ProcF4Completes :
    Ready (.procF4 (descOf f4Words)) (running f4Words) ∧ stageB .f4 (descOf f4Words) (running f4Words) = none ∧
      goodNv (chNv (chEst (running f4Words) (encode (.procF4 (descOf f4Words)))) 0) = false :=
  ⟨ready_of (by decide +kernel), by decide +kernel⟩

/-- Each format accepted, and Format 0 rejected. -/
theorem witness_ValidatorsComplete :
    (Ready (.valF0 f0Desc) (running f0Words) ∧ stageB .f0 f0Desc (running f0Words) = none) ∧
    (Ready (.valF0 { f0Desc with srOpp := 0 }) (running f0Words) ∧
      stageB .f0 { f0Desc with srOpp := 0 } (running f0Words) = some .f0TableUnsupported) ∧
    (Ready (.valF1 f1Desc) f1State ∧ stageB .f1 f1Desc f1State = none) ∧
    (Ready (.valF2 (descOf f2Words)) (running f2Words) ∧ stageB .f2 (descOf f2Words) (running f2Words) = none) ∧
    (Ready (.valF3 (descOf f3Words)) (running f3Words) ∧ stageB .f3 (descOf f3Words) (running f3Words) = none) ∧
    (Ready (.valF4 (descOf f4Words)) (running f4Words) ∧ stageB .f4 (descOf f4Words) (running f4Words) = none) ∧
    f0Desc.resAddr.toNat + 8 ≤ (running f0Words).params.dmemSize :=
  ⟨⟨ready_of (by decide +kernel), by decide +kernel⟩, ⟨ready_of (by decide +kernel), by decide +kernel⟩,
    ⟨ready_of (by decide +kernel), by decide +kernel⟩, ⟨ready_of (by decide +kernel), by decide +kernel⟩,
    ⟨ready_of (by decide +kernel), by decide +kernel⟩, ⟨ready_of (by decide +kernel), by decide +kernel⟩,
    by decide +kernel⟩

def symDesc : DeprecodeDesc := ⟨4, 0x2004, 0x3200, 0x3300, 12, 12⟩

/-- An input of zeros; and one whose first sample is 1, every output of which is `1/sqrt(12)`. -/
theorem witness_DeprecodeSymCompletes :
    (Ready (.deprecodeSym symDesc) (running symWords) ∧ ParamsLegal (running symWords).params ∧
      symDesc.resAddr.toNat + 4 ≤ (running symWords).params.dmemSize ∧
      checkDeprecodeSym symDesc (running symWords).params = none ∧
      ∀ k, k < 12 → c64IsZero (memC64 (running symWords).dmem (symDesc.inAddr.toNat + 8 * k)) = true) ∧
    (let s := withWords 0x3200 [one] (running symWords)
      let x (k : Nat) : C64 := memC64 s.dmem (symDesc.inAddr.toNat + 8 * k)
      (∀ k, k < 12 → c64Finite (x k) = true) ∧
      ∀ m : Nat, ComplexHeld s.params.tol
        ((1 / Real.sqrt 12 : ℝ) *
          ∑ k ∈ Finset.range 12, complexOf (x k) * Complex.exp (2 * Real.pi * Complex.I * m * k / 12))
        (1 / Real.sqrt 12 * ∑ k ∈ Finset.range 12, ‖complexOf (x k)‖)) := by
  refine ⟨⟨ready_of (by decide +kernel), running_params symWords _ rfl, by decide +kernel, by decide +kernel,
    by decide +kernel⟩, by decide +kernel, fun m => ?_⟩
  dsimp only
  have hx : ∀ k, k < 12 → memC64 (withWords 0x3200 [one] (running symWords)).dmem (symDesc.inAddr.toNat + 8 * k) =
      if k = 0 then ⟨one, 0#32⟩ else ⟨0#32, 0#32⟩ := by decide +kernel
  have val (k : Nat) (hk : k < 12) :
      complexOf (memC64 (withWords 0x3200 [one] (running symWords)).dmem (symDesc.inAddr.toNat + 8 * k)) =
        if k = 0 then 1 else 0 := by
    rw [hx k hk]
    split
    · rw [complexOf_of (a := 1) (b := 0) (by decide +kernel) (by decide +kernel)]
      simp [Complex.ext_iff]
    · rw [complexOf_of (a := 0) (b := 0) (by decide +kernel) (by decide +kernel)]
      simp [Complex.ext_iff]
  rw [running_tol symWords (withWords 0x3200 [one] (running symWords)) rfl,
    Finset.sum_eq_single_of_mem 0 (Finset.mem_range.2 (by omega)), Finset.sum_eq_single_of_mem 0 (Finset.mem_range.2 (by omega)), val 0 (by omega)]
  · simpa using twelfth_held
  · intro k hk h0
    rw [val k (Finset.mem_range.1 hk), if_neg h0, norm_zero]
  · intro k hk h0
    rw [val k (Finset.mem_range.1 hk), if_neg h0, zero_mul]

def noiseDesc : DeprecodeDesc := ⟨3, 0x2000, 0x3000, 0x3100, 3, 3⟩

/-- The inputs 0.5, -0.0 and 1.5: two good entries and a bad one; the mean is 1. -/
def meanState : State := withWords 0x3000 [0x3F000000#32, 0x80000000#32, 0x3FC00000#32] (running noiseWords)

theorem witness_DeprecodeNoiseCompletes :
    (Ready (.deprecodeNoise noiseDesc) meanState ∧ noiseDesc.resAddr.toNat + 4 ≤ meanState.params.dmemSize ∧
      checkDeprecodeNoise noiseDesc meanState.params = none) ∧
    (memWords meanState.dmem 0x3000 3).map goodNv = [true, false, true] ∧
    (let rule : Admitted := .goodWithin (1 - meanState.params.tol * 1) (1 + meanState.params.tol * 1)
     ∃ x, admits rule x = true) :=
  ⟨⟨ready_of (by decide +kernel), by decide +kernel⟩, by decide +kernel, one, by decide +kernel⟩

/-- Element `n` of the two of `eqState`. -/
def eqElement (n : Nat) : Element where
  ports := eqDesc.nofPorts.toNat
  y p   := memC64 eqState.dmem (eqDesc.rxAddr.toNat + 8 * (p * eqDesc.nofRe.toNat + n))
  h p   := memC64 eqState.dmem (eqDesc.chAddr.toNat + 8 * (p * eqDesc.nofRe.toNat + n))
  nv p  := memWord eqState.dmem (eqDesc.nvAddr.toNat + 4 * p)

/-- Element 0 is bad; element 1 is good, with gain 3, symbol 1 and noise variance 1/3. -/
theorem witness_EqualizeCompletes :
    (Ready (.equalize eqDesc) eqState ∧ ParamsLegal eqState.params ∧ eqState.params.eqAlgo = .zf ∧
      eqDesc.resAddr.toNat + 4 ≤ eqState.params.dmemSize ∧ checkEqualize eqDesc eqState.params = none ∧
      realOf eqDesc.scaling = 1 ∧ eqDesc.nofRe.toNat = 2) ∧
    (eqElement 0).bad = true ∧ (eqElement 1).bad = false ∧ (eqElement 1).finite = true ∧
    RealHeld eqState.params.tol ((eqElement 1).noise .zf 1) ((eqElement 1).noise .zf 1) ∧
    ComplexHeld eqState.params.tol ((eqElement 1).symbol .zf 1) ((eqElement 1).symbolScale .zf 1) := by
  have tol : eqState.params.tol = 1 / 100000 := running_tol eqWords _ rfl
  have c1 : complexOf (⟨one, 0#32⟩ : C64) = 1 := by
    rw [complexOf_of (a := 1) (b := 0) (by decide +kernel) (by decide +kernel)]
    simp [Complex.ext_iff]
  have ports : (eqElement 1).ports = 2 := by decide +kernel
  have y : ∀ p, p < 2 → (eqElement 1).y p = ⟨one, 0#32⟩ := by decide +kernel
  have h : ∀ p, p < 2 → (eqElement 1).h p = ⟨one, 0#32⟩ := by decide +kernel
  have nv0 : realOf ((eqElement 1).nv 0) = 1 / 2 := by
    rw [realOf_of (q := 1 / 2) (by decide +kernel)]
    norm_num
  have nv1 : realOf ((eqElement 1).nv 1) = 1 := by
    rw [realOf_of (q := 1) (by decide +kernel)]
    norm_num
  have good : (eqElement 1).bad = false := by decide +kernel
  have gain : (eqElement 1).gain = 3 := by
    simp [Element.gain, ports, Finset.sum_range_succ, h, c1, nv0, nv1]
    norm_num
  have noise : (eqElement 1).noise .zf 1 = 1 / 3 := by simp [Element.noise, Element.denominator, gain]
  have symbol : (eqElement 1).symbol .zf 1 = 1 := by
    simp [Element.symbol, good, Element.denominator, gain, Element.matched, ports, Finset.sum_range_succ, h, y, c1, nv0,
      nv1]
    norm_num
  have scale : (eqElement 1).symbolScale .zf 1 = 1 := by
    simp [Element.symbolScale, good, Element.denominator, gain, Element.matchedScale, ports, Finset.sum_range_succ,
        h, y,
      c1, nv0, nv1]
    norm_num
  refine ⟨⟨ready_of (by decide +kernel), running_params eqWords _ rfl, by decide +kernel, by decide +kernel,
    by decide +kernel, ?_, by decide +kernel⟩, by decide +kernel, good, by decide +kernel, ?_, ?_⟩
  · rw [realOf_of (q := 1) (by decide +kernel)]
    norm_num
  · refine ⟨0x3EAAAAAB#32, by decide +kernel, ?_⟩
    rw [realOf_of (q := 11184811 / 33554432) (by decide +kernel), noise, tol, abs_le]
    norm_num
  · rw [symbol, scale]
    exact held_exactly (by rw [tol]; norm_num) zero_le_one (by decide +kernel) c1

/-- The twelve checks of stage B, each the first to fail, at a boundary of its range, and none failing. -/
theorem witness_StageBChecksInOrder :
    stageB .f0 { f0Desc with rsv6 := 1, nofSym := 0 } (running f0Words) = some .reservedNonzero ∧
    stageB .f0 { f0Desc with nofSym := 3, startPrb := 275 } (running f0Words) = some .symbolRange ∧
    stageB .f1 { f1Desc with startSym := 11 } f1State = some .symbolRange ∧
    stageB .f0 { f0Desc with startPrb := 275 } (running f0Words) = some .prbRange ∧
    stageB .f0 { f0Desc with nofPorts := 2, portList := 0 } (running f0Words) = some .portInvalid ∧
    stageB .f0 { f0Desc with portList := 2 } (running f0Words) = some .portInvalid ∧
    stageB .f0 { f0Desc with slotIdx := 10 } (running f0Words) = some .fieldRange ∧
    stageB .f0 { f0Desc with startPrb := 25 } (running f0Words) = some .gridBounds ∧
    stageB .f1 { f1Desc with bufAddr := 0x1102 } f1State = some .misaligned ∧
    stageB .f0 { f0Desc with resAddr := 0xFFE4 } (running f0Words) = some .memBounds ∧
    stageB .f1 { f1Desc with bufLen := 85 } f1State = some .muxInvalid ∧
    stageB .f0 { f0Desc with srOpp := 0 } (running f0Words) = some .f0TableUnsupported ∧
    stageB .f0 { f0Desc with nofSym := 2 } (running f0Words) = some .thresholdUndefined ∧
    stageB .f2 { descOf f2Words with bufLen := 15 } (running f2Words) = some .bufferLength ∧
    stageB .f0 { f0Desc with startPrb := 24, startSym := 13 } (running f0Words) = none := by decide +kernel

/-- The checks of the deprecoders, each the first to fail, and none failing. -/
theorem witness_DeprecodeChecksInOrder :
    checkDeprecodeSym { symDesc with inAddr := 0x3002 } vectorParams = some .misaligned ∧
    checkDeprecodeSym { symDesc with inAddr := 0xFFA4 } vectorParams = some .memBounds ∧
    checkDeprecodeSym { symDesc with outLen := 24 } vectorParams = some .bufferLength ∧
    checkDeprecodeSym { symDesc with inLen := 3300, outLen := 3300, outAddr := 0x9800 } vectorParams =
      some .deprecodeSize ∧
    checkDeprecodeSym { symDesc with inLen := 3240, outLen := 3240, outAddr := 0x9800 } vectorParams = none ∧
    checkDeprecodeNoise { noiseDesc with outAddr := 0x3101 } vectorParams = some .misaligned ∧
    checkDeprecodeNoise { noiseDesc with outAddr := 0xFFF8 } vectorParams = some .memBounds ∧
    checkDeprecodeNoise { noiseDesc with outLen := 6 } vectorParams = some .bufferLength ∧
    checkDeprecodeNoise noiseDesc vectorParams = none := by decide +kernel

/-- The checks of `EQUALIZE`, each the first to fail, and none failing. -/
theorem witness_EqualizeChecksInOrder :
    eqState.bstate = .run ∧ Memory.wf eqState.dmem = true ∧ eqState.params = vectorParams ∧
    checkEqualize { eqDesc with rsv7 := 1, nofLayers := 0 } vectorParams = some .reservedNonzero ∧
    checkEqualize { eqDesc with nofPorts := 3 } vectorParams = some .portInvalid ∧
    checkEqualize { eqDesc with nofLayers := 2 } vectorParams = some .layersUnsupported ∧
    checkEqualize { eqDesc with scaling := 0x7F800000 } vectorParams = some .scalingInvalid ∧
    checkEqualize { eqDesc with rxAddr := 0x3402 } vectorParams = some .misaligned ∧
    checkEqualize { eqDesc with onvAddr := 0xFFFC } vectorParams = some .memBounds ∧
    checkEqualize eqDesc vectorParams = none := by decide +kernel

theorem witness_ProcChecksTrap :
    (running f0Words).bstate = .run ∧ Memory.wf (running f0Words).dmem = true ∧
    stageB .f0 { f0Desc with nofSym := 0 } (running f0Words) = some .symbolRange := by decide +kernel

theorem witness_ComponentChecksTrap :
    (running symWords).bstate = .run ∧ Memory.wf (running symWords).dmem = true ∧
    checkDeprecodeSym { symDesc with inAddr := 2 } (running symWords).params = some .misaligned ∧
    checkDeprecodeNoise { noiseDesc with inAddr := 2 } (running symWords).params = some .misaligned ∧
    checkEqualize { eqDesc with rxAddr := 2 } (running symWords).params = some .misaligned := by decide +kernel

theorem witness_ValidatorAgreesWithProcessor :
    Ready (.valF0 f0Desc) (running f0Words) ∧ (running f0Words).bstate = .run ∧
      f0Desc.resAddr.toNat + 8 ≤ (running f0Words).params.dmemSize ∧
      stageB .f0 f0Desc (running f0Words) = none ∧
      stageB .f0 { f0Desc with nofSym := 0 } (running f0Words) = some .symbolRange :=
  ⟨ready_of (by decide +kernel), by decide +kernel⟩

/-- The checks before B12 pass in each format, and the count is 16, 72 or 36; with 15 LLRs a running block faults. -/
theorem witness_LlrCountsAgree :
    ([(Fmt.f2, descOf f2Words, 16), (Fmt.f3, descOf f3Words, 72), (Fmt.f4, descOf f4Words, 36)].all (fun e =>
      !failB1 e.2.1 && !failB2 e.1 e.2.1 && !failB3 e.1 e.2.1 && !failB4 vectorParams e.2.1 && !failB5 e.1 e.2.1 &&
      !failB6 e.1 vectorParams e.2.1 && !failB8 e.1 vectorParams e.2.1 && decide (llrCount e.1 e.2.1 = e.2.2))) =
      true ∧
    (running f2Words).bstate = .run ∧ (running f2Words).params = vectorParams ∧
    failB8 .f2 vectorParams { descOf f2Words with bufLen := 15 } = false ∧
    stageB .f2 { descOf f2Words with bufLen := 15 } (running f2Words) = some .bufferLength := by decide +kernel

/-- A block that P1 with `NOF_SYM = 3` has faulted. -/
def faultedState : State := faultEntry .symbolRange 0x00010001#32 0 0 0x1000#32 (running f0Words)

theorem witness_OnlyResetLeavesFaulted :
    faultedState.bstate = .faulted ∧
    isNext (step { faultedState with sched := [.regRead 4] }) = true ∧
    isNext (step { faultedState with sched := [.regWrite 0x014 1#32] }) = true ∧
    isNext (step { faultedState with sched := [.powerOn []] }) = true := by decide +kernel

theorem witness_FaultedBlockRunsNothing :
    faultedState.bstate = .faulted ∧ faultedState.sched = [] ∧
    [[Event.dispatch 0 0], [Event.validate 0], [Event.execute 0]].map (fun e => ({ faultedState with sched :=
        e }).sched)
      = [[.dispatch 0 0], [.validate 0], [.execute 0]] := by decide +kernel

/-- An idle port; a busy port of a running block; a busy port of a faulted block; the last port. -/
theorem witness_CallStart :
    (getPort (running f0Words) 1).call = .idle ∧ 1 < (running f0Words).ports.length ∧
    (getPort (running f0Words) 0).call ≠ .idle ∧ (running f0Words).bstate = .run ∧
    (getPort faultedState 0).call ≠ .idle ∧ faultedState.bstate = .faulted := by decide +kernel

/-- After reset, with words at 0x1000 and a call of port 0 pending at an address. -/
def pending (d : Word) (ws : List Word) : State :=
  setPort 0 ⟨d, .pending d, Operands.unset, Disturb.none⟩ (withWords 0x1000 ws State.reset)

/-- Stage A of port 0's call. -/
def stageAOf (s : State) (d : Word) : StageA := stageA s.params.dmemSize (seenByte s 0) d

/-- Checks A1 to A7 fail one by one, and a call that passes them (95_test_vectors.md section 2.1). -/
theorem witness_StageAFaults :
    (pending 0x1002#32 []).bstate = .run ∧ (getPort (pending 0x1002#32 []) 0).call = .pending 0x1002#32 ∧
    stageAOf (pending 0x1002#32 []) 0x1002#32 = .fault .misaligned 0#32 ∧
    stageAOf (pending 0x10000#32 []) 0x10000#32 = .fault .memBounds 0#32 ∧
    stageAOf (pending 0x1000#32 [0x00070006#32]) 0x1000#32 = .fault .illegalOpcode 0x00070006#32 ∧
    stageAOf (pending 0x1000#32 [0x00000101#32]) 0x1000#32 = .fault .reservedNonzero 0x00000101#32 ∧
    stageAOf (withWords 0xFFFC [1#32] (pending 0xFFFC#32 [])) 0xFFFC#32 = .fault .memBounds 1#32 ∧
    stageAOf (pending 0x1000#32 [0x00000022#32, 0x2002#32]) 0x1000#32 = .fault .misaligned 0x22#32 ∧
    stageAOf (pending 0x1000#32 [0x00000011#32, 0xFFFC#32]) 0x1000#32 = .fault .memBounds 0x11#32 ∧
    stageAOf (pending 0x1000#32 symWords) 0x1000#32 = .pass symWords (.deprecodeSym symDesc) := by decide +kernel

def f0Pending : State := pending 0x1000#32 f0Words

theorem witness_DispatchLeasesAFreeInstance :
    0 < f0Pending.ports.length ∧ f0Pending.bstate = .run ∧ (getPort f0Pending 0).call = .pending 0x1000#32 ∧
    stageAOf f0Pending 0x1000#32 = .pass f0Words (.procF0 f0Desc) ∧
    opcodeIsVal (instrOpcode (.procF0 f0Desc)) = false ∧ freeInsts f0Pending = [0] := by decide +kernel

def v0Words : List Word := withOpcode 0x00010011#32 f0Words

theorem witness_ValidatorTakesNoLease :
    (getPort (pending 0x1000#32 v0Words) 0).call = .pending 0x1000#32 ∧ (pending 0x1000#32 v0Words).bstate = .run ∧
    stageAOf (pending 0x1000#32 v0Words) 0x1000#32 = .pass v0Words (.valF0 f0Desc) ∧
    opcodeIsVal (instrOpcode (.valF0 f0Desc)) = true := by decide +kernel

/-- Port 0 runs on the only instance while port 1's call, with its record at 0x2800, is pending. -/
def fullState : State :=
  setPort 1 ⟨0x1800#32, .pending 0x1800#32, Operands.unset, Disturb.none⟩
    (withWords 0x1800 [0x000B0022#32, 0x2800#32, 0x3000#32, 0x3100#32, 0#32] (running f0Words))

theorem witness_ExhaustedPoolWritesTheHeader :
    1 < fullState.ports.length ∧ fullState.bstate = .run ∧ Memory.wf fullState.dmem = true ∧
    (getPort fullState 1).call = .pending 0x1800#32 ∧ freeInsts fullState = [] ∧
    stageA fullState.params.dmemSize (seenByte fullState 1) 0x1800#32 =
      .pass [0x000B0022#32, 0x2800#32, 0x3000#32, 0x3100#32, 0#32]
        (.deprecodeNoise ⟨0xB, 0x2800, 0x3000, 0x3100, 0, 0⟩) ∧
    ownTaint (exhaustedFootprint 0x1800#32 (.deprecodeNoise ⟨0xB, 0x2800, 0x3000, 0x3100, 0, 0⟩))
      { fullState with cur := ⟨1, none, 0x1800#32⟩ } ≠ .outputs ∧
    wordsAfter 0x2800 1 (dispatch 1 0 fullState) = [0x000B2201#32] := by decide +kernel

/-- Port 1's call, started and not yet dispatched, outputs the mux list that port 0's command reads: its values are draws
(20_memory.md R51, 70_reset_and_hazards.md R160). -/
theorem test_pendingOutputs :
    ([0x1100#32, 0x110C#32].map (fun out =>
      let s := setPort 1 ⟨0x1800#32, .pending 0x1800#32, Operands.unset, Disturb.none⟩
        (withWords 0x1800 [0x000B0022#32, 0x2800#32, 0x3000#32, out, 0x00010001#32] f1State)
      ownTaint (footprint s.cur.desc (.procF1 f1Desc)) s)) = [.inputs, .clean] := by decide +kernel

/-- An ideal `sigma2` of 0 and a `num` that may be 0 admit all of `[0, +inf]`, whatever the scale of `sigma2`
(44_format1.md R108, R110). -/
theorem test_metricOfZeroNoise (scale lo : Rat) :
    f1MetricAdmitted (1 / 100000) 1 ⟨lo, 1⟩ 1 false ⟨⟨0, 0⟩, scale, true⟩ = .nonneg := by
  simp [f1MetricAdmitted]

/-- A faulted block and a running one; a write of `CTRL`, and a power-on that lists one address twice, the last address
of DMEM and one beyond it. -/
theorem witness_ResetLeaves :
    ({ faultedState with sched := [.regWrite 0x014 1#32] }).sched = [.regWrite 0x014 1#32] ∧
    (1#32).getLsbD 0 = true ∧ Memory.wf faultedState.dmem = true ∧ faultedState.bstate = .faulted ∧
    (let bytes : List (Nat × Byte) := [(4, 1#8), (0xFFFF, 7#8), (4, 9#8), (0x10000, 3#8)]
      let s := { running f0Words with sched := [.powerOn bytes] }
      s.sched = [.powerOn bytes] ∧ Memory.wf s.dmem = true ∧ s.bstate = .run ∧ s.params.dmemSize = 0x10000 ∧
      (bytes = [(4, 1#8), (0xFFFF, 7#8)] ++ (4, 9#8) :: [(0x10000, 3#8)] ∧ ∀ e ∈ [(0x10000, 3#8)], e.1 ≠ 4) ∧
      (bytes = [(4, 1#8)] ++ (0xFFFF, 7#8) :: [(4, 9#8), (0x10000, 3#8)] ∧
        ∀ e ∈ [(4, 9#8), (0x10000, 3#8)], e.1 ≠ 0xFFFF) ∧
      (∀ e ∈ bytes, e.1 ≠ 0 ∧ e.1 ≠ 0xFFFE) ∧
      look [] (fun t => [0, 4, 0xFFFE, 0xFFFF].map (memByte t.dmem)) (step s) = [0#8, 9#8, 0#8, 7#8]) := by
  decide +kernel

/-- The parameters of the vectors are in range, and so they are with a DMEM of 2^32 bytes and an MMSE equalizer. -/
theorem witness_IdRegister :
    ParamRanges vectorParams ∧ ParamRanges { vectorParams with dmemSize := 2 ^ 32, eqAlgo := .mmse } ∧
    State.reset.params = vectorParams ∧ vectorParams.eqAlgo = .zf := by
  unfold ParamRanges
  decide +kernel

theorem witness_FaultRegisters : (running f0Words).bstate = .run ∧ (running f0Words).faultOk :=
  ⟨by decide +kernel, rfl, rfl, rfl⟩

/-- The last port, idle, and port 0, busy. -/
theorem witness_CallRegisters :
    1 < (running f0Words).ports.length ∧ readReg (running f0Words) 0x10C = 0#32 ∧
    readReg (running f0Words) 0x104 = 1#32 := by decide +kernel

theorem witness_StatusRegister :
    State.reset.insts.length ≤ 16 ∧ readReg (running f0Words) 0x004 = 0x00010000#32 ∧
    readReg faultedState 0x004 = 0x00010001#32 := by decide +kernel

theorem witness_UnmappedRegisters :
    (0x020 ∉ [0x000, 0x004, 0x008, 0x00C, 0x010, 0x014, 0x018, 0x01C]) ∧
    (∀ c, c < State.reset.ports.length → 0x110 ≠ 0x100 + 8 * c ∧ 0x110 ≠ 0x104 + 8 * c) := by
  refine ⟨by decide, fun c hc => ?_⟩
  have : State.reset.ports.length = 2 := by decide
  omega

theorem reset_idle (c : Nat) : (getPort State.reset c).call = .idle := by
  match c with
  | 0 => rfl
  | 1 => rfl
  | n + 2 => rfl

theorem witness_HostReadsWhatItWrites :
    Memory.wf State.reset.dmem = true ∧ 0xFFFC + 4 ≤ State.reset.params.dmemSize ∧
    0xFFFF + 1 ≤ State.reset.params.dmemSize ∧
    ∀ c, (getPort State.reset c).call = .idle := ⟨by decide, by decide, by decide, reset_idle⟩

theorem witness_StepKeepsMemoryForm :
    Memory.wf f0Fetched.dmem = true ∧ f0Fetched.dmem ≠ [] ∧ isNext (step f0Fetched) = true := by decide +kernel

/-- The reset state with a call of port 0 pending: it meets the invariant, and the block can move. -/
def busyState : State := setPort 0 ⟨0x1000#32, .pending 0x1000#32, Operands.unset, Disturb.none⟩ State.reset

theorem busy_call (c : Nat) : (getPort busyState c).call = if c = 0 then .pending 0x1000#32 else .idle := by
  match c with
  | 0 => rfl
  | 1 => rfl
  | n + 2 => rfl

theorem busy_lease (k : Nat) : (getInst busyState k).lease = false := by
  match k with
  | 0 => rfl
  | n + 1 => rfl

theorem busy_inv : busyState.Inv := by
  have nr : ∀ c d k, (getPort busyState c).call ≠ .running d k := by
    intro c d k
    rw [busy_call]
    split <;> simp
  have nv : ∀ c d, (getPort busyState c).call ≠ .validating d := by
    intro c d
    rw [busy_call]
    split <;> simp
  constructor
  · exact ⟨by decide, by decide⟩
  · exact ⟨by decide, fun e he => by cases he⟩
  · exact ⟨rfl, rfl, rfl⟩
  · exact fun c d k _ h => absurd h (nr c d k)
  · intro k _ h
    rw [busy_lease] at h
    cases h
  · exact ⟨fun c d k _ h => absurd h (nr c d k), fun c d _ h => absurd h (nv c d)⟩

theorem witness_StepKeepsTheInvariant :
    busyState.Inv ∧ isNext (step { busyState with sched := [.dispatch 0 0] }) = true :=
  ⟨busy_inv, by decide +kernel⟩

theorem witness_AtMostKCallsRun : busyState.Inv := busy_inv

theorem witness_BusyBlockMakesProgress :
    busyState.Inv ∧ busyState.bstate = .run ∧ busyState.sched = [] ∧
    ∃ c, c < busyState.ports.length ∧ (getPort busyState c).call ≠ .idle :=
  ⟨busy_inv, rfl, rfl, 0, by decide +kernel⟩

/-- A run from reset in which the platform leaves P1's descriptor in DMEM, the host starts it, and the dispatcher
leases instance 0. -/
def leaseRun : List Event :=
  [.powerOn ((List.range 44).map (fun i => (0x1000 + i, (bytesOfWords f0Words).getD i 0#8))),
    .regWrite 0x100 0x1000#32, .dispatch 0 0]

theorem witness_LeaseInvariantInEveryRun :
    look (true, true, 0) (fun s => ((getInst s 0).lease, (getPort s 1).call == .idle, s.params.k))
      (Sys2Proof.core.run 3 { State.powerOn vectorParams with sched := leaseRun }) = (true, true, 1) ∧
    look true (fun s => (getInst s 0).lease)
      (Sys2Proof.core.run 2 { State.powerOn vectorParams with sched := leaseRun }) = false := by decide +kernel

theorem witness_ParametersAreConstant : isNext (step f0Fetched) = true := by decide +kernel

theorem witness_CommandsReadGridOnly : isNext (exec (.procF0 f0Desc) (running f0Words)) = true := by decide +kernel

/-- Two instances; the call of port 0 runs on instance 0, and instance 1 is free. -/
def twoInstances : State :=
  let s := State.powerOn { vectorParams with k := 2 }
  { placeCommand f0Words s with sched := [], cur := ⟨0, some 0, 0x1000#32⟩ }

theorem two_call (c : Nat) : (getPort twoInstances c).call = if c = 0 then .running 0x1000#32 0 else .idle := by
  match c with
  | 0 => decide +kernel
  | 1 => decide +kernel
  | n + 2 => rfl

theorem two_lease (k : Nat) : (getInst twoInstances k).lease = decide (k = 0) := by
  match k with
  | 0 => decide +kernel
  | 1 => decide +kernel
  | n + 2 => rfl

theorem two_inv : twoInstances.Inv := by
  constructor
  · exact ⟨by decide +kernel, by decide +kernel⟩
  · exact ⟨by decide +kernel, by decide +kernel⟩
  · exact ⟨rfl, rfl, rfl⟩
  · intro c d k _ h
    rw [two_call] at h
    split at h
    · rename_i hc
      cases h
      subst hc
      exact ⟨by decide +kernel, by decide +kernel, by decide +kernel⟩
    · cases h
  · intro k _ h
    rw [two_lease] at h
    have hk : k = 0 := by simpa using h
    subst hk
    exact ⟨by decide +kernel, 0x1000#32, by decide +kernel⟩
  · constructor
    · intro c d k _ h
      rw [two_call] at h
      split at h
      · cases h
        exact ⟨.procF0 f0Desc, by decide +kernel⟩
      · cases h
    · intro c d _ h
      rw [two_call] at h
      split at h <;> cases h

theorem witness_InstanceIsNotObservable :
    twoInstances.Inv ∧ 0 < twoInstances.ports.length ∧ (getPort twoInstances 0).call = .running 0x1000#32 0 ∧
    twoInstances.cur = ⟨0, some 0, 0x1000#32⟩ ∧ 1 < twoInstances.insts.length ∧
    (getInst twoInstances 1).lease = false ∧ isNext (exec (.procF0 f0Desc) twoInstances) = true ∧
    isNext (exec (.procF0 f0Desc) (onInstance 0 0x1000#32 0 1 twoInstances)) = true :=
  ⟨two_inv, by decide +kernel⟩

theorem witness_ScratchIsNotObservable : isNext (exec (.procF0 f0Desc) (running f0Words)) = true := by
  decide +kernel

/-- The ends of every clause: a number of contributions with no threshold, tables no key selects, the shortest and the
longest cover, and the last index of either spreading factor (95_test_vectors.md). -/
theorem witness_FormatOneThresholdsRise :
    (f1Thr 1 = some (9 / 10) ∧ f1Thr 8 = some (139 / 20) ∧ f1Thr 3 = none) ∧
    (f0Table 0 false = [] ∧ f0Table 3 true = []) ∧
    (f1OccRows 1 = [[0]] ∧ (f1OccRows 7).getD 6 [] = [0, 6, 5, 4, 3, 2, 1] ∧ f1OccPhase 3 2 2 = 1) ∧
    (f34DmrsSym 14 true true = [1, 5, 8, 12] ∧ f34DataSym 5 false false = [1, 2, 4]) ∧
    f4Occ 2 1 = [0, 0, 0, 0, 0, 0, 2, 2, 2, 2, 2, 2] ∧ f4Occ 4 3 = [0, 0, 0, 1, 1, 1, 2, 2, 2, 3, 3, 3] := by
  decide +kernel

/-- 4 and 14 symbols, without and with hopping; and an entry with `E_OCC = 2`, the limit of 4 symbols. -/
theorem witness_OccCount :
    [4, 14].all (fun n => decide (4 ≤ nofSym { f1Desc with nofSym := BitVec.ofNat 4 n }) &&
      decide (nofSym { f1Desc with nofSym := BitVec.ofNat 4 n } ≤ 14)) = true ∧
    hopEn f1Desc = false ∧ hopEn { f1Desc with hopEn := 1 } = true ∧
    (0 < nofHops f1Desc) ∧ 1 < nofHops { f1Desc with hopEn := 1 } ∧
    f1Nocc f1Desc ≤ muxOcc (wordAt (memByte (withWords 0x1100 [0x00010200#32] f1State).dmem)
      (f1Desc.bufAddr.toNat + 4 * 0)) ∧
    0 < f1Desc.bufLen.toNat := by decide +kernel

/-- A quantiser of two breakpoints, 0.5 and 1.5. -/
def smallQuantiser : Params := { vectorParams with llrThr := [0x3F000000#32, 0x3FC00000#32] }

theorem smallQuantiser_at {P : F32 → Prop} (h1 : P 0x3F000000#32) (h2 : P 0x3FC00000#32) :
    ∀ b ∈ smallQuantiser.llrThr, P b :=
  List.forall_mem_cons.2 ⟨h1, List.forall_mem_cons.2 ⟨h2, fun _ h => by cases h⟩⟩

/-- -1 and 1.5 are finite and in order; 1.5 is at every breakpoint. -/
theorem witness_QuantiserLaws :
    ParamQuantiser smallQuantiser ∧ (f32Finite 0xBF800000#32 = true ∧ f32Finite 0x3FC00000#32 = true ∧
      f32Rat 0xBF800000#32 ≤ f32Rat 0x3FC00000#32) ∧ f32IsZero 0x80000000#32 = true ∧
    ((0x3FC00000#32).msb = false ∧ ∀ b ∈ smallQuantiser.llrThr, b.toNat ≤ (0x3FC00000#32).toNat) :=
  ⟨⟨by decide +kernel, smallQuantiser_at (by decide +kernel) (by decide +kernel), by decide +kernel⟩,
    by decide +kernel, by decide +kernel, by decide +kernel, smallQuantiser_at (by decide +kernel) (by decide +kernel)⟩

theorem witness_LlrBytesInRange :
    ParamQuantiser { State.reset with params := smallQuantiser }.params ∧
    0#8 ∈ llrBytes f2Desc { State.reset with params := smallQuantiser } 2 [.unusable] :=
  ⟨witness_QuantiserLaws.1, by decide +kernel⟩

/-- Symbol 0 of the noise-free grid of candidate 0 at shift 0: twelve ones. -/
def onesState : State := litBy ((List.range 12).map (fun k => (0, k, one, 0#32))) (running f0Words)

/-- The zero grid, and the noise-free grid of the only candidate. -/
theorem witness_SilentFormatZero :
    (Ready (.procF0 f0Desc) (running f0Words) ∧ ParamsLegal (running f0Words).params ∧
      stageB .f0 f0Desc (running f0Words) = none ∧
      ∀ i p k, c64IsZero (sampleAt f0Desc (running f0Words) i p k) = true) ∧
    (Ready (.procF0 f0Desc) onesState ∧ ParamsLegal onesState.params ∧ stageB .f0 f0Desc onesState = none ∧
      f0Cands f0Desc = [⟨0, false, false, true⟩] ∧ onesState.params.paprTab = [] ∧
      (∀ i, i < f0Desc.nofSym.toNat →
        (f0Desc.initCs.toNat + 0 + (sequenceAt f0Desc onesState i).ncs.val) % 12 = 3 * 0) ∧
      ∀ i p k, i < f0Desc.nofSym.toNat → p < f0Desc.nofPorts.toNat → k < 12 →
        SampleIs (sampleAt f0Desc onesState i p k) 1 0) := by
  refine ⟨⟨ready_of (by decide +kernel), running_params f0Words _ rfl, by decide +kernel, fun i p k => rfl⟩,
    ready_of (by decide +kernel), running_params f0Words _ rfl, by decide +kernel, by decide +kernel, rfl,
    by decide +kernel, fun i p k hi hp hk => ?_⟩
  have h := samples_of (d := f0Desc) (s := onesState) (ok := fun _ _ _ z => z == ⟨one, 0#32⟩) (by decide +kernel) i p k
    hi hp hk
  rw [beq_iff_eq.1 h]
  exact ⟨by decide +kernel, by decide +kernel, by decide +kernel⟩

/-- The Format 0 state whose first `n` samples are 1, the others 0. -/
def someOnes (n : Nat) : State := litBy ((List.range n).map (fun k => (0, k, one, 0#32))) (running f0Words)

theorem someOnes_values {n : Nat} (hn : n = 4 ∨ n = 11) :
    candidatePower f0Desc (someOnes n) ⟨0, false, false, true⟩ = n ^ 2 / 12 ∧
      candidatePowerScale f0Desc (someOnes n) = n ^ 2 / 12 ∧ allocationEnergy f0Desc (someOnes n) = n := by
  have nums : f0Desc.nofSym.toNat = 1 ∧ f0Desc.nofPorts.toNat = 1 ∧ f0Desc.initCs.toNat = 0 := by decide +kernel
  have ncs : (sequenceAt f0Desc (someOnes n) 0).ncs = 0 := by rcases hn with rfl | rfl <;> decide +kernel
  have smp (k : Nat) (hk : k < 12) : complexOf (sampleAt f0Desc (someOnes n) 0 0 k) = if k < n then 1 else 0 := by
    have h := samples_of (d := f0Desc) (s := someOnes n) (ok := fun _ _ k z => z == ⟨if k < n then one else 0#32, 0#32⟩)
      (by rcases hn with rfl | rfl <;> decide +kernel) 0 0 k (by omega) (by omega) hk
    rw [beq_iff_eq.1 h]
    split
    · rw [complexOf_of (a := 1) (b := 0) (by decide +kernel) (by decide +kernel)]
      simp [Complex.ext_iff]
    · rw [complexOf_of (a := 0) (b := 0) (by decide +kernel) (by decide +kernel)]
      simp [Complex.ext_iff]
  have seq (k : Nat) : lowPaprValue (someOnes n).params (sequenceAt f0Desc (someOnes n) 0) 0 k = 1 := by
    have hp : (someOnes n).params.paprTab = [] := rfl
    simp [lowPaprValue, lowPapr, hp, UnitPhase.one, cbOf, ivOf, rootOf, Complex.ext_iff]
  have corr : correlation f0Desc (someOnes n) 0 0 0 = n := by
    unfold correlation
    dsimp only
    rw [ncs]
    rw [Finset.sum_congr rfl (fun k hk => by
      rw [smp k (Finset.mem_range.1 hk), show (0 + (0 : Fin 12).val) % 12 = 0 from rfl, seq, map_one, mul_one])]
    rcases hn with rfl | rfl <;> norm_num [Finset.sum_range_succ, -Finset.sum_boole]
  have amp : amplitude f0Desc (someOnes n) 0 0 = n := by
    unfold amplitude
    rw [Finset.sum_congr rfl (fun k hk => by rw [smp k (Finset.mem_range.1 hk)])]
    rcases hn with rfl | rfl <;> norm_num [Finset.sum_range_succ, -Finset.sum_boole]
  have ener : ∑ k ∈ Finset.range 12, ‖complexOf (sampleAt f0Desc (someOnes n) 0 0 k)‖ ^ 2 = n := by
    rw [Finset.sum_congr rfl (fun k hk => by rw [smp k (Finset.mem_range.1 hk)])]
    rcases hn with rfl | rfl <;> norm_num [Finset.sum_range_succ, -Finset.sum_boole]
  simp [candidatePower, candidatePowerScale, allocationEnergy, nums, corr, amp, ener]

/-- Eleven samples of 1 in twelve: the metric is 11, over its threshold of 1; four: the metric is 0.5, under it. -/
theorem witness_FormatZeroWinner :
    (∀ s, s = someOnes 4 ∨ s = someOnes 11 → Ready (.procF0 f0Desc) s ∧ ParamsLegal s.params ∧ ParamsExact s.params ∧
      stageB .f0 f0Desc s = none ∧ SamplesFinite f0Desc s ∧ f0Cands f0Desc = [⟨0, false, false, true⟩]) ∧
    (∀ n, n = 4 ∨ n = 11 → let s := someOnes n
      let power := candidatePower f0Desc s ⟨0, false, false, true⟩
      let scale := candidatePowerScale f0Desc s
      let energy := allocationEnergy f0Desc s
      let thr := realOf ((f0Thr s.params (f0Desc.nofPorts.toNat * f0Desc.nofSym.toNat)
          (f0Cands f0Desc).length).getD f32Zero)
      RatioClosed s.params.tol power scale (energy - power) (energy + power) ∧
        (n = 11 → thr < ratioLow s.params.tol power scale (energy - power) (energy + power)) ∧
        (n = 4 → ratioHigh s.params.tol power scale (energy - power) (energy + power) ≤ thr)) := by
  refine ⟨?_, ?_⟩
  · rintro s (rfl | rfl)
    all_goals exact ⟨ready_of (by decide +kernel), running_params f0Words _ rfl, nofun, by decide +kernel,
      samples_of (ok := fun _ _ _ z => c64Finite z) (by decide +kernel), by decide +kernel⟩
  · intro n hn s power scale energy thr
    obtain ⟨h1, h2, h3⟩ := someOnes_values hn
    have tol : s.params.tol = 1 / 100000 := running_tol f0Words _ rfl
    have one : thr = 1 := by
      show realOf ((f0Thr s.params _ _).getD f32Zero) = 1
      rw [params_of f0Words s rfl, realOf_of (q := 1) (by decide +kernel)]
      norm_num
    rw [show power = _ from h1, show scale = _ from h2, show energy = _ from h3, tol, one]
    rcases hn with rfl | rfl
    · refine ⟨⟨by norm_num [errorBound], 0x3F000000#32, by decide +kernel, ?_⟩, nofun, fun _ => ?_⟩
      · rw [realOf_of (q := 1 / 2) (by decide +kernel)]
        norm_num
      · norm_num [ratioHigh, errorBound]
    · refine ⟨⟨by norm_num [errorBound], 0x41300000#32, by decide +kernel, ?_⟩, fun _ => ?_, nofun⟩
      · rw [realOf_of (q := 11) (by decide +kernel)]
        norm_num
      · simp only [ratioLow, errorBound, lt_sub_iff_add_lt, lt_min_iff]
        norm_num

/-- A block whose only sample is its first: with base sequences of ones every correlation is that sample. -/
theorem correlation_first {d : PucchDesc} {s : State} {i p : Nat} (hp : s.params.paprTab = [])
    (h : ∀ k, k < 11 → complexOf (sampleAt d s i p (k + 1)) = 0) (t : Nat) :
    correlation d s i p t = complexOf (sampleAt d s i p 0) := by
  have h1 (q : SeqVal) (t : Nat) : lowPaprValue s.params q t 0 = 1 := by
    simp [lowPaprValue, lowPapr, hp, UnitPhase.one, cbOf, ivOf, rootOf, Complex.ext_iff]
  unfold correlation
  dsimp only
  rw [Finset.sum_range_succ', Finset.sum_eq_zero (fun k hk => by rw [h k (Finset.mem_range.1 hk), zero_mul]), zero_add,
    h1]
  simp

/-- The Format 1 state with 24 at the first subcarrier of symbol 0 and one sample at those of symbols 1 and 2. -/
def crossGrid (x y : C64) : State := litBy [(0, 0, 0x41C00000#32, 0#32), (1, 0, x.re, x.im), (2, 0, y.re, y.im)] f1State

theorem crossGrid_values (x y : C64) (m0 : Nat) :
    let s := crossGrid x y
    despreadValue f1Desc s true 0 0 0 m0 = 24 + complexOf y ∧ despreadValue f1Desc s false 0 0 0 m0 = complexOf x ∧
      despreadScale f1Desc s true 0 0 = 24 + ‖complexOf y‖ ∧ despreadScale f1Desc s false 0 0 = ‖complexOf x‖ ∧
      (∀ m k, m < 2 → k < 12 → complexOf (dmrsSample f1Desc s 0 0 m k) =
        if k = 0 then (if m = 0 then 24 else complexOf y) else 0) := by
  intro s
  have z0 : complexOf (⟨0#32, 0#32⟩ : C64) = 0 := by
    rw [complexOf_of (a := 0) (b := 0) (by decide +kernel) (by decide +kernel)]
    simp [Complex.ext_iff]
  have z24 : complexOf (⟨0x41C00000#32, 0#32⟩ : C64) = 24 := by
    rw [complexOf_of (a := 24) (b := 0) (by decide +kernel) (by decide +kernel)]
    simp [Complex.ext_iff]
  have smp (i k : Nat) (hi : i < 4) (hk : k < 12) : sampleAt f1Desc s i 0 k =
      if k = 0 then (if i = 0 then ⟨0x41C00000#32, 0#32⟩ else if i = 1 then x else if i = 2 then y else ⟨0#32, 0#32⟩)
      else ⟨0#32, 0#32⟩ := by
    have key : ∀ i, i < 4 → ∀ k, k < 12 → gridKey f1Desc.gridHandle (f1Desc.portList.extractLsb' (4 * 0) 4).toNat
        (f1Desc.startSym.toNat + i) (12 * prbBase f1Desc i + k) = i * 4096 + k := by decide +kernel
    have k0 : gridKey 0#32 0 0 0 = 0 := by decide +kernel
    have k1 : gridKey 0#32 0 1 0 = 4096 := by decide +kernel
    have k2 : gridKey 0#32 0 2 0 = 8192 := by decide +kernel
    unfold sampleAt gridRead
    rw [key i hi k hk]
    simp only [s, crossGrid, litBy, List.map_cons, List.map_nil, k0, k1, k2, mapGet, c64Zero, f32Zero]
    split_ifs <;> first | rfl | omega
  have val (i k : Nat) (hi : i < 4) (hk : k < 12) : complexOf (sampleAt f1Desc s i 0 k) =
      if k = 0 then (if i = 0 then 24 else if i = 1 then complexOf x else if i = 2 then complexOf y else 0) else 0 := by
    rw [smp i k hi hk]
    split_ifs <;> first | rfl | exact z24 | exact z0
  have corr (i t : Nat) (hi : i < 4) : correlation f1Desc s i 0 t =
      if i = 0 then 24 else if i = 1 then complexOf x else if i = 2 then complexOf y else 0 := by
    rw [correlation_first rfl (fun k hk => by rw [val i (k + 1) hi (by omega), if_neg (by omega)]), val i 0 hi (by omega),
      if_pos rfl]
  have amp (i : Nat) (hi : i < 4) : amplitude f1Desc s i 0 =
      ‖(if i = 0 then 24 else if i = 1 then complexOf x else if i = 2 then complexOf y else 0 : ℂ)‖ := by
    unfold amplitude
    rw [Finset.sum_range_succ', Finset.sum_eq_zero (fun k hk => by
      rw [val i (k + 1) hi (by have := Finset.mem_range.1 hk; omega), if_neg (by omega), norm_zero]), zero_add,
      val i 0 hi (by omega), if_pos rfl]
  have ld : symbolsOfHop f1Desc 0 true = [0, 2] := by decide +kernel
  have lx : symbolsOfHop f1Desc 0 false = [1, 3] := by decide +kernel
  have ph (m : Nat) (hm : m < 2) : f1OccPhase 2 0 m = 0 := by interval_cases m <;> rfl
  have r0 : rootOf 0 = 1 := by simp [rootOf]
  refine ⟨?_, ?_, ?_, ?_, fun m k hm hk => ?_⟩
  · simp [despreadValue, ld, Finset.sum_range_succ, ph, r0, corr]
  · simp [despreadValue, lx, Finset.sum_range_succ, ph, r0, corr]
  · simp [despreadScale, ld, Finset.sum_range_succ, amp]
  · simp [despreadScale, lx, Finset.sum_range_succ, amp]
  · unfold dmrsSample
    rw [ld, val _ k (by interval_cases m <;> decide) hk]
    interval_cases m <;> rfl

/-- The sums of the twelve phases of a subcarrier. -/
theorem rootSum (k : Nat) (hk : k < 12) :
    ∑ m0 ∈ Finset.range 12, rootOf (((m0 : ℕ) * k : ℝ) / 12) = if k = 0 then 12 else 0 := by
  split
  · rename_i h
    rw [h]
    simp [rootOf]
  · rename_i h
    have e (m : Nat) : rootOf ((m * k : ℝ) / 12) = rootOf ((k : ℝ) / 12) ^ m := by
      rw [rootOf, rootOf, ← Complex.exp_nat_mul]
      congr 1
      push_cast
      ring
    have one : rootOf ((k : ℝ) / 12) ^ 12 = 1 := by
      rw [← e, rootOf, Complex.exp_eq_one_iff]
      exact ⟨k, by push_cast; ring⟩
    have ne : rootOf ((k : ℝ) / 12) ≠ 1 := by
      rw [Ne, rootOf, Complex.exp_eq_one_iff]
      rintro ⟨n, hn⟩
      have hn : ((2 * Real.pi * ((k : ℝ) / 12) : ℝ) : ℂ) = ((n : ℝ) * (2 * Real.pi) : ℝ) := by
        have := mul_right_cancel₀ Complex.I_ne_zero (hn.trans (by ring : _ = ((n : ℂ) * (2 * Real.pi)) * Complex.I))
        rw [this]
        push_cast
        rfl
      have hn := Complex.ofReal_injective hn
      have hk' : (k : ℝ) = 12 * n := by
        have : (2 * Real.pi) * ((k : ℝ) / 12 - n) = 0 := by linarith
        rcases mul_eq_zero.1 this with h | h
        · linarith [Real.pi_pos]
        · linarith
      have hk' : (k : ℤ) = 12 * n := by exact_mod_cast hk'
      omega
    rw [Finset.sum_congr rfl (fun m _ => e m)]
    have := mul_neg_geom_sum (rootOf ((k : ℝ) / 12)) 12
    rw [one, sub_self] at this
    rcases mul_eq_zero.1 this with h | h
    · exact absurd (sub_eq_zero.1 h).symm ne
    · exact h

/-- With a DM-RS sample of 0 or -24 in symbol 2, the channel is 1 at every shift, or 0. -/
theorem crossGrid_noise {x y : C64} {keep : Nat → Nat → Nat → Bool}
    (h : complexOf y = 0 ∧ (∀ m0, m0 < 12 → keep 0 0 m0 = true) ∨ complexOf y = -24) :
    let s := crossGrid x y
    (noiseValue f1Desc s {0} keep = if complexOf y = 0 then 12 else 48) ∧
      noiseScaleValue f1Desc s {0} keep = if complexOf y = 0 then 192 else 48 := by
  intro s
  have hh : hopCount f1Desc = 1 := by decide +kernel
  have hp : f1Desc.nofPorts.toNat = 1 := by decide +kernel
  have ld : symbolsOfHop f1Desc 0 true = [0, 2] := by decide +kernel
  have smp := (crossGrid_values x y 0).2.2.2.2
  have ncs : ∀ m, m < 2 → (sequenceAt f1Desc s ([0, 2].getD m 0)).ncs = 0 :=
    (by decide +kernel : ∀ m, m < 2 → (sequenceAt f1Desc f1State ([0, 2].getD m 0)).ncs = 0)
  have papr : s.params.paprTab = [] := rfl
  have seq (q : SeqVal) (t k : Nat) : lowPaprValue s.params q t k = rootOf ((t * k : ℝ) / 12) := by
    have r0 : rootOf 0 = 1 := by simp [rootOf]
    simp [lowPaprValue, lowPapr, papr, UnitPhase.one, cbOf, ivOf, Complex.ext_iff, r0]
  have ph (m : Nat) (hm : m < 2) : f1OccPhase 2 0 m = 0 := by interval_cases m <;> rfl
  have r0 : rootOf 0 = 1 := by simp [rootOf]
  obtain ⟨g, hg, hk, hgv⟩ : ∃ g : ℝ, (∀ m0, chanValue f1Desc s 0 0 0 m0 = (g : ℂ)) ∧
      ((∀ m0, m0 < 12 → keep 0 0 m0 = true) ∨ g = 0) ∧ (g = if complexOf y = 0 then 1 else 0) := by
    rcases h with ⟨h1, h2⟩ | h1
    · refine ⟨1, fun m0 => ?_, .inl h2, by simp [h1]⟩
      rw [chanValue, (crossGrid_values x y m0).1, ld, h1]
      norm_num
    · refine ⟨0, fun m0 => ?_, .inr rfl, by simp [h1]⟩
      rw [chanValue, (crossGrid_values x y m0).1, ld, h1]
      norm_num
  have rep (m k : Nat) (hm : m < 2) (hk' : k < 12) :
      replicaValue f1Desc s {0} keep 0 0 m k = if k = 0 then ((12 * g : ℝ) : ℂ) else 0 := by
    rw [replicaValue]
    simp only [ld, Finset.sum_singleton, ncs m hm, List.length_cons, List.length_nil, ph m hm, seq, hg]
    have e : ∀ m0 ∈ Finset.range 12, (if keep 0 0 m0 = true then (g : ℂ) * rootOf (((0 : ℕ) : ℝ) /
        ((0 + 1 + 1 : ℕ) : ℝ)) *
        rootOf ((((m0 + (0 : Fin 12).val) % 12 : ℕ) * k : ℝ) / 12) else 0) = g * rootOf ((m0 * k : ℝ) / 12) := by
      intro m0 h0
      have h0 := Finset.mem_range.1 h0
      rw [show (m0 + (0 : Fin 12).val) % 12 = m0 by simp; omega]
      rcases hk with hk | hk
      · simp [hk m0 h0, r0]
      · simp [hk]
    rw [Finset.sum_congr rfl e, ← Finset.mul_sum, rootSum k hk']
    split
    · push_cast
      ring
    · ring
  have repS : replicaScale f1Desc s {0} keep 0 0 = 12 * |g| := by
    rw [replicaScale, Finset.sum_singleton, Finset.sum_congr rfl (g := fun _ => |g|)]
    · simp
    · intro m0 h0
      rcases hk with hk | hk
      · rw [if_pos (hk m0 (Finset.mem_range.1 h0)), hg, Complex.norm_real, Real.norm_eq_abs]
      · rw [hg, hk]
        simp
  have hy : complexOf y = 0 ∨ complexOf y = -24 := h.imp (·.1) id
  constructor
  · rw [noiseValue, dmrsMean]
    simp only [hh, hp, Finset.sum_range_one, ld, List.length_cons, List.length_nil]
    rw [Finset.sum_congr rfl (fun m hm => Finset.sum_congr rfl (fun k hk => by
      rw [smp m k (Finset.mem_range.1 hm) (Finset.mem_range.1 hk), rep m k (Finset.mem_range.1 hm)
          (Finset.mem_range.1 hk)]))]
    rcases hy with hy | hy <;> norm_num [hgv, hy, Finset.sum_range_succ]
  · rw [noiseScaleValue, dmrsMean]
    simp only [hh, hp, Finset.sum_range_one, ld, List.length_cons, List.length_nil, repS]
    rw [Finset.sum_congr rfl (fun m hm => Finset.sum_congr rfl (fun k hk => by
      rw [smp m k (Finset.mem_range.1 hm) (Finset.mem_range.1 hk)]))]
    rcases hy with hy | hy <;> norm_num [hgv, hy, Finset.sum_range_succ]

theorem crossGrid_sums (x y : C64) (m0 : Nat) :
    let s := crossGrid x y
    crossValue f1Desc s 0 m0 = starRingEnd ℂ (24 + complexOf y) * complexOf x ∧
      crossScale f1Desc s = (24 + ‖complexOf y‖) * ‖complexOf x‖ ∧
      rsrpValue f1Desc s 0 m0 = (‖24 + complexOf y‖ / 24) ^ 2 ∧ rsrpScale f1Desc s = ((24 + ‖complexOf y‖) / 24) ^ 2 ∧
      mainValue f1Desc s 0 m0 = ‖24 + complexOf y‖ ^ 2 + ‖complexOf x‖ ^ 2 ∧
      numScaleValue f1Desc s = (24 + ‖complexOf y‖ + ‖complexOf x‖) ^ 2 ∧
      shiftEnergy f1Desc s 0 0 m0 = (‖24 + complexOf y‖ / 24) ^ 2 ∧
      shiftScale f1Desc s 0 = ((24 + ‖complexOf y‖) / 24) ^ 2 := by
  intro s
  have hh : hopCount f1Desc = 1 := by decide +kernel
  have hp : f1Desc.nofPorts.toNat = 1 := by decide +kernel
  have ld : symbolsOfHop f1Desc 0 true = [0, 2] := by decide +kernel
  obtain ⟨h1, h2, h3, h4, -⟩ := crossGrid_values x y m0
  refine ⟨?_, ?_, ?_, ?_, ?_, ?_, ?_, ?_⟩ <;>
    simp [crossValue, crossScale, rsrpValue, rsrpScale, mainValue, numScaleValue, shiftEnergy, shiftScale, chanValue,
        hh, hp,
      ld, s, h1, h2, h3, h4] <;> norm_num

theorem keep_all {x y : C64} (hy : complexOf y = 0) {keep : Nat → Nat → Nat → Bool}
    (h : KeptShifts f1Desc (crossGrid x y) {0} keep) (m0 : Nat) (hm : m0 < 12) : keep 0 0 m0 = true := by
  refine h.strong 0 0 m0 (by simp) hm (fun occ' m0' ho _ => ?_)
  obtain rfl := Finset.mem_singleton.1 ho
  obtain ⟨-, -, -, -, -, -, h1, h2⟩ := crossGrid_sums x y m0
  obtain ⟨-, -, -, -, -, -, h3, -⟩ := crossGrid_sums x y m0'
  rw [h1, h2, h3, hy, errorBound, running_tol f1Words (crossGrid x y) rfl]
  norm_num

/-- A sample `a*(1 + j)`. -/
def diagonal (a : F32) : C64 := ⟨a, a⟩

/-- Symbol 1 at plus or minus `1 + j` over a channel of 1, and at `1 + j` over a channel of 0: every sign clause, the
metric 53.8 over its threshold of 0.9 at every length, and the metric 1/24 under it. -/
theorem witness_FormatOneDecision :
    (∀ s, s = crossGrid (diagonal one) c64Zero ∨ s = crossGrid (diagonal 0xBF800000#32) c64Zero ∨
        s = crossGrid (diagonal one) ⟨0xC1C00000#32, 0#32⟩ → Ready (.procF1 f1Desc) s ∧
      ParamsLegal s.params ∧ ParamsExact s.params ∧ stageB .f1 f1Desc s = none ∧ SamplesFinite f1Desc s ∧
      (memWords s.dmem 0x1100 3).map (fun w => (muxHarq w, muxOcc w)) = [(0, 0), (1, 0), (2, 0)]) ∧
    (∀ m0, let s := crossGrid (diagonal one) c64Zero
      let bound := errorBound s.params.tol (crossScale f1Desc s)
      let xc := crossValue f1Desc s 0 m0
      2 * bound < xc.re + xc.im ∧ bound < xc.re ∧ bound < xc.im) ∧
    (∀ m0, let s := crossGrid (diagonal 0xBF800000#32) c64Zero
      let bound := errorBound s.params.tol (crossScale f1Desc s)
      let xc := crossValue f1Desc s 0 m0
      xc.re + xc.im < -(2 * bound) ∧ xc.re < -bound ∧ xc.im < -bound) ∧
    (∀ mux keep m0 q, let s := crossGrid (diagonal one) c64Zero
      KeptShifts f1Desc s {0} keep →
      let tol := s.params.tol
      let sigma2 := noiseValue f1Desc s {0} keep
      let s2 := noiseScaleValue f1Desc s {0} keep
      let norm : ℝ := f1NormOf f1Desc s mux
      let num := numValue f1Desc s (decidedSymbol q false false) 0 m0
      RealHeld tol sigma2 s2 ∧ RealHeld tol (rsrpValue f1Desc s 0 m0) (rsrpScale f1Desc s) ∧
        RatioClosed tol (rsrpValue f1Desc s 0 m0) (rsrpScale f1Desc s) sigma2 s2 ∧
        RatioClosed tol num (numScaleValue f1Desc s) (norm * sigma2) (norm * s2) ∧
        f1ThrOf f1Desc < ratioLow tol num (numScaleValue f1Desc s) (norm * sigma2) (norm * s2)) ∧
    ∀ mux keep m0 q b0 b1, let s := crossGrid (diagonal one) ⟨0xC1C00000#32, 0#32⟩
      let tol := s.params.tol
      let sigma2 := noiseValue f1Desc s {0} keep
      let s2 := noiseScaleValue f1Desc s {0} keep
      let norm : ℝ := f1NormOf f1Desc s mux
      let num := numValue f1Desc s (decidedSymbol q b0 b1) 0 m0
      RatioClosed tol num (numScaleValue f1Desc s) (norm * sigma2) (norm * s2) ∧
        ratioHigh tol num (numScaleValue f1Desc s) (norm * sigma2) (norm * s2) ≤ f1ThrOf f1Desc := by
  have z0 : complexOf c64Zero = 0 := by
    rw [complexOf_of (a := 0) (b := 0) (by decide +kernel) (by decide +kernel)]
    simp [Complex.ext_iff]
  have p1 : complexOf (diagonal one) = ⟨1, 1⟩ := by
    rw [complexOf_of (a := 1) (b := 1) (by decide +kernel) (by decide +kernel)]
    norm_num
  have m1 : complexOf (diagonal 0xBF800000#32) = ⟨-1, -1⟩ := by
    rw [complexOf_of (a := -1) (b := -1) (by decide +kernel) (by decide +kernel)]
    norm_num
  have m24 : complexOf (⟨0xC1C00000#32, 0#32⟩ : C64) = -24 := by
    rw [complexOf_of (a := -24) (b := 0) (by decide +kernel) (by decide +kernel)]
    simp [Complex.ext_iff]
  have np : ‖(⟨1, 1⟩ : ℂ)‖ = Real.sqrt 2 := by
    rw [Complex.norm_def, Complex.normSq_mk]
    norm_num
  have nm : ‖(⟨-1, -1⟩ : ℂ)‖ = Real.sqrt 2 := by
    rw [Complex.norm_def, Complex.normSq_mk]
    norm_num
  have lo : (1.41421356 : ℝ) < Real.sqrt 2 := Real.lt_sqrt_of_sq_lt (by norm_num)
  have hi : Real.sqrt 2 < (1.41421357 : ℝ) := (Real.sqrt_lt' (by norm_num)).2 (by norm_num)
  have sq : Real.sqrt 2 ^ 2 = 2 := Real.sq_sqrt (by norm_num)
  have tol (x y : C64) : (crossGrid x y).params.tol = 1 / 100000 := running_tol f1Words _ rfl
  have norm1 (x y : C64) (mux : List Word) : f1NormOf f1Desc (crossGrid x y) mux = 1 := by
    rw [f1NormOf, params_of f1Words (crossGrid x y) rfl]
    rfl
  have thr : ((f1ThrOf f1Desc : Rat) : ℝ) = 9 / 10 := by
    rw [show f1ThrOf f1Desc = 9 / 10 by decide +kernel]
    norm_num
  refine ⟨?_, fun m0 => ?_, fun m0 => ?_, fun mux keep m0 q => ?_, fun mux keep m0 q b0 b1 => ?_⟩
  · rintro s (rfl | rfl | rfl)
    all_goals exact ⟨ready_of (by decide +kernel), running_params f1Words _ rfl, nofun, by decide +kernel,
      samples_of (ok := fun _ _ _ z => c64Finite z) (by decide +kernel), by decide +kernel⟩
  · obtain ⟨h1, h2, -⟩ := crossGrid_sums (diagonal one) c64Zero m0
    dsimp only
    rw [h1, h2, tol, errorBound, p1, z0, np]
    norm_num
    constructor <;> linarith
  · obtain ⟨h1, h2, -⟩ := crossGrid_sums (diagonal 0xBF800000#32) c64Zero m0
    dsimp only
    rw [h1, h2, tol, errorBound, m1, z0, nm]
    norm_num
    constructor <;> linarith
  · intro s hk
    obtain ⟨h1, -, h3, h4, h5, h6, -⟩ := crossGrid_sums (diagonal one) c64Zero m0
    obtain ⟨n1, n2⟩ := crossGrid_noise (x := diagonal one) (.inl ⟨z0, keep_all z0 hk⟩)
    have hd : (starRingEnd ℂ (decidedSymbol q false false) * crossValue f1Desc s 0 m0).re = 24 * Real.sqrt 2 := by
      have : decidedSymbol q false false = (((1 / Real.sqrt 2 : ℝ)) : ℂ) * ⟨1, 1⟩ := by
        rw [decidedSymbol, show (⟨1, 1⟩ : ℂ) = 1 + Complex.I from Complex.ext (by simp) (by simp)]
        split <;> simp <;> ring
      rw [this, show crossValue f1Desc s 0 m0 = _ from h1, p1, z0]
      have hs : Real.sqrt 2 ≠ 0 := by positivity
      simp only [map_mul, Complex.conj_ofReal, add_zero, Complex.mul_re, Complex.mul_im, Complex.conj_re,
          Complex.conj_im,
        Complex.ofReal_re, Complex.ofReal_im, Complex.re_ofNat, Complex.im_ofNat]
      field_simp
      rw [sq]
      norm_num
    have hnum : numValue f1Desc s (decidedSymbol q false false) 0 m0 = (24 + Real.sqrt 2) ^ 2 := by
      rw [numValue, hd, show mainValue f1Desc s 0 m0 = _ from h5, p1, z0, np, add_zero, Complex.norm_ofNat]
      ring
    intro tl sigma2 s2 norm num
    rw [show sigma2 = _ from n1, show s2 = _ from n2, show num = _ from hnum, show norm = 1 by simp [norm, s, norm1],
      show rsrpValue f1Desc s 0 m0 = _ from h3, show rsrpScale f1Desc s = _ from h4,
      show numScaleValue f1Desc s = _ from h6, show tl = _ from tol _ _, thr, p1, z0, np]
    have e : (24 + Real.sqrt 2) ^ 2 = 578 + 48 * Real.sqrt 2 := by
      rw [add_sq, sq]
      ring
    simp only [norm_zero, add_zero, if_true, one_mul, e]
    refine ⟨⟨0x41400000#32, by decide +kernel, ?_⟩, ⟨one, by decide +kernel, ?_⟩,
      ⟨by norm_num [errorBound], 0x3DAAAAAB#32, by decide +kernel, ?_⟩,
      ⟨by norm_num [errorBound], 0x42574B49#32, by decide +kernel, ?_⟩, ?_⟩
    · rw [realOf_of (q := 12) (by decide +kernel)]
      norm_num
    · rw [realOf_of (q := 1) (by decide +kernel)]
      norm_num
    · rw [realOf_of (q := 11184811 / 134217728) (by decide +kernel)]
      norm_num [abs_le]
    · rw [realOf_of (q := 14109513 / 262144) (by decide +kernel), abs_le]
      push_cast
      constructor <;> linarith
    · simp only [ratioLow, errorBound, lt_sub_iff_add_lt, lt_min_iff]
      norm_num
      constructor <;> linarith
  · obtain ⟨h1, -, -, -, h5, h6, -⟩ := crossGrid_sums (diagonal one) ⟨0xC1C00000#32, 0#32⟩ m0
    obtain ⟨n1, n2⟩ := crossGrid_noise (x := diagonal one) (keep := keep) (.inr m24)
    intro s tl sigma2 s2 norm num
    have hnum : num = 2 := by
      show mainValue f1Desc s 0 m0 + 2 * (starRingEnd ℂ (decidedSymbol q b0 b1) * crossValue f1Desc s 0 m0).re = 2
      rw [show mainValue f1Desc s 0 m0 = _ from h5, show crossValue f1Desc s 0 m0 = _ from h1, m24, p1, np, sq]
      norm_num
    rw [show sigma2 = _ from n1, show s2 = _ from n2, hnum, show norm = 1 by simp [norm, s, norm1],
      show numScaleValue f1Desc s = _ from h6, show tl = _ from tol _ _, thr, p1, m24, np]
    have e : (24 + ‖(-24 : ℂ)‖ + Real.sqrt 2) ^ 2 = 2306 + 96 * Real.sqrt 2 := by
      norm_num
      rw [add_sq, sq]
      ring
    rw [e, if_neg (by norm_num), if_neg (by norm_num)]
    simp only [one_mul]
    refine ⟨⟨by norm_num [errorBound], 0x3D2AAAAB#32, by decide +kernel, ?_⟩, ?_⟩
    · rw [realOf_of (q := 11184811 / 268435456) (by decide +kernel), abs_le]
      push_cast
      constructor <;> linarith
    · norm_num [ratioHigh, errorBound]
      linarith

/-- Two users: key (0, 0) with two bits, 0 and 1, and key (6, 0) with one bit, 1; and their noise-free grid. -/
def twoUserWords : List Word := cfg 0x00020002#32 0#32 0#32 0x00000040#32 1#32 0#32 0x1100#32 2#32

def twoUserState : State :=
  litBy ((List.range 12).flatMap (fun k =>
      if k % 2 = 0 then [(0, k, 0x40000000#32, 0#32), (1, k, 0#32, 0xC0000000#32), (2, k, 0x40000000#32, 0#32),
        (3, k, 0#32, 0xC0000000#32)]
      else [(1, k, 0x40000000#32, 0#32), (3, k, 0x40000000#32, 0#32)]))
    (withWords 0x1100 [0x00020000#32, 0x00010006#32] (running twoUserWords))

theorem witness_NoiseFreeFormatOne :
    let d := descOf twoUserWords
    Ready (.procF1 d) twoUserState ∧ ParamsLegal twoUserState.params ∧ stageB .f1 d twoUserState = none ∧
      twoUserState.params.paprTab = [] ∧
      ((∀ i, i < 4 → (sequenceAt d twoUserState i).ncs = 0) ∧ d.nofSym = 4#4 ∧ d.hopEn = 0#1 ∧ d.nofPorts = 1#4 ∧
        d.bufLen = 2#32 ∧ memWord twoUserState.dmem d.bufAddr.toNat = 0x00020000#32 ∧
        memWord twoUserState.dmem (d.bufAddr.toNat + 4) = 0x00010006#32 ∧
        muxHarq 0x00020000#32 = 2 ∧ muxHarq 0x00010006#32 = 1) ∧
      (∀ i k, (i = 0 ∨ i = 2) → k < 12 → SampleIs (sampleAt d twoUserState i 0 k) (1 + if k % 2 = 0 then 1 else -1) 0) ∧
      (∀ i k, (i = 1 ∨ i = 3) → k < 12 → SampleIs (sampleAt d twoUserState i 0 k)
        (1 + -1 * if k % 2 = 0 then 1 else -1) (-1 + -1 * if k % 2 = 0 then 1 else -1)) ∧
      twoUserState.params.tol * f1NormOf d twoUserState [0x00020000#32, 0x00010006#32] < 64 := by
  have smp : ∀ i, i < 4 → ∀ k, k < 12 →
      let z := sampleAt (descOf twoUserWords) twoUserState i 0 k
      let alt : Rat := if k % 2 = 0 then 1 else -1
      c64Finite z = true ∧ f32Rat z.re = (if i % 2 = 0 then 1 + alt else 1 + -1 * alt) ∧
        f32Rat z.im = (if i % 2 = 0 then 0 else -1 + -1 * alt) := by decide +kernel
  refine ⟨ready_of (by decide +kernel), running_params twoUserWords _ rfl, by decide +kernel, rfl, by decide +kernel,
    ?_, ?_, by decide +kernel⟩
  · rintro i k (rfl | rfl) hk
    exacts [smp 0 (by omega) k hk, smp 2 (by omega) k hk]
  · rintro i k (rfl | rfl) hk
    exacts [smp 1 (by omega) k hk, smp 3 (by omega) k hk]

/-- Port 0's sample at symbol 0, subcarrier 0 is 1 + j: a mean power of 2/12, whose bound holds a binary32 value. -/
def lit (s : State) : State := { s with grid := [(gridKey 0#32 0 0 0, ⟨0x3F800000#32, 0x3F800000#32⟩)] }

theorem witness_EpreIsTheMeanPower :
    (Ready (.procF0 f0Desc) (lit (running f0Words)) ∧
      stageB .f0 f0Desc (lit (running f0Words)) = none ∧
      samplesAll f0Desc (lit (running f0Words)) (fun _ _ _ z => c64Finite z) = true ∧
      ((rxBlocks f0Desc (lit (running f0Words))).map blockEnergy) = [2] ∧
      (let rule : Admitted := .within (1 / 6 - 1 / 600000) (1 / 6 + 1 / 600000)
       admits rule (admittedSample rule) = true)) ∧
    (Ready (.procF1 f1Desc) f1State ∧ stageB .f1 f1Desc f1State = none ∧
      samplesAll f1Desc f1State (fun _ _ _ z => c64Finite z) = true ∧
      (let rule : Admitted := .within 0 0
       admits rule (admittedSample rule) = true)) :=
  ⟨⟨ready_of (by decide +kernel), by decide +kernel⟩, ⟨ready_of (by decide +kernel), by decide +kernel⟩⟩

/-- An estimate with no coefficients: every element is bad. The first and the last of each format, Format 3 with pi/2-BPSK
too. -/
theorem witness_DeadChannelSilencesItsElement :
    (let d := descOf f2Words
      let s := running f2Words
      Ready (.procF2 d) s ∧ stageB .f2 d s = none ∧ d.nofSym.toNat = 1 ∧ d.nofPrb.toNat = 1 ∧
        ∀ q, q < 8 → (elementAt d s (chEst s (encode (.procF2 d))) (d.startSym.toNat + 0)
          (12 * prbBase d 0 + (12 * 0 + [0, 2, 3, 5, 6, 8, 9, 11].getD q 0))).bad = true) ∧
    (∀ ws, ws = f3Words ∨ ws = bpskWords → let d := descOf ws
      let s := running ws
      Ready (.procF3 d) s ∧ stageB .f3 d s = none ∧ 12 * d.nofPrb.toNat = 12 ∧
        (d.pi2bpsk = if ws = f3Words then 0#1 else 1#1) ∧
        f34DataSym d.nofSym.toNat (d.hopEn == 1#1) (d.addDmrs == 1#1) = [0, 2, 3] ∧
        ∀ i, i < 4 → ∀ m, m < 12 → (elementAt d s (chEst s (encode (.procF3 d))) (d.startSym.toNat + i)
          (12 * prbBase d i + m)).bad = true) ∧
    let d := descOf f4Words
    let s := running f4Words
    Ready (.procF4 d) s ∧ stageB .f4 d s = none ∧ d.occLenSel = 0#1 ∧
      f34DataSym d.nofSym.toNat (d.hopEn == 1#1) (d.addDmrs == 1#1) = [0, 2, 3] ∧
      ∀ i, i < 4 → ∀ m, m < 6 → ∀ q, q < 2 → (elementAt d s (chEst s (encode (.procF4 d))) (d.startSym.toNat + i)
        (12 * prbBase d i + (m + q * 6))).bad = true := by
  refine ⟨⟨ready_of (by decide +kernel), by decide +kernel⟩, ?_, ready_of (by decide +kernel), by decide +kernel⟩
  rintro ws (rfl | rfl)
  all_goals exact ⟨ready_of (by decide +kernel), by decide +kernel⟩

/-- A demodulator's state whose channel is 1 and whose noise variance is 0.5 over symbol 0 of PRB 0, with the sample at
its first subcarrier given. -/
def flatState (ws : List Word) (y : C64) : State :=
  { litBy [(0, 0, y.re, y.im)] (running ws) with
    chest := [(ws,
      ⟨(List.range 12).map (fun k => ⟨0, 0, k, ⟨one, 0#32⟩⟩), [0x3F000000#32], 0#32, 0#32, 0#32, false, 0#32⟩)] }

theorem witness_FormatTwoLlrs :
    let d := descOf f2Words
    let s := flatState f2Words ⟨one, one⟩
    let x := elementAt d s (chEst s (encode (.procF2 d))) (d.startSym.toNat + 0) (12 * (prbBase d 0 + 0) + 0)
    Ready (.procF2 d) s ∧ ParamsLegal s.params ∧ stageB .f2 d s = none ∧ s.params.eqAlgo = .zf ∧
      x.bad = false ∧ x.finite = true ∧ ComplexHeld s.params.tol (x.symbol .zf 1) (x.symbolScale .zf 1) ∧
      RealHeld s.params.tol (2 * Real.sqrt 2 * (x.symbol .zf 1).re / x.noise .zf 1)
        (2 * Real.sqrt 2 * x.symbolScale .zf 1 / x.noise .zf 1) := by
  intro d s x
  have tol : s.params.tol = 1 / 100000 := running_tol f2Words _ rfl
  have p1 : complexOf ⟨one, one⟩ = ⟨1, 1⟩ := by
    rw [complexOf_of (a := 1) (b := 1) (by decide +kernel) (by decide +kernel)]
    norm_num
  have hy : x.y 0 = ⟨one, one⟩ := by decide +kernel
  obtain ⟨h1, h2, h3, h4, h5⟩ := unit_element (r := x) (by decide +kernel) (by decide +kernel) (by decide +kernel)
    (by decide +kernel)
  rw [hy, p1] at h3 h4
  have one_le : 1 ≤ ‖(⟨1, 1⟩ : ℂ)‖ := by simpa using Complex.abs_re_le_norm (⟨1, 1⟩ : ℂ)
  refine ⟨ready_of (by decide +kernel), running_params f2Words _ rfl, by decide +kernel, rfl, h1, h2, ?_, ?_⟩
  · rw [h3, h4, ← p1]
    exact held_exactly (by decide +kernel) (norm_nonneg _) (by decide +kernel) rfl
  · refine ⟨0x40B504F3#32, by decide +kernel, ?_⟩
    rw [h3, h4, h5, realOf_of (q := 11863283 / 2097152) (by decide +kernel), tol, abs_le]
    have lo : (1.41421356 : ℝ) < Real.sqrt 2 := Real.lt_sqrt_of_sq_lt (by norm_num)
    have hi : Real.sqrt 2 < (1.41421357 : ℝ) := (Real.sqrt_lt' (by norm_num)).2 (by norm_num)
    have : Real.sqrt 2 ≤ Real.sqrt 2 * ‖(⟨1, 1⟩ : ℂ)‖ := le_mul_of_one_le_right (Real.sqrt_nonneg 2) one_le
    push_cast
    constructor <;> norm_num <;> linarith

/-- A block of twelve elements of one port, channel 1 and noise variance 0.5, with the samples 1, 0, ..., 0: every
deprecoded symbol is `1/sqrt(12)`. -/
theorem flat_block {r : Nat → Element} (hp : ∀ k, k < 12 → (r k).ports = 1)
    (hh : ∀ k, k < 12 → (r k).h 0 = ⟨one, 0#32⟩) (hn : ∀ k, k < 12 → (r k).nv 0 = 0x3F000000#32)
    (hy : ∀ k, k < 12 → (r k).y 0 = if k = 0 then ⟨one, 0#32⟩ else ⟨0#32, 0#32⟩) :
    (∀ k, k < 12 → (r k).bad = false) ∧ BlockClosed (1 / 100000) .zf 12 r ∧
      (∀ m, deprecodeValue 12 (fun k => (r k).symbol .zf 1) m = ((1 / Real.sqrt 12 : ℝ) : ℂ)) ∧
      deprecodeScaleValue 12 (fun k => (r k).symbolScale .zf 1) = 1 / Real.sqrt 12 := by
  have fin (k : Nat) (hk : k < 12) : c64Finite ((r k).y 0) = true := by
    rw [hy k hk]
    split <;> decide
  have val (k : Nat) (hk : k < 12) : complexOf ((r k).y 0) = if k = 0 then 1 else 0 := by
    rw [hy k hk]
    split
    · rw [complexOf_of (a := 1) (b := 0) (by decide +kernel) (by decide +kernel)]
      simp [Complex.ext_iff]
    · rw [complexOf_of (a := 0) (b := 0) (by decide +kernel) (by decide +kernel)]
      simp [Complex.ext_iff]
  have el (k : Nat) (hk : k < 12) := unit_element (hp k hk) (hh k hk) (hn k hk) (fin k hk)
  refine ⟨fun k hk => (el k hk).1, fun k hk _ => ⟨(el k hk).2.1, ?_⟩, fun m => ?_, ?_⟩
  · rw [(el k hk).2.2.1, (el k hk).2.2.2.1]
    exact held_exactly (by norm_num) (norm_nonneg _) (fin k hk) rfl
  · rw [deprecodeValue, Finset.sum_eq_single_of_mem 0 (Finset.mem_range.2 (by omega))]
    · rw [(el 0 (by omega)).2.2.1, val 0 (by omega)]
      simp [rootOf]
    · intro k hk h0
      have hk := Finset.mem_range.1 hk
      rw [(el k hk).2.2.1, val k hk, if_neg h0, zero_mul]
  · rw [deprecodeScaleValue, Finset.sum_eq_single_of_mem 0 (Finset.mem_range.2 (by omega))]
    · rw [(el 0 (by omega)).2.2.2.1, val 0 (by omega)]
      simp
    · intro k hk h0
      have hk := Finset.mem_range.1 hk
      rw [(el k hk).2.2.2.1, val k hk, if_neg h0, norm_zero]

/-- Formats 3 and 4 at their data symbol 0: every element of the block, and of the despread block. -/
theorem witness_FormatsThreeAndFourLlrs :
    (let d := descOf f3Words
      let s := flatState f3Words ⟨one, 0#32⟩
      let block (k : Nat) : Element :=
        elementAt d s (chEst s (encode (.procF3 d))) (d.startSym.toNat + 0) (12 * prbBase d 0 + k)
      Ready (.procF3 d) s ∧ ParamsLegal s.params ∧ stageB .f3 d s = none ∧ s.params.eqAlgo = .zf ∧
        (f34DataSym d.nofSym.toNat (d.hopEn == 1#1) (d.addDmrs == 1#1))[0]? = some 0 ∧
        (∀ k, k < 12 → (block k).bad = false) ∧ BlockClosed s.params.tol .zf (12 * d.nofPrb.toNat) block ∧
        ∀ m, ComplexHeld s.params.tol (deprecodeValue (12 * d.nofPrb.toNat) (fun k => (block k).symbol .zf 1) m)
          (deprecodeScaleValue (12 * d.nofPrb.toNat) (fun k => (block k).symbolScale .zf 1))) ∧
    (let d := descOf f4Words
      let s := flatState f4Words ⟨one, 0#32⟩
      let block (k : Nat) : Element :=
        elementAt d s (chEst s (encode (.procF4 d))) (d.startSym.toNat + 0) (12 * prbBase d 0 + k)
      let sd (m : Nat) : ℂ := deprecodeValue 12 (fun k => (block k).symbol .zf 1) m
      let scale := deprecodeScaleValue 12 (fun k => (block k).symbolScale .zf 1)
      let cover (k : Nat) : ℂ := Complex.I ^ ((f4Occ 2 d.occIdx.toNat).getD k 0)
      Ready (.procF4 d) s ∧ ParamsLegal s.params ∧ stageB .f4 d s = none ∧ s.params.eqAlgo = .zf ∧ d.occLenSel = 0#1 ∧
        (f34DataSym d.nofSym.toNat (d.hopEn == 1#1) (d.addDmrs == 1#1))[0]? = some 0 ∧
        (∀ k, k < 12 → (block k).bad = false) ∧ BlockClosed s.params.tol .zf 12 block ∧
        (∀ m, ComplexHeld s.params.tol (sd m) scale) ∧
        ∀ m, m < 6 → ComplexHeld s.params.tol
          (1 / 2 * ∑ q ∈ Finset.range 2, starRingEnd ℂ (cover (m + q * 6)) * sd (m + q * 6))
          (1 / 2 * ∑ _q ∈ Finset.range 2, scale)) := by
  constructor
  · intro d s block
    have tol : s.params.tol = 1 / 100000 := running_tol f3Words _ rfl
    have one_prb : 12 * d.nofPrb.toNat = 12 := by decide +kernel
    obtain ⟨b1, b2, b3, b4⟩ := flat_block (r := block) (by decide +kernel) (by decide +kernel) (by decide +kernel)
      (by decide +kernel)
    refine ⟨ready_of (by decide +kernel), running_params f3Words _ rfl, by decide +kernel, by decide +kernel,
      by decide +kernel, b1, ?_, fun m => ?_⟩
    · rw [tol, one_prb]
      exact b2
    · rw [tol, one_prb, b3, b4]
      exact twelfth_held
  · intro d s block sd scale cover
    have tol : s.params.tol = 1 / 100000 := running_tol f4Words _ rfl
    obtain ⟨b1, b2, b3, b4⟩ := flat_block (r := block) (by decide +kernel) (by decide +kernel) (by decide +kernel)
      (by decide +kernel)
    have held (m : Nat) : ComplexHeld s.params.tol (sd m) scale := by
      rw [tol, show sd m = _ from b3 m, show scale = _ from b4]
      exact twelfth_held
    refine ⟨ready_of (by decide +kernel), running_params f4Words _ rfl, by decide +kernel, by decide +kernel,
      by decide +kernel, by decide +kernel, b1, tol ▸ b2, held, fun m hm => ?_⟩
    have flat (k : Nat) (hk : k < 12) : cover k = 1 := by
      have : (f4Occ 2 d.occIdx.toNat).getD k 0 = 0 := by
        revert k
        decide +kernel
      show Complex.I ^ _ = 1
      rw [this, pow_zero]
    have : (1 / 2 : ℂ) * ∑ q ∈ Finset.range 2, starRingEnd ℂ (cover (m + q * 6)) * sd (m + q * 6) = sd 0 := by
      rw [Finset.sum_range_succ, Finset.sum_range_one, flat _ (by omega), flat _ (by omega), show sd _ = _ from b3 _,
        show sd _ = _ from b3 _, show sd _ = _ from b3 _]
      simp
      ring
    rw [this, Finset.sum_const, Finset.card_range]
    have : (1 / 2 : ℝ) * (2 • scale) = scale := by
      simp
    rw [this]
    exact held 0

/-- A host that writes the noise input of a running `DEPRECODE.NOISE`: the values are draws, the header stands. -/
theorem witness_HeaderStands :
    let s := look State.reset id (hostWrite 0x3000 .word one (running noiseWords))
    HeaderStands (.deprecodeNoise noiseDesc) s ∧ ¬ Undisturbed (.deprecodeNoise noiseDesc) s ∧ CallerExists s ∧
      Memory.wf s.dmem = true ∧ checkDeprecodeNoise noiseDesc s.params = none := by
  unfold HeaderStands Undisturbed CallerExists
  decide +kernel

end Sys2Proof.Tests
end

section
/-! The constant tables (00_scope.md R8, 43_format0.md R90, 44_format1.md R100, 45_format234.md R114, R116). -/

namespace Sys2Proof.Proofs

open Sys2Proof Sys2Proof.Machine

/-! ## Thresholds and candidates -/

/-- The keys of `F1_THR` and their values (00_scope.md R8). -/
theorem f1Thr_eq_some_iff (n : Nat) (x : Rat) :
    f1Thr n = some x ↔ n = 1 ∧ x = 9 / 10 ∨ n = 2 ∧ x = 3 ∨ n = 4 ∧ x = 89 / 20 ∨ n = 8 ∧ x = 139 / 20 := by
  unfold f1Thr
  split <;> simp_all [eq_comm]

theorem f1Thr_isSome_iff (n : Nat) : (f1Thr n).isSome = true ↔ n = 1 ∨ n = 2 ∨ n = 4 ∨ n = 8 := by
  simp [Option.isSome_iff_exists, f1Thr_eq_some_iff, exists_or]

theorem f1Thr_mono {n m : Nat} {x y : Rat} (hx : f1Thr n = some x) (hy : f1Thr m = some y) (h : n ≤ m) : x ≤ y := by
  revert h
  rcases (f1Thr_eq_some_iff n x).1 hx with ⟨rfl, rfl⟩ | ⟨rfl, rfl⟩ | ⟨rfl, rfl⟩ | ⟨rfl, rfl⟩ <;>
    rcases (f1Thr_eq_some_iff m y).1 hy with ⟨rfl, rfl⟩ | ⟨rfl, rfl⟩ | ⟨rfl, rfl⟩ | ⟨rfl, rfl⟩ <;>
    norm_num

theorem f0Table_eq_nil {n : Nat} {sr : Bool} (h : 2 < n ∨ n = 0 ∧ sr = false) : f0Table n sr = [] := by
  rcases h with h | ⟨rfl, rfl⟩
  · match n, h with
    | n + 3, _ => rfl
  · rfl

/-! ## The covers of Format 1 -/

/-- The covers of one length, one for each index, each a phase for each symbol (44_format1.md R100). -/
theorem f1OccRows_shape : ∀ l, l ≤ 7 → 1 ≤ l → (f1OccRows l).length = l ∧ (∀ r ∈ f1OccRows l, r.length = l) ∧
    (l ≠ 4 → ∀ i, i < l → ∀ m, m < l → f1OccPhase l i m = i * m % l) := by decide

theorem rootOf_mod (a l : Nat) (hl : 0 < l) : rootOf (((a % l : Nat) : ℝ) / l) = rootOf ((a : ℝ) / l) := by
  have hl' : (l : ℝ) ≠ 0 := by exact_mod_cast hl.ne'
  have e : (a : ℝ) / l = ((a % l : Nat) : ℝ) / l + ((a / l : Nat) : ℤ) := by
    rw [Int.cast_natCast, div_add' _ _ _ hl', div_left_inj' hl']
    exact_mod_cast (Nat.mod_add_div' a l).symm
  rw [e, rootOf_add, rootOf_int, mul_one]

/-- The covers whose phases are `i*m mod L` are orthogonal: their products are geometric sums of a root of unity. -/
theorem cyclic_orthogonal {l i i' : Nat} (hi : i < l) (hi' : i' < l) :
    ∑ m ∈ Finset.range l, starRingEnd ℂ (rootOf (((i * m % l : Nat) : ℝ) / l)) * rootOf (((i' * m % l : Nat) : ℝ) / l) =
      if i = i' then (l : ℂ) else 0 := by
  have hl : 0 < l := by omega
  have power (j m : Nat) : rootOf (((j * m % l : Nat) : ℝ) / l) = rootOf ((j : ℝ) / l) ^ m := by
    rw [rootOf_mod _ _ hl, rootOf_pow]
    congr 1
    push_cast
    ring
  have whole (j : Nat) : rootOf ((j : ℝ) / l) ^ l = 1 := by
    rw [← power, Nat.mul_mod_left]
    simpa using rootOf_int 0
  have unit (j : Nat) : starRingEnd ℂ (rootOf ((j : ℝ) / l)) * rootOf ((j : ℝ) / l) = 1 := by
    rw [Complex.conj_mul', rootOf_norm]
    norm_num
  have split {a b : Nat} (h : a ≤ b) :
      rootOf ((b : ℝ) / l) = rootOf ((a : ℝ) / l) * rootOf (((b - a : Nat) : ℝ) / l) := by
    rw [← rootOf_add, Nat.cast_sub h]
    congr 1
    ring
  have ratio (h : i ≠ i') : starRingEnd ℂ (rootOf ((i : ℝ) / l)) * rootOf ((i' : ℝ) / l) ≠ 1 := by
    rcases Nat.lt_or_gt_of_ne h with hlt | hgt
    · rw [split hlt.le, ← mul_assoc, unit, one_mul]
      exact rootOf_ne_one (by omega) (by omega)
    · rw [split hgt.le, map_mul, mul_right_comm, unit, one_mul]
      intro h1
      have := congrArg (starRingEnd ℂ) h1
      rw [Complex.conj_conj, map_one] at this
      exact rootOf_ne_one (by omega) (by omega) this
  simp only [power, map_pow, ← mul_pow]
  split_ifs with h
  · simp [← h, unit]
  · have hgeom := mul_neg_geom_sum (starRingEnd ℂ (rootOf ((i : ℝ) / l)) * rootOf ((i' : ℝ) / l)) l
    rw [mul_pow, ← map_pow, whole, whole, map_one, mul_one, sub_self] at hgeom
    exact (mul_eq_zero.1 hgeom).resolve_left (sub_ne_zero.2 (Ne.symm (ratio h)))

/-- The Walsh covers of length 4 are signs. -/
theorem walsh_sign : ∀ i, i < 4 → ∀ m, m < 4 → f1OccPhase 4 i m = 2 * (f1OccPhase 4 i m / 2) := by decide

theorem walsh_signs_orthogonal : ∀ i, i < 4 → ∀ i', i' < 4 →
    ∑ m ∈ Finset.range 4, (-1 : ℤ) ^ (f1OccPhase 4 i m / 2) * (-1) ^ (f1OccPhase 4 i' m / 2) =
      if i = i' then 4 else 0 := by decide

theorem walsh_orthogonal {i i' : Nat} (hi : i < 4) (hi' : i' < 4) :
    ∑ m ∈ Finset.range 4, starRingEnd ℂ (rootOf ((f1OccPhase 4 i m : ℝ) / (4 : Nat))) *
      rootOf ((f1OccPhase 4 i' m : ℝ) / (4 : Nat)) = if i = i' then ((4 : Nat) : ℂ) else 0 := by
  have sign (j : Nat) (hj : j < 4) (m : Nat) (hm : m < 4) :
      rootOf ((f1OccPhase 4 j m : ℝ) / (4 : Nat)) = (((-1 : ℤ) ^ (f1OccPhase 4 j m / 2) : ℤ) : ℂ) := by
    rw [walsh_sign j hj m hm]
    have := rootOf_quarter (2 * (f1OccPhase 4 j m / 2))
    rw [pow_mul, Complex.I_sq] at this
    simpa using this
  have h := congrArg (fun n : ℤ => (n : ℂ)) (walsh_signs_orthogonal i hi i' hi')
  simp only [Int.cast_sum, Int.cast_mul] at h
  refine (Finset.sum_congr rfl (fun m hm => ?_)).trans (h.trans (by split_ifs <;> simp))
  have hm := Finset.mem_range.1 hm
  rw [sign i hi m hm, sign i' hi' m hm, map_intCast]

theorem f1Occ_orthogonal {l i i' : Nat} (hl : l ≤ 7) (hi : i < l) (hi' : i' < l) :
    ∑ m ∈ Finset.range l,
      starRingEnd ℂ (rootOf ((f1OccPhase l i m : ℝ) / l)) * rootOf ((f1OccPhase l i' m : ℝ) / l) =
        if i = i' then (l : ℂ) else 0 := by
  by_cases h4 : l = 4
  · subst h4
    exact walsh_orthogonal hi hi'
  · obtain ⟨-, -, phase⟩ := f1OccRows_shape l hl (by omega)
    rw [← cyclic_orthogonal hi hi']
    refine Finset.sum_congr rfl (fun m hm => ?_)
    rw [phase h4 i hi m (Finset.mem_range.1 hm), phase h4 i' hi' m (Finset.mem_range.1 hm)]

/-! ## The symbols of Formats 3 and 4, and the covers of Format 4 -/

theorem mem_f34DataSym (n : Nat) (hop add : Bool) (i : Nat) :
    i ∈ f34DataSym n hop add ↔ i < n ∧ i ∉ f34DmrsSym n hop add := by
  simp [f34DataSym]

theorem f34DataSym_rising (n : Nat) (hop add : Bool) : (f34DataSym n hop add).Pairwise (· < ·) :=
  List.pairwise_lt_range.filter _

/-- The quarter turns of `F4_OCC`: half a turn for each step of `n*q` where `SF = 2`, three quarters where `SF = 4`
(45_format234.md R116). -/
theorem f4Occ_quarters : ∀ sf, sf = 2 ∨ sf = 4 → ∀ n, n < sf → (f4Occ sf n).length = 12 ∧
    ∀ k, k < 12 → (f4Occ sf n).getD k 0 = (if sf = 2 then 2 else 3) * (n * (k / (12 / sf))) % 4 := by
  rintro sf (rfl | rfl) <;> decide

theorem f4Occ_power {sf n k : Nat} (hsf : sf = 2 ∨ sf = 4) (hn : n < sf) (hk : k < 12) :
    Complex.I ^ (f4Occ sf n).getD k 0 = (if sf = 2 then -1 else -Complex.I) ^ (n * (k / (12 / sf))) := by
  have hbase : (if sf = 2 then -1 else -Complex.I) = Complex.I ^ (if sf = 2 then 2 else 3) := by
    split_ifs <;> simp
  rw [(f4Occ_quarters sf hsf n hn).2 k hk, hbase, ← pow_mul, ← Complex.I_pow_eq_pow_mod]

/-- Settles O49: each table by its own lemma above; the orthogonality by geometric sums, for length 4 by signs. -/
theorem formatOneThresholdsRise : Obligations.FormatOneThresholdsRise := by
  refine ⟨⟨?_, f1Thr_isSome_iff, fun n m x y => f1Thr_mono⟩,
    ⟨rfl, rfl, rfl, rfl, rfl, fun n sr => f0Table_eq_nil⟩, fun l h1 h7 => ?_, rfl, by decide, by decide,
    fun n hop add => ⟨f34DataSym_rising n hop add, mem_f34DataSym n hop add⟩,
    fun sf n hsf hn => ⟨(f4Occ_quarters sf hsf n hn).1, fun k hk => f4Occ_power hsf hn hk⟩⟩
  · norm_num [f1Thr]
  · obtain ⟨hlen, hrows, hphase⟩ := f1OccRows_shape l h7 h1
    exact ⟨hlen, hrows, fun h4 i m hi hm => hphase h4 i hi m hm, fun i i' hi hi' => f1Occ_orthogonal h7 hi hi'⟩

end Sys2Proof.Proofs
end

section
/-! The quantiser (00_scope.md R9). -/

namespace Sys2Proof.Proofs

open Sys2Proof Sys2Proof.Machine

/-- The level of a magnitude: the number of breakpoints at or below it (00_scope.md R9). -/
def llrLevel (p : Params) (m : Nat) : Nat := (p.llrThr.filter (fun t => decide (t.toNat ≤ m))).length

theorem qLlr_eq (p : Params) (x : F32) :
    qLlr p x = if x.msb then -(llrLevel p (f32Mag x) : Int) else (llrLevel p (f32Mag x) : Int) := rfl

theorem llrLevel_mono (p : Params) {m n : Nat} (h : m ≤ n) : llrLevel p m ≤ llrLevel p n :=
  (List.monotone_filter_right _ (fun _ ht => decide_eq_true ((of_decide_eq_true ht).trans h))).length_le

theorem llrLevel_zero {p : Params} (hp : ParamQuantiser p) : llrLevel p 0 = 0 := by
  rw [llrLevel, List.length_eq_zero_iff, List.filter_eq_nil_iff]
  intro t ht
  have := (hp.2.1 t ht).1
  simpa using this.ne'

theorem llrLevel_top {p : Params} {m : Nat} (h : ∀ b ∈ p.llrThr, b.toNat ≤ m) : llrLevel p m = llrMax p := by
  rw [llrLevel, List.filter_eq_self.2 (fun b hb => decide_eq_true (h b hb)), llrMax]

theorem f32Mag_of_msb {x : F32} (h : x.msb = false) : f32Mag x = x.toNat := by
  have := BitVec.msb_eq_false_iff_two_mul_lt.1 h
  rw [f32Mag, BitVec.extractLsb'_toNat, Nat.shiftRight_zero]
  omega

/-- The level follows the rank of a pattern: negative under the sign bit, and 0 at both zeros. -/
theorem qLlr_mono {p : Params} (hp : ParamQuantiser p) {x y : F32} (h : f32Rank x ≤ f32Rank y) :
    qLlr p x ≤ qLlr p y := by
  have h0 := llrLevel_zero hp
  rw [f32Rank_eq, f32Rank_eq] at h
  rw [qLlr_eq, qLlr_eq]
  cases hx : x.msb <;> cases hy : y.msb <;> simp only [hx, hy, Bool.false_eq_true, if_false, if_true] at h ⊢
  case false.false =>
    exact_mod_cast llrLevel_mono p (show f32Mag x ≤ f32Mag y by omega)
  case false.true =>
    rw [show f32Mag x = 0 by omega, show f32Mag y = 0 by omega, h0]
    simp
  case true.false => omega
  case true.true =>
    have := llrLevel_mono p (show f32Mag y ≤ f32Mag x by omega)
    omega

/-- A positive pattern at or above every breakpoint has the largest level. -/
theorem qLlr_top {p : Params} {x : F32} (hx : x.msb = false) (h : ∀ b ∈ p.llrThr, b.toNat ≤ x.toNat) :
    qLlr p x = (llrMax p : Int) := by
  rw [qLlr_eq, hx, f32Mag_of_msb hx, llrLevel_top h]
  rfl

/-- Settles O51: the level counts breakpoints, so it grows with the magnitude, from 0 to all of them. -/
theorem quantiserLaws : Obligations.QuantiserLaws := by
  intro p hp
  have hinf : qLlr p f32PosInf = (llrMax p : Int) := qLlr_top (by decide) (fun b hb => (hp.2.1 b hb).2)
  refine ⟨qLlr_neg p, fun x y _ _ h => qLlr_mono hp ((f32Rank_le_iff x y).2 h), fun x hx => ?_,
    ⟨hinf, by rw [qLlr_neg, hinf]⟩, fun x => qLlr_top, qLlr_bounds p, hp.1.1⟩
  rw [qLlr_eq, (f32IsZero_mag x).1 hx, llrLevel_zero hp]
  simp

end Sys2Proof.Proofs
end

section
/-! The records that `PROC.F0` and `PROC.F1` leave, and the decisions in them (43_format0.md R93 to R97,
44_format1.md R102 to R107). -/

namespace Sys2Proof.Proofs

open Sys2Proof Sys2Proof.Machine

/-! ## The records of Formats 0 and 1 -/

/-- The words after the header in the record of a command that ends undisturbed with its record alone
(20_memory.md R48, 46_dispatcher_pool.md R132). -/
theorem finish_record {i : Instr} {s : State} {body : List Word} (hc : CallerExists s) (hwf : Memory.wf s.dmem = true)
    (good : GoodWrites i s.params.dmemSize
      [((instrResAddr i).toNat, bytesOfWords (instrHeader i rsDone :: body))])
    (hsz : (instrResAddr i).toNat + (if opcodeIsVal (instrOpcode i) then 8 else 4) ≤ s.params.dmemSize)
    (hu : Undisturbed i s) :
    ∃ t, finish (footprint s.cur.desc i)
        [((instrResAddr i).toNat, bytesOfWords (instrHeader i rsDone :: body))] (latched i s) = .next t ∧
      ∀ n w, body[n]? = some w → recordWord t (instrResAddr i) (n + 1) = w := by
  obtain ⟨t, ht, -, -, hclean⟩ := completes hc hwf good hsz
  obtain ⟨hmem, hapart⟩ := hclean hu
  refine ⟨t, ht, fun n w hw => ?_⟩
  obtain ⟨hn, hget⟩ := List.getElem?_eq_some_iff.1 hw
  rw [record_word hwf hmem hapart (n + 1) (Nat.succ_lt_succ hn), List.getD_cons_succ, List.getD_eq_getElem _ _ hn, hget]

/-- `PROC.F0` leaves the words that its detector measured (30_encoding.md R70, 43_format0.md R97). -/
theorem procF0_record {d : PucchDesc} {s : State} (hc : CallerExists s) (hwf : Memory.wf s.dmem = true)
    (hB : stageB .f0 d s = none) (hu : Undisturbed (.procF0 d) s) :
    ∃ t, exec (.procF0 d) s = .next t ∧ ∀ n w, (f0Record d (f0Detect d s))[n]? = some w →
      recordWord t d.resAddr (n + 1) = w := by
  obtain ⟨t, ht, hword⟩ := finish_record hc hwf (procF0_good hB) (stageB_res hB) hu
  refine ⟨t, Eq.trans ?_ ht, hword⟩
  show execProcF0 d s = _
  rw [execProcF0, hB]
  rfl

/-- The Format 1 record as a good write (30_encoding.md R71). -/
theorem procF1_good {d : PucchDesc} {s : State} (hB : stageB .f1 d s = none) :
    GoodWrites (.procF1 d) s.params.dmemSize
      [(d.resAddr.toNat, bytesOfWords (instrHeader (.procF1 d) rsDone :: f1Record d s (seenMux d s)))] := by
  obtain ⟨-, -, -, -, -, -, -, h8, -⟩ := (stageB_none _ _ _).1 hB
  have hlen : 4 * ((f1Record d s (seenMux d s)).length + 1) = procRecordSize .f1 d := by
    rw [f1Record_length, seenMux_length, procRecordSize]
    omega
  simp only [failB8, Bool.or_eq_false_iff, Bool.not_eq_false', inb_iff] at h8
  refine doneWrites_good (.procF1 d) _ _ [] (by rw [hlen]; rfl) (fun _ r hr => ?_)
  obtain rfl := List.mem_singleton.1 hr
  exact h8.1

/-- `PROC.F1` leaves its record for the mux list it sees (30_encoding.md R71, 44_format1.md R110). -/
theorem procF1_record {d : PucchDesc} {s : State} (hc : CallerExists s) (hwf : Memory.wf s.dmem = true)
    (hB : stageB .f1 d s = none) (hu : Undisturbed (.procF1 d) s) :
    ∃ t, exec (.procF1 d) s = .next t ∧ ∀ n w, (f1Record d s (seenMux d s))[n]? = some w →
      recordWord t d.resAddr (n + 1) = w := by
  obtain ⟨t, ht, hword⟩ := finish_record hc hwf (procF1_good hB) (stageB_res hB) hu
  refine ⟨t, Eq.trans ?_ ht, hword⟩
  show execProcF1 d s = _
  rw [execProcF1, hB]
  show finishDone _ _ _ (latchMux d s) = _
  rw [finishDone, (latchMux_from d s).cur]
  rfl

/-- The status of a UCI word (30_encoding.md R69). -/
theorem uciWord_status (valid nofSr sr : Bool) (q : BitVec 2) (a b : Bool) :
    (uciWord valid nofSr sr q a b).extractLsb' 0 2 = if valid then 1#2 else 2#2 := by
  unfold uciWord
  rw [BitVec.extractLsb'_append_eq_right]

/-- The status that a threshold test on an admitted ratio leaves (00_scope.md R15). -/
theorem returnsStatus_of_admitted {tol : Rat} {x X y Y : ℝ} {a : Admitted}
    (h : RatioClosed tol x X y Y → ∃ lo hi, a = .within lo hi ∧ ratioLow tol x X y Y ≤ (lo : ℝ) ∧
      (hi : ℝ) ≤ ratioHigh tol x X y Y ∧ ∃ v, f32Finite v = true ∧ (lo : ℝ) ≤ realOf v ∧ realOf v ≤ (hi : ℝ))
    (thr : Rat) (id : DrawId) :
    ReturnsStatus tol x X y Y thr (if drawBool (mayExceed a thr) (mayNotExceed a thr) id then 1#2 else 2#2) := by
  intro hclosed
  obtain ⟨habove, hbelow⟩ := (ratio_answers h).2 thr id hclosed
  exact ⟨fun hlow => if_pos (habove hlow), fun hhigh => if_neg (Bool.not_eq_true _ ▸ hbelow hhigh)⟩

/-! ## The answers of the Format 0 detector, for its winner -/

/-- The index of the winning candidate (43_format0.md R93). -/
def f0Winner (d : PucchDesc) (s : State) : Nat :=
  drawFrom (f0MayWin (s.params.tol * f0PowerScale (rxBlocks d s))
    ((f0Cands d).map (f0Power s.params d (rxBlocks d s)))) 0 ⟨s.draws, .f0Winner, 0⟩

/-- What the rules admit for the metric of a candidate (43_format0.md R93, R94). -/
def f0Metric (d : PucchDesc) (s : State) (c : F0Cand) : Admitted :=
  f0MetricAdmitted s.params.tol (ratSum ((rxBlocks d s).map blockEnergy)) (f0PowerScale (rxBlocks d s))
    (f0Power s.params d (rxBlocks d s) c) (f0ResidualZero s.params d (rxBlocks d s) c)

/-- The threshold of a Format 0 command (00_scope.md R8). -/
def f0Threshold (d : PucchDesc) (s : State) : F32 :=
  (f0Thr s.params (nofPorts d * nofSym d) (f0Cands d).length).getD f32Zero

/-- Every field of the detector's answer on finite samples, in terms of its winner (43_format0.md R95). -/
theorem f0Detect_winner {d : PucchDesc} {s : State} (hf : rxFinite (rxBlocks d s) = true)
    (hlt : f0Winner d s < (f0Cands d).length) :
    let r := f0Detect d s
    let metric := f0Metric d s r.cand
    let thr := f32Rat (f0Threshold d s)
    let energy := ratSum ((rxBlocks d s).map blockEnergy)
    let nre : Rat := ((12 * nofPorts d * nofSym d : Nat) : Rat)
    (f0Cands d)[f0Winner d s]? = some r.cand ∧
      r.valid = drawBool (mayExceed metric thr) (mayNotExceed metric thr) ⟨s.draws, .f0Pass, 0⟩ ∧
      r.metric = drawF32 metric ⟨s.draws, .f0Metric, 0⟩ ∧
      r.epre = drawF32 (admitNear (ivOf (energy / nre)) (s.params.tol * (energy / nre))) ⟨s.draws, .f0Epre, 0⟩ ∧
      r.rsrp = drawF32 (admitNear (ivScale (1 / nre) (f0Power s.params d (rxBlocks d s) r.cand))
        (s.params.tol * (f0PowerScale (rxBlocks d s) / nre))) ⟨s.draws, .f0Rsrp, 0⟩ ∧
      r.sinr = drawF32 metric ⟨s.draws, .f0Sinr, 0⟩ := by
  obtain ⟨c, hc, hcand, hvalid, hmetric, hepre, hrsrp, hsinr⟩ := f0Detect_finite (d := d) (s := s) hf
  have hc : c = f0Winner d s := hc
  have hget : (f0Cands d)[c]? = some (f0Detect d s).cand := by
    rw [hcand, List.getD_eq_getElem?_getD, List.getElem?_eq_getElem (hc ▸ hlt), Option.getD_some]
  have hpower : ((f0Cands d).map (f0Power s.params d (rxBlocks d s))).getD c (ivOf 0) =
      f0Power s.params d (rxBlocks d s) (f0Detect d s).cand := by
    rw [List.getD_eq_getElem?_getD, List.getElem?_map, hget, Option.map_some, Option.getD_some]
  rw [hpower] at hvalid hmetric hrsrp hsinr
  exact ⟨hc ▸ hget, hvalid, hmetric, hepre, hrsrp, hsinr⟩

/-- With exact base sequences the winner is one of the candidates. -/
theorem f0Winner_lt {d : PucchDesc} {s : State} (ht : 0 ≤ s.params.tol) (he : ParamsExact s.params)
    (hs : ParamSequences s.params) (hne : f0Cands d ≠ []) : f0Winner d s < (f0Cands d).length := by
  have hpowers : (f0Cands d).map (f0Power s.params d (rxBlocks d s)) ≠ [] := by simpa using hne
  have hscale : 0 ≤ f0PowerScale (rxBlocks d s) := by
    exact_mod_cast (candidatePowerScale_nonneg d s).trans (f0PowerScale_bounds d s).1
  have hmem := drawFrom_mem _ (f0MayWin_ne (mul_nonneg ht hscale) hpowers (fun q hq => by
    obtain ⟨c, -, rfl⟩ := List.mem_map.1 hq
    exact (f0Power_encl he hs c).1.le)) 0 ⟨s.draws, .f0Winner, 0⟩
  exact (f0MayWin_spec hpowers hmem).1.trans_eq (List.length_map _)

/-! ## The metric of Format 0 (43_format0.md R93 to R95) -/

/-- The metric, the SINR and the status of the winner (43_format0.md R95). -/
theorem f0Detect_ratio {d : PucchDesc} {s : State} (ht : 0 < s.params.tol) (he : ParamsExact s.params)
    (hs : ParamSequences s.params) (hf : SamplesFinite d s) (hne : f0Cands d ≠ []) :
    let r := f0Detect d s
    let power := candidatePower d s r.cand
    let scale := candidatePowerScale d s
    let energy := allocationEnergy d s
    ReturnsStatus s.params.tol power scale (energy - power) (energy + power) (realOf (f0Threshold d s))
        (if r.valid then 1#2 else 2#2) ∧
      ReturnsRatio s.params.tol power scale (energy - power) (energy + power) r.metric ∧
      ReturnsRatio s.params.tol power scale (energy - power) (energy + power) r.sinr := by
  intro r power scale energy
  obtain ⟨-, hvalid, hmetric, -, -, hsinr⟩ := f0Detect_winner (rxFinite_of hf) (f0Winner_lt ht.le he hs hne)
  have closed := f0MetricAdmitted_closed (d := d) ht.le he hs r.cand
  obtain ⟨hvalue, -⟩ := ratio_answers closed
  exact ⟨hvalid ▸ returnsStatus_of_admitted closed _ _, hmetric ▸ hvalue _, hsinr ▸ hvalue _⟩

/-- Settles O54: the detector's winner, with the answers that the laws of the ratios give for it, word by word. -/
theorem formatZeroWinner : Obligations.FormatZeroWinner := by
  intro d s hc hwf hp he hB hu hf
  obtain ⟨-, hcal, -, hs⟩ := hp
  have hne := f0Cands_ne hB
  obtain ⟨t, hexec, hword⟩ := procF0_record hc hwf hB hu
  obtain ⟨hmem, hmax, hrsrp⟩ := f0Detect_spec hcal.1 he hs hf hne
  obtain ⟨hstatus, hmetric, hsinr⟩ := f0Detect_ratio hcal.1 he hs hf hne
  have huci : recordWord t d.resAddr 1 = f0Uci d (f0Detect d s) := hword 0 _ rfl
  obtain ⟨-, hsr, hharq0, hharq1⟩ := uciWord_shape (f0Detect d s).valid (srOpp d) (f0Detect d s).cand.sr d.nofHarq
    (f0Detect d s).cand.harq0 (f0Detect d s).cand.harq1
  refine ⟨t, (f0Detect d s).cand, hexec, hmem, huci ▸ hsr, huci ▸ hharq0, huci ▸ hharq1, hmax, ?_, ?_, ?_, ?_⟩
  · exact hword 3 _ rfl ▸ hrsrp
  · rw [huci, f0Uci, uciWord_status]
    exact hstatus
  · exact hword 1 _ rfl ▸ hmetric
  · exact hword 4 _ rfl ▸ hsinr

/-! ## The entries of Format 1 (44_format1.md R107) -/

/-- The mux list that an undisturbed `PROC.F1` sees, as a list (20_memory.md R46). -/
theorem seenMux_eq {d : PucchDesc} {s : State} (hu : Undisturbed (.procF1 d) s) :
    seenMux d s = (List.range d.bufLen.toNat).map (fun e => memWord s.dmem (d.bufAddr.toNat + 4 * e)) := by
  refine List.ext_getElem (by rw [seenMux_length, List.length_map, List.length_range]) (fun e h1 _ => ?_)
  rw [seenMux_length] at h1
  rw [List.getElem_eq_iff, seenMux_undisturbed hu h1, List.getElem_map, List.getElem_range]

/-- `OCCS` as the set of the covers of the entries (44_format1.md R103). -/
theorem f1Occs_toFinset (f : Nat → Word) (n : Nat) :
    (f1Occs ((List.range n).map f)).toFinset = (Finset.range n).image (fun e => muxOcc (f e)) := by
  ext o
  simp [f1Occs]

/-- Word `j` of result entry `e`, at its place in the record (30_encoding.md R71). -/
theorem f1Record_getD (d : PucchDesc) (s : State) {mux : List Word} {e : Nat} {w : Word} (hw : mux[e]? = some w)
    {j : Nat} (hj : j < 6) :
    (f1Record d s mux)[3 + 6 * e + j]? = some ((f1Entry d s (f1NormOf d s mux) (f1ThrOf d)
      (f1NoiseOf (f1Samples d s (f1Occs mux))) (f1Epre d s) e w).getD j 0#32) := by
  rw [f1Record_entry d s hw hj, List.getD_eq_getElem?_getD, List.getElem?_eq_getElem (Nat.lt_of_lt_of_eq hj rfl),
    Option.getD_some]

/-- The error bound of `Xc`, as the model computes it, with the width of its enclosure. -/
theorem f1CrossBound (d : PucchDesc) (s : State) (ht : 0 ≤ s.params.tol) :
    0 ≤ s.params.tol * f1CrossScale d s ∧
      ((s.params.tol * f1CrossScale d s : Rat) : ℝ) + 1 / 2 ^ 56 * crossScale d s ≤
        errorBound s.params.tol (crossScale d s) := by
  have h0 := crossScale_nonneg d s
  obtain ⟨s1, s2⟩ := f1CrossScale_bounds d s
  have tight : Tight (f1CrossScale d s) (crossScale d s) :=
    ⟨s1, s2.trans (mul_le_mul_of_nonneg_left (by norm_num) h0)⟩
  have hwidth : 1 / 2 ^ 56 * crossScale d s ≤ 1 / 2 ^ 44 * crossScale d s :=
    mul_le_mul_of_nonneg_right (by norm_num) h0
  exact ⟨mul_nonneg ht (by exact_mod_cast h0.trans s1), (add_le_add_right hwidth _).trans (bound_le ht h0 tight)⟩

/-- The sign tests of a key, on `cr + ci`, on `cr` and on `ci`, decide as the values do outside their error bounds
(44_format1.md R107). -/
theorem f1Bits_follow {d : PucchDesc} {s : State} (ht : 0 ≤ s.params.tol) (he : ParamsExact s.params)
    (hs : ParamSequences s.params) (occ m0 : Nat) (id : DrawId) :
    let x := f1Cross d s occ m0
    let xc := crossValue d s occ m0
    let b := s.params.tol * f1CrossScale d s
    let bound := errorBound s.params.tol (crossScale d s)
    ((2 * bound < xc.re + xc.im → f1Negative (ivAdd x.re x.im) (2 * b) id = false) ∧
      (xc.re + xc.im < -(2 * bound) → f1Negative (ivAdd x.re x.im) (2 * b) id = true)) ∧
    ((bound < xc.re → f1Negative x.re b id = false) ∧ (xc.re < -bound → f1Negative x.re b id = true)) ∧
    ((bound < xc.im → f1Negative x.im b id = false) ∧ (xc.im < -bound → f1Negative x.im b id = true)) := by
  intro x xc b bound
  obtain ⟨hre, him⟩ := f1Cross_encl (d := d) he hs occ m0
  obtain ⟨hb0, hb⟩ := f1CrossBound d s ht
  have hb2 : ((2 * b : Rat) : ℝ) + (1 / 2 ^ 56 * crossScale d s + 1 / 2 ^ 56 * crossScale d s) ≤ 2 * bound := by
    rw [Rat.cast_mul, Rat.cast_ofNat]
    linarith
  have test {y : Ival} {v w c : ℝ} {q : Rat} (h : y.Encl v w) (hq : 0 ≤ q) (hw : (q : ℝ) + w ≤ c) :
      (c < v → f1Negative y q id = false) ∧ (v < -c → f1Negative y q id = true) := by
    obtain ⟨hpos, hneg⟩ := f1Negative_of h hq id
    exact ⟨fun hv => hpos (hw.trans_lt hv), fun hv => hneg (hv.trans_le (neg_le_neg hw))⟩
  exact ⟨test (ivAdd_encl hre him) (mul_nonneg zero_le_two hb0) hb2, test hre hb0 hb, test him hb0 hb⟩

/-- The fields of the UCI word of an entry: its status is that of the threshold test, but for an SR-only entry whose
bit is 1; its bits are those decided, as many as the length has (44_format1.md R107). -/
theorem f1Uci_fields (q : Nat) (pass b0 b1 : Bool) :
    (f1Uci q pass b0 b1).extractLsb' 0 2 = (if pass && !(q == 0 && b0) then 1#2 else 2#2) ∧
      (f1Uci q pass b0 b1).getLsbD 6 = (!(q == 0) && b0) ∧
      (f1Uci q pass b0 b1).getLsbD 7 = (!(q == 0) && !(q == 1) && b1) := by
  match q with
  | 0 =>
    obtain ⟨-, -, h6, h7⟩ := uciWord_shape (pass && !b0) true true 0#2 false false
    exact ⟨uciWord_status .., h6, h7⟩
  | 1 =>
    obtain ⟨-, -, h6, h7⟩ := uciWord_shape pass false false 1#2 b0 false
    have huci : f1Uci 1 pass b0 b1 = uciWord pass false false 1#2 b0 false := rfl
    simp only [huci, uciWord_status, h6, h7]
    simp
  | q + 2 =>
    obtain ⟨-, -, h6, h7⟩ := uciWord_shape pass false false 2#2 b0 b1
    have huci : f1Uci (q + 2) pass b0 b1 = uciWord pass false false 2#2 b0 b1 := rfl
    simp only [huci, uciWord_status, h6, h7]
    simp

/-- `dhat` depends on the bits that the UCI word of the entry carries, but for the bit of an SR-only entry. -/
theorem decidedSymbol_of_uci {q : Nat} {pass b0 b1 : Bool} (h : q = 0 → b0 = false) :
    decidedSymbol q ((f1Uci q pass b0 b1).getLsbD 6) ((f1Uci q pass b0 b1).getLsbD 7) = decidedSymbol q b0 b1 := by
  obtain ⟨-, h6, h7⟩ := f1Uci_fields q pass b0 b1
  rw [h6, h7]
  match q with
  | 0 => rw [h rfl]; rfl
  | 1 => rfl
  | q + 2 => simp

/-- The RSRP of an entry (44_format1.md R107). -/
theorem f1Rsrp_returns {d : PucchDesc} {s : State} (ht : 0 ≤ s.params.tol) (he : ParamsExact s.params)
    (hs : ParamSequences s.params) (occ m0 : Nat) (id : DrawId) :
    ReturnsReal s.params.tol (rsrpValue d s occ m0) (rsrpScale d s)
      (drawF32 (admitNear (f1Rsrp d s occ m0) (s.params.tol * f1RsrpScale d s)) id) := by
  intro held
  have ht' : (0 : ℝ) ≤ s.params.tol := by exact_mod_cast ht
  have h0 := rsrpScale_nonneg d s
  obtain ⟨s1, s2⟩ := f1RsrpScale_bounds d s
  have tight : Tight (f1RsrpScale d s) (rsrpScale d s) :=
    ⟨s1, s2.trans (mul_le_mul_of_nonneg_left (by norm_num) h0)⟩
  have hencl := (f1Rsrp_encl (d := d) he hs occ m0).mono (v := 1 / 2 ^ 44 * rsrpScale d s)
    (mul_le_mul_of_nonneg_right (by norm_num) h0)
  obtain ⟨hfin, hnear⟩ := draw_near hencl (b := s.params.tol * f1RsrpScale d s)
    (by push_cast; exact mul_le_mul_of_nonneg_left s1 ht') id held
  exact ⟨hfin, hnear.trans (bound_le ht h0 tight)⟩

/-- The decided bits of an entry, in its UCI word, follow `Xc` (44_format1.md R107). -/
theorem f1Entry_bits {d : PucchDesc} {s : State} (ht : 0 ≤ s.params.tol) (he : ParamsExact s.params)
    (hs : ParamSequences s.params) (hf : rxFinite (rxBlocks d s) = true) (norm thr : Rat) (nz : F1Noise) (epre : F32)
    (e : Nat) (w : Word) :
    let uci := (f1Entry d s norm thr nz epre e w).getD 1 0#32
    let xc := crossValue d s (muxOcc w) (muxCs w)
    let bound := errorBound s.params.tol (crossScale d s)
    (muxHarq w = 0 → xc.re + xc.im < -(2 * bound) → uci.extractLsb' 0 2 = 2#2) ∧
      (muxHarq w = 1 → (2 * bound < xc.re + xc.im → uci.getLsbD 6 = false) ∧
        (xc.re + xc.im < -(2 * bound) → uci.getLsbD 6 = true)) ∧
      (muxHarq w = 2 → (bound < xc.re → uci.getLsbD 6 = false) ∧ (xc.re < -bound → uci.getLsbD 6 = true) ∧
        (bound < xc.im → uci.getLsbD 7 = false) ∧ (xc.im < -bound → uci.getLsbD 7 = true)) := by
  intro uci xc bound
  obtain ⟨b0, b1, hone, htwo, huci, -⟩ := f1Entry_finite hf norm thr nz epre e w
  obtain ⟨hstatus, hbit0, hbit1⟩ := f1Uci_fields (muxHarq w) _ b0 b1
  rw [← huci] at hstatus hbit0 hbit1
  have follow := f1Bits_follow (d := d) ht he hs (muxOcc w) (muxCs w)
  obtain ⟨⟨hpos, hneg⟩, ⟨hre, hre'⟩, -⟩ := follow ⟨s.draws, .f1Bit0, e⟩
  obtain ⟨-, -, him, him'⟩ := follow ⟨s.draws, .f1Bit1, e⟩
  refine ⟨fun h0 hlt => ?_, fun h1 => ?_, fun h2 => ?_⟩
  · have hb0 : b0 = true := (hone (by omega)).trans (hneg hlt)
    rw [hstatus, h0, hb0]
    simp
  · rw [hbit0, h1, hone (by omega)]
    exact ⟨hpos, hneg⟩
  · obtain ⟨hb0, hb1⟩ := htwo (by omega)
    rw [hbit0, hbit1, h2, hb0, hb1]
    exact ⟨hre, hre', him, him'⟩

/-- The metric of an entry and its status, for the symbol of the bits in its UCI word; an SR-only entry carries no bit,
so its bit has to be decided (44_format1.md R107). -/
theorem f1Entry_metric {d : PucchDesc} {s : State} (ht : 0 ≤ s.params.tol) (he : ParamsExact s.params)
    (hs : ParamSequences s.params) (hf : rxFinite (rxBlocks d s) = true) {occs : List Nat} (hnodup : occs.Nodup)
    (hocc8 : ∀ o ∈ occs, o < 8) {norm : Rat} (hnorm : 0 < norm) (thr : Rat) (epre : F32) (e : Nat) (w : Word) :
    let entry := f1Entry d s norm thr (f1NoiseOf (f1Samples d s occs)) epre e w
    let uci := entry.getD 1 0#32
    let xc := crossValue d s (muxOcc w) (muxCs w)
    let num := numValue d s (decidedSymbol (muxHarq w) (uci.getLsbD 6) (uci.getLsbD 7)) (muxOcc w) (muxCs w)
    let sigma2 := norm * noiseValue d s occs.toFinset (f1Keep d s occs)
    let s2 := norm * noiseScaleValue d s occs.toFinset (f1Keep d s occs)
    (muxHarq w = 0 → 2 * errorBound s.params.tol (crossScale d s) < xc.re + xc.im) →
      ReturnsStatus s.params.tol num (numScaleValue d s) sigma2 s2 thr (uci.extractLsb' 0 2) ∧
        ReturnsRatio s.params.tol num (numScaleValue d s) sigma2 s2 (entry.getD 2 0#32) := by
  intro entry uci xc num sigma2 s2 hsr
  obtain ⟨b0, b1, hone, -, huci, hmetric, -⟩ :=
    f1Entry_finite hf norm thr (f1NoiseOf (f1Samples d s occs)) epre e w
  have hb0 (h0 : muxHarq w = 0) : b0 = false :=
    (hone (by omega)).trans ((f1Bits_follow (d := d) ht he hs _ _ _).1.1 (hsr h0))
  have hnum : num = numValue d s (rootOf ((f1SymbolTurn (muxHarq w) b0 b1 : Rat) : ℝ)) (muxOcc w) (muxCs w) := by
    rw [f1SymbolTurn_value, ← decidedSymbol_of_uci hb0, ← huci]
  have closed := f1MetricAdmitted_closed (d := d) ht he hs hnodup hocc8 hnorm (f1SymbolTurn (muxHarq w) b0 b1)
    (muxOcc w) (muxCs w) (f1NumPositive d s (f1SymbolTurn (muxHarq w) b0 b1) (muxOcc w) (muxCs w))
  rw [← hnum] at closed
  have hvalid : (muxHarq w == 0 && b0) = false := by
    by_cases h0 : muxHarq w = 0
    · rw [hb0 h0, Bool.and_false]
    · rw [beq_false_of_ne h0, Bool.false_and]
  obtain ⟨hstatus, -⟩ := f1Uci_fields (muxHarq w) _ b0 b1
  rw [← huci, hvalid, Bool.not_false, Bool.and_true] at hstatus
  exact ⟨hstatus ▸ returnsStatus_of_admitted closed _ _, hmetric ▸ (ratio_answers closed).1 _⟩

/-- Settles O55: each word of the record is one of an entry, and each answer of an entry is one of the laws above. -/
theorem formatOneDecision : Obligations.FormatOneDecision := by
  intro d s hc hwf hp he hB hu hf tol muxWord occOf occs norm
  have hnorm := f1NormOf_pos (d := d) hp ((List.range d.bufLen.toNat).map muxWord)
  obtain ⟨-, ⟨ht, -⟩, -, hs⟩ := hp
  have ht := ht.le
  have hfin := rxFinite_of hf
  obtain ⟨t, hexec, hword⟩ := procF1_record hc hwf hB hu
  rw [show seenMux d s = (List.range d.bufLen.toNat).map muxWord from seenMux_eq hu] at hword
  have hoccs : (f1Occs ((List.range d.bufLen.toNat).map muxWord)).toFinset = occs := f1Occs_toFinset muxWord _
  obtain ⟨hnodup, hocc8⟩ := f1Occs_spec ((List.range d.bufLen.toNat).map muxWord)
  refine ⟨t, f1Keep d s (f1Occs _), hexec, hoccs ▸ f1Keep_kept ht he hs _, ?_⟩
  rw [← hoccs]
  refine ⟨hword 2 _ rfl ▸ f1NoiseVar_returns ht he hs hfin hnodup hocc8, fun e hlt => ?_⟩
  have hmem : ((List.range d.bufLen.toNat).map muxWord)[e]? = some (muxWord e) := by
    rw [List.getElem?_map, List.getElem?_range hlt, Option.map_some]
  have hentry (n j : Nat) (hj : j < 6) (hn : n = 3 + 6 * e + j + 1) :=
    (congrArg (recordWord t d.resAddr) hn).trans (hword _ _ (f1Record_getD d s hmem hj))
  obtain ⟨-, -, -, -, -, -, hrsrp, hsinr⟩ := f1Entry_finite hfin (f1NormOf d s _) (f1ThrOf d)
    (f1NoiseOf (f1Samples d s (f1Occs ((List.range d.bufLen.toNat).map muxWord)))) (f1Epre d s) e (muxWord e)
  dsimp only
  rw [hentry (5 + 6 * e) 1 (by decide) (by omega), hentry (6 + 6 * e) 2 (by decide) (by omega),
    hentry (8 + 6 * e) 4 (by decide) (by omega), hentry (9 + 6 * e) 5 (by decide) (by omega), hrsrp, hsinr]
  obtain ⟨hbits0, hbits1, hbits2⟩ := f1Entry_bits ht he hs hfin _ (f1ThrOf d) _ (f1Epre d s) e (muxWord e)
  exact ⟨hbits0, hbits1, hbits2, f1Rsrp_returns ht he hs _ _ _,
    (ratio_answers (f1SinrAdmitted_closed ht he hs hnodup hocc8 _ _)).1 _,
    f1Entry_metric ht he hs hfin hnodup hocc8 hnorm _ _ e (muxWord e)⟩

end Sys2Proof.Proofs
end

section
/-! The corner cases of Format 0 (43_format0.md R94, R97). -/

namespace Sys2Proof.Proofs

open Sys2Proof Sys2Proof.Machine

/-! ## What stage B ensures of a Format 0 command -/

/-- A Format 0 command that passes stage B has resource elements (46_dispatcher_pool.md R137). -/
theorem f0_elements_pos {d : PucchDesc} {s : State} (hB : stageB .f0 d s = none) :
    0 < nofSym d ∧ 0 < nofPorts d := by
  obtain ⟨-, h2, -, h4, -⟩ := (stageB_none _ _ _).1 hB
  simp only [failB2, symbolRange, Bool.not_eq_false', Bool.and_eq_true] at h2
  simp only [failB4, Bool.or_eq_false_iff, decide_eq_false_iff_not] at h4
  obtain ⟨⟨⟨hsym, -⟩, -⟩, -⟩ := h2
  obtain ⟨⟨⟨hports, -⟩, -⟩, -⟩ := h4
  exact ⟨of_decide_eq_true hsym, Nat.pos_of_ne_zero hports⟩

/-- Its threshold is positive and below the least strong metric (00_scope.md R8, 43_format0.md R96). -/
theorem f0Threshold_bounds {d : PucchDesc} {s : State} (hp : ParamsLegal s.params) (hB : stageB .f0 d s = none) :
    0 < f32Rat (f0Threshold d s) ∧ f32Rat (f0Threshold d s) < 1 / (4 * s.params.tol) := by
  obtain ⟨-, -, -, -, -, -, -, -, -, -, h11, -⟩ := (stageB_none _ _ _).1 hB
  obtain ⟨x, hx⟩ := Option.isSome_iff_exists.1 (Option.isNone_eq_false_iff.1 h11)
  rw [f0Threshold, hx]
  exact f0Thr_pos hp hx

/-- The bits that the record shows are those of the winner (43_format0.md R95). -/
theorem f0Uci_bits (d : PucchDesc) (r : F0Result) : (f0Uci d r).getLsbD 3 = r.cand.sr ∧
    (f0Uci d r).getLsbD 6 = r.cand.harq0 ∧ (f0Uci d r).getLsbD 7 = r.cand.harq1 :=
  (uciWord_shape r.valid (srOpp d) r.cand.sr d.nofHarq r.cand.harq0 r.cand.harq1).2

/-! ## A silent grid (43_format0.md R97) -/

theorem cbMul_zero (b : CBox) : cbMul (cbOf 0 0) b = cbOf 0 0 := by
  simp [cbMul, cbOf, ivOf, ivMul, ivSub, ivAdd, ivNeg, ratMin, ratMax]

theorem csBox_zero {s : CSum} (h : ∀ t ∈ s, t.coef = cbOf 0 0) : csBox s = cbOf 0 0 := by
  induction s with
  | nil => rfl
  | cons t s ih =>
    show cbAdd (cbMul t.coef (cis t.turn)) (csBox s) = _
    rw [ih (fun x hx => h x (List.mem_cons_of_mem _ hx)), h t (List.mem_cons_self ..), cbMul_zero]
    simp [cbAdd, cbOf, ivOf, ivAdd]

/-- Every sample of a block is a zero. -/
def BlockSilent (b : RxBlock) : Prop := ∀ y ∈ b.ys, f32Rat y.re = 0 ∧ f32Rat y.im = 0

theorem BlockSilent.energy {b : RxBlock} (h : BlockSilent b) : blockEnergy b = 0 := by
  rw [blockEnergy, ratSum_const _ _ 0 (fun y hy => ?_), mul_zero]
  simp [qcAbs2, qcOf, h y hy]

theorem BlockSilent.amp {b : RxBlock} (h : BlockSilent b) : blockAmp b = 0 := by
  rw [blockAmp, ratSum_const _ _ 0 (fun y hy => ?_), mul_zero]
  rw [qcAbsHi, qcAbs2, qcOf, (h y hy).1, (h y hy).2]
  decide +kernel

/-- Correlated with any sequence, exactly given or not, a silent block gives 0. -/
theorem BlockSilent.correlate {b : RxBlock} (h : BlockSilent b) (p : Params) (t : Nat) :
    csBox (correlate p b t) = cbOf 0 0 := by
  refine csBox_zero (fun x hx => ?_)
  obtain ⟨k, hk, rfl⟩ := List.mem_mapIdx.1 hx
  obtain ⟨hre, him⟩ := h b.ys[k] (List.getElem_mem _)
  dsimp only
  rw [hre, him, cbMul_zero]

theorem silent_power {p : Params} {d : PucchDesc} {bs : List RxBlock} (h : ∀ b ∈ bs, BlockSilent b) (c : F0Cand) :
    f0Power p d bs c = ivOf 0 := by
  rw [f0Power, ivSum_const _ _ 0 (fun b hb => ?_), mul_zero]
  rw [(h b hb).correlate]
  decide +kernel

theorem silent_scale {bs : List RxBlock} (h : ∀ b ∈ bs, BlockSilent b) : f0PowerScale bs = 0 := by
  rw [f0PowerScale, ratSum_const _ _ 0 (fun b hb => by rw [(h b hb).amp]; norm_num), mul_zero]

theorem silent_energy {bs : List RxBlock} (h : ∀ b ∈ bs, BlockSilent b) : ratSum (bs.map blockEnergy) = 0 := by
  rw [ratSum_const _ _ 0 (fun b hb => (h b hb).energy), mul_zero]

theorem c64Finite_of_isZero {z : C64} (h : c64IsZero z = true) : c64Finite z = true := by
  rw [c64IsZero, Bool.and_eq_true, f32IsZero_mag, f32IsZero_mag] at h
  rw [c64Finite, Bool.and_eq_true, f32Finite_iff, f32Finite_iff]
  omega

theorem silent_blocks {d : PucchDesc} {s : State}
    (h : ∀ i p k, i < d.nofSym.toNat → p < d.nofPorts.toNat → k < 12 → c64IsZero (sampleAt d s i p k) = true) :
    ∀ b ∈ rxBlocks d s, BlockSilent b := by
  intro b hb y hy
  obtain ⟨i, p, hi, hport, rfl⟩ := mem_rxBlocks hb
  obtain ⟨k, hk, rfl⟩ := List.mem_map.1 hy
  have hz := h i p k hi hport (List.mem_range.1 hk)
  rw [c64IsZero, Bool.and_eq_true, f32IsZero_iff, f32IsZero_iff] at hz
  exact hz

/-- The detector's answer to a silent grid: the first candidate, invalid, and zeros (43_format0.md R97). -/
theorem f0Detect_silent {d : PucchDesc} {s : State} (hp : ParamsLegal s.params) (hB : stageB .f0 d s = none)
    (h : ∀ i p k, i < d.nofSym.toNat → p < d.nofPorts.toNat → k < 12 → c64IsZero (sampleAt d s i p k) = true) :
    let r := f0Detect d s
    (f0Cands d)[0]? = some r.cand ∧ r.valid = false ∧ f32IsZero r.metric = true ∧ f32IsZero r.epre = true ∧
      f32IsZero r.rsrp = true ∧ f32IsZero r.sinr = true := by
  intro r
  have hblocks := silent_blocks h
  have hscale := silent_scale hblocks
  have hfin : rxFinite (rxBlocks d s) = true :=
    rxFinite_of (fun i p k hi hport hk => c64Finite_of_isZero (h i p k hi hport hk))
  have hwin : f0Winner d s = 0 := by
    rw [f0Winner, hscale, mul_zero, f0MayWin, if_pos rfl]
    rfl
  have hlt : f0Winner d s < (f0Cands d).length := hwin ▸ List.length_pos_of_ne_nil (f0Cands_ne hB)
  obtain ⟨hcand, hvalid, hmetric, hepre, hrsrp, hsinr⟩ := f0Detect_winner hfin hlt
  have hzero : f0Metric d s r.cand = .within 0 0 := by rw [f0Metric, f0MetricAdmitted, if_pos hscale]
  rw [hzero] at hvalid hmetric hsinr
  rw [silent_energy hblocks] at hepre
  rw [silent_power hblocks, hscale] at hrsrp
  refine ⟨hwin ▸ hcand, hvalid.trans ?_, hmetric ▸ draw_zero rfl _, hepre ▸ draw_zero ?_ _, hrsrp ▸ draw_zero ?_ _,
    hsinr ▸ draw_zero rfl _⟩
  · have hreal : realOf 0#32 = ((0 : Rat) : ℝ) := congrArg _ ((f32IsZero_iff _).1 (by decide))
    exact (within_decides ⟨0#32, by decide, hreal.ge, hreal.le⟩ _).2 (f0Threshold_bounds hp hB).1.le
  · simp [admitNear, ivOf]
  · simp [admitNear, ivOf, ivScale]

end Sys2Proof.Proofs
end

section
/-! A noise-free grid of Format 0 (43_format0.md R94). -/

namespace Sys2Proof.Proofs

open Sys2Proof Sys2Proof.Machine

/-- The grid is the reference of candidate `c`, a sequence of quarter turns: no base sequence is listed, and the shift
in symbol `i` is `3 * turns i` (43_format0.md R93, R94). -/
structure QuarterReference (d : PucchDesc) (s : State) (c : F0Cand) (turns : Nat → Nat) : Prop where
  ones   : s.params.paprTab = []
  shift  : ∀ i, i < d.nofSym.toNat → (d.initCs.toNat + c.mcs + (sequenceAt d s i).ncs.val) % 12 = 3 * turns i
  sample : ∀ i p k, i < d.nofSym.toNat → p < d.nofPorts.toNat → k < 12 →
    SampleIs (sampleAt d s i p k) (if turns i * k % 4 = 0 then 1 else if turns i * k % 4 = 2 then -1 else 0)
      (if turns i * k % 4 = 1 then 1 else if turns i * k % 4 = 3 then -1 else 0)

/-! ## The winner -/

/-- The value of sample `k` of the reference at shift `3 * q`. -/
theorem quarter_value {z : C64} {q k : Nat}
    (h : SampleIs z (if q * k % 4 = 0 then 1 else if q * k % 4 = 2 then -1 else 0)
      (if q * k % 4 = 1 then 1 else if q * k % 4 = 3 then -1 else 0)) :
    complexOf z = rootOf (((3 * q * k % 12 : Nat) : ℝ) / (12 : Nat)) := by
  obtain ⟨-, hre, him⟩ := h
  have hroot : rootOf (((3 * q * k % 12 : Nat) : ℝ) / (12 : Nat)) = Complex.I ^ (q * k % 4) := by
    rw [show 3 * q * k % 12 = 3 * (q * k % 4) by rw [mul_assoc]; omega, ← rootOf_quarter]
    congr 1
    push_cast
    ring
  rw [hroot, complexOf, realOf, realOf, hre, him]
  have h4 : q * k % 4 < 4 := Nat.mod_lt _ (by decide)
  generalize q * k % 4 = r at h4
  interval_cases r <;> simp [Complex.ext_iff, pow_succ]

/-- With base sequences of ones, an element of the sequence at a shift (00_scope.md R11). -/
theorem lowPaprValue_ones {p : Params} (h : p.paprTab = []) (q : SeqVal) (t k : Nat) :
    lowPaprValue p q t k = rootOf (((t * k % 12 : Nat) : ℝ) / (12 : Nat)) := by
  have hone : (⟨((UnitPhase.one.unit.re.lo : Rat) : ℝ), ((UnitPhase.one.unit.im.lo : Rat) : ℝ)⟩ : ℂ) = 1 := by
    simp [UnitPhase.one, cbOf, ivOf, Complex.ext_iff]
  have hbase : lowPapr p q 0 k = UnitPhase.one := by
    simp [lowPapr, h, UnitPhase.one]
  rw [rootOf_mod _ _ (by decide), lowPaprValue, hbase]
  rw [hone, show ((UnitPhase.one.turn : Rat) : ℝ) = ((0 : ℤ) : ℝ) by simp [UnitPhase.one], rootOf_int, one_mul, one_mul]
  push_cast
  rfl

section

variable {d : PucchDesc} {s : State} {c : F0Cand} {turns : Nat → Nat}

/-- The reference correlates with the sequence of its own shift, and with no other. -/
theorem QuarterReference.correlation (h : QuarterReference d s c turns) {i p : Nat} (hi : i < d.nofSym.toNat)
    (hp : p < d.nofPorts.toNat) (t : Nat) : Machine.correlation d s i p t =
      if (t + (sequenceAt d s i).ncs.val) % 12 = 3 * turns i then 12 else 0 := by
  have hlt : 3 * turns i < 12 := h.shift i hi ▸ Nat.mod_lt _ (by decide)
  have horth := cyclic_orthogonal (Nat.mod_lt (t + (sequenceAt d s i).ncs.val) (by decide : 0 < 12)) hlt
  refine (Finset.sum_congr rfl (fun k hk => ?_)).trans (horth.trans (by push_cast; rfl))
  rw [quarter_value (h.sample i p k hi hp (Finset.mem_range.1 hk)), lowPaprValue_ones h.ones, mul_comm]

theorem QuarterReference.norm_sample (h : QuarterReference d s c turns) {i p k : Nat} (hi : i < d.nofSym.toNat)
    (hp : p < d.nofPorts.toNat) (hk : k < 12) : ‖complexOf (sampleAt d s i p k)‖ = 1 := by
  rw [quarter_value (h.sample i p k hi hp hk), rootOf_norm]

theorem QuarterReference.finite (h : QuarterReference d s c turns) : SamplesFinite d s :=
  fun i p k hi hp hk => (h.sample i p k hi hp hk).1

theorem QuarterReference.scale (h : QuarterReference d s c turns) :
    candidatePowerScale d s = 12 * d.nofPorts.toNat * d.nofSym.toNat := by
  have each : ∀ i ∈ Finset.range d.nofSym.toNat, ∀ p ∈ Finset.range d.nofPorts.toNat,
      amplitude d s i p ^ 2 / 12 = 12 := by
    intro i hi p hp
    have hamp : amplitude d s i p = 12 := (Finset.sum_congr rfl (fun k hk => h.norm_sample (Finset.mem_range.1 hi)
      (Finset.mem_range.1 hp) (Finset.mem_range.1 hk))).trans (by simp)
    rw [hamp]
    norm_num
  rw [candidatePowerScale, Finset.sum_congr rfl (fun i hi => Finset.sum_congr rfl (each i hi))]
  simp
  ring

theorem QuarterReference.power_self (h : QuarterReference d s c turns) :
    candidatePower d s c = 12 * d.nofPorts.toNat * d.nofSym.toNat := by
  have each : ∀ i ∈ Finset.range d.nofSym.toNat, ∀ p ∈ Finset.range d.nofPorts.toNat,
      ‖Machine.correlation d s i p (d.initCs.toNat + c.mcs)‖ ^ 2 / 12 = 12 := by
    intro i hi p hp
    have hi := Finset.mem_range.1 hi
    rw [h.correlation hi (Finset.mem_range.1 hp), if_pos (h.shift i hi)]
    norm_num
  rw [candidatePower, Finset.sum_congr rfl (fun i hi => Finset.sum_congr rfl (each i hi))]
  simp
  ring

/-- The shifts of the candidates of a table differ (43_format0.md R90). -/
theorem f0Cands_mcs : ∀ {a : F0Cand}, a ∈ f0Cands d → a.mcs < 12 ∧ ∀ b, b ∈ f0Cands d → a.mcs = b.mcs → a = b := by
  have table : ∀ n, n < 3 → ∀ sr, ∀ a ∈ f0Table n sr, a.mcs < 12 ∧ ∀ b ∈ f0Table n sr, a.mcs = b.mcs → a = b := by
    decide
  intro a ha
  rcases Nat.lt_or_ge d.nofHarq.toNat 3 with hn | hn
  · exact table _ hn _ a ha
  · rw [f0Cands, f0Table_eq_nil (.inl hn)] at ha
    cases ha

theorem QuarterReference.power_other (h : QuarterReference d s c turns) (hc : c ∈ f0Cands d) {a : F0Cand}
    (ha : a ∈ f0Cands d) (hne : a ≠ c) : candidatePower d s a = 0 := by
  obtain ⟨hc12, -⟩ := f0Cands_mcs hc
  obtain ⟨ha12, hinj⟩ := f0Cands_mcs ha
  have hmcs : a.mcs ≠ c.mcs := fun he => hne (hinj c hc he)
  refine Finset.sum_eq_zero (fun i hi => Finset.sum_eq_zero (fun p hp => ?_))
  have hi := Finset.mem_range.1 hi
  have hshift := h.shift i hi
  rw [h.correlation hi (Finset.mem_range.1 hp), if_neg (by omega)]
  norm_num

/-- The candidate of the reference wins: every other one has power 0, farther below it than any error bound reaches. -/
theorem QuarterReference.winner (h : QuarterReference d s c turns) (hp : ParamsLegal s.params)
    (hB : stageB .f0 d s = none) (hc : c ∈ f0Cands d) : (f0Detect d s).cand = c := by
  obtain ⟨-, ⟨ht, hsmall, -⟩, -, hs⟩ := hp
  have he : ParamsExact s.params := fun e hmem => by rw [h.ones] at hmem; cases hmem
  obtain ⟨hmem, hmax, -⟩ := f0Detect_spec ht he hs h.finite (f0Cands_ne hB)
  by_contra hne
  have hle := hmax c hc
  rw [h.power_other hc hmem hne, h.power_self, h.scale, errorBound_mul] at hle
  obtain ⟨hsym, hports⟩ := f0_elements_pos hB
  have hn : (0 : ℝ) < 12 * d.nofPorts.toNat * d.nofSym.toNat := by
    have : (0 : ℝ) < d.nofPorts.toNat := by exact_mod_cast hports
    have : (0 : ℝ) < d.nofSym.toNat := by exact_mod_cast hsym
    positivity
  have htol : s.params.tol < 1 / 20 := by
    rw [lt_div_iff₀ (by positivity)] at hsmall
    linarith
  have htol : (s.params.tol : ℝ) < 1 / 20 := by
    have := (Rat.cast_lt (K := ℝ)).2 htol
    push_cast at this
    exact this
  nlinarith

/-! ## The exact values of a reference block -/

/-- The values of a block's samples at shift `3 * q`. -/
def quarterVals (q : Nat) : List (Rat × Rat) :=
  (List.range 12).map (fun k =>
    (if q * k % 4 = 0 then 1 else if q * k % 4 = 2 then -1 else 0,
      if q * k % 4 = 1 then 1 else if q * k % 4 = 3 then -1 else 0))

/-- Their correlation with the sequence of their own shift. -/
def quarterSum (q : Nat) : CSum :=
  (quarterVals q).mapIdx (fun k z => ⟨cbOf z.1 z.2, -(((3 * q * k : Nat) : Rat) / 12)⟩)

theorem quarterVals_energy : ∀ q, q < 4 → ratSum ((quarterVals q).map (fun z => z.1 * z.1 + z.2 * z.2)) = 12 := by
  decide +kernel

theorem quarterVals_amp : ∀ q, q < 4 →
    ratSum ((quarterVals q).map (fun z => sqrtHi (z.1 * z.1 + z.2 * z.2))) = 12 := by
  decide +kernel

theorem quarterSum_power : ∀ q, q < 4 → ivScale (1 / 12) (cbAbs2 (csBox (quarterSum q))) = ivOf 12 := by
  decide +kernel

theorem quarterSum_residual : ∀ q, q < 4 →
    (quarterSum q).all (fun t => csIsZero (t :: csScale (-1 / 12) (quarterSum q))) = true := by
  decide +kernel

/-! ## The detector's answer -/

theorem QuarterReference.blockVals (h : QuarterReference d s c turns) {i p : Nat} (hi : i < d.nofSym.toNat)
    (hp : p < d.nofPorts.toNat) : Machine.blockVals (rxBlock d s i p) = quarterVals (turns i) := by
  rw [Machine.blockVals, rxBlock, List.map_map]
  refine List.map_congr_left (fun k hk => ?_)
  obtain ⟨-, hre, him⟩ := h.sample i p k hi hp (List.mem_range.1 hk)
  exact Prod.ext hre him

/-- Every block of the reference has energy 12, amplitude 12 and power 12 at its own shift, and leaves no residual. -/
theorem QuarterReference.block (h : QuarterReference d s c turns) {b : RxBlock} (hb : b ∈ rxBlocks d s) :
    let corr := correlate s.params b (f0Shift d c b)
    blockEnergy b = 12 ∧ blockAmp b = 12 ∧ ivScale (1 / 12) (cbAbs2 (csBox corr)) = ivOf 12 ∧
      corr.all (fun t => csIsZero (t :: csScale (-1 / 12) corr)) = true := by
  intro corr
  obtain ⟨i, p, hi, hp, rfl⟩ := mem_rxBlocks hb
  have hvals := h.blockVals hi hp
  have hq : turns i < 4 := by
    have := h.shift i hi
    omega
  have hcorr : corr = quarterSum (turns i) := by
    rw [show corr = _ from correlate_ones h.ones _ _, hvals, show f0Shift d c (rxBlock d s i p) = _ from h.shift i hi]
    rfl
  rw [blockEnergy_vals, blockAmp_vals, hvals, hcorr]
  exact ⟨quarterVals_energy _ hq, quarterVals_amp _ hq, quarterSum_power _ hq, quarterSum_residual _ hq⟩

/-- The energy, the scale and the power of the reference are all `12 * P * N`, and its residual is 0, exactly. -/
theorem QuarterReference.totals (h : QuarterReference d s c turns) :
    let n : Rat := ((12 * nofPorts d * nofSym d : Nat) : Rat)
    ratSum ((rxBlocks d s).map blockEnergy) = n ∧ f0PowerScale (rxBlocks d s) = n ∧
      f0Power s.params d (rxBlocks d s) c = ivOf n ∧ f0ResidualZero s.params d (rxBlocks d s) c = true := by
  intro n
  have hn : ((rxBlocks d s).length : Rat) * 12 = n := by
    show _ = ((12 * nofPorts d * nofSym d : Nat) : Rat)
    rw [rxBlocks_length]
    push_cast
    ring
  refine ⟨?_, ?_, ?_, List.all_eq_true.2 (fun b hb => (h.block hb).2.2.2)⟩
  · rw [ratSum_const _ _ 12 (fun b hb => (h.block hb).1), hn]
  · rw [f0PowerScale, ratSum_const _ _ 12 (fun b hb => by rw [(h.block hb).2.1]; norm_num), hn]
  · rw [f0Power, ivSum_const _ _ 12 (fun b hb => (h.block hb).2.2.1), hn]

/-- The threshold test on a metric that is `+inf` or at least a bound above the threshold passes. -/
theorem atLeast_passes {b thr : Rat} (h : thr < b) (id : DrawId) :
    drawBool (mayExceed (.atLeast b) thr) (mayNotExceed (.atLeast b) thr) id = true := by
  have hnot : f32Between b thr = false := by
    unfold f32Between
    cases e : f32Ceil b with
    | none => rfl
    | some x => exact decide_eq_false (not_le.2 (h.trans_le ((f32Ceil_spec b).1 x e).2.1))
  simp [drawBool, mayExceed, mayNotExceed, hnot]

/-- A value near 1 comes out near 1: binary32 holds 1. -/
theorem draw_one {tol : Rat} (ht : 0 ≤ tol) (id : DrawId) :
    admits (.within (1 - tol) (1 + tol)) (drawF32 (.within (1 - tol) (1 + tol)) id) = true := by
  have hone : f32Rat 0x3F800000#32 = 1 := by decide +kernel
  refine drawF32_admits ⟨0x3F800000#32, ?_⟩
  simp only [admits, hone, Bool.and_eq_true, decide_eq_true_eq]
  exact ⟨⟨by decide, by linarith⟩, by linarith⟩

/-- The detector's answer to the reference of a candidate (43_format0.md R94, R95). -/
theorem QuarterReference.answer (h : QuarterReference d s c turns) (hp : ParamsLegal s.params)
    (hB : stageB .f0 d s = none) (hc : c ∈ f0Cands d) :
    let r := f0Detect d s
    let strong : Admitted := .atLeast (1 / (4 * s.params.tol))
    let one : Admitted := .within (1 - s.params.tol) (1 + s.params.tol)
    r.valid = true ∧ r.cand = c ∧ admits strong r.metric = true ∧ admits one r.epre = true ∧
      admits one r.rsrp = true ∧ admits strong r.sinr = true := by
  intro r strong one
  have ⟨_, hcal, _, hs⟩ := hp
  have ht := hcal.1.le
  have he : ParamsExact s.params := fun e hmem => by rw [h.ones] at hmem; cases hmem
  have hcand : r.cand = c := h.winner hp hB hc
  obtain ⟨henergy, hscale, hpower, hresidual⟩ := h.totals
  obtain ⟨hsym, hports⟩ := f0_elements_pos hB
  have hn : ((12 * nofPorts d * nofSym d : Nat) : Rat) ≠ 0 := by
    exact_mod_cast (Nat.mul_pos (Nat.mul_pos (by decide) hports) hsym).ne'
  obtain ⟨-, hvalid, hmetric, hepre, hrsrp, hsinr⟩ := f0Detect_winner (rxFinite_of h.finite)
    (f0Winner_lt ht he hs (f0Cands_ne hB))
  have hstrong : f0Metric d s r.cand = strong := by
    rw [hcand, f0Metric, f0MetricAdmitted, hscale, if_neg hn, hresidual, if_pos rfl]
  rw [hstrong] at hvalid hmetric hsinr
  rw [henergy, div_self hn] at hepre
  rw [show (f0Detect d s).cand = c from hcand, hpower, hscale, div_self hn] at hrsrp
  have hdraw (id : DrawId) : admits strong (drawF32 strong id) = true := drawF32_admits ⟨f32PosInf, rfl⟩
  refine ⟨hvalid.trans (atLeast_passes (f0Threshold_bounds hp hB).2 _), hcand, hmetric ▸ hdraw _, hepre ▸ ?_,
    hrsrp ▸ ?_, hsinr ▸ hdraw _⟩
  · rw [mul_one]
    exact draw_one ht _
  · rw [mul_one, ivScale, if_pos (by positivity), ivOf, one_div_mul_cancel hn]
    exact draw_one ht _

end

/-! ## Both corner cases -/

/-- Settles O53: the record's words are those of the detector's answers in the two cases. -/
theorem silentFormatZero : Obligations.SilentFormatZero := by
  intro d s hc hwf hp hB hu
  obtain ⟨t, hexec, hword⟩ := procF0_record hc hwf hB hu
  refine ⟨t, hexec, ?_⟩
  intro uci bitsOf
  have huci : uci = f0Uci d (f0Detect d s) := hword 0 _ rfl
  have hstatus : uci.extractLsb' 0 2 = if (f0Detect d s).valid then 1#2 else 2#2 := huci ▸ uciWord_status ..
  have hbits : bitsOf (f0Detect d s).cand := by
    show uci.getLsbD 3 = _ ∧ uci.getLsbD 6 = _ ∧ uci.getLsbD 7 = _
    exact huci ▸ f0Uci_bits d _
  rw [hword 1 _ rfl, hword 2 _ rfl, hword 3 _ rfl, hword 4 _ rfl, hstatus]
  refine ⟨fun hsilent => ?_, fun c turns hmem hones hshift hsample => ?_⟩
  · obtain ⟨hcand, hvalid, hrest⟩ := f0Detect_silent hp hB hsilent
    refine ⟨by rw [hvalid]; rfl, fun c h0 => ?_, hrest⟩
    rw [hcand] at h0
    exact Option.some.inj h0 ▸ hbits
  · obtain ⟨hvalid, hcand, hrest⟩ := (QuarterReference.mk hones hshift hsample).answer hp hB hmem
    exact ⟨by rw [hvalid]; rfl, hcand ▸ hbits, hrest⟩

end Sys2Proof.Proofs
end

section
/-! The invariant of the machine, one operation at a time (10_state.md R22 to R33, 46_dispatcher_pool.md R131,
R133). -/

namespace Sys2Proof.Proofs

open Sys2Proof Sys2Proof.Machine

/-! ## Calls -/

theorem callInst_eq_some {x : CallState} {k : Nat} : callInst x = some k ↔ ∃ desc, x = .running desc k := by
  cases x <;> simp [callInst]

/-- Only a port that exists has a call. -/
theorem port_exists {s : State} {c : Nat} (h : (getPort s c).call ≠ .idle) : c < s.ports.length := by
  by_contra hc
  exact h (by rw [getPort_of_ge s (Nat.le_of_not_lt hc)]; rfl)

theorem mem_freeInsts {s : State} {k : Nat} :
    k ∈ freeInsts s ↔ k < s.insts.length ∧ (getInst s k).lease = false := by
  simp [freeInsts]

theorem complete_call (c c' : Nat) (s : State) :
    (getPort (complete c s) c').call = if c' = c then .idle else (getPort s c').call := by
  rw [complete_getPort]
  by_cases hc : c' = c
  · subst hc
    by_cases hl : c' < s.ports.length
    · simp [hl]
    · simp [hl, getPort_of_ge s (Nat.le_of_not_lt hl), Port.atReset]
  · simp [hc]

theorem complete_snap (c c' : Nat) (s : State) : (getPort (complete c s) c').snap = (getPort s c').snap := by
  rw [complete_getPort]
  split
  · rename_i h
    rw [h.1]
  · rfl

theorem complete_lease (c k : Nat) (s : State) : (getInst (complete c s) k).lease =
    if callInst (getPort s c).call = some k then false else (getInst s k).lease := by
  rw [complete_getInst]
  split <;> rfl

theorem complete_owner (c k : Nat) (s : State) : (getInst (complete c s) k).owner = (getInst s k).owner := by
  rw [complete_getInst]
  split <;> rfl

theorem complete_op (c k : Nat) (s : State) : (getInst (complete c s) k).op = (getInst s k).op := by
  rw [complete_getInst]
  split <;> rfl

theorem takeLease_getPort (c k : Nat) (desc : Word) (words : List Word) (s : State) (c' : Nat) :
    getPort (takeLease c k desc words s) c' =
      if c' = c ∧ c < s.ports.length then { getPort s c with call := .running desc k } else getPort s c' :=
  getPort_setPort _ c _ c'

theorem takeLease_getInst (c k : Nat) (desc : Word) (words : List Word) (s : State) (k' : Nat) :
    getInst (takeLease c k desc words s) k' =
      if k' = k ∧ k < s.insts.length then { getInst s k with lease := true, owner := c, op := ⟨words, []⟩ }
      else getInst s k' :=
  getInst_setInst s k _ k'

/-! ## The leases and the latches -/

/-- The part of the invariant that speaks of the ports and the instances. -/
structure LeaseInv (s : State) : Prop where
  shape   : s.shapeOk
  calls   : s.callsLeased
  leases  : s.leasesOwned
  latches : s.latchesOk

theorem inv_iff (s : State) : s.Inv ↔ LeaseInv s ∧ s.memoryOk ∧ s.faultOk :=
  ⟨fun h => ⟨⟨h.shape, h.calls, h.leases, h.latches⟩, h.memory, h.faultReg⟩,
    fun ⟨l, m, f⟩ => ⟨l.shape, m, f, l.calls, l.leases, l.latches⟩⟩

/-- The states agree on all that `LeaseInv` speaks of. -/
structure SameLeases (s t : State) : Prop where
  params : t.params = s.params
  nports : t.ports.length = s.ports.length
  ninsts : t.insts.length = s.insts.length
  call   : ∀ c, (getPort t c).call = (getPort s c).call
  snap   : ∀ c, (getPort t c).snap.words = (getPort s c).snap.words
  lease  : ∀ k, (getInst t k).lease = (getInst s k).lease
  owner  : ∀ k, (getInst t k).owner = (getInst s k).owner
  op     : ∀ k, (getInst t k).op.words = (getInst s k).op.words

/-- Ports and instances that are the same have the same leases. -/
theorem SameLeases.of_eq {s t : State} (params : t.params = s.params) (ports : t.ports = s.ports)
    (insts : t.insts = s.insts) : SameLeases s t where
  params := params
  nports := by rw [ports]
  ninsts := by rw [insts]
  call c := by rw [getPort_congr ports]
  snap c := by rw [getPort_congr ports]
  lease k := by rw [getInst_congr insts]
  owner k := by rw [getInst_congr insts]
  op k := by rw [getInst_congr insts]

theorem LeaseInv.of_same {s t : State} (hs : LeaseInv s) (h : SameLeases s t) : LeaseInv t where
  shape := by
    obtain ⟨hp, hi⟩ := hs.shape
    exact ⟨by rw [h.nports, hp, h.params], by rw [h.ninsts, hi, h.params]⟩
  calls c desc k hc hr := by
    rw [h.nports] at hc
    rw [h.call] at hr
    rw [h.ninsts, h.lease, h.owner]
    exact hs.calls c desc k hc hr
  leases k hk hl := by
    rw [h.ninsts] at hk
    rw [h.lease] at hl
    rw [h.nports, h.owner, h.call]
    exact hs.leases k hk hl
  latches := by
    obtain ⟨hrun, hval⟩ := hs.latches
    refine ⟨fun c desc k hc hr => ?_, fun c desc hc hv => ?_⟩
    · rw [h.nports] at hc
      rw [h.call] at hr
      rw [h.params, h.op]
      exact hrun c desc k hc hr
    · rw [h.nports] at hc
      rw [h.call] at hv
      rw [h.params, h.snap]
      exact hval c desc hc hv

/-- A call that holds no lease takes another state without one: pending, or validating a command it has latched. -/
theorem setPort_leaseInv {s : State} (hs : LeaseInv s) {c : Nat} {p : Port}
    (hold : ∀ desc k, (getPort s c).call ≠ .running desc k) (hnew : ∀ desc k, p.call ≠ .running desc k)
    (hval : ∀ desc, p.call = .validating desc → LatchedCommand s.params.dmemSize true p.snap.words) :
    LeaseInv (setPort c p s) where
  shape := by
    obtain ⟨hp, hi⟩ := hs.shape
    exact ⟨by simpa using hp, hi⟩
  calls c' desc k hc hr := by
    rw [setPort_ports, List.length_set] at hc
    rw [getPort_setPort] at hr
    split at hr
    · exact absurd hr (hnew desc k)
    · exact hs.calls c' desc k hc hr
  leases k hk hl := by
    obtain ⟨ho, desc, hd⟩ := hs.leases k hk hl
    refine ⟨by simpa using ho, desc, ?_⟩
    rw [getInst_setPort, getPort_setPort, if_neg, hd]
    rintro ⟨rfl, _⟩
    exact hold desc k hd
  latches := by
    obtain ⟨hrun, hsnap⟩ := hs.latches
    refine ⟨fun c' desc k hc hr => ?_, fun c' desc hc hv => ?_⟩
    · rw [setPort_ports, List.length_set] at hc
      rw [getPort_setPort] at hr
      split at hr
      · exact absurd hr (hnew desc k)
      · exact hrun c' desc k hc hr
    · rw [setPort_ports, List.length_set] at hc
      rw [getPort_setPort] at hv ⊢
      split at hv
      · rename_i h
        rw [if_pos h]
        exact hval desc hv
      · rename_i h
        rw [if_neg h]
        exact hsnap c' desc hc hv

/-- A pending call begins to validate a command that stage A has checked (46_dispatcher_pool.md R131, R138). -/
theorem startValidating_leaseInv {s : State} (hs : LeaseInv s) {c : Nat} {desc d : Word} {words : List Word}
    (hc : (getPort s c).call = .pending d) (hw : LatchedCommand s.params.dmemSize true words) :
    LeaseInv (startValidating c desc words s) := by
  have h := setPort_leaseInv (c := c) (p := { getPort s c with call := .validating desc, snap := ⟨words, []⟩ })
    hs (by simp [hc]) (by simp) (fun _ _ => hw)
  exact h.of_same (.of_eq rfl rfl rfl)

/-- `complete(c)` frees the processor of `c` alone: no other running call is on it (46_dispatcher_pool.md R133). -/
theorem complete_leaseInv {s : State} (hs : LeaseInv s) (c : Nat) : LeaseInv (complete c s) := by
  obtain ⟨hports, hinsts⟩ := complete_lengths c s
  have hparams : (complete c s).params = s.params := (complete_rest c s).1
  have other {c' : Nat} {x : CallState} (h : (getPort (complete c s) c').call = x) (hx : x ≠ .idle) :
      c' ≠ c ∧ (getPort s c').call = x := by
    rw [complete_call] at h
    split at h
    · exact absurd h.symm hx
    · exact ⟨‹_›, h⟩
  constructor
  case shape =>
    obtain ⟨hp, hi⟩ := hs.shape
    exact ⟨by rw [hports, hp, hparams], by rw [hinsts, hi, hparams]⟩
  case calls =>
    intro c' desc k hc hr
    rw [hports] at hc
    obtain ⟨hne, hr⟩ := other hr (by simp)
    obtain ⟨hk, hl, ho⟩ := hs.calls c' desc k hc hr
    rw [hinsts, complete_owner, complete_lease, if_neg]
    · exact ⟨hk, hl, ho⟩
    · intro h
      obtain ⟨desc', h⟩ := callInst_eq_some.1 h
      obtain ⟨-, -, ho'⟩ := hs.calls c desc' k (port_exists (by simp [h])) h
      exact hne (ho.symm.trans ho')
  case leases =>
    intro k hk hl
    rw [hinsts] at hk
    rw [complete_lease] at hl
    split at hl
    · cases hl
    · rename_i hne
      obtain ⟨ho, desc, hd⟩ := hs.leases k hk hl
      rw [hports, complete_owner, complete_call, if_neg]
      · exact ⟨ho, desc, hd⟩
      · intro h
        rw [h] at hd
        exact hne (callInst_eq_some.2 ⟨desc, hd⟩)
  case latches =>
    obtain ⟨hrun, hval⟩ := hs.latches
    refine ⟨fun c' desc k hc hr => ?_, fun c' desc hc hv => ?_⟩
    · rw [hports] at hc
      rw [hparams, complete_op]
      exact hrun c' desc k hc (other hr (by simp)).2
    · rw [hports] at hc
      rw [hparams, complete_snap]
      exact hval c' desc hc (other hv (by simp)).2

/-- A pending call takes the lease of a free processor, with a command stage A has checked
(46_dispatcher_pool.md R131). -/
theorem takeLease_leaseInv {s : State} (hs : LeaseInv s) {c k : Nat} {desc d : Word} {words : List Word}
    (hc : (getPort s c).call = .pending d) (hk : k ∈ freeInsts s)
    (hw : LatchedCommand s.params.dmemSize false words) : LeaseInv (takeLease c k desc words s) := by
  obtain ⟨hk, hfree⟩ := mem_freeInsts.1 hk
  have hlt : c < s.ports.length := port_exists (by simp [hc])
  have hports : (takeLease c k desc words s).ports.length = s.ports.length := by simp [takeLease]
  have hinsts : (takeLease c k desc words s).insts.length = s.insts.length := by simp [takeLease]
  have port (c' : Nat) : getPort (takeLease c k desc words s) c' =
      if c' = c then { getPort s c with call := .running desc k } else getPort s c' := by
    simp [takeLease_getPort, hlt]
  have inst (k' : Nat) : getInst (takeLease c k desc words s) k' =
      if k' = k then { getInst s k with lease := true, owner := c, op := ⟨words, []⟩ } else getInst s k' := by
    simp [takeLease_getInst, hk]
  have distinct {c' : Nat} {desc' : Word} {k' : Nat} (h : (getPort s c').call = .running desc' k') : k' ≠ k := by
    rintro rfl
    obtain ⟨-, hl, -⟩ := hs.calls c' desc' k' (port_exists (by simp [h])) h
    simp [hfree] at hl
  constructor
  case shape =>
    obtain ⟨hp, hi⟩ := hs.shape
    exact ⟨hports.trans hp, hinsts.trans hi⟩
  case calls =>
    intro c' desc' k' hc' hr
    rw [hports] at hc'
    rw [port] at hr
    rw [hinsts, inst]
    split at hr
    · cases hr
      rw [if_pos rfl]
      exact ⟨hk, rfl, by symm; assumption⟩
    · rw [if_neg (distinct hr)]
      exact hs.calls c' desc' k' hc' hr
  case leases =>
    intro k' hk' hl
    rw [hinsts] at hk'
    rw [inst] at hl ⊢
    rw [hports]
    split
    · rename_i h
      exact ⟨hlt, desc, by rw [port, if_pos rfl, h]⟩
    · rename_i h
      rw [if_neg h] at hl
      obtain ⟨ho, desc', hd⟩ := hs.leases k' hk' hl
      refine ⟨ho, desc', ?_⟩
      rw [port, if_neg, hd]
      intro h
      rw [h, hc] at hd
      cases hd
  case latches =>
    obtain ⟨hrun, hval⟩ := hs.latches
    refine ⟨fun c' desc' k' hc' hr => ?_, fun c' desc' hc' hv => ?_⟩
    · rw [hports] at hc'
      rw [port] at hr
      rw [inst]
      split at hr
      · cases hr
        rw [if_pos rfl]
        exact hw
      · rw [if_neg (distinct hr)]
        exact hrun c' desc' k' hc' hr
    · rw [hports] at hc'
      rw [port] at hv ⊢
      split at hv
      · cases hv
      · rename_i h
        rw [if_neg h]
        exact hval c' desc' hc' hv

/-- Every call is idle and every lease free after power-on (70_reset_and_hazards.md R157). -/
theorem powerOn_leaseInv (p : Params) : LeaseInv (State.powerOn p) := by
  have idle (c : Nat) : (getPort (State.powerOn p) c).call = .idle := by
    by_cases hc : c < p.nCallers <;> simp [getPort, State.powerOn, hc, Port.atReset]
  have free (k : Nat) : (getInst (State.powerOn p) k).lease = false := by
    by_cases hk : k < p.k <;> simp [getInst, State.powerOn, hk, Inst.atReset]
  constructor
  case shape => exact ⟨List.length_replicate, List.length_replicate⟩
  case calls =>
    intro c desc k _ h
    rw [idle] at h
    cases h
  case leases =>
    intro k _ h
    rw [free] at h
    cases h
  case latches =>
    refine ⟨fun c desc k _ h => ?_, fun c desc _ h => ?_⟩ <;> rw [idle] at h <;> cases h

/-! ## The operations that the steps share -/

/-- A step that changes neither the leases, the memory nor the fault registers keeps the invariant. -/
theorem inv_of_same {s t : State} (hs : s.Inv) (h : SameLeases s t) (hdmem : t.dmem = s.dmem)
    (hbstate : t.bstate = s.bstate) (hinfo : t.faultInfo = s.faultInfo) (haddr : t.faultAddr = s.faultAddr)
    (hsrc : t.faultSrc = s.faultSrc) : t.Inv := by
  obtain ⟨hl, hm, hf⟩ := (inv_iff s).1 hs
  refine (inv_iff t).2 ⟨hl.of_same h, ?_, ?_⟩
  · rwa [State.memoryOk, hdmem, h.params]
  · rwa [State.faultOk, hbstate, hinfo, haddr, hsrc]

/-- The invariant does not speak of the grid, the estimates and the model's own fields. -/
theorem inv_around {s : State} (hs : s.Inv) (grid : List (Nat × C64)) (chest : List (List Word × Chest))
    (sched : List Event) (cur : Ctx) (draws : Nat) (hostData : Word) :
    ({ s with grid := grid, chest := chest, sched := sched, cur := cur, draws := draws, hostData := hostData } :
      State).Inv :=
  inv_of_same hs (.of_eq rfl rfl rfl) rfl rfl rfl rfl rfl

/-- What disturbs a call does not change it (20_memory.md R48, R49). -/
theorem SameLeases.of_disturbed {s t : State} (params : t.params = s.params)
    (nports : t.ports.length = s.ports.length) (port : ∀ c, ∃ x, getPort t c = { getPort s c with disturb := x })
    (ninsts : t.insts.length = s.insts.length) (lease : ∀ k, (getInst t k).lease = (getInst s k).lease)
    (owner : ∀ k, (getInst t k).owner = (getInst s k).owner) (op : ∀ k, (getInst t k).op = (getInst s k).op) :
    SameLeases s t := by
  refine ⟨params, nports, ninsts, fun c => ?_, fun c => ?_, lease, owner, fun k => by rw [op]⟩ <;>
    obtain ⟨x, h⟩ := port c <;> rw [h]

/-- The host and the platform disturb every call, and change none (20_memory.md R49). -/
theorem disturbed_inv {s : State} (hs : s.Inv) (change : Disturb → Disturb) (except : Option Nat)
    (grid : List (Nat × C64)) (chest : List (List Word × Chest)) :
    ({ s with ports := disturbed change except s, grid := grid, chest := chest } : State).Inv :=
  inv_of_same hs (.of_disturbed rfl (disturbed_length ..) (disturbed_getPort change except s) rfl (fun _ => rfl)
    (fun _ => rfl) (fun _ => rfl)) rfl rfl rfl rfl rfl

theorem latched_sameLeases (i : Instr) (s : State) : SameLeases s (latched i s) := by
  have h := latched_from i s
  constructor
  case params => exact h.params
  case nports => exact h.nports
  case ninsts => exact h.ninsts
  case call => exact fun c => (latched_call i s c).1
  case snap => exact fun c => (latched_call i s c).2.2.1
  case lease | owner | op =>
    intro k
    obtain ⟨mux, hk⟩ := h.inst k
    rw [hk]

theorem latched_inv {s : State} (hs : s.Inv) (i : Instr) : (latched i s).Inv := by
  have h := latched_from i s
  exact inv_of_same hs (latched_sameLeases i s) h.dmem h.bstate h.faultInfo h.faultAddr h.faultSrc

/-- Bytes that become draws keep the form of DMEM. -/
theorem drawRegions_memoryOk {s : State} (hs : s.memoryOk) (epoch : Nat) (site : Site) (rs : List Region) :
    ({ s with dmem := drawRegions s.params.dmemSize epoch site s.dmem rs } : State).memoryOk := by
  obtain ⟨hwf, hbound⟩ := hs
  exact ⟨drawRegions_wf _ _ _ hwf _, drawRegions_bound _ _ _ hbound _⟩

theorem faultByte_ne_zero (code : FaultCode) : faultByte code ≠ 0#8 := by
  cases code <;> decide

theorem faultEntry_inv {s : State} (hs : s.Inv) (code : FaultCode) (w0 : Word) (c inst : Nat) (a : Word) :
    (faultEntry code w0 c inst a s).Inv := by
  cases hb : s.bstate with
  | faulted => rwa [faultEntry_of_faulted _ _ _ _ _ _ hb]
  | run =>
    obtain ⟨hl, hm, -⟩ := (inv_iff s).1 hs
    rw [faultEntry_of_run _ _ _ _ _ _ hb]
    refine (inv_iff _).2 ⟨hl.of_same (.of_eq rfl rfl rfl), drawRegions_memoryOk hm .., ?_⟩
    show BitVec.extractLsb' 0 8 (w0Tag w0 ++ w0Opc w0 ++ faultByte code) ≠ 0#8
    rw [BitVec.extractLsb'_append_eq_right]
    exact faultByte_ne_zero code

theorem resetBlock_inv {s : State} (hs : s.memoryOk) : (resetBlock s).Inv :=
  (inv_iff _).2
    ⟨(powerOn_leaseInv s.params).of_same (.of_eq rfl rfl rfl), drawRegions_memoryOk hs .., rfl, rfl, rfl⟩

/-- Bytes put into a memory one by one keep its form. -/
theorem putBytes_ok {n : Nat} {m : Memory} {bytes : List (Nat × Byte)} (hwf : Memory.wf m = true)
    (hm : ∀ e ∈ m, e.1 < n) (hb : ∀ e ∈ bytes, e.1 < n) :
    let m' := bytes.foldl (fun m e => mapPut unlistedByte m e.1 e.2) m
    Memory.wf m' = true ∧ ∀ e ∈ m', e.1 < n := by
  induction bytes generalizing m with
  | nil => exact ⟨hwf, hm⟩
  | cons x bytes ih =>
    refine ih (Memory.wf_put hwf _ _) (fun e he => ?_) (fun e he => hb e (List.mem_cons_of_mem _ he))
    rcases mapPut_keys he with h | h
    · exact h ▸ hb x List.mem_cons_self
    · exact hm e h

theorem platformPowerOn_inv {s : State} (bytes : List (Nat × Byte)) : (platformPowerOn bytes s).Inv :=
  (inv_iff _).2 ⟨(powerOn_leaseInv s.params).of_same (.of_eq rfl rfl rfl),
    putBytes_ok rfl nofun (fun _ he => of_decide_eq_true (List.mem_filter.1 he).2), rfl, rfl, rfl⟩

/-- The outputs lie in DMEM whatever becomes of their values. -/
theorem taintedOuts_inRange {size : Nat} {ws : List (Nat × List Byte)} (t : Taint) (ep : Nat)
    (hh : ∀ a bs rest, ws = (a, bs) :: rest → 4 ≤ bs.length) (hr : outsInRange size ws = true) :
    ∀ o ∈ taintedOuts t ep ws, o.1 + o.2.length ≤ size := by
  intro o ho
  have hm : (o.1, o.2.length) ∈ ws.map (fun o => (o.1, o.2.length)) := by
    rw [← taintedOuts_places t ep ws hh]
    exact List.mem_map_of_mem ho
  obtain ⟨o', ho', he⟩ := List.mem_map.1 hm
  obtain ⟨h1, h2⟩ := Prod.mk.inj he
  have := of_decide_eq_true (List.all_eq_true.1 hr o' ho')
  omega

/-- The state of `finish` with the outputs written and the call still to complete. -/
def outputsWritten (f : Footprint) (ws : List (Nat × List Byte)) (s : State) : State :=
  { scrambleScratch s with
    dmem := writeAll s.dmem (taintedOuts (ownTaint f s) s.draws ws), ports := portsAfter f.outs s,
    draws := s.draws + 1 }

theorem finish_next {f : Footprint} {ws : List (Nat × List Byte)} {s t : State} (h : finish f ws s = .next t) :
    outsInRange s.params.dmemSize ws = true ∧ t = complete s.cur.caller (outputsWritten f ws s) := by
  obtain ⟨hr, hf⟩ | ⟨-, hf⟩ := finish_cases f ws s
  · exact ⟨hr, Host.Outcome.next.inj (h.symm.trans hf)⟩
  · rw [hf] at h
    cases h

theorem outputsWritten_sameLeases (f : Footprint) (ws : List (Nat × List Byte)) (s : State) :
    SameLeases s (outputsWritten f ws s) := by
  obtain ⟨params, -, -, -, -, -, ninsts, -⟩ := scrambleScratch_rest s
  have inst (k : Nat) := scrambleScratch_getInst s k
  exact .of_disturbed params (portsAfter_length _ _) (portsAfter_getPort f.outs s) ninsts (fun k => (inst k).1)
    (fun k => (inst k).2.1) (fun k => (inst k).2.2.1)

theorem outputsWritten_rest (f : Footprint) (ws : List (Nat × List Byte)) (s : State) :
    (outputsWritten f ws s).params = s.params ∧ (outputsWritten f ws s).bstate = s.bstate ∧
    (outputsWritten f ws s).faultInfo = s.faultInfo ∧ (outputsWritten f ws s).faultAddr = s.faultAddr ∧
    (outputsWritten f ws s).faultSrc = s.faultSrc ∧ (outputsWritten f ws s).grid = s.grid ∧
    (outputsWritten f ws s).chest = s.chest ∧ (outputsWritten f ws s).sched = s.sched ∧
    (outputsWritten f ws s).cur = s.cur ∧ (outputsWritten f ws s).hostData = s.hostData := by
  obtain ⟨h1, h2, h3, h4, h5, -, -, -, h9, h10, h11, h12, -, h14⟩ := scrambleScratch_rest s
  exact ⟨h1, h2, h3, h4, h5, h9, h10, h11, h12, h14⟩

theorem finish_inv {s t : State} (hs : s.Inv) {f : Footprint} {ws : List (Nat × List Byte)}
    (hh : ∀ a bs rest, ws = (a, bs) :: rest → 4 ≤ bs.length) (h : finish f ws s = .next t) : t.Inv := by
  obtain ⟨hl, ⟨hwf, hbound⟩, hfault⟩ := (inv_iff s).1 hs
  obtain ⟨hr, rfl⟩ := finish_next h
  obtain ⟨w1, w2, w3, w4, w5, -⟩ := outputsWritten_rest f ws s
  obtain ⟨c1, c2, c3, c4, c5, c6, -⟩ := complete_rest s.cur.caller (outputsWritten f ws s)
  refine (inv_iff _).2 ⟨complete_leaseInv (hl.of_same (outputsWritten_sameLeases f ws s)) _, ?_, ?_⟩
  · rw [State.memoryOk, c6, c1, w1]
    have inRange := taintedOuts_inRange (ownTaint f s) s.draws hh hr
    exact ⟨Memory.wf_writeAll hwf _, writeAll_bound hbound _ (fun o ho => .inl (inRange o ho))⟩
  · rwa [State.faultOk, c2, c3, c4, c5, w2, w3, w4, w5]

/-! ## Commands and events -/

/-- A command that goes on raised a fault or wrote its outputs. -/
theorem exec_next {i : Instr} {s t : State} (h : exec i s = .next t) :
    (∃ code, raiseFault i code (latched i s) = .next t) ∨
    ∃ ws, GoodWrites i s.params.dmemSize ws ∧ finish (footprint s.cur.desc i) ws (latched i s) = .next t := by
  have hc := exec_case i s
  rw [h] at hc
  generalize hr : (Host.Outcome.next t : Result) = r at hc ⊢
  cases hc with
  | trap code => exact .inl ⟨code, rfl⟩
  | done ws good => exact .inr ⟨ws, good, rfl⟩

/-- A command keeps the invariant: it raises a fault, or it completes its call (46_dispatcher_pool.md R133). -/
theorem exec_inv {i : Instr} {s t : State} (hs : s.Inv) (h : exec i s = .next t) : t.Inv := by
  obtain ⟨code, h⟩ | ⟨ws, good, h⟩ := exec_next h
  · obtain rfl := Host.Outcome.next.inj h
    exact faultEntry_inv (latched_inv hs i) ..
  · exact finish_inv (latched_inv hs i) good.header h

theorem runWords_inv {words : List Word} {ctx : Ctx} {s t : State} (hs : s.Inv)
    (h : runWords words ctx s = .next t) : t.Inv := by
  unfold runWords at h
  split at h
  · exact exec_inv (inv_around hs ..) h
  · cases h

theorem callStart_inv {s : State} (hs : s.Inv) (c : Nat) (v : Word) : (callStart c v s).Inv := by
  unfold callStart
  split
  · rename_i hidle
    obtain ⟨hl, hm, hf⟩ := (inv_iff s).1 hs
    exact (inv_iff _).2 ⟨setPort_leaseInv hl (by simp [hidle]) (by simp) (by simp), hm, hf⟩
  all_goals exact faultEntry_inv hs ..

theorem writeReg_inv {s : State} (hs : s.Inv) (off : Nat) (v : Word) : (writeReg off v s).Inv := by
  unfold writeReg
  split
  · split
    · exact resetBlock_inv hs.memory
    · exact hs
  · split
    · exact callStart_inv hs ..
    · exact hs

theorem hostWrite_inv {s t : State} (hs : s.Inv) {a : Nat} {w : AccessWidth} {v : Word}
    (h : hostWrite a w v s = .next t) : t.Inv := by
  unfold hostWrite at h
  split at h
  swap
  · cases h
  rename_i ha
  obtain rfl := Host.Outcome.next.inj h
  obtain ⟨hwf, hbound⟩ := hs.memory
  have hlen : a + ((wordBytes v).take w.bytes).length ≤ s.params.dmemSize := by
    have : ((wordBytes v).take w.bytes).length ≤ w.bytes := List.length_take_le ..
    omega
  obtain ⟨hl, -, hf⟩ := (inv_iff _).1
    (disturbed_inv hs (fun d => { d with host := ⟨a, w.bytes⟩ :: d.host }) none s.grid s.chest)
  exact (inv_iff _).2 ⟨hl.of_same (.of_eq rfl rfl rfl),
    ⟨Memory.wf_writeBytes hwf _ _, writeBytes_bound hbound _ _ (.inl hlen)⟩, hf⟩

theorem hostRead_inv {s t : State} (hs : s.Inv) {a : Nat} {w : AccessWidth} (h : hostRead a w s = .next t) :
    t.Inv := by
  unfold hostRead at h
  split at h
  · obtain rfl := Host.Outcome.next.inj h
    exact inv_around hs ..
  · cases h

theorem platformGrid_inv {s : State} (hs : s.Inv) (h : Word) (port sym sc : Nat) (v : C64) :
    (platformGrid h port sym sc v s).Inv := by
  unfold platformGrid
  split
  · exact disturbed_inv hs ..
  · exact hs

theorem platformChest_inv {s : State} (hs : s.Inv) (cfg : List Word) (v : Chest) : (platformChest cfg v s).Inv :=
  disturbed_inv hs ..

/-- A dispatch latches what stage A has checked (46_dispatcher_pool.md R130, R131). -/
theorem dispatch_inv {s t : State} (hs : s.Inv) {c hint : Nat} (h : dispatch c hint s = .next t) : t.Inv := by
  unfold dispatch at h
  split at h
  swap
  · cases h
    exact hs
  rename_i desc _ hpend
  split at h
  · cases h
    exact faultEntry_inv hs ..
  rename_i words i hA
  obtain ⟨-, -, -, hdec, hres, -⟩ := stageA_pass hA
  obtain ⟨hl, hm, hf⟩ := (inv_iff s).1 hs
  split at h
  · rename_i hv
    cases h
    exact (inv_iff _).2 ⟨startValidating_leaseInv hl hpend ⟨i, hdec, hv, by simpa [hv] using hres⟩, hm, hf⟩
  rename_i hv
  have hv : opcodeIsVal (instrOpcode i) = false := by simpa using hv
  split at h
  · refine finish_inv (inv_around hs ..) (fun a bs rest he => ?_) h
    cases he
    simp
  · rename_i k ks hfree
    cases h
    have hk := pickInst_mem (k :: ks) (by simp) hint ⟨s.draws, .instance_, c⟩
    rw [← hfree] at hk ⊢
    exact (inv_iff _).2 ⟨takeLease_leaseInv hl hpend hk ⟨i, hdec, hv, by simpa [hv] using hres⟩, hm, hf⟩

theorem runEvent_inv {e : Event} {s t : State} (hs : s.Inv) (h : runEvent e s = .next t) : t.Inv := by
  cases e with
  | regWrite off v =>
    cases h
    exact writeReg_inv hs off v
  | regRead off =>
    cases h
    exact inv_around hs ..
  | dmemWrite a w v => exact hostWrite_inv hs h
  | dmemRead a w => exact hostRead_inv hs h
  | gridWrite handle port sym sc v =>
    cases h
    exact platformGrid_inv hs ..
  | chestWrite cfg v =>
    cases h
    exact platformChest_inv hs ..
  | powerOn bytes =>
    cases h
    exact platformPowerOn_inv bytes
  | dispatch c hint => exact dispatch_inv hs h
  | validate c =>
    simp only [runEvent] at h
    split at h
    · exact runWords_inv hs h
    · cases h
      exact hs
  | execute k =>
    simp only [runEvent] at h
    split at h
    · exact runWords_inv hs h
    · cases h
      exact hs

/-! ## Steps and runs -/

/-- A step is the head of the schedule, or an enabled step of the block, or a wait (log entry 7). -/
theorem step_next {s t : State} (h : step s = .next t) :
    (∃ e rest, s.sched = e :: rest ∧ runEvent e { s with sched := rest } = .next t) ∨
    (∃ e ∈ enabledSteps s, runEvent e { s with draws := s.draws + 1 } = .next t) ∨ t = s := by
  unfold step at h
  split at h
  · rename_i e rest hsched
    exact .inl ⟨e, rest, hsched, h⟩
  · split at h
    · rename_i e he
      exact .inr (.inl ⟨e, List.mem_of_getElem? he, h⟩)
    · cases h
      exact .inr (.inr rfl)

theorem step_inv {s t : State} (hs : s.Inv) (h : step s = .next t) : t.Inv := by
  obtain ⟨e, rest, -, h⟩ | ⟨e, -, h⟩ | rfl := step_next h
  · exact runEvent_inv (inv_around hs ..) h
  · exact runEvent_inv (inv_around hs ..) h
  · exact hs

/-- What every step keeps holds at every point of a run. -/
theorem run_keeps {P : State → Prop} (hstep : ∀ s t, P s → step s = .next t → P t) {n : Nat} {s t : State}
    (hs : P s) (h : Sys2Proof.core.run n s = .next t) : P t := by
  induction n generalizing s with
  | zero =>
    cases h
    exact hs
  | succ n ih =>
    simp only [Host.Core.run] at h
    split at h
    · rename_i s' hs'
      exact ih (hstep s s' hs hs') h
    · cases h
    · cases h

theorem powerOn_inv (p : Params) : (State.powerOn p).Inv :=
  (inv_iff _).2 ⟨powerOn_leaseInv p, ⟨rfl, nofun⟩, rfl, rfl, rfl⟩

/-- Settles O39, by the invariant of every event. -/
theorem stepKeepsTheInvariant : Obligations.StepKeepsTheInvariant := fun _ _ => step_inv

/-- Two running calls on one processor are the calls of its owner. -/
theorem running_unique {s : State} (hs : s.callsLeased) {c c' k : Nat} {desc desc' : Word} (hc : c < s.ports.length)
    (hc' : c' < s.ports.length) (h : (getPort s c).call = .running desc k)
    (h' : (getPort s c').call = .running desc' k) : c = c' := by
  obtain ⟨-, -, ho⟩ := hs c desc k hc h
  obtain ⟨-, -, ho'⟩ := hs c' desc' k hc' h'
  exact ho.symm.trans ho'

/-- Settles O41: the invariant holds at power-on and every step keeps it; the call on a leased processor is that of its
owner. -/
theorem leaseInvariantInEveryRun : Obligations.LeaseInvariantInEveryRun := by
  intro p sched n s h
  have hs : s.Inv := run_keeps (fun _ _ => step_inv)
    (inv_around (powerOn_inv p) ..) h
  refine ⟨fun k hk => ⟨fun hl => ?_, ?_⟩, fun c c' desc desc' k => running_unique hs.calls⟩
  · obtain ⟨ho, hd⟩ := hs.leases k (by rw [hs.shape.2]; exact hk) hl
    refine ⟨_, ⟨ho, hd⟩, fun c' ⟨hc', desc', hd'⟩ => ?_⟩
    exact (hs.calls c' desc' k hc' hd').2.2.symm
  · rintro ⟨c, ⟨hc, desc, hd⟩, -⟩
    exact (hs.calls c desc k hc hd).2.1

end Sys2Proof.Proofs
end

section
/-! What a step leaves unchanged: the parameters (10_state.md R35), and in a FAULTED block the fault registers
(60_exceptions.md R146, R147). -/

namespace Sys2Proof.Proofs

open Sys2Proof Sys2Proof.Machine

/-- The block state and the fault registers are the same. -/
structure SameFault (s t : State) : Prop where
  bstate    : t.bstate = s.bstate
  faultInfo : t.faultInfo = s.faultInfo
  faultAddr : t.faultAddr = s.faultAddr
  faultSrc  : t.faultSrc = s.faultSrc

theorem SameFault.refl (s : State) : SameFault s s := ⟨rfl, rfl, rfl, rfl⟩

/-! ## The operations that the steps share -/

theorem faultEntry_surroundings (code : FaultCode) (w0 : Word) (c inst : Nat) (a : Word) (s : State) :
    SameSurroundings s (faultEntry code w0 c inst a s) := by
  cases hb : s.bstate with
  | faulted =>
    rw [faultEntry_of_faulted _ _ _ _ _ _ hb]
    exact ⟨rfl, rfl, rfl, rfl, rfl, rfl⟩
  | run =>
    rw [faultEntry_of_run _ _ _ _ _ _ hb]
    exact ⟨rfl, rfl, rfl, rfl, rfl, rfl⟩

theorem finish_surroundings {f : Footprint} {ws : List (Nat × List Byte)} {s t : State}
    (h : finish f ws s = .next t) : SameSurroundings s t := by
  obtain ⟨-, rfl⟩ := finish_next h
  obtain ⟨w1, -, -, -, -, w6, w7, w8, w9, w10⟩ := outputsWritten_rest f ws s
  obtain ⟨c1, -, -, -, -, -, c7, c8, c9, c10, -, c12⟩ := complete_rest s.cur.caller (outputsWritten f ws s)
  exact ⟨c1.trans w1, c7.trans w6, c8.trans w7, c9.trans w8, c10.trans w9, c12.trans w10⟩

/-- No command changes the parameters, GRID, CHEST, the schedule, the context or the host data. -/
theorem exec_surroundings {i : Instr} {s t : State} (h : exec i s = .next t) : SameSurroundings s t := by
  apply SameSurroundings.of_latched (i := i)
  obtain ⟨code, h⟩ | ⟨ws, -, h⟩ := exec_next h
  · obtain rfl := Host.Outcome.next.inj h
    exact faultEntry_surroundings ..
  · exact finish_surroundings h

/-! ## Parameters -/

theorem runWords_params {words : List Word} {ctx : Ctx} {s t : State} (h : runWords words ctx s = .next t) :
    t.params = s.params := by
  unfold runWords at h
  split at h
  · exact (exec_surroundings h).params
  · cases h

theorem callStart_params (c : Nat) (v : Word) (s : State) : (callStart c v s).params = s.params := by
  unfold callStart
  split
  · rfl
  all_goals exact (faultEntry_surroundings ..).params

theorem writeReg_params (off : Nat) (v : Word) (s : State) : (writeReg off v s).params = s.params := by
  unfold writeReg
  split
  · split <;> rfl
  · split
    · exact callStart_params ..
    · rfl

theorem dispatch_params {c hint : Nat} {s t : State} (h : dispatch c hint s = .next t) : t.params = s.params := by
  unfold dispatch at h
  split at h
  swap
  · cases h
    rfl
  split at h
  · cases h
    exact (faultEntry_surroundings ..).params
  split at h
  · cases h
    rfl
  split at h
  · exact (finish_surroundings h).params
  · cases h
    rfl

theorem runEvent_params {e : Event} {s t : State} (h : runEvent e s = .next t) : t.params = s.params := by
  cases e with
  | regWrite off v =>
    cases h
    exact writeReg_params off v s
  | regRead off | chestWrite cfg v | powerOn bytes =>
    cases h
    rfl
  | dmemWrite a w v =>
    simp only [runEvent, hostWrite] at h
    split at h <;> cases h
    rfl
  | dmemRead a w =>
    simp only [runEvent, hostRead] at h
    split at h <;> cases h
    rfl
  | gridWrite handle port sym sc v =>
    cases h
    unfold platformGrid
    split <;> rfl
  | dispatch c hint => exact dispatch_params h
  | validate c =>
    simp only [runEvent] at h
    split at h
    · exact runWords_params h
    · cases h
      rfl
  | execute k =>
    simp only [runEvent] at h
    split at h
    · exact runWords_params h
    · cases h
      rfl

/-- Settles O44, event by event. -/
theorem parametersAreConstant : Obligations.ParametersAreConstant := by
  intro s t h
  obtain ⟨e, rest, -, h⟩ | ⟨e, -, h⟩ | rfl := step_next h
  · exact (runEvent_params h).trans rfl
  · exact (runEvent_params h).trans rfl
  · rfl

/-! ## A FAULTED block -/

section

variable {s t : State} (hs : s.bstate = .faulted)
include hs

theorem dispatch_of_faulted (c hint : Nat) : dispatch c hint s = .next s := by simp [dispatch, hs]

theorem dispatchable_of_faulted (c : Nat) : dispatchable s c = false := by simp [dispatchable, hs]

theorem validatable_of_faulted (c : Nat) : validatable s c = none := by simp [validatable, hs]

theorem executable_of_faulted (k : Nat) : executable s k = none := by simp [executable, hs]

/-- No step of the block is enabled while it is FAULTED (60_exceptions.md R146). -/
theorem enabledSteps_of_faulted : enabledSteps s = [] := by
  simp [enabledSteps, dispatchable_of_faulted hs, validatable_of_faulted hs, executable_of_faulted hs]

theorem callStart_of_faulted (c : Nat) (v : Word) : SameFault s (callStart c v s) := by
  unfold callStart
  split
  · exact ⟨rfl, rfl, rfl, rfl⟩
  all_goals
    rw [faultEntry_of_faulted _ _ _ _ _ _ hs]
    exact .refl s

/-- In a FAULTED block every event but the two resets keeps the fault registers (60_exceptions.md R147). -/
theorem runEvent_of_faulted {e : Event} (h : runEvent e s = .next t) :
    SameFault s t ∨ (∃ v, e = .regWrite 0x014 v ∧ v.getLsbD 0 = true ∧ t = resetBlock s) ∨
      ∃ bytes, e = .powerOn bytes ∧ t = platformPowerOn bytes s := by
  cases e with
  | regWrite off v =>
    cases h
    unfold writeReg
    split
    · rename_i hoff
      split
      · rename_i hv
        exact .inr (.inl ⟨v, by rw [hoff], hv, rfl⟩)
      · exact .inl (.refl s)
    · split
      · exact .inl (callStart_of_faulted hs ..)
      · exact .inl (.refl s)
  | powerOn bytes =>
    cases h
    exact .inr (.inr ⟨bytes, rfl, rfl⟩)
  | regRead off | chestWrite cfg v =>
    cases h
    exact .inl ⟨rfl, rfl, rfl, rfl⟩
  | dmemWrite a w v =>
    simp only [runEvent, hostWrite] at h
    split at h <;> cases h
    exact .inl ⟨rfl, rfl, rfl, rfl⟩
  | dmemRead a w =>
    simp only [runEvent, hostRead] at h
    split at h <;> cases h
    exact .inl ⟨rfl, rfl, rfl, rfl⟩
  | gridWrite handle port sym sc v =>
    cases h
    unfold platformGrid
    split <;> exact .inl ⟨rfl, rfl, rfl, rfl⟩
  | dispatch c hint =>
    simp only [runEvent, dispatch_of_faulted hs] at h
    cases h
    exact .inl (.refl s)
  | validate c =>
    simp only [runEvent, validatable_of_faulted hs] at h
    cases h
    exact .inl (.refl s)
  | execute k =>
    simp only [runEvent, executable_of_faulted hs] at h
    cases h
    exact .inl (.refl s)

end

/-- Settles O22: the block takes no step of its own, and of the events only the resets touch a fault register. -/
theorem onlyResetLeavesFaulted : Obligations.OnlyResetLeavesFaulted := by
  intro s t hs h
  obtain ⟨e, rest, hsched, h⟩ | ⟨e, he, -⟩ | rfl := step_next h
  · obtain ⟨hb, hi, ha, hsrc⟩ | ⟨v, rfl, hv, rfl⟩ | ⟨bytes, rfl, rfl⟩ :=
      runEvent_of_faulted (s := { s with sched := rest }) hs h
    · exact .inl ⟨hb.trans hs, hi, ha, hsrc⟩
    · exact .inr ⟨rfl, rfl, rfl, rfl, .inl ⟨v, rest, hsched, hv⟩⟩
    · exact .inr ⟨rfl, rfl, rfl, rfl, .inr ⟨bytes, rest, hsched⟩⟩
  · rw [enabledSteps_of_faulted hs] at he
    cases he
  · exact .inl ⟨hs, rfl, rfl, rfl⟩

end Sys2Proof.Proofs
end

section
/-! Which processor runs a command and what its `SCRATCH` holds show in no result (10_state.md R32, R36): it reads
the parameters, the memories, the draw number, and what the ports say of other calls. -/

namespace Sys2Proof.Proofs

open Sys2Proof Sys2Proof.Machine

/-- `s` with other ports, instances and context. -/
def withAgents (ports : List Port) (insts : List Inst) (cur : Ctx) (s : State) : State :=
  { s with ports := ports, insts := insts, cur := cur }

/-! ## What a command reads of the other calls -/

/-- The output regions of a call depend on DMEM and on the operands of its processor. -/
theorem callOuts_congr {s t : State} {p : Port} (params : t.params = s.params) (dmem : t.dmem = s.dmem)
    (op : ∀ desc k, p.call = .running desc k → (getInst t k).op.words = (getInst s k).op.words) :
    callOuts t p = callOuts s p := by
  have h : callInstr t p = callInstr s p := by
    unfold callInstr
    cases hp : p.call with
    | idle => rfl
    | pending desc => simp only [params, dmem]
    | running desc k => simp only [op desc k hp]
    | validating desc => rfl
  rw [callOuts, h, callOuts]

theorem seenByte_congr {s t : State} {c : Nat} (foreign : foreignOuts t c = foreignOuts s c)
    (draws : t.draws = s.draws) (dmem : t.dmem = s.dmem) : seenByte t c = seenByte s c := by
  funext a
  rw [seenByte, seenByte, foreign, draws, dmem]

theorem stageB_congr {s t : State} (f : Fmt) (d : PucchDesc) (params : t.params = s.params)
    (seen : seenByte t t.cur.caller = seenByte s s.cur.caller) : stageB f d t = stageB f d s := by
  rw [stageB, stageB, params, seen]

theorem stageB_latched (i : Instr) (f : Fmt) (d : PucchDesc) (s : State) :
    stageB f d (latched i s) = stageB f d s := by
  have h := latched_from i s
  refine stageB_congr f d h.params ?_
  rw [h.cur]
  exact seenByte_congr (latched_foreign i s _) h.draws h.dmem

theorem latched_inFlightOuts (i : Instr) (s : State) (c : Nat) :
    otherInFlightOuts (latched i s) c = otherInFlightOuts s c := by
  unfold otherInFlightOuts
  rw [(latched_from i s).nports]
  simp only [latched_callOuts, (latched_call i s _).1]

/-- The command that `s.cur` serves finds the same in both states: they differ in the ports, the instances and the
context alone, and other calls have the same outputs. -/
structure SameView (s t : State) : Prop where
  agents  : t = withAgents t.ports t.insts t.cur s
  caller  : t.cur.caller = s.cur.caller
  desc    : t.cur.desc = s.cur.desc
  nports  : t.ports.length = s.ports.length
  disturb : (getPort t s.cur.caller).disturb = (getPort s s.cur.caller).disturb
  outs    : ∀ c, c ≠ s.cur.caller → callOuts t (getPort t c) = callOuts s (getPort s c)
  flight  : ∀ c, c ≠ s.cur.caller → inFlight (getPort t c).call = inFlight (getPort s c).call

namespace SameView

variable {s t : State}

/-- What does not depend on the agents is the same; a function that reads no port, no processor and no context meets
`hg` by computation. -/
theorem read (h : SameView s t) {α : Type} (g : State → α)
    (hg : ∀ ports insts cur, g (withAgents ports insts cur s) = g s) : g t = g s := by
  rw [h.agents]
  exact hg _ _ _

theorem params (h : SameView s t) : t.params = s.params := h.read State.params (fun _ _ _ => rfl)

theorem dmem (h : SameView s t) : t.dmem = s.dmem := h.read State.dmem (fun _ _ _ => rfl)

theorem draws (h : SameView s t) : t.draws = s.draws := h.read State.draws (fun _ _ _ => rfl)

theorem sameFault (h : SameView s t) : SameFault s t where
  bstate := h.read State.bstate (fun _ _ _ => rfl)
  faultInfo := h.read State.faultInfo (fun _ _ _ => rfl)
  faultAddr := h.read State.faultAddr (fun _ _ _ => rfl)
  faultSrc := h.read State.faultSrc (fun _ _ _ => rfl)

theorem foreign (h : SameView s t) : foreignOuts t s.cur.caller = foreignOuts s s.cur.caller := by
  rw [foreignOuts, foreignOuts, h.disturb, otherBusyOuts, otherBusyOuts, h.nports]
  congr 2
  funext c
  split
  · exact h.outs c ‹_›
  · rfl

theorem inFlightOuts (h : SameView s t) : otherInFlightOuts t s.cur.caller = otherInFlightOuts s s.cur.caller := by
  rw [otherInFlightOuts, otherInFlightOuts, h.nports]
  congr 1
  funext c
  by_cases hc : c = s.cur.caller
  · simp [hc]
  · rw [h.outs c hc, h.flight c hc]

theorem seen (h : SameView s t) : seenByte t t.cur.caller = seenByte s s.cur.caller := by
  rw [h.caller]
  exact seenByte_congr h.foreign h.draws h.dmem

theorem stageB (h : SameView s t) (f : Fmt) (d : PucchDesc) : Machine.stageB f d t = Machine.stageB f d s :=
  stageB_congr f d h.params h.seen

theorem seenMux (h : SameView s t) (d : PucchDesc) : Machine.seenMux d t = Machine.seenMux d s := by
  rw [Machine.seenMux, Machine.seenMux, h.seen]

theorem taint (h : SameView s t) (f : Footprint) : ownTaint f t = ownTaint f s := by
  unfold ownTaint
  rw [h.caller, h.foreign, h.disturb]

end SameView

/-! ## Commands take the same course -/

/-- In both states a command raises the same fault, or ends with the same outputs. -/
inductive SameCourse (i : Instr) (s t : State) : Result → Result → Prop
  | trap (code : FaultCode) :
      SameCourse i s t (raiseFault i code (latched i s)) (raiseFault i code (latched i t))
  | done (ws : List (Nat × List Byte)) :
      SameCourse i s t (finish (footprint s.cur.desc i) ws (latched i s))
        (finish (footprint s.cur.desc i) ws (latched i t))

section

variable {s t : State} (h : SameView s t)
include h

/-- Commands that pass their checks with the same record and buffers end alike. -/
theorem finishDone_course {i : Instr} {body body' : List Word} {bufs bufs' : List (Nat × List Byte)}
    (hbody : body' = body) (hbufs : bufs' = bufs) :
    SameCourse i s t (finishDone i body bufs (latched i s)) (finishDone i body' bufs' (latched i t)) := by
  rw [finishDone, finishDone, (latched_from i s).cur, (latched_from i t).cur, h.desc, hbody, hbufs]
  exact .done _

theorem execProcF0_course (d : PucchDesc) : SameCourse (.procF0 d) s t (execProcF0 d s) (execProcF0 d t) := by
  unfold execProcF0
  rw [h.stageB]
  split
  · exact .trap _
  · exact finishDone_course h (h.read (fun s' => f0Record d (f0Detect d s')) (fun _ _ _ => rfl)) rfl

theorem execProcF1_course (d : PucchDesc) : SameCourse (.procF1 d) s t (execProcF1 d s) (execProcF1 d t) := by
  unfold execProcF1
  rw [h.stageB, h.seenMux]
  split
  · exact .trap _
  · exact finishDone_course h (h.read (fun s' => f1Record d s' (seenMux d s)) (fun _ _ _ => rfl)) rfl

/-- The end of a demodulator: the estimate, and the LLRs of a stream that depends on no agent. -/
theorem demod_course {i : Instr} (hi : ∀ s', latched i s' = s') (d : PucchDesc) (count qm a : Nat) (cfg : List Word)
    (stream : State → Chest → List StreamSym)
    (hstream : ∀ ch ports insts cur, stream (withAgents ports insts cur s) ch = stream s ch) :
    SameCourse i s t
      (finishDone i (csiRecord count (chEst s cfg)) [(a, llrBytes d s qm (stream s (chEst s cfg)))] s)
      (finishDone i (csiRecord count (chEst t cfg)) [(a, llrBytes d t qm (stream t (chEst t cfg)))] t) := by
  have hch : chEst t cfg = chEst s cfg := h.read (chEst · cfg) (fun _ _ _ => rfl)
  have hst : stream t (chEst s cfg) = stream s (chEst s cfg) := h.read (stream · _) (hstream _)
  have hbs (st : List StreamSym) : llrBytes d t qm st = llrBytes d s qm st :=
    h.read (llrBytes d · qm st) (fun _ _ _ => rfl)
  have := finishDone_course (i := i) h (body := csiRecord count (chEst s cfg)) rfl
    (congrArg (fun bs => [(a, bs)]) ((hbs _).trans (congrArg _ hst)))
  rw [hch]
  rwa [hi, hi] at this

theorem execProcF2_course (d : PucchDesc) : SameCourse (.procF2 d) s t (execProcF2 d s) (execProcF2 d t) := by
  unfold execProcF2
  rw [h.stageB]
  split
  · exact .trap _
  · exact demod_course h (fun _ => rfl) d _ _ _ _ (f2Stream d) (fun _ _ _ _ => rfl)

theorem execProcF3_course (d : PucchDesc) : SameCourse (.procF3 d) s t (execProcF3 d s) (execProcF3 d t) := by
  unfold execProcF3
  rw [h.stageB]
  split
  · exact .trap _
  · exact demod_course h (fun _ => rfl) d _ _ _ _ (f3Stream d) (fun _ _ _ _ => rfl)

theorem execProcF4_course (d : PucchDesc) : SameCourse (.procF4 d) s t (execProcF4 d s) (execProcF4 d t) := by
  unfold execProcF4
  rw [h.stageB]
  split
  · exact .trap _
  · exact demod_course h (fun _ => rfl) d _ _ _ _ (f4Stream d) (fun _ _ _ _ => rfl)

/-- A validator reports the same code: latching its mux list does not change what stage B sees. -/
theorem validate_course (f : Fmt) (i : Instr) (d : PucchDesc) :
    SameCourse i s t (validate f i d (latched i s)) (validate f i d (latched i t)) := by
  rw [validate, validate, stageB_latched, stageB_latched, h.stageB, (latched_from i s).cur, (latched_from i t).cur,
    h.desc]
  exact .done _

theorem execDeprecodeSym_course (d : DeprecodeDesc) :
    SameCourse (.deprecodeSym d) s t (execDeprecodeSym d s) (execDeprecodeSym d t) := by
  unfold execDeprecodeSym
  rw [h.params, h.draws, h.dmem]
  split
  · exact .trap _
  · exact finishDone_course h rfl rfl

theorem execDeprecodeNoise_course (d : DeprecodeDesc) :
    SameCourse (.deprecodeNoise d) s t (execDeprecodeNoise d s) (execDeprecodeNoise d t) := by
  unfold execDeprecodeNoise
  rw [h.params, h.draws, h.dmem]
  split
  · exact .trap _
  · exact finishDone_course h rfl rfl

theorem execEqualize_course (d : EqualizeDesc) :
    SameCourse (.equalize d) s t (execEqualize d s) (execEqualize d t) := by
  unfold execEqualize
  rw [h.params, h.draws, h.dmem]
  split
  · exact .trap _
  · exact finishDone_course h rfl rfl

theorem exec_course (i : Instr) : SameCourse i s t (exec i s) (exec i t) := by
  cases i with
  | procF0 d => exact execProcF0_course h d
  | procF1 d => exact execProcF1_course h d
  | procF2 d => exact execProcF2_course h d
  | procF3 d => exact execProcF3_course h d
  | procF4 d => exact execProcF4_course h d
  | valF0 d => exact validate_course h .f0 (.valF0 d) d
  | valF1 d => exact validate_course h .f1 (.valF1 d) d
  | valF2 d => exact validate_course h .f2 (.valF2 d) d
  | valF3 d => exact validate_course h .f3 (.valF3 d) d
  | valF4 d => exact validate_course h .f4 (.valF4 d) d
  | deprecodeSym d => exact execDeprecodeSym_course h d
  | deprecodeNoise d => exact execDeprecodeNoise_course h d
  | equalize d => exact execEqualize_course h d

end

/-! ## What a command leaves -/

/-- The same memory and fault registers, but for the processor that `FAULT_SRC` names. -/
structure SameResult (s t : State) : Prop where
  dmem      : t.dmem = s.dmem
  bstate    : t.bstate = s.bstate
  faultInfo : t.faultInfo = s.faultInfo
  faultAddr : t.faultAddr = s.faultAddr
  caller    : t.faultSrc.extractLsb' 0 4 = s.faultSrc.extractLsb' 0 4

theorem faultEntry_result {s t : State} (hf : SameFault s t) (params : t.params = s.params) (dmem : t.dmem = s.dmem)
    (draws : t.draws = s.draws) {c : Nat} (outs : otherInFlightOuts t c = otherInFlightOuts s c) (code : FaultCode)
    (w0 : Word) (inst inst' : Nat) (a : Word) :
    SameResult (faultEntry code w0 c inst a s) (faultEntry code w0 c inst' a t) ∧
      (inst' = inst → (faultEntry code w0 c inst' a t).faultSrc = (faultEntry code w0 c inst a s).faultSrc) := by
  cases hb : s.bstate with
  | faulted =>
    rw [faultEntry_of_faulted _ _ _ _ _ _ hb, faultEntry_of_faulted _ _ _ _ _ _ (hf.bstate.trans hb)]
    exact ⟨⟨dmem, hf.bstate, hf.faultInfo, hf.faultAddr, congrArg _ hf.faultSrc⟩, fun _ => hf.faultSrc⟩
  | run =>
    rw [faultEntry_of_run _ _ _ _ _ _ hb, faultEntry_of_run _ _ _ _ _ _ (hf.bstate.trans hb)]
    refine ⟨⟨?_, rfl, rfl, rfl, ?_⟩, fun h => by rw [h]⟩
    · rw [params, draws, dmem, outs]
    · exact BitVec.extractLsb'_append_eq_right.trans BitVec.extractLsb'_append_eq_right.symm

theorem faultEntry_ports (code : FaultCode) (w0 : Word) (c inst : Nat) (a : Word) (s : State) :
    (faultEntry code w0 c inst a s).ports = s.ports := by
  unfold faultEntry
  split <;> rfl

theorem finish_dmem {f : Footprint} {ws : List (Nat × List Byte)} {s s' : State} (h : finish f ws s = .next s') :
    s'.dmem = writeAll s.dmem (taintedOuts (ownTaint f s) s.draws ws) := by
  obtain ⟨-, rfl⟩ := finish_next h
  obtain ⟨-, -, -, -, -, dmem, -⟩ := complete_rest s.cur.caller (outputsWritten f ws s)
  exact dmem

theorem finish_sameFault {f : Footprint} {ws : List (Nat × List Byte)} {s s' : State}
    (h : finish f ws s = .next s') : SameFault s s' := by
  obtain ⟨-, rfl⟩ := finish_next h
  obtain ⟨-, w2, w3, w4, w5, -⟩ := outputsWritten_rest f ws s
  obtain ⟨-, c2, c3, c4, c5, -⟩ := complete_rest s.cur.caller (outputsWritten f ws s)
  exact ⟨c2.trans w2, c3.trans w3, c4.trans w4, c5.trans w5⟩

theorem finish_ports {f : Footprint} {ws : List (Nat × List Byte)} {s s' : State} (h : finish f ws s = .next s') :
    s'.ports = (portsAfter f.outs s).set s.cur.caller
      { (portsAfter f.outs s).getD s.cur.caller Port.atReset with call := .idle, disturb := Disturb.none } := by
  obtain ⟨-, rfl⟩ := finish_next h
  rw [complete, setPort_ports, releaseLease_ports, releaseLease_getPort]
  rfl

theorem finish_goesOn {f : Footprint} {ws : List (Nat × List Byte)} {s s' t : State} (params : t.params = s.params)
    (h : finish f ws s = .next s') : ∃ t', finish f ws t = .next t' := by
  obtain ⟨hr, -⟩ := finish_next h
  obtain ⟨-, ht⟩ | ⟨ht, -⟩ := finish_cases f ws t
  · exact ⟨_, ht⟩
  · rw [params, hr] at ht
    cases ht

theorem finish_result {f : Footprint} {ws : List (Nat × List Byte)} {s t s' t' : State} (hf : SameFault s t)
    (dmem : t.dmem = s.dmem) (draws : t.draws = s.draws) (taint : ownTaint f t = ownTaint f s)
    (hs : finish f ws s = .next s') (ht : finish f ws t = .next t') :
    SameResult s' t' ∧ t'.faultSrc = s'.faultSrc := by
  obtain ⟨s1, s2, s3, s4⟩ := finish_sameFault hs
  obtain ⟨t1, t2, t3, t4⟩ := finish_sameFault ht
  have src : t'.faultSrc = s'.faultSrc := by rw [t4, s4, hf.faultSrc]
  refine ⟨⟨?_, ?_, ?_, ?_, congrArg _ src⟩, src⟩
  · rw [finish_dmem ht, finish_dmem hs, dmem, draws, taint]
  · rw [t1, s1, hf.bstate]
  · rw [t2, s2, hf.faultInfo]
  · rw [t3, s3, hf.faultAddr]

theorem latchMux_ports (d : PucchDesc) (s : State) : (latchMux d s).ports = s.ports := by
  unfold latchMux
  split
  · split <;> rfl
  · rfl

/-- Only `VAL.F1` latches into a port, and what it latches is what it sees. -/
theorem latched_ports (i : Instr) {s t : State} (h : SameView s t) (ports : t.ports = s.ports) :
    (latched i t).ports = (latched i s).ports := by
  cases i with
  | procF1 d => exact (latchMux_ports d t).trans (ports.trans (latchMux_ports d s).symm)
  | valF1 d =>
    have hreach : muxReached d t = muxReached d s := h.read (muxReached d) (fun _ _ _ => rfl)
    show (latchSnapMux d t).ports = (latchSnapMux d s).ports
    unfold latchSnapMux
    rw [hreach]
    split
    · rw [setPort_ports, setPort_ports, h.seenMux, h.caller, ports, getPort_congr ports]
    · exact ports
  | _ => exact ports

/-- A command that finds the same leaves the same. -/
theorem exec_result {i : Instr} {s t s' : State} (h : SameView s t) (hs : exec i s = .next s') :
    ∃ t', exec i t = .next t' ∧ SameResult s' t' ∧ (t.cur.inst = s.cur.inst → t'.faultSrc = s'.faultSrc) ∧
      (t.ports = s.ports → t'.ports = s'.ports) := by
  have hls := latched_from i s
  have hlt := latched_from i t
  have params : (latched i t).params = (latched i s).params := by rw [hlt.params, h.params, hls.params]
  have dmem : (latched i t).dmem = (latched i s).dmem := by rw [hlt.dmem, h.dmem, hls.dmem]
  have draws : (latched i t).draws = (latched i s).draws := by rw [hlt.draws, h.draws, hls.draws]
  have caller : (latched i t).cur.caller = (latched i s).cur.caller := by rw [hlt.cur, hls.cur, h.caller]
  have fault : SameFault (latched i s) (latched i t) := by
    obtain ⟨f1, f2, f3, f4⟩ := h.sameFault
    constructor
    · rw [hlt.bstate, f1, hls.bstate]
    · rw [hlt.faultInfo, f2, hls.faultInfo]
    · rw [hlt.faultAddr, f3, hls.faultAddr]
    · rw [hlt.faultSrc, f4, hls.faultSrc]
  have hc := exec_course h i
  rw [hs] at hc
  generalize hrs : (Host.Outcome.next s' : Result) = rs at hc
  generalize exec i t = rt at hc ⊢
  cases hc with
  | trap code =>
    cases hrs
    rw [raiseFault, caller, hlt.cur, hls.cur, h.desc]
    refine ⟨_, rfl, ?_⟩
    have outs : otherInFlightOuts (latched i t) s.cur.caller = otherInFlightOuts (latched i s) s.cur.caller := by
      rw [latched_inFlightOuts, latched_inFlightOuts, h.inFlightOuts]
    obtain ⟨result, src⟩ := faultEntry_result fault params dmem draws outs code (instrW0 i) (s.cur.inst.getD 15)
      (t.cur.inst.getD 15) s.cur.desc
    refine ⟨result, fun hinst => src (by rw [hinst]), fun ports => ?_⟩
    rw [faultEntry_ports, faultEntry_ports, latched_ports i h ports]
  | done ws =>
    obtain ⟨t', ht⟩ := finish_goesOn params hrs.symm
    have taint : ownTaint (footprint s.cur.desc i) (latched i t) = ownTaint (footprint s.cur.desc i) (latched i s) := by
      rw [latched_taint, latched_taint, h.taint]
    obtain ⟨result, src⟩ := finish_result fault dmem draws taint hrs.symm ht
    refine ⟨t', ht, result, fun _ => src, fun ports => ?_⟩
    rw [finish_ports ht, finish_ports hrs.symm, portsAfter, portsAfter, disturbed, disturbed, caller,
      latched_ports i h ports]

/-! ## The processor of a command (10_state.md R36) -/

theorem onInstance_getPort {s : State} {c : Nat} (hc : c < s.ports.length) (desc : Word) (k k' c' : Nat) :
    getPort (onInstance c desc k k' s) c' =
      if c' = c then { getPort s c with call := .running desc k' } else getPort s c' := by
  have h := getPort_setPort (setInst k' { getInst s k' with lease := true, owner := c, op := (getInst s k).op }
    (setInst k { getInst s k with lease := false } s)) c { getPort s c with call := .running desc k' } c'
  exact h.trans (by simp [hc])

theorem onInstance_op {k' j : Nat} (hj : j ≠ k') (c : Nat) (desc : Word) (k : Nat) (s : State) :
    (getInst (onInstance c desc k k' s) j).op = (getInst s j).op := by
  show (getInst (setInst k' _ (setInst k _ s)) j).op = _
  rw [getInst_setInst, if_neg (fun h => hj h.1), getInst_setInst]
  split
  · rename_i h
    rw [h.1]
  · rfl

/-- Other running calls keep their operands: none of them is on the free one. -/
theorem onInstance_view {s : State} (hs : s.callsLeased) {c k k' : Nat} {desc : Word} (hc : c < s.ports.length)
    (hcur : s.cur = ⟨c, some k, desc⟩) (hfree : (getInst s k').lease = false) :
    SameView s (onInstance c desc k k' s) := by
  have hcaller : s.cur.caller = c := by rw [hcur]
  constructor
  case agents => rfl
  case caller => exact hcaller.symm
  case desc =>
    rw [hcur]
    rfl
  case nports => exact List.length_set
  case disturb => rw [hcaller, onInstance_getPort hc, if_pos rfl]
  case outs =>
    intro c' hc'
    rw [onInstance_getPort hc, if_neg (hcaller ▸ hc')]
    refine callOuts_congr rfl rfl (fun desc' j hj => ?_)
    rw [onInstance_op]
    rintro rfl
    obtain ⟨-, hl, -⟩ := hs c' desc' j (port_exists (by simp [hj])) hj
    simp [hfree] at hl
  case flight =>
    intro c' hc'
    rw [onInstance_getPort hc, if_neg (hcaller ▸ hc')]

/-- Settles O46: the command finds the same on either processor. -/
theorem instanceIsNotObservable : Obligations.InstanceIsNotObservable := by
  intro i s t u c k k' desc hs hc _ hcur _ hfree ht hu
  obtain ⟨u', hu', ⟨hdmem, hbstate, hinfo, haddr, hcaller⟩, -⟩ :=
    exec_result (onInstance_view hs.calls hc hcur hfree) ht
  obtain rfl := Host.Outcome.next.inj (hu'.symm.trans hu)
  exact ⟨hdmem.symm, hbstate.symm, hinfo.symm, haddr.symm, hcaller.symm⟩

/-! ## `SCRATCH` (10_state.md R32) -/

/-- `s` with other contents of every `SCRATCH`. -/
def mapScratch (f : List Word → List Word) (s : State) : State :=
  { s with insts := s.insts.map (fun x => { x with scratch := f x.scratch }) }

theorem mapScratch_op (f : List Word → List Word) (s : State) (k : Nat) :
    (getInst (mapScratch f s) k).op = (getInst s k).op := by
  simp only [getInst, mapScratch, List.getD_eq_getElem?_getD, List.getElem?_map]
  cases s.insts[k]? <;> rfl

theorem mapScratch_view (f : List Word → List Word) (s : State) : SameView s (mapScratch f s) where
  agents := rfl
  caller := rfl
  desc := rfl
  nports := rfl
  disturb := rfl
  outs _ _ := callOuts_congr rfl rfl (fun _ k _ => congrArg _ (mapScratch_op f s k))
  flight _ _ := rfl

/-- Settles O47: no command reads `SCRATCH`, and the ports and the context are the same. -/
theorem scratchIsNotObservable : Obligations.ScratchIsNotObservable := by
  intro i s t f ht
  obtain ⟨u, hu, ⟨hdmem, hbstate, hinfo, haddr, -⟩, hsrc, hports⟩ := exec_result (mapScratch_view f s) ht
  exact ⟨u, hu, hdmem, hports rfl, hbstate, hinfo, haddr, hsrc rfl⟩

end Sys2Proof.Proofs
end

section
/-! The registers (10_state.md R20 to R31) and the start of a call (46_dispatcher_pool.md R129). -/

namespace Sys2Proof.Proofs

open Sys2Proof Sys2Proof.Machine

/-! ## Reads -/

section

variable (s : State)

theorem readReg_id : readReg s 0x000 = regId s.params := rfl

theorem readReg_status : readReg s 0x004 = regStatus s := rfl

theorem readReg_faultInfo : readReg s 0x008 = s.faultInfo := rfl

theorem readReg_faultAddr : readReg s 0x00C = s.faultAddr := rfl

theorem readReg_faultSrc : readReg s 0x010 = s.faultSrc := rfl

theorem readReg_gridCfg : readReg s 0x018 = regGridCfg s.params := rfl

theorem readReg_dmemSz : readReg s 0x01C = regDmemSz s.params := rfl

end

/-- Below the ports, an offset that is not listed reads 0. -/
theorem readReg_unlisted (s : State) {off : Nat} (h : off < 0x100)
    (hoff : off ∉ [0x000, 0x004, 0x008, 0x00C, 0x010, 0x014, 0x018, 0x01C]) : readReg s off = 0#32 := by
  simp only [List.mem_cons, List.not_mem_nil, or_false, not_or] at hoff
  unfold readReg
  iterate 9 rw [if_neg (by omega)]

/-- Above the fixed registers, a read selects a port and one of its two registers. -/
theorem readReg_port (s : State) {off : Nat} (h : 0x100 ≤ off) :
    readReg s off = if off % 8 = 0 then (getPort s ((off - 0x100) / 8)).callAddr
      else if off % 8 = 4 then regCallState (getPort s ((off - 0x100) / 8)) else 0#32 := by
  unfold readReg
  iterate 8 rw [if_neg (by omega)]
  rw [if_pos h, getPort, List.getD_eq_getElem?_getD]
  cases s.ports[(off - 0x100) / 8]? with
  | some p => rfl
  | none =>
    have idle : regCallState Port.atReset = 0#32 := by decide
    simp only [Option.getD_none, idle]
    split
    · rfl
    · split <;> rfl

theorem readReg_callAddr (s : State) (c : Nat) : readReg s (0x100 + 8 * c) = (getPort s c).callAddr := by
  rw [readReg_port s (by omega), if_pos (by omega), show (0x100 + 8 * c - 0x100) / 8 = c by omega]

theorem readReg_callState (s : State) (c : Nat) :
    readReg s (0x104 + 8 * c) = if (getPort s c).call = .idle then 0#32 else 1#32 := by
  rw [readReg_port s (by omega), if_neg (by omega), if_pos (by omega), show (0x104 + 8 * c - 0x100) / 8 = c by omega,
    regCallState]
  split
  · rename_i h
    rw [h]
    rfl
  · rename_i h
    have : ((getPort s c).call != .idle) = true := by simpa using h
    rw [this]
    rfl

/-! ## Writes -/

theorem step_regWrite {s : State} {off : Nat} {v : Word} {rest : List Event} (h : s.sched = .regWrite off v :: rest) :
    step s = .next (writeReg off v { s with sched := rest }) := by
  rw [step, h]
  rfl

theorem writeReg_callAddr {s : State} {c : Nat} (hc : c < s.ports.length) (v : Word) :
    writeReg (0x100 + 8 * c) v s = callStart c v s := by
  have hdiv : (0x100 + 8 * c - 0x100) / 8 = c := by omega
  rw [writeReg, if_neg (by omega), if_pos ⟨by omega, by omega, by rwa [hdiv]⟩, hdiv]

/-- A write changes `CTRL` and the `CALL_ADDR` registers alone (10_state.md R20). -/
theorem writeReg_other {s : State} {off : Nat} (hctrl : off ≠ 0x014)
    (hcall : ∀ c, c < s.ports.length → off ≠ 0x100 + 8 * c) (v : Word) : writeReg off v s = s := by
  rw [writeReg, if_neg hctrl, if_neg]
  rintro ⟨hoff, hmod, hc⟩
  exact hcall _ hc (by omega)

theorem step_regWrite_other {s : State} {off : Nat} {v : Word} {rest : List Event} (hctrl : off ≠ 0x014)
    (hcall : ∀ c, c < s.ports.length → off ≠ 0x100 + 8 * c) (h : s.sched = .regWrite off v :: rest) :
    step s = .next { s with sched := rest } :=
  (step_regWrite h).trans (congrArg _ (writeReg_other (s := { s with sched := rest }) hctrl hcall v))

/-- The fixed registers but `CTRL` are read-only. -/
theorem step_regWrite_fixed {s : State} {off : Nat} {v : Word} {rest : List Event} (hoff : off < 0x100)
    (hctrl : off ≠ 0x014) (h : s.sched = .regWrite off v :: rest) : step s = .next { s with sched := rest } :=
  step_regWrite_other hctrl (fun _ _ => by omega) h

/-! ## After a reset -/

theorem resetBlock_getPort (s : State) (c : Nat) : getPort (resetBlock s) c = Port.atReset := by
  by_cases hc : c < s.params.nCallers <;> simp [getPort, resetBlock, State.powerOn, hc]

theorem resetBlock_getInst (s : State) (k : Nat) : getInst (resetBlock s) k = Inst.atReset := by
  by_cases hk : k < s.params.k <;> simp [getInst, resetBlock, State.powerOn, hk]

/-! ## Fields -/

/-- A bit of a word is a bit of the field it lies in. -/
theorem getLsbD_field {n : Nat} (x : BitVec n) {start len i : Nat} (h : i < len) :
    x.getLsbD (start + i) = (x.extractLsb' start len).getLsbD i := by
  rw [BitVec.getLsbD_extractLsb', decide_eq_true h, Bool.true_and]

theorem regId_fields (p : Params) :
    (regId p).extractLsb' 0 8 = 0x01#8 ∧ (regId p).extractLsb' 8 8 = BitVec.ofNat 8 p.k ∧
    (regId p).extractLsb' 16 4 = BitVec.ofNat 4 p.maxPorts ∧
    (regId p).extractLsb' 20 1 = BitVec.ofBool (p.eqAlgo == .mmse) ∧ (regId p).extractLsb' 21 3 = 0#3 ∧
    (regId p).extractLsb' 24 8 = BitVec.ofNat 8 p.nCallers := by
  refine ⟨?_, ?_, ?_, ?_, ?_, ?_⟩ <;> unfold regId
  · rw [BitVec.extractLsb'_append_eq_right]
  · rw [BitVec.extractLsb'_append_eq_of_le (by decide), BitVec.extractLsb'_append_eq_right]
  · iterate 2 rw [BitVec.extractLsb'_append_eq_of_le (by decide)]
    rw [BitVec.extractLsb'_append_eq_right]
  · iterate 3 rw [BitVec.extractLsb'_append_eq_of_le (by decide)]
    rw [BitVec.extractLsb'_append_eq_right]
  · iterate 4 rw [BitVec.extractLsb'_append_eq_of_le (by decide)]
    rw [BitVec.extractLsb'_append_eq_right]
  · iterate 4 rw [BitVec.extractLsb'_append_eq_of_le (by decide)]
    rw [BitVec.extractLsb'_append_eq_left]

theorem regGridCfg_fields (p : Params) :
    (regGridCfg p).extractLsb' 0 9 = BitVec.ofNat 9 p.nRbGrid ∧ (regGridCfg p).extractLsb' 9 3 = 0#3 ∧
    (regGridCfg p).extractLsb' 12 4 = BitVec.ofNat 4 p.nofGridPorts ∧ (regGridCfg p).extractLsb' 16 16 = 0#16 := by
  refine ⟨?_, ?_, ?_, ?_⟩ <;> unfold regGridCfg
  · rw [BitVec.extractLsb'_append_eq_right]
  · rw [BitVec.extractLsb'_append_eq_of_le (by decide), BitVec.extractLsb'_append_eq_right]
  · iterate 2 rw [BitVec.extractLsb'_append_eq_of_le (by decide)]
    rw [BitVec.extractLsb'_append_eq_right]
  · iterate 2 rw [BitVec.extractLsb'_append_eq_of_le (by decide)]
    rw [BitVec.extractLsb'_append_eq_left]

theorem regStatus_fields (s : State) :
    (regStatus s).extractLsb' 0 1 = BitVec.ofBool (s.bstate == .faulted) ∧ (regStatus s).extractLsb' 1 15 = 0#15 ∧
    (regStatus s).extractLsb' 16 16 = busyMask s.insts := by
  refine ⟨?_, ?_, ?_⟩ <;> unfold regStatus
  · rw [BitVec.extractLsb'_append_eq_right]
  · rw [BitVec.extractLsb'_append_eq_of_le (by decide), BitVec.extractLsb'_append_eq_right]
  · rw [BitVec.extractLsb'_append_eq_of_le (by decide), BitVec.extractLsb'_append_eq_left]

theorem busyMask_bit (s : State) {k : Nat} (hk : k < 16) : (busyMask s.insts).getLsbD k = (getInst s k).lease := by
  rw [busyMask, BitVec.getLsbD_ofFnLE]
  simp [hk, getInst]

/-- The words of `FAULT_INFO` and `FAULT_SRC` after a fault in a running block (10_state.md R23, R25). -/
theorem faultInfo_fields (w0 : Word) (code : FaultCode) :
    (w0Tag w0 ++ w0Opc w0 ++ faultByte code).extractLsb' 0 8 = faultByte code ∧
    (w0Tag w0 ++ w0Opc w0 ++ faultByte code).extractLsb' 8 8 = w0.extractLsb' 0 8 ∧
    (w0Tag w0 ++ w0Opc w0 ++ faultByte code).extractLsb' 16 16 = w0.extractLsb' 16 16 := by
  refine ⟨?_, ?_, ?_⟩
  · rw [BitVec.extractLsb'_append_eq_right]
  · rw [BitVec.extractLsb'_append_eq_of_le (by decide), BitVec.extractLsb'_append_eq_right, w0Opc]
  · rw [BitVec.extractLsb'_append_eq_of_le (by decide), BitVec.extractLsb'_append_eq_left, w0Tag]

theorem faultSrc_fields (a b : BitVec 4) :
    (0#20 ++ a ++ 0#4 ++ b).extractLsb' 0 4 = b ∧ (0#20 ++ a ++ 0#4 ++ b).extractLsb' 4 4 = 0#4 ∧
    (0#20 ++ a ++ 0#4 ++ b).extractLsb' 8 4 = a ∧ (0#20 ++ a ++ 0#4 ++ b).extractLsb' 12 20 = 0#20 := by
  refine ⟨?_, ?_, ?_, ?_⟩
  · rw [BitVec.extractLsb'_append_eq_right]
  · rw [BitVec.extractLsb'_append_eq_of_le (by decide), BitVec.extractLsb'_append_eq_right]
  · iterate 2 rw [BitVec.extractLsb'_append_eq_of_le (by decide)]
    rw [BitVec.extractLsb'_append_eq_right]
  · iterate 2 rw [BitVec.extractLsb'_append_eq_of_le (by decide)]
    rw [BitVec.extractLsb'_append_eq_left]

theorem toNat_ofNat_lt {n x : Nat} (h : x < 2 ^ n) : (BitVec.ofNat n x).toNat = x := by
  rw [BitVec.toNat_ofNat, Nat.mod_eq_of_lt h]

/-! ## The registers, one by one -/

/-- Settles O30: the offset of `CTRL` selects the reset alone. -/
theorem ctrlRegister : Obligations.CtrlRegister := by
  intro s v rest h
  refine ⟨?_, rfl⟩
  rw [step_regWrite h, writeReg, if_pos rfl]

/-- Settles O31, field by field; legal constants fit their fields. -/
theorem idRegister : Obligations.IdRegister := by
  intro s hp
  obtain ⟨⟨-, hk⟩, ⟨-, hcallers⟩, ⟨-, hports⟩, -⟩ := hp
  obtain ⟨hclass, hidk, hidports, hidalgo, hrsv, hidcallers⟩ := regId_fields s.params
  rw [readReg_id]
  refine ⟨hclass, ?_, ?_, ?_, hrsv, ?_, fun v rest => step_regWrite_fixed (by decide) (by decide)⟩
  · rw [hidk, toNat_ofNat_lt (by omega)]
  · rw [hidports, toNat_ofNat_lt (by omega)]
  · rw [getLsbD_field (start := 20) (len := 1) (i := 0) _ (by decide), hidalgo]
    simp
  · rw [hidcallers, toNat_ofNat_lt (by omega)]

/-- Settles O32, field by field; after a reset no lease is held. -/
theorem statusRegister : Obligations.StatusRegister := by
  intro s hlen
  obtain ⟨hfaulted, hrsv, hmask⟩ := regStatus_fields s
  have lease {k : Nat} (hk : k < 16) : (regStatus s).getLsbD (16 + k) = (getInst s k).lease := by
    rw [getLsbD_field _ hk, hmask, busyMask_bit s hk]
  rw [readReg_status]
  refine ⟨?_, hrsv, fun k hk => lease (by omega), fun k hk => ?_, ?_,
    fun v rest => step_regWrite_fixed (by decide) (by decide)⟩
  · rw [getLsbD_field (start := 0) (len := 1) (i := 0) _ (by decide), hfaulted]
    simp
  · by_cases h16 : k < 16
    · rw [lease h16, getInst_of_ge s hk]
      rfl
    · exact BitVec.getLsbD_of_ge _ _ (by omega)
  · have hmask : busyMask (resetBlock s).insts = 0#16 := by
      refine BitVec.eq_of_getLsbD_eq (fun k hk => ?_)
      rw [busyMask_bit _ hk, resetBlock_getInst, BitVec.getLsbD_zero]
      rfl
    have hrun : (resetBlock s).bstate = .run := rfl
    rw [readReg_status, regStatus, hmask, hrun]
    decide

/-- Settles O33: the first fault writes the registers, a later one and a write of the host do not. -/
theorem faultRegisters : Obligations.FaultRegisters := by
  intro s w0 code c inst d hrun hc hinst t
  have ht : t = _ := faultEntry_of_run code w0 c inst d s hrun
  have hinfo : readReg t 0x008 = w0Tag w0 ++ w0Opc w0 ++ faultByte code := by
    rw [readReg_faultInfo, ht]
  have haddr : readReg t 0x00C = d := by rw [readReg_faultAddr, ht]
  have hsrc : readReg t 0x010 = 0#20 ++ BitVec.ofNat 4 inst ++ 0#4 ++ BitVec.ofNat 4 c := by
    rw [readReg_faultSrc, ht]
  have hfaulted : t.bstate = .faulted := by rw [ht]
  obtain ⟨hcaller, hrsv, hagent, hupper⟩ := faultSrc_fields (BitVec.ofNat 4 inst) (BitVec.ofNat 4 c)
  refine ⟨hinfo ▸ faultInfo_fields w0 code, fun h0 => ?_, haddr, hsrc ▸ ⟨?_, hrsv, ?_, hupper⟩,
    fun code' w c' k' a => faultEntry_of_faulted _ _ _ _ _ _ hfaulted, fun hok => ?_, ⟨rfl, rfl, rfl⟩,
    fun off v rest hoff => step_regWrite_fixed (by omega) (by omega) rfl⟩
  · rw [hinfo, h0]
    cases code <;> decide
  · rw [hcaller, toNat_ofNat_lt (by omega)]
  · rw [hagent, toNat_ofNat_lt (by omega)]
  · rwa [State.faultOk, hrun] at hok

/-- Settles O34: the offsets of a port select its two registers. -/
theorem callRegisters : Obligations.CallRegisters := by
  intro s c hc
  refine ⟨readReg_callAddr s c, readReg_callState s c, ?_, ?_, ?_,
    fun v rest => step_regWrite_other (by omega) (fun _ _ => by omega)⟩
  · rw [readReg_callAddr, resetBlock_getPort]
    rfl
  · rw [readReg_callState, resetBlock_getPort]
    rfl
  · rw [readReg_callState, complete_call, if_pos rfl, if_pos rfl]

/-- Settles O35, field by field; a legal size that is 0 modulo 2^32 is 2^32. -/
theorem geometryRegisters : Obligations.GeometryRegisters := by
  intro s hp
  obtain ⟨-, -, -, ⟨-, hrb⟩, ⟨-, hports⟩, hpos, hsize⟩ := hp
  obtain ⟨hgrid, hrsv, hgports, hupper⟩ := regGridCfg_fields s.params
  have hdmem : (readReg s 0x01C).toNat = s.params.dmemSize % 2 ^ 32 := by
    rw [readReg_dmemSz, regDmemSz, BitVec.toNat_ofNat]
  rw [readReg_gridCfg]
  refine ⟨?_, hrsv, ?_, hupper, hdmem, ?_, fun off v rest hoff => step_regWrite_fixed (by omega) (by omega)⟩
  · rw [hgrid, toNat_ofNat_lt (by omega)]
  · rw [hgports, toNat_ofNat_lt (by omega)]
  · rw [← BitVec.toNat_inj, hdmem, BitVec.toNat_ofNat]
    omega

/-- Settles O36: below 0x100 the offsets are listed, and above it a register is that of a port. -/
theorem unmappedRegisters : Obligations.UnmappedRegisters := by
  intro s off
  refine ⟨fun hfix hport => ?_, fun rest h => ?_, fun v rest => step_regWrite_other⟩
  · by_cases hoff : off < 0x100
    · exact readReg_unlisted s hoff hfix
    rw [readReg_port s (by omega)]
    by_cases hc : (off - 0x100) / 8 < s.ports.length
    · obtain ⟨haddr, hstate⟩ := hport _ hc
      rw [if_neg (by omega), if_neg (by omega)]
    · rw [getPort_of_ge s (by omega)]
      split
      · rfl
      · split <;> rfl
  · rw [step, h]
    rfl

/-! ## The start of a call -/

section

variable {s : State} {c : Nat} (v : Word)

theorem callStart_of_idle (h : (getPort s c).call = .idle) :
    callStart c v s = setPort c { getPort s c with callAddr := v, call := .pending v, disturb := Disturb.none } s := by
  rw [callStart, h]

theorem callStart_getPort (h : (getPort s c).call = .idle) (hc : c < s.ports.length) (c' : Nat) :
    getPort (callStart c v s) c' =
      if c' = c then { getPort s c with callAddr := v, call := .pending v, disturb := Disturb.none }
      else getPort s c' := by
  rw [callStart_of_idle v h, getPort_setPort]
  simp [hc]

theorem callStart_of_busy (h : (getPort s c).call ≠ .idle) :
    callStart c v s = faultEntry .callOverlap 0#32 c 15 v s := by
  rw [callStart]
  cases hcall : (getPort s c).call with
  | idle => exact absurd hcall h
  | _ => rfl

end

/-- Settles O24, by what the port's call is and whether the block runs. -/
theorem Calls.callStart : Obligations.CallStart := by
  intro s c v rest hc h
  refine ⟨_, (step_regWrite h).trans (congrArg _ (writeReg_callAddr (s := { s with sched := rest }) hc v)), ?_⟩
  split
  · rename_i hidle
    have port := callStart_getPort (s := { s with sched := rest }) v hidle hc
    refine ⟨by rw [port, if_pos rfl], ?_, ?_, ?_, ?_, ?_, fun c' hne => (port c').trans (if_neg hne)⟩
    · rw [readReg_callAddr, port, if_pos rfl]
    · rw [readReg_callState, port, if_pos rfl]
      rfl
    all_goals
      rw [callStart_of_idle (s := { s with sched := rest }) v hidle]
      rfl
  · rename_i hbusy
    rw [callStart_of_busy (s := { s with sched := rest }) v hbusy]
    split
    · rename_i hrun
      rw [faultEntry_of_run _ _ _ _ _ { s with sched := rest } hrun]
      exact ⟨rfl, rfl, rfl, rfl, rfl, rfl⟩
    · rename_i hrun
      refine faultEntry_of_faulted _ _ _ _ _ _ ?_
      show s.bstate = .faulted
      cases hb : s.bstate with
      | run => exact absurd hb hrun
      | faulted => rfl

end Sys2Proof.Proofs
end

section
/-! Memory: the canonical form of DMEM, what the host reads of what it wrote, what commands leave alone, and the bytes
of the LLR buffer (20_memory.md R37 to R40, R49, 45_format234.md R123). -/

namespace Sys2Proof.Proofs

open Sys2Proof Sys2Proof.Machine

/-! ## The canonical form of DMEM (20_memory.md R37) -/

section

variable {s t : State} (hs : Memory.wf s.dmem = true)
include hs

theorem faultEntry_wf (code : FaultCode) (w0 : Word) (c inst : Nat) (a : Word) :
    Memory.wf (faultEntry code w0 c inst a s).dmem = true := by
  cases hb : s.bstate with
  | faulted => rwa [faultEntry_of_faulted _ _ _ _ _ _ hb]
  | run =>
    rw [faultEntry_of_run _ _ _ _ _ _ hb]
    exact drawRegions_wf _ _ _ hs _

theorem finish_wf {f : Footprint} {ws : List (Nat × List Byte)} (h : finish f ws s = .next t) :
    Memory.wf t.dmem = true := by
  obtain ⟨-, rfl⟩ := finish_next h
  obtain ⟨-, -, -, -, -, hdmem, -⟩ := complete_rest s.cur.caller (outputsWritten f ws s)
  rw [hdmem]
  exact Memory.wf_writeAll hs _

/-- A command writes draws where it raises a fault, and its outputs where it completes. -/
theorem exec_wf {i : Instr} (h : exec i s = .next t) : Memory.wf t.dmem = true := by
  have hl : Memory.wf (latched i s).dmem = true := by rwa [(latched_from i s).dmem]
  obtain ⟨code, h⟩ | ⟨ws, -, h⟩ := exec_next h
  · obtain rfl := Host.Outcome.next.inj h
    exact faultEntry_wf hl ..
  · exact finish_wf hl h

theorem runWords_wf {words : List Word} {ctx : Ctx} (h : runWords words ctx s = .next t) :
    Memory.wf t.dmem = true := by
  unfold runWords at h
  split at h
  · exact exec_wf (s := { s with cur := ctx }) hs h
  · cases h

theorem callStart_wf (c : Nat) (v : Word) : Memory.wf (callStart c v s).dmem = true := by
  unfold callStart
  split
  · exact hs
  all_goals exact faultEntry_wf hs ..

theorem writeReg_wf (off : Nat) (v : Word) : Memory.wf (writeReg off v s).dmem = true := by
  unfold writeReg
  split
  · split
    · exact drawRegions_wf _ _ _ hs _
    · exact hs
  · split
    · exact callStart_wf hs ..
    · exact hs

theorem dispatch_wf {c hint : Nat} (h : dispatch c hint s = .next t) : Memory.wf t.dmem = true := by
  unfold dispatch at h
  split at h
  case h_2 =>
    cases h
    exact hs
  split at h
  · cases h
    exact faultEntry_wf hs ..
  split at h
  · cases h
    exact hs
  split at h
  · exact finish_wf (s := { s with cur := ⟨c, none, _⟩ }) hs h
  · cases h
    exact hs

theorem runEvent_wf {e : Event} (h : runEvent e s = .next t) : Memory.wf t.dmem = true := by
  cases e with
  | regWrite off v =>
    cases h
    exact writeReg_wf hs off v
  | regRead off | chestWrite cfg v =>
    cases h
    exact hs
  | dmemWrite a w v =>
    simp only [runEvent, hostWrite] at h
    split at h <;> cases h
    exact Memory.wf_writeBytes hs _ _
  | dmemRead a w =>
    simp only [runEvent, hostRead] at h
    split at h <;> cases h
    exact hs
  | gridWrite handle port sym sc v =>
    cases h
    unfold platformGrid
    split <;> exact hs
  | powerOn bytes =>
    cases h
    obtain ⟨hwf, -⟩ := (platformPowerOn_inv (s := s) bytes).memory
    exact hwf
  | dispatch c hint => exact dispatch_wf hs h
  | validate c =>
    simp only [runEvent] at h
    split at h
    · exact runWords_wf hs h
    · cases h
      exact hs
  | execute k =>
    simp only [runEvent] at h
    split at h
    · exact runWords_wf hs h
    · cases h
      exact hs

end

/-- Settles O38, event by event: every write to DMEM is of byte strings, which keep the form. -/
theorem stepKeepsMemoryForm : Obligations.StepKeepsMemoryForm := by
  intro s t hs h
  obtain ⟨e, rest, -, h⟩ | ⟨e, -, h⟩ | rfl := step_next h
  · exact runEvent_wf (s := { s with sched := rest }) hs h
  · exact runEvent_wf (s := { s with draws := s.draws + 1 }) hs h
  · exact hs

/-! ## What commands leave alone (20_memory.md R38, 45_format234.md R112) -/

/-- Settles O45, by what every command can do: raise a fault, or write its outputs and complete. -/
theorem commandsReadGridOnly : Obligations.CommandsReadGridOnly := fun _ _ _ => exec_surroundings

/-! ## The lease of a dispatched call (46_dispatcher_pool.md R131) -/

/-- A processing call that passes stage A takes the lease of a free processor where there is one. -/
theorem dispatch_takes_lease {s : State} {c : Nat} {d : Word} {words : List Word} {i : Instr} (hint : Nat)
    (hrun : s.bstate = .run) (hcall : (getPort s c).call = .pending d)
    (hA : stageA s.params.dmemSize (seenByte s c) d = .pass words i) (hv : opcodeIsVal (instrOpcode i) = false)
    (hfree : freeInsts s ≠ []) :
    dispatch c hint s =
      .next (takeLease c (pickInst (freeInsts s) hint ⟨s.draws, .instance_, c⟩) d words s) := by
  obtain ⟨k, ks, hks⟩ := List.exists_cons_of_ne_nil hfree
  simp [dispatch, hrun, hcall, hA, hv, hks]

/-- Settles O26: the processor is one of the free ones, and `takeLease` replaces it and the call's own port alone. -/
theorem dispatchLeasesAFreeInstance : Obligations.DispatchLeasesAFreeInstance := by
  intro s c hint d words i hc hrun hcall hA hv hfree
  have hmem := pickInst_mem (freeInsts s) hfree hint ⟨s.draws, .instance_, c⟩
  have hhint : hint ∈ freeInsts s → pickInst (freeInsts s) hint ⟨s.draws, .instance_, c⟩ = hint := fun h => if_pos h
  have hdisp := dispatch_takes_lease hint hrun hcall hA hv hfree
  generalize pickInst (freeInsts s) hint ⟨s.draws, .instance_, c⟩ = k at hmem hhint hdisp
  obtain ⟨hk, hlease⟩ := mem_freeInsts.1 hmem
  have inst := takeLease_getInst c k d words s
  have port := takeLease_getPort c k d words s
  have own := (inst k).trans (if_pos ⟨rfl, hk⟩)
  refine ⟨k, _, hdisp, hk, hlease, by rw [own], by rw [own], by rw [own], ?_, hhint, fun k' hne => ?_,
    fun c' hne => ?_, rfl, hrun, rfl⟩
  · rw [port, if_pos ⟨rfl, hc⟩]
  · exact (inst k').trans (if_neg fun h => hne h.1)
  · exact (port c').trans (if_neg fun h => hne h.1)

/-! ## The bytes of the LLR buffer (45_format234.md R123) -/

/-- Every level allowed for an LLR is 0, an end of the range, or a level of the quantiser. -/
theorem llrLevels_bounds {p : Params} {x : LlrIdeal} {lev : Int} (h : lev ∈ llrLevels p x) :
    -(llrMax p : Int) ≤ lev ∧ lev ≤ (llrMax p : Int) := by
  have hq {l : List F32} (h : lev ∈ l.map (qLlr p)) : -(llrMax p : Int) ≤ lev ∧ lev ≤ (llrMax p : Int) := by
    obtain ⟨v, -, rfl⟩ := List.mem_map.1 h
    exact qLlr_bounds p v
  cases x with
  | zero =>
    obtain rfl := List.mem_singleton.1 h
    omega
  | near l bound =>
    simp only [llrLevels] at h
    split at h
    · split at h <;> exact hq h
    all_goals
      obtain rfl := List.mem_singleton.1 h
      omega

/-- The byte of an LLR holds a level without loss, since `LLR_MAX` is at most 127 (00_scope.md R9). -/
theorem llrByte_bounds {p : Params} (hp : ParamQuantiser p) (epoch n : Nat) (x : LlrIdeal) :
    -(llrMax p : Int) ≤ (llrByte p epoch n x).toInt ∧ (llrByte p epoch n x).toInt ≤ (llrMax p : Int) := by
  obtain ⟨⟨-, hlen⟩, -⟩ := hp
  obtain ⟨j, hbyte⟩ : ∃ j, llrByte p epoch n x = BitVec.ofInt 8 ((llrLevels p x).dedup.getD j 0) := ⟨_, rfl⟩
  have hlev : -(llrMax p : Int) ≤ (llrLevels p x).dedup.getD j 0 ∧ (llrLevels p x).dedup.getD j 0 ≤ llrMax p := by
    by_cases hj : j < (llrLevels p x).dedup.length
    · rw [List.getD_eq_getElem _ _ hj]
      exact llrLevels_bounds (List.mem_dedup.1 (List.getElem_mem hj))
    · rw [List.getD_eq_default _ _ (Nat.le_of_not_lt hj)]
      omega
  have hmax : (llrMax p : Int) ≤ 127 := by exact_mod_cast hlen
  generalize (llrLevels p x).dedup.getD j 0 = lev at hbyte hlev
  rwa [hbyte, BitVec.toInt_ofInt, Int.bmod_eq_of_le (by norm_num; omega) (by norm_num; omega)]

/-- Settles O52, byte by byte. -/
theorem llrBytesInRange : Obligations.LlrBytesInRange := by
  intro d s qm stream b hp hb
  obtain ⟨n, hn, rfl⟩ := List.mem_mapIdx.1 hb
  exact llrByte_bounds hp ..

/-! ## What the host reads (20_memory.md R39, R49) -/

/-- With no busy call the host reads DMEM as it is. -/
theorem hostByte_of_idle {s : State} (h : ∀ c, (getPort s c).call = .idle) (a : Nat) :
    hostByte s a = memByte s.dmem a := by
  have houts : busyOuts s = [] := List.flatMap_eq_nil_iff.2 fun c _ => by simp [callOuts, callInstr, h c]
  simp [hostByte, houts]

theorem run_two {s t u : State} (hs : step s = .next t) (ht : step t = .next u) :
    Sys2Proof.core.run 2 s = .next u := by
  have hs' : Sys2Proof.core.step s = .next t := hs
  have ht' : Sys2Proof.core.step t = .next u := ht
  simp only [Host.Core.run, hs', ht']

theorem step_dmemWrite {s : State} {a : Nat} {w : AccessWidth} {v : Word} {rest : List Event}
    (hsched : s.sched = .dmemWrite a w v :: rest) (ha : a + w.bytes ≤ s.params.dmemSize) :
    step s = .next { s with
      sched := rest, dmem := writeBytes s.dmem a ((wordBytes v).take w.bytes),
      ports := disturbed (fun d => { d with host := ⟨a, w.bytes⟩ :: d.host }) none s } := by
  rw [step, hsched]
  exact if_pos ha

theorem step_dmemRead_of_idle {s : State} {a : Nat} {w : AccessWidth} {rest : List Event}
    (hsched : s.sched = .dmemRead a w :: rest) (ha : a + w.bytes ≤ s.params.dmemSize)
    (hidle : ∀ c, (getPort s c).call = .idle) :
    step s = .next { s with
      sched := rest, draws := s.draws + 1,
      hostData := wordAt (fun x => if x < a + w.bytes then memByte s.dmem x else 0#8) a } := by
  have hbyte := hostByte_of_idle (s := { s with sched := rest }) hidle
  rw [step, hsched]
  simp only [runEvent, hostRead, hbyte, if_pos ha]

/-- A read of DMEM after a write of it, with no busy call, finds the bytes written. -/
theorem dmemRead_after_dmemWrite {s : State} {a b : Nat} {w r : AccessWidth} {v : Word} {rest : List Event}
    (hidle : ∀ c, (getPort s c).call = .idle) (ha : a + w.bytes ≤ s.params.dmemSize)
    (hb : b + r.bytes ≤ s.params.dmemSize) (hsched : s.sched = .dmemWrite a w v :: .dmemRead b r :: rest) :
    ∃ t, Sys2Proof.core.run 2 s = .next t ∧ t.sched = rest ∧
      t.dmem = writeBytes s.dmem a ((wordBytes v).take w.bytes) ∧
      t.hostData = wordAt (fun x => if x < b + r.bytes then memByte t.dmem x else 0#8) b := by
  have hidle' (c : Nat) :
      ((disturbed (fun d => { d with host := ⟨a, w.bytes⟩ :: d.host }) none s).getD c Port.atReset).call = .idle := by
    obtain ⟨x, hx⟩ := disturbed_getPort (fun d => { d with host := ⟨a, w.bytes⟩ :: d.host }) none s c
    exact (congrArg Port.call hx).trans (hidle c)
  exact ⟨_, run_two (step_dmemWrite hsched ha) (step_dmemRead_of_idle rfl hb hidle'), rfl, rfl, rfl⟩

theorem wordAt_of_word (rd : Nat → Byte) (a : Nat) :
    wordAt (fun x => if x < a + AccessWidth.word.bytes then rd x else 0#8) a = wordAt rd a := by
  simp [wordAt, AccessWidth.bytes]

theorem wordAt_of_byte (rd : Nat → Byte) (a : Nat) :
    wordAt (fun x => if x < a + AccessWidth.byte.bytes then rd x else 0#8) a = (rd a).setWidth 32 := by
  have h (b : Byte) : bytesWord b 0#8 0#8 0#8 = b.setWidth 32 := by
    apply BitVec.eq_of_toNat_eq
    have hb : b.toNat < 2 ^ 32 := b.isLt.trans (by decide)
    simp only [bytesWord, BitVec.toNat_append, BitVec.toNat_setWidth, Nat.mod_eq_of_lt hb]
    simp
  simp [wordAt, AccessWidth.bytes, h]

theorem wordBytes_getD (w : Word) {j : Nat} (hj : j < 4) : (wordBytes w).getD j 0#8 = w.extractLsb' (8 * j) 8 := by
  interval_cases j <;> rfl

/-- Settles O37: the read finds the bytes of the write, and these make the word again. -/
theorem hostReadsWhatItWrites : Obligations.HostReadsWhatItWrites := by
  intro s a w rest hwf hidle
  have written := memByte_writeBytes hwf a
  refine ⟨fun ha => ⟨fun hsched => ?word, fun j hj hsched => ?byteOfWord⟩, fun ha hsched => ?byte⟩
  case word =>
    obtain ⟨t, hrun, hrest, hdmem, hdata⟩ := dmemRead_after_dmemWrite hidle ha ha hsched
    refine ⟨t, hrun, ?_, hrest, fun x hx => ?_⟩
    · rw [hdata, wordAt_of_word, hdmem]
      exact memWord_writeBytes hwf a [w] 0 (by simp)
    · rw [hdmem, written, if_neg]
      simp [AccessWidth.bytes]
      omega
  case byteOfWord =>
    obtain ⟨t, hrun, -, hdmem, hdata⟩ := dmemRead_after_dmemWrite hidle ha
      (show a + j + AccessWidth.byte.bytes ≤ _ by simp only [AccessWidth.bytes]; omega) hsched
    refine ⟨t, hrun, ?_⟩
    rw [hdata, wordAt_of_byte, hdmem, written, if_pos (by simp [AccessWidth.bytes, hj]), Nat.add_sub_cancel_left]
    exact congrArg _ (wordBytes_getD w hj)
  case byte =>
    obtain ⟨t, hrun, -, hdmem, hdata⟩ := dmemRead_after_dmemWrite hidle ha ha hsched
    refine ⟨t, hrun, ?_, fun x hx => ?_⟩
    · rw [hdata, wordAt_of_byte, hdmem, written, if_pos (by simp [AccessWidth.bytes]), Nat.sub_self]
      rfl
    · rw [hdmem, written, if_neg]
      simp [AccessWidth.bytes]
      omega

end Sys2Proof.Proofs
end

section
/-! Decoding and encoding (30_encoding.md R54 to R67, R76). -/

namespace Sys2Proof.Proofs

open Sys2Proof Sys2Proof.Machine

/-! ## Opcodes -/

/-- `OPC` determines the opcode, and every opcode has its `OPC` (30_encoding.md R56). -/
theorem opcodeOfByte_eq_some {b : BitVec 8} {o : Opcode} : opcodeOfByte b = some o ↔ opcodeByte o = b := by
  refine ⟨fun h => ?_, ?_⟩
  · unfold opcodeOfByte at h
    exact beq_iff_eq.1 (List.find?_some (p := fun o => opcodeByte o == b) h)
  · rintro rfl
    cases o <;> rfl

theorem opcodeOfByte_eq_none {b : BitVec 8} : opcodeOfByte b = none ↔ ∀ o, opcodeByte o ≠ b := by
  simp only [Option.eq_none_iff_forall_ne_some, ne_eq, opcodeOfByte_eq_some]

/-! ## The words of each descriptor -/

/-- A command word is its tag, a reserved byte of 0 and its opcode (30_encoding.md R55). -/
theorem w0Word_w0Tag {w : Word} {o : Opcode} (hopc : opcodeByte o = w0Opc w) (hrsv : w0Rsv w = 0#8) :
    w0Word (w0Tag w) o = w := by
  rw [w0Word, hopc, ← hrsv, w0Tag, w0Rsv, w0Opc]
  iterate 2 rw [BitVec.extractLsb'_append_extractLsb'_eq_extractLsb' (by decide)]
  exact BitVec.extractLsb'_eq_self

/-- Every bit of W1 to W10 is a bit of a field of a configuration descriptor (30_encoding.md R57 to R62). -/
theorem pucchWords_pucchOfWords (w0 w1 w2 w3 w4 w5 w6 w7 w8 w9 w10 : Word) :
    pucchWords (pucchOfWords w0 w1 w2 w3 w4 w5 w6 w7 w8 w9 w10) = [w1, w2, w3, w4, w5, w6, w7, w8, w9, w10] := by
  simp only [pucchWords, pucchOfWords, List.cons.injEq, true_and, and_true]
  refine ⟨?w2, ?w3, ?w4, ?w5, ?w6⟩
  all_goals
    repeat rw [BitVec.extractLsb'_append_extractLsb'_eq_extractLsb' (by decide)]
    exact BitVec.extractLsb'_eq_self

theorem pucchOfWords_pucchWords {d : PucchDesc} {w0 w1 w2 w3 w4 w5 w6 w7 w8 w9 w10 : Word} (htag : w0Tag w0 = d.tag)
    (hbody : pucchWords d = [w1, w2, w3, w4, w5, w6, w7, w8, w9, w10]) :
    pucchOfWords w0 w1 w2 w3 w4 w5 w6 w7 w8 w9 w10 = d := by
  simp only [pucchWords, List.cons.injEq, and_true] at hbody
  obtain ⟨rfl, rfl, rfl, rfl, rfl, rfl, rfl, rfl, rfl, rfl⟩ := hbody
  simp only [pucchOfWords, htag, BitVec.extractLsb'_append_eq_of_le, BitVec.extractLsb'_append_eq_right,
    BitVec.extractLsb'_eq_self, Nat.reduceLeDiff, Nat.reduceSub, Nat.le_refl, Nat.sub_self]

/-- Every bit of W1 to W4 is a bit of a field of a `DEPRECODE` descriptor (30_encoding.md R65). -/
theorem deprecodeWords_deprecodeOfWords (w0 w1 w2 w3 w4 : Word) :
    deprecodeWords (deprecodeOfWords w0 w1 w2 w3 w4) = [w1, w2, w3, w4] := by
  simp only [deprecodeWords, deprecodeOfWords, List.cons.injEq, true_and, and_true]
  rw [BitVec.extractLsb'_append_extractLsb'_eq_extractLsb' (by decide)]
  exact BitVec.extractLsb'_eq_self

theorem deprecodeOfWords_deprecodeWords {d : DeprecodeDesc} {w0 w1 w2 w3 w4 : Word} (htag : w0Tag w0 = d.tag)
    (hbody : deprecodeWords d = [w1, w2, w3, w4]) : deprecodeOfWords w0 w1 w2 w3 w4 = d := by
  simp only [deprecodeWords, List.cons.injEq, and_true] at hbody
  obtain ⟨rfl, rfl, rfl, rfl⟩ := hbody
  simp only [deprecodeOfWords, htag, BitVec.extractLsb'_append_eq_left, BitVec.extractLsb'_append_eq_right]

/-- Every bit of W1 to W8 is a bit of a field of an `EQUALIZE` descriptor (30_encoding.md R66). -/
theorem equalizeWords_equalizeOfWords (w0 w1 w2 w3 w4 w5 w6 w7 w8 : Word) :
    equalizeWords (equalizeOfWords w0 w1 w2 w3 w4 w5 w6 w7 w8) = [w1, w2, w3, w4, w5, w6, w7, w8] := by
  simp only [equalizeWords, equalizeOfWords, List.cons.injEq, true_and, and_true]
  iterate 3 rw [BitVec.extractLsb'_append_extractLsb'_eq_extractLsb' (by decide)]
  exact BitVec.extractLsb'_eq_self

theorem equalizeOfWords_equalizeWords {d : EqualizeDesc} {w0 w1 w2 w3 w4 w5 w6 w7 w8 : Word}
    (htag : w0Tag w0 = d.tag) (hbody : equalizeWords d = [w1, w2, w3, w4, w5, w6, w7, w8]) :
    equalizeOfWords w0 w1 w2 w3 w4 w5 w6 w7 w8 = d := by
  simp only [equalizeWords, List.cons.injEq, and_true] at hbody
  obtain ⟨rfl, rfl, rfl, rfl, rfl, rfl, rfl, rfl⟩ := hbody
  simp only [equalizeOfWords, htag, BitVec.extractLsb'_append_eq_of_le, BitVec.extractLsb'_append_eq_right,
    BitVec.extractLsb'_eq_self, Nat.reduceLeDiff, Nat.reduceSub, Nat.le_refl, Nat.sub_self]

/-! ## Commands -/

/-- What the decoder accepts: a command word with an opcode and a clear reserved byte, and enough words for the opcode
(30_encoding.md R54, R55, R76). -/
theorem decode_eq_ok {ws : List Word} {i : Instr} :
    decode ws = .ok i ↔ ∃ w0 rest o, ws = w0 :: rest ∧ opcodeByte o = w0Opc w0 ∧ w0Rsv w0 = 0#8 ∧
      commandOfWords o ws = some i := by
  cases ws with
  | nil => simp [decode]
  | cons w0 rest =>
    simp only [decode, List.cons.injEq, ← opcodeOfByte_eq_some]
    cases hopc : opcodeOfByte (w0Opc w0) with
    | none => simp [hopc]
    | some o =>
      by_cases hrsv : w0Rsv w0 = 0#8
      · cases hcmd : commandOfWords o (w0 :: rest) <;> simp [hopc, hrsv, hcmd]
      · simp [hrsv]

/-- The words of a command make the command, whatever words follow (30_encoding.md R54). -/
theorem commandOfWords_encode (i : Instr) (rest : List Word) :
    commandOfWords (instrOpcode i) (encode i ++ rest) = some i := by
  have tag (d : BitVec 16) (o : Opcode) : w0Tag (w0Word d o) = d := (w0Word_fields d o).1
  cases i with
  | procF0 d => exact congrArg (some ∘ Instr.procF0) (pucchOfWords_pucchWords (tag d.tag _) rfl)
  | procF1 d => exact congrArg (some ∘ Instr.procF1) (pucchOfWords_pucchWords (tag d.tag _) rfl)
  | procF2 d => exact congrArg (some ∘ Instr.procF2) (pucchOfWords_pucchWords (tag d.tag _) rfl)
  | procF3 d => exact congrArg (some ∘ Instr.procF3) (pucchOfWords_pucchWords (tag d.tag _) rfl)
  | procF4 d => exact congrArg (some ∘ Instr.procF4) (pucchOfWords_pucchWords (tag d.tag _) rfl)
  | valF0 d => exact congrArg (some ∘ Instr.valF0) (pucchOfWords_pucchWords (tag d.tag _) rfl)
  | valF1 d => exact congrArg (some ∘ Instr.valF1) (pucchOfWords_pucchWords (tag d.tag _) rfl)
  | valF2 d => exact congrArg (some ∘ Instr.valF2) (pucchOfWords_pucchWords (tag d.tag _) rfl)
  | valF3 d => exact congrArg (some ∘ Instr.valF3) (pucchOfWords_pucchWords (tag d.tag _) rfl)
  | valF4 d => exact congrArg (some ∘ Instr.valF4) (pucchOfWords_pucchWords (tag d.tag _) rfl)
  | deprecodeSym d => exact congrArg (some ∘ Instr.deprecodeSym) (deprecodeOfWords_deprecodeWords (tag d.tag _) rfl)
  | deprecodeNoise d =>
    exact congrArg (some ∘ Instr.deprecodeNoise) (deprecodeOfWords_deprecodeWords (tag d.tag _) rfl)
  | equalize d => exact congrArg (some ∘ Instr.equalize) (equalizeOfWords_equalizeWords (tag d.tag _) rfl)

/-- The words that make a command are a command word with its tag, the command's own further words, and any others
(30_encoding.md R54). -/
theorem commandOfWords_eq_some {o : Opcode} {ws : List Word} {i : Instr} (h : commandOfWords o ws = some i) :
    instrOpcode i = o ∧ ∃ w0 rest, instrTag i = w0Tag w0 ∧ ws = w0 :: (instrBody i ++ rest) := by
  unfold commandOfWords at h
  split at h <;> cases h
  all_goals
    simp only [instrBody, pucchWords_pucchOfWords, deprecodeWords_deprecodeOfWords, equalizeWords_equalizeOfWords]
    exact ⟨rfl, _, _, rfl, rfl⟩

/-- The words of a decoded command are those the encoder writes, and any others. -/
theorem encode_of_decode {ws : List Word} {i : Instr} (h : decode ws = .ok i) : ∃ rest, ws = encode i ++ rest := by
  obtain ⟨w0, _, o, rfl, hopc, hrsv, hcmd⟩ := decode_eq_ok.1 h
  obtain ⟨rfl, w, rest, htag, hws⟩ := commandOfWords_eq_some hcmd
  obtain ⟨rfl, -⟩ := List.cons.inj hws
  have hw0 : instrW0 i = w0 := by rw [instrW0, htag, w0Word_w0Tag hopc hrsv]
  exact ⟨rest, by rw [hws, encode, hw0, List.cons_append]⟩

theorem encode_length (i : Instr) : (encode i).length = opcodeWords (instrOpcode i) := by
  cases i <;> rfl

/-- Settles O1: the encoder's command word passes the decoder's checks, and the fields of its words are those of the
command. -/
theorem decodeOfEncode : Obligations.DecodeOfEncode := by
  intro i rest
  obtain ⟨-, hopc, hrsv⟩ := w0Word_fields (instrTag i) (instrOpcode i)
  exact decode_eq_ok.2
    ⟨instrW0 i, instrBody i ++ rest, instrOpcode i, rfl, hopc.symm, hrsv, commandOfWords_encode i rest⟩

/-- Settles O2: the words of a decoded command begin with those of the encoder. -/
theorem encodeOfDecode : Obligations.EncodeOfDecode := by
  intro ws i h
  obtain ⟨rest, rfl⟩ := encode_of_decode h
  rw [← encode_length, List.take_left]

/-- Settles O3: the decoder computes each command from its words. -/
theorem writtenWordsDecode : Obligations.WrittenWordsDecode :=
  ⟨⟨_, rfl, rfl, rfl, rfl, rfl, rfl⟩, ⟨_, rfl, rfl, rfl, rfl, rfl⟩, ⟨_, rfl, rfl, rfl, rfl, rfl⟩,
    ⟨_, rfl, rfl, rfl, rfl, rfl⟩⟩

/-- Settles O4: no opcode has its `OPC` in a reserved range. -/
theorem reservedOpcodesRefused : Obligations.ReservedOpcodesRefused := by
  intro w0 ws hrange
  have hnone : opcodeOfByte (w0Opc w0) = none := by
    refine opcodeOfByte_eq_none.2 (fun o ho => ?_)
    rw [show w0.extractLsb' 0 8 = opcodeByte o from ho.symm] at hrange
    revert hrange
    cases o <;> decide
  simp only [decode, hnone]

end Sys2Proof.Proofs
end

section
/-! Every command completes where its checks pass: its record, its buffers and its frame (30_encoding.md R68 to R75,
46_dispatcher_pool.md R131 to R143). -/

namespace Sys2Proof.Proofs

open Sys2Proof Sys2Proof.Machine

/-! ## The end of a command, with its record and its buffers -/

/-- A command that ends with a record and buffers completes; its header stands where no overlap touches its outputs, and
undisturbed the rest of the record and the buffers read as written (20_memory.md R48 to R50, 46_dispatcher_pool.md
R132, R133). -/
theorem exec_completes {i : Instr} {s : State} {hdr : Word} {body : List Word} {bufs : List (Nat × List Byte)}
    (hc : CallerExists s) (hwf : Memory.wf s.dmem = true)
    (good : GoodWrites i s.params.dmemSize (((instrResAddr i).toNat, bytesOfWords (hdr :: body)) :: bufs))
    (hsz : (instrResAddr i).toNat + (if opcodeIsVal (instrOpcode i) then 8 else 4) ≤ s.params.dmemSize)
    (hexec : exec i s = finish (footprint s.cur.desc i)
      (((instrResAddr i).toNat, bytesOfWords (hdr :: body)) :: bufs) (latched i s)) :
    ∃ t, exec i s = .next t ∧ Completed (outRegions i) s t ∧
      (HeaderStands i s → recordWord t (instrResAddr i) 0 = hdr) ∧
      (Undisturbed i s →
        (∀ n w, body[n]? = some w → recordWord t (instrResAddr i) (n + 1) = w) ∧
        ∀ a bs, (a, bs) ∈ bufs → ∀ j, j < bs.length → memByte t.dmem (a + j) = bs.getD j 0#8) := by
  obtain ⟨t, ht, hdone, hheader, hclean⟩ := completes hc hwf good hsz
  refine ⟨t, hexec.trans ht, hdone, fun hh => ?_, fun hu => ⟨fun n w hw => ?_, fun a bs hbs j hj => ?_⟩⟩
  · obtain ⟨tt, htt, hmem, hapart⟩ := hheader hh
    exact record_header hwf htt hmem hapart
  · obtain ⟨hmem, hapart⟩ := hclean hu
    obtain ⟨hn, hget⟩ := List.getElem?_eq_some_iff.1 hw
    rw [record_word hwf hmem hapart (n + 1) (Nat.succ_lt_succ hn), List.getD_cons_succ, List.getD_eq_getElem _ _ hn,
      hget]
  · obtain ⟨hmem, hapart⟩ := hclean hu
    rw [hmem, memByte_writeAll_of_apart hwf _ hapart (a, bs) (List.mem_cons_of_mem _ hbs) _ (by dsimp only; omega),
      Nat.add_sub_cancel_left]

/-- Latching a mux list leaves the descriptor that a command's footprint starts from. -/
theorem finishDone_latched (i : Instr) (body : List Word) (bufs : List (Nat × List Byte)) (s : State) :
    finishDone i body bufs (latched i s) = finish (footprint s.cur.desc i)
      (((instrResAddr i).toNat, bytesOfWords (instrHeader i rsDone :: body)) :: bufs) (latched i s) := by
  rw [finishDone, (latched_from i s).cur]

/-! ## Format 0 -/

/-- `PROC.F0` where stage B passes (43_format0.md R97). -/
theorem exec_procF0 {d : PucchDesc} {s : State} (hB : stageB .f0 d s = none) :
    exec (.procF0 d) s =
      finishDone (.procF0 d) (f0Record d (f0Detect d s)) [] (latched (.procF0 d) s) := by
  show execProcF0 d s = _
  rw [execProcF0, hB]
  rfl

theorem drawFrom_lt {l : List Nat} {dflt n : Nat} (h0 : dflt < n) (h : ∀ c ∈ l, c < n) (id : DrawId) :
    drawFrom l dflt id < n := by
  cases l with
  | nil => exact h0
  | cons c l => exact h _ (drawFrom_mem _ (List.cons_ne_nil c l) dflt id)

theorem f0MayWin_lt {bound : Rat} {powers : List Ival} (h0 : 0 < powers.length) :
    ∀ c ∈ f0MayWin bound powers, c < powers.length := by
  unfold f0MayWin
  split
  · simpa using h0
  · exact fun c hc => List.mem_range.1 (List.mem_of_mem_filter hc)

/-- The detector's winner is a candidate, whatever the parameters and the samples are (43_format0.md R93, R97). -/
theorem f0Detect_cand_mem {d : PucchDesc} {s : State} (hne : f0Cands d ≠ []) : (f0Detect d s).cand ∈ f0Cands d := by
  have hpos : 0 < (f0Cands d).length := List.length_pos_iff.2 hne
  have mem {n : Nat} (hn : n < (f0Cands d).length) : (f0Cands d).getD n default ∈ f0Cands d := by
    rw [List.getD_eq_getElem _ _ hn]
    exact List.getElem_mem hn
  unfold f0Detect
  dsimp only
  split
  · refine mem (drawFrom_lt hpos (fun c hc => ?_) _)
    exact (f0MayWin_lt (by simpa using hpos) c hc).trans_eq (List.length_map _)
  · exact mem (drawFrom_lt hpos (fun c hc => List.mem_range.1 hc) _)

/-- Settles O6: the record's words are those of the detector, whose winner is a candidate. -/
theorem procF0Completes : Obligations.ProcF0Completes := by
  intro d s hc hwf hB
  obtain ⟨t, ht, hdone, hheader, hrecord⟩ := exec_completes hc hwf (procF0_good hB) (stageB_res hB)
    ((exec_procF0 hB).trans (finishDone_latched ..))
  refine ⟨t, ht, hdone, hheader, fun hu => ?_⟩
  obtain ⟨hword, -⟩ := hrecord hu
  have huci : recordWord t d.resAddr 1 = f0Uci d (f0Detect d s) := hword 0 _ rfl
  obtain ⟨hshape, -⟩ := uciWord_shape (f0Detect d s).valid (srOpp d) (f0Detect d s).cand.sr d.nofHarq
    (f0Detect d s).cand.harq0 (f0Detect d s).cand.harq1
  rw [huci]
  exact ⟨hshape, ⟨_, f0Detect_cand_mem (f0Cands_ne hB), f0Uci_bits d _⟩, hword 5 _ rfl, hword 6 _ rfl⟩

/-! ## Format 1 -/

/-- `PROC.F1` where stage B passes (44_format1.md R110). -/
theorem exec_procF1 {d : PucchDesc} {s : State} (hB : stageB .f1 d s = none) :
    exec (.procF1 d) s =
      finishDone (.procF1 d) (f1Record d s (seenMux d s)) [] (latched (.procF1 d) s) := by
  show execProcF1 d s = _
  rw [execProcF1, hB]
  rfl

/-- The key of a result entry: `E_CS` and `E_OCC` of the mux entry, and nothing else (30_encoding.md R71). -/
theorem muxKeyWord_fields (w : Word) :
    (muxKeyWord w).extractLsb' 0 4 = w.extractLsb' 0 4 ∧ (muxKeyWord w).extractLsb' 8 3 = w.extractLsb' 8 3 ∧
      (muxKeyWord w).extractLsb' 4 4 = 0#4 ∧ (muxKeyWord w).extractLsb' 11 21 = 0#21 := by
  refine ⟨?_, ?_, ?_, ?_⟩ <;> rw [muxKeyWord, BitVec.extractLsb'_and]
  · exact BitVec.and_allOnes
  · exact BitVec.and_allOnes
  · exact BitVec.and_zero
  · exact BitVec.and_zero

/-- The UCI word of a mux entry: its counts are those of `E_HARQ`, and an entry without ACK bits is a scheduling
request (44_format1.md R107). -/
theorem f1Uci_shape {w : Word} (hq : muxHarq w ≤ 2) (pass b0 b1 : Bool) :
    UciShape (f1Uci (muxHarq w) pass b0 b1) (decide (muxHarq w = 0)) (w.extractLsb' 16 2) ∧
      (f1Uci (muxHarq w) pass b0 b1).getLsbD 3 = decide (muxHarq w = 0) := by
  have hfield : w.extractLsb' 16 2 = BitVec.ofNat 2 (muxHarq w) := by
    rw [muxHarq, BitVec.ofNat_toNat, BitVec.setWidth_eq]
  rw [hfield]
  generalize muxHarq w = q at hq
  interval_cases q
  · obtain ⟨hshape, hsr, -⟩ := uciWord_shape (pass && !b0) true true 0#2 false false
    exact ⟨hshape, hsr⟩
  · obtain ⟨hshape, hsr, -⟩ := uciWord_shape pass false false 1#2 b0 false
    exact ⟨hshape, hsr⟩
  · obtain ⟨hshape, hsr, -⟩ := uciWord_shape pass false false 2#2 b0 b1
    exact ⟨hshape, hsr⟩

/-- Settles O7: each word of the record is the count, the common EPRE, or a word of an entry. -/
theorem procF1Completes : Obligations.ProcF1Completes := by
  intro d s hc hwf hB
  obtain ⟨t, ht, hdone, hheader, hrecord⟩ := exec_completes hc hwf (procF1_good hB) (stageB_res hB)
    ((exec_procF1 hB).trans (finishDone_latched ..))
  refine ⟨t, ht, hdone, hheader, fun hu => ?_⟩
  obtain ⟨hword, -⟩ := hrecord hu
  refine ⟨hword 0 _ rfl, fun e he => ?_⟩
  intro w key uci
  have hw : (seenMux d s)[e]? = some w := seenMux_undisturbed hu he
  have entry (n j : Nat) (hj : j < 6) (hn : n = 3 + 6 * e + j + 1) :=
    (congrArg (recordWord t d.resAddr) hn).trans (hword (3 + 6 * e + j) _ (f1Record_getD d s hw hj))
  obtain ⟨pass, b0, b1, huci⟩ : ∃ pass b0 b1, uci = f1Uci (muxHarq w) pass b0 b1 :=
    ⟨_, _, _, entry (5 + 6 * e) 1 (by decide) (by omega)⟩
  have hkey : key = muxKeyWord w := entry (4 + 6 * e) 0 (by decide) (by omega)
  have hepre : recordWord t d.resAddr (7 + 6 * e) = f1Epre d s := entry (7 + 6 * e) 3 (by decide) (by omega)
  obtain ⟨hshape, hsr⟩ := f1Uci_shape (muxHarq_le hB (List.mem_of_getElem? hw)) pass b0 b1
  obtain ⟨-, hbit0, hbit1⟩ := f1Uci_fields (muxHarq w) pass b0 b1
  rw [hkey, huci, hepre]
  refine ⟨muxKeyWord_fields w, hshape, hsr, fun hq => ?_, fun hq => ?_, (hword 1 _ rfl).symm⟩
  · rw [hbit0, show muxHarq w = 0 by omega]
    rfl
  · have : muxHarq w = 0 ∨ muxHarq w = 1 := by omega
    rw [hbit1]
    rcases this with h | h <;> rw [h] <;> rfl

/-! ## The demodulators: a bad noise variance (45_format234.md R126) -/

theorem llrs_unusable {tol : Rat} {qm : Nat} {stream : List StreamSym} (h : ∀ x ∈ stream, x = .unusable) :
    ∀ y ∈ llrs tol qm stream, y = .zero := by
  intro y hy
  unfold llrs at hy
  split at hy
  · obtain ⟨ys, hys, hy⟩ := List.mem_flatten.1 hy
    obtain ⟨n, hn, rfl⟩ := List.mem_mapIdx.1 hys
    rw [h _ (List.getElem_mem hn)] at hy
    simpa [llrsBpsk] using hy
  · obtain ⟨x, hx, hy⟩ := List.mem_flatMap.1 hy
    rw [h x hx] at hy
    simpa [llrsQpsk] using hy

/-- A stream without a usable symbol gives LLR bytes of 0 alone (45_format234.md R120). -/
theorem llrBytes_unusable {d : PucchDesc} {s : State} {qm : Nat} {stream : List StreamSym}
    (h : ∀ x ∈ stream, x = .unusable) : ∀ b ∈ llrBytes d s qm stream, b = 0#8 := by
  intro b hb
  obtain ⟨n, hn, rfl⟩ := List.mem_mapIdx.1 hb
  have settled : ∀ x ∈ stream.mapIdx (settled s.draws), x = .unusable := by
    intro x hx
    obtain ⟨m, hm, rfl⟩ := List.mem_mapIdx.1 hx
    rw [h _ (List.getElem_mem hm)]
    rfl
  rw [llrs_unusable settled _ (List.getElem_mem hn), llrByte_zero]

/-- Some receive port has a noise variance that fails `good_nv`. -/
def BadNoise (d : PucchDesc) (ch : Chest) : Prop := ∃ p, p < nofPorts d ∧ goodNv (chNv ch p) = false

section

variable {d : PucchDesc} {ch : Chest} (hbad : BadNoise d ch) (s : State)
include hbad

/-- Every resource element is bad, since it combines all the ports (42_equalizer.md R84). -/
theorem BadNoise.reEqualized (l k : Nat) : Machine.reEqualized d s ch l k = .bad := by
  obtain ⟨p, hp, hnv⟩ := hbad
  refine equalized_bad _ _ (elementAt d s ch l k) (List.any_eq_true.2 ⟨p, List.mem_range.2 hp, ?_⟩)
  rw [show (elementAt d s ch l k).nv p = chNv ch p from rfl, hnv]
  rfl

theorem BadNoise.f2Stream : ∀ x ∈ Machine.f2Stream d s ch, x = .unusable := by
  intro x hx
  obtain ⟨re, -, rfl⟩ := List.mem_map.1 hx
  rw [hbad.reEqualized]
  rfl

theorem BadNoise.deprecoded (msc i : Nat) :
    ∀ x ∈ f34Deprecoded s.params.tol (f34Block d s ch msc i), x = .unusable := by
  intro x hx
  obtain ⟨m, hm, rfl⟩ := List.mem_mapIdx.1 hx
  have hblock : (f34Block d s ch msc i)[m] = .bad := by
    simp only [f34Block, List.getElem_map, hbad.reEqualized]
  rw [hblock]
  rfl

theorem BadNoise.f3Stream : ∀ x ∈ Machine.f3Stream d s ch, x = .unusable := by
  intro x hx
  obtain ⟨i, -, hx⟩ := List.mem_flatMap.1 hx
  exact hbad.deprecoded s _ i x hx

theorem BadNoise.f4Stream : ∀ x ∈ Machine.f4Stream d s ch, x = .unusable := by
  intro x hx
  obtain ⟨i, -, hx⟩ := List.mem_flatMap.1 hx
  obtain ⟨m, -, rfl⟩ := List.mem_map.1 hx
  have hsf : 0 < occLen d := by
    unfold occLen
    split <;> decide
  refine despread_bad ⟨_, List.mem_map.2 ⟨0, List.mem_range.2 hsf, rfl⟩, ?_⟩
  dsimp only
  rw [List.getD_eq_getElem?_getD]
  cases hget : (f34Deprecoded s.params.tol (f34Block d s ch 12 i))[m + 0 * (12 / occLen d)]? with
  | none => rfl
  | some x => exact hbad.deprecoded s _ i x (List.mem_of_getElem? hget)

end

/-! ## The demodulators: the record and the LLR buffer -/

/-- A demodulator that passes stage B completes with its record and its LLRs (45_format234.md R126 to R128). -/
theorem demod_completes {f : Fmt} (hf : f = .f2 ∨ f = .f3 ∨ f = .f4) {i : Instr} {d : PucchDesc} {s : State}
    {ch : Chest} {qm : Nat} {stream : List StreamSym} (hc : CallerExists s) (hwf : Memory.wf s.dmem = true)
    (hB : stageB f d s = none) (hres : instrResAddr i = d.resAddr) (hval : opcodeIsVal (instrOpcode i) = false)
    (houts : outRegions i = [⟨d.resAddr.toNat, 28⟩, ⟨d.bufAddr.toNat, d.bufLen.toNat⟩])
    (hlen : (llrBytes d s qm stream).length = llrCount f d)
    (hbad : BadNoise d ch → ∀ x ∈ stream, x = .unusable)
    (hexec : exec i s =
      finishDone i (csiRecord (llrCount f d) ch) [(d.bufAddr.toNat, llrBytes d s qm stream)] (latched i s)) :
    ∃ t, exec i s = .next t ∧ Completed [⟨d.resAddr.toNat, 28⟩, ⟨d.bufAddr.toNat, d.bufLen.toNat⟩] s t ∧
      (HeaderStands i s → recordWord t d.resAddr 0 = instrHeader i rsDone) ∧
      (Undisturbed i s → DemodRecord d (llrCount f d) ch t) := by
  have hsz : (instrResAddr i).toNat + (if opcodeIsVal (instrOpcode i) then 8 else 4) ≤ s.params.dmemSize := by
    rw [hval, hres]
    exact stageB_res hB
  obtain ⟨t, ht, hdone, hheader, hrecord⟩ :=
    exec_completes hc hwf (demod_good f hf i d s hres houts hB ch _ hlen) hsz
      (hexec.trans (finishDone_latched ..))
  rw [houts] at hdone
  rw [hres] at hheader hrecord
  refine ⟨t, ht, hdone, hheader, fun hu => ?_⟩
  obtain ⟨hword, hbuf⟩ := hrecord hu
  refine ⟨hword 0 _ rfl, hword 1 _ rfl, hword 2 _ rfl, hword 3 _ rfl, hword 4 _ rfl, hword 5 _ rfl,
    fun hb n hn => ?_⟩
  have hn' : n < (llrBytes d s qm stream).length := hlen ▸ hn
  rw [hbuf _ _ (List.mem_singleton_self _) n hn', List.getD_eq_getElem _ _ hn']
  exact llrBytes_unusable (hbad hb) _ (List.getElem_mem hn')

/-- Settles O8: the demodulator's end, with its eight data subcarriers per PRB. -/
theorem procF2Completes : Obligations.ProcF2Completes := by
  intro d s hc hwf hB
  refine demod_completes (.inl rfl) (i := .procF2 d) hc hwf hB rfl rfl rfl (llrBytes_length_f2 ..)
    (fun hbad => hbad.f2Stream s) ?_
  show execProcF2 d s = _
  rw [execProcF2, hB]
  rfl

/-- The data symbols are those that are not DM-RS (45_format234.md R114); `NOF_SYM` has four bits. -/
theorem f34DataSym_length : ∀ n, n < 16 → ∀ hop add,
    (f34DataSym n hop add).length = n - (f34DmrsSym n hop add).length := by decide

theorem f34_nds (d : PucchDesc) : (f34DataSym (nofSym d) (hopEn d) (addDmrs d)).length =
    d.nofSym.toNat - (f34DmrsSym d.nofSym.toNat (hopEn d) (addDmrs d)).length :=
  f34DataSym_length _ d.nofSym.isLt _ _

/-- `Qm` of Formats 3 and 4 (45_format234.md R119). -/
theorem qmOf_f34 {f : Fmt} (hf : f = .f3 ∨ f = .f4) (d : PucchDesc) : qmOf f d = if d.pi2bpsk = 1#1 then 1 else 2 := by
  rcases hf with rfl | rfl <;> simp [qmOf, pi2bpsk]

/-- Settles O9: the demodulator's end, with the count over the data symbols. -/
theorem procF3Completes : Obligations.ProcF3Completes := by
  intro d s hc hwf hB
  rw [← qmOf_f34 (.inl rfl), ← f34_nds]
  refine demod_completes (.inr (.inl rfl)) (i := .procF3 d) hc hwf hB rfl rfl rfl (llrBytes_length_f3 ..)
    (fun hbad => hbad.f3Stream s) ?_
  show execProcF3 d s = _
  rw [execProcF3, hB]
  rfl

/-- Settles O10: as for Format 3, with the despreader's symbols. -/
theorem procF4Completes : Obligations.ProcF4Completes := by
  intro d s hc hwf hB
  rw [← qmOf_f34 (.inr rfl), ← f34_nds]
  refine demod_completes (.inr (.inr rfl)) (i := .procF4 d) hc hwf hB rfl rfl rfl (llrBytes_length_f4 ..)
    (fun hbad => hbad.f4Stream s) ?_
  show execProcF4 d s = _
  rw [execProcF4, hB]
  rfl

/-! ## The validators -/

theorem valInstr_resAddr (f : Fmt) (d : PucchDesc) : instrResAddr (valInstr f d) = d.resAddr := by
  cases f <;> rfl

theorem valInstr_isVal (f : Fmt) (d : PucchDesc) : opcodeIsVal (instrOpcode (valInstr f d)) = true := by
  cases f <;> rfl

theorem valInstr_outRegions (f : Fmt) (d : PucchDesc) : outRegions (valInstr f d) = [⟨d.resAddr.toNat, 8⟩] := by
  cases f <;> rfl

/-- A validator ends with the record of what stage B answers: the mux list that `VAL.F1` latches changes no check
(20_memory.md R46, 46_dispatcher_pool.md R138). -/
theorem exec_valInstr (f : Fmt) (d : PucchDesc) (s : State) :
    exec (valInstr f d) s = finish (footprint s.cur.desc (valInstr f d))
      [((instrResAddr (valInstr f d)).toNat, bytesOfWords (valRecord (valInstr f d) (stageB f d s)))]
      (latched (valInstr f d) s) := by
  cases f with
  | f1 =>
    show validate .f1 (.valF1 d) d (latched (.valF1 d) s) = _
    rw [validate, (latched_from _ s).cur, stageB_latched]
    rfl
  | f0 | f2 | f3 | f4 => rfl

/-- The code of a rejected call fills the second word (30_encoding.md R73). -/
theorem faultByte_word (b : BitVec 8) : 0#24 ++ b = b.setWidth 32 := by
  rw [BitVec.setWidth_eq_append (by decide)]
  rfl

/-- Settles O11: the two words of the record follow stage B's answer. -/
theorem validatorsComplete : Obligations.ValidatorsComplete := by
  intro f d s hc hwf hsz
  obtain ⟨hdr, code, hrec⟩ : ∃ hdr code, valRecord (valInstr f d) (stageB f d s) = [hdr, code] := by
    cases stageB f d s <;> exact ⟨_, _, rfl⟩
  have hexec := exec_valInstr f d s
  have good := validate_good (valInstr f d) d s.params.dmemSize (valInstr_resAddr f d) (valInstr_isVal f d)
    (valInstr_outRegions f d) (stageB f d s)
  rw [hrec] at hexec good
  obtain ⟨t, ht, hdone, hheader, hrecord⟩ := exec_completes hc hwf good
    (by rw [valInstr_isVal, valInstr_resAddr]; exact hsz) hexec
  rw [valInstr_outRegions] at hdone
  rw [valInstr_resAddr] at hheader hrecord
  have hcode (hu : Undisturbed (valInstr f d) s) : recordWord t d.resAddr 1 = code := (hrecord hu).1 0 _ rfl
  refine ⟨t, ht, hdone, ?_⟩
  cases hB : stageB f d s with
  | none =>
    rw [hB] at hrec
    obtain ⟨rfl, rfl⟩ : _ ∧ _ := by simpa [valRecord] using hrec
    exact ⟨hheader, hcode⟩
  | some c =>
    rw [hB] at hrec
    obtain ⟨rfl, rfl⟩ : _ ∧ _ := by simpa [valRecord] using hrec
    exact ⟨hheader, fun hu => (hcode hu).trans (faultByte_word _)⟩

/-! ## The exhausted pool -/

/-- The processors of two states are the same when there are as many and each is the same. -/
theorem insts_eq {s t : State} (hlen : t.insts.length = s.insts.length) (h : ∀ k, getInst t k = getInst s k) :
    t.insts = s.insts := by
  refine List.ext_getElem hlen (fun k hk hk' => ?_)
  have := h k
  rwa [getInst, getInst, List.getD_eq_getElem _ _ hk, List.getD_eq_getElem _ _ hk'] at this

/-- A processing call that passes stage A with every lease taken ends with its header alone (46_dispatcher_pool.md
R131). -/
theorem dispatch_exhausted {s : State} {c : Nat} {d : Word} {words : List Word} {i : Instr} (hint : Nat)
    (hrun : s.bstate = .run) (hcall : (getPort s c).call = .pending d)
    (hA : stageA s.params.dmemSize (seenByte s c) d = .pass words i) (hv : opcodeIsVal (instrOpcode i) = false)
    (hfree : freeInsts s = []) :
    dispatch c hint s = finish (exhaustedFootprint d i)
      [((instrResAddr i).toNat, bytesOfWords [instrHeader i rsExhausted])] { s with cur := ⟨c, none, d⟩ } := by
  simp [dispatch, hrun, hcall, hA, hv, hfree, exhausted]

/-- Settles O28: the header is the only output, and the pending call holds no processor. -/
theorem exhaustedPoolWritesTheHeader : Obligations.ExhaustedPoolWritesTheHeader := by
  intro s c hint d words i hc hrun hwf hcall hA hv hfree
  obtain ⟨-, -, -, -, hsz, -⟩ := stageA_pass hA
  rw [hv] at hsz
  obtain ⟨t, ht, hdone, hmem⟩ := finish_completed (exhaustedFootprint d i)
    [((instrResAddr i).toNat, bytesOfWords [instrHeader i rsExhausted])] { s with cur := ⟨c, none, d⟩ } hwf hc
    (by simp [WritesWithin, exhaustedFootprint]) (by rintro a bs rest h; cases h; simp)
    (by rw [outsInRange, List.all_cons, List.all_nil, Bool.and_true]; exact decide_eq_true hsz)
  obtain ⟨hlen, hinst⟩ := hdone.instances
  obtain ⟨-, -, hothers⟩ := hdone.calls
  have hnone : callInst (getPort s c).call = none := by rw [hcall]; rfl
  refine ⟨t, (dispatch_exhausted hint hrun hcall hA hv hfree).trans ht, hdone.idle,
    insts_eq hlen (fun k => hinst k ?_ nofun), hdone.bstate.trans hrun, hdone.bytes, fun c' hne => (hothers c' hne).1,
    fun htaint => ?_⟩
  · exact hnone.trans_ne nofun
  · exact record_header (i := i) hwf htaint hmem rfl

end Sys2Proof.Proofs
end

section
/-! The transform precoder (41_transform_precoder.md): `VALID_PRB`, the checks of the component commands, and what the
two deprecoders leave where their checks pass. -/

namespace Sys2Proof.Proofs

open Sys2Proof Sys2Proof.Machine

/-! ## `VALID_PRB` (41_transform_precoder.md R78) -/

/-- The exponents of a count up to 275. -/
theorem prb_exponents {x y z : Nat} (h : 2 ^ x * 3 ^ y * 5 ^ z ≤ 275) : x < 9 ∧ y < 6 ∧ z < 4 := by
  have h2 : 0 < 2 ^ x := by positivity
  have h3 : 0 < 3 ^ y := by positivity
  have h5 : 0 < 5 ^ z := by positivity
  have below {b e k : Nat} (hb : 1 < b) (hdvd : b ^ e ∣ 2 ^ x * 3 ^ y * 5 ^ z) (hk : 275 < b ^ k) : e < k :=
    (Nat.pow_lt_pow_iff_right hb).1 (((Nat.le_of_dvd (by positivity) hdvd).trans h).trans_lt hk)
  exact ⟨below (b := 2) (by decide) ⟨3 ^ y * 5 ^ z, by ring⟩ (by decide),
    below (b := 3) (by decide) ⟨2 ^ x * 5 ^ z, by ring⟩ (by decide),
    below (b := 5) (by decide) ⟨2 ^ x * 3 ^ y, by ring⟩ (by decide)⟩

theorem mem_validPrb_of_exponents : ∀ (x : Fin 9) (y : Fin 6) (z : Fin 4),
    2 ^ x.val * 3 ^ y.val * 5 ^ z.val ≤ 275 → 2 ^ x.val * 3 ^ y.val * 5 ^ z.val ∈ validPrb := by decide

theorem validPrb_exponents : ∀ n ∈ validPrb, 1 ≤ n ∧ n ≤ 275 ∧
    ∃ (x : Fin 9) (y : Fin 6) (z : Fin 4), n = 2 ^ x.val * 3 ^ y.val * 5 ^ z.val := by decide

theorem mem_validPrb (n : Nat) :
    n ∈ validPrb ↔ 1 ≤ n ∧ n ≤ 275 ∧ ∃ x y z, n = 2 ^ x * 3 ^ y * 5 ^ z := by
  constructor
  · intro h
    obtain ⟨h1, h275, x, y, z, hn⟩ := validPrb_exponents n h
    exact ⟨h1, h275, x, y, z, hn⟩
  · rintro ⟨-, h275, x, y, z, rfl⟩
    obtain ⟨hx, hy, hz⟩ := prb_exponents h275
    exact mem_validPrb_of_exponents ⟨x, hx⟩ ⟨y, hy⟩ ⟨z, hz⟩ h275

/-- Settles O48: the exponents of a count up to 275 are small, so the products are finitely many. -/
theorem validPrbTable : Obligations.ValidPrbTable := ⟨rfl, mem_validPrb⟩

/-! ## The checks (41_transform_precoder.md R81, R82) -/

theorem al4_iff (a : Word) : al4 a = true ↔ a.toNat % 4 = 0 := beq_iff_eq

theorem misaligned_iff (a b : Word) : (!(al4 a && al4 b)) = true ↔ a.toNat % 4 ≠ 0 ∨ b.toNat % 4 ≠ 0 := by
  rw [Bool.not_eq_true', Bool.and_eq_false_iff, ← Bool.not_eq_true, ← Bool.not_eq_true, al4_iff, al4_iff]

theorem outOfBounds_iff (size a n b m : Nat) :
    (!(inb size a n && inb size b m)) = true ↔ size < a + n ∨ size < b + m := by
  rw [Bool.not_eq_true', Bool.and_eq_false_iff, ← Bool.not_eq_true, ← Bool.not_eq_true, inb_iff, inb_iff, not_le,
    not_le]

theorem lengthsDiffer_iff {w : Nat} (x y : BitVec w) : (x != y) = true ↔ x.toNat ≠ y.toNat := by
  rw [bne_iff_ne, ne_eq, ← BitVec.toNat_inj]

theorem badDeprecodeSize_iff (m : Nat) : (m % 12 != 0 || !validPrb.contains (m / 12)) = true ↔
    ¬ (m % 12 = 0 ∧ 1 ≤ m / 12 ∧ m / 12 ≤ 275 ∧ ∃ x y z, m / 12 = 2 ^ x * 3 ^ y * 5 ^ z) := by
  rw [← mem_validPrb, Bool.or_eq_true, bne_iff_ne, Bool.not_eq_true', ← Bool.not_eq_true, List.contains_iff_mem,
    not_and_or]

/-- Settles O16: check by check, the model's test is the rule's condition. -/
theorem deprecodeChecksInOrder : Obligations.DeprecodeChecksInOrder := by
  intro p d
  exact ⟨firstFails_cons (misaligned_iff ..) <| firstFails_cons (outOfBounds_iff ..) <|
      firstFails_cons (lengthsDiffer_iff ..) <| firstFails_cons (badDeprecodeSize_iff _) rfl,
    firstFails_cons (misaligned_iff ..) <| firstFails_cons (outOfBounds_iff ..) <|
      firstFails_cons (lengthsDiffer_iff ..) rfl⟩

/-! ## A failing check (60_exceptions.md R146) -/

theorem exec_deprecodeSym_trap {d : DeprecodeDesc} {s : State} {code : FaultCode}
    (h : checkDeprecodeSym d s.params = some code) :
    exec (.deprecodeSym d) s = raiseFault (.deprecodeSym d) code s := by
  show execDeprecodeSym d s = _
  rw [execDeprecodeSym, h]

theorem exec_deprecodeNoise_trap {d : DeprecodeDesc} {s : State} {code : FaultCode}
    (h : checkDeprecodeNoise d s.params = some code) :
    exec (.deprecodeNoise d) s = raiseFault (.deprecodeNoise d) code s := by
  show execDeprecodeNoise d s = _
  rw [execDeprecodeNoise, h]

theorem exec_equalize_trap {d : EqualizeDesc} {s : State} {code : FaultCode}
    (h : checkEqualize d s.params = some code) : exec (.equalize d) s = raiseFault (.equalize d) code s := by
  show execEqualize d s = _
  rw [execEqualize, h]

/-- Settles O19: each command raises the code of its check, and a raised code enters the fault registers. -/
theorem componentChecksTrap : Obligations.ComponentChecksTrap := by
  intro s code hrun hwf
  refine ⟨fun d h => ?_, fun d h => ?_, fun d h => ?_⟩
  · rw [exec_deprecodeSym_trap h]
    exact raiseFault_faulted _ code s hrun hwf
  · rw [exec_deprecodeNoise_trap h]
    exact raiseFault_faulted _ code s hrun hwf
  · rw [exec_equalize_trap h]
    exact raiseFault_faulted _ code s hrun hwf

/-! ## A component command that passes its checks -/

/-- A component command completes with its header and its buffers; undisturbed the buffers are in memory as computed
(20_memory.md R48 to R50, 46_dispatcher_pool.md R132, R133). -/
theorem component_completes {i : Instr} {s : State} {bufs : List (Nat × List Byte)} (hc : CallerExists s)
    (hwf : Memory.wf s.dmem = true) (hval : opcodeIsVal (instrOpcode i) = false)
    (hsz : (instrResAddr i).toNat + 4 ≤ s.params.dmemSize)
    (places : (⟨(instrResAddr i).toNat, 4⟩ : Region) :: bufs.map (fun o => ⟨o.1, o.2.length⟩) = outRegions i)
    (inRange : ∀ r ∈ outRegions i, r.addr + r.len ≤ s.params.dmemSize)
    (hexec : exec i s = finishDone i [] bufs (latched i s)) :
    ∃ t, exec i s = .next t ∧ Completed (outRegions i) s t ∧
      (HeaderStands i s → recordWord t (instrResAddr i) 0 = instrHeader i rsDone) ∧
      (Undisturbed i s → ∃ outs, t.dmem = writeAll s.dmem outs ∧
        selfOverlap (outs.map (fun o => (⟨o.1, o.2.length⟩ : Region))) = false ∧ ∀ o ∈ bufs, o ∈ outs) := by
  have good : GoodWrites i s.params.dmemSize
      (((instrResAddr i).toNat, bytesOfWords [instrHeader i rsDone]) :: bufs) :=
    doneWrites_good i _ [] bufs places (fun _ => inRange)
  obtain ⟨t, ht, hdone, hheader, hclean⟩ := completes hc hwf good (by rw [hval]; exact hsz)
  refine ⟨t, (hexec.trans (finishDone_latched ..)).trans ht, hdone, fun hh => ?_, fun hu => ?_⟩
  · obtain ⟨tt, htt, hmem, hapart⟩ := hheader hh
    exact record_header hwf htt hmem hapart
  · obtain ⟨hmem, hapart⟩ := hclean hu
    exact ⟨_, hmem, hapart, fun o ho => List.mem_cons_of_mem _ ho⟩

/-! ## `DEPRECODE.SYM` (41_transform_precoder.md R79, R81) -/

/-- The output buffer of a `DEPRECODE.SYM` that passes its checks lies in DMEM and is as long as the input. -/
theorem deprecodeSym_room {d : DeprecodeDesc} {p : Params} (h : checkDeprecodeSym d p = none) :
    d.outAddr.toNat + 8 * d.outLen.toNat ≤ p.dmemSize ∧ d.inLen = d.outLen := by
  rw [checkDeprecodeSym, firstFail_none] at h
  simp only [List.forall_mem_cons, Bool.not_eq_false', Bool.and_eq_true, inb_iff, bne_eq_false_iff_eq] at h
  obtain ⟨-, ⟨-, hout⟩, hlen, -⟩ := h
  exact ⟨hout, hlen⟩

theorem exec_deprecodeSym {d : DeprecodeDesc} {s : State} (h : checkDeprecodeSym d s.params = none) :
    exec (.deprecodeSym d) s = finishDone (.deprecodeSym d) []
      [(d.outAddr.toNat, (deprecodeSymbols s.params.tol s.draws
        (memC64s s.dmem d.inAddr.toNat d.inLen.toNat)).flatMap c64Bytes)] s := by
  show execDeprecodeSym d s = _
  rw [execDeprecodeSym, h]

theorem memC64s_length (m : Memory) (a n : Nat) : (memC64s m a n).length = n := by
  rw [memC64s, List.length_map, List.length_range]

theorem deprecodeSymbols_length (tol : Rat) (epoch : Nat) (x : List C64) :
    (deprecodeSymbols tol epoch x).length = x.length := by
  rw [deprecodeSymbols, List.length_map, List.length_range]

theorem deprecodeSymbols_getD {tol : Rat} {epoch : Nat} {x : List C64} {m : Nat} (hm : m < x.length) (z : C64) :
    (deprecodeSymbols tol epoch x).getD m z = drawC64 (deprecodeAdmitted tol x m) ⟨epoch, .deprecoded, m⟩ := by
  rw [List.getD_eq_getElem _ _ (by rwa [deprecodeSymbols_length])]
  simp [deprecodeSymbols]

/-- The value of the deprecoder, with the exponential written out as R79 has it. -/
theorem deprecodeValue_exp (n : Nat) (x : Nat → ℂ) (m : Nat) :
    deprecodeValue n x m = (1 / Real.sqrt n : ℝ) *
      ∑ k ∈ Finset.range n, x k * Complex.exp (2 * Real.pi * Complex.I * m * k / n) := by
  rw [deprecodeValue]
  congr 1
  refine Finset.sum_congr rfl (fun k _ => ?_)
  rw [rootOf]
  congr 2
  push_cast
  ring

theorem deprecodeValue_of_zero {n : Nat} {x : Nat → ℂ} (h : ∀ k, k < n → x k = 0) (m : Nat) :
    deprecodeValue n x m = 0 := by
  rw [deprecodeValue, Finset.sum_eq_zero (fun k hk => by rw [h k (Finset.mem_range.1 hk), zero_mul]), mul_zero]

theorem deprecodeScaleValue_of_zero {n : Nat} {scale : Nat → ℝ} (h : ∀ k, k < n → scale k = 0) :
    deprecodeScaleValue n scale = 0 := by
  rw [deprecodeScaleValue, Finset.sum_eq_zero (fun k hk => h k (Finset.mem_range.1 hk)), mul_zero]

/-- A value of 0 whose scale is 0 comes out as zeros (00_scope.md R15). -/
theorem c64IsZero_of_returns {tol : Rat} {z : C64} (h : ReturnsComplex tol 0 0 z) : c64IsZero z = true := by
  have hheld : ComplexHeld tol 0 0 := by
    obtain ⟨hfin, hval⟩ := c64IsZero_value (z := c64Zero) rfl
    exact ⟨c64Zero, hfin, by simp [hval]⟩
  obtain ⟨-, hnear⟩ := h hheld
  refine c64IsZero_of_value (norm_le_zero_iff.1 ?_)
  simpa [errorBound] using hnear

/-- A `DEPRECODE.SYM` that passes its checks completes, and undisturbed its elements are the drawn values. -/
theorem deprecodeSym_completes {d : DeprecodeDesc} {s : State} (hc : CallerExists s) (hwf : Memory.wf s.dmem = true)
    (hsz : d.resAddr.toNat + 4 ≤ s.params.dmemSize) (hcheck : checkDeprecodeSym d s.params = none) :
    ∃ t, exec (.deprecodeSym d) s = .next t ∧
      Completed [⟨d.resAddr.toNat, 4⟩, ⟨d.outAddr.toNat, 8 * d.outLen.toNat⟩] s t ∧
      (HeaderStands (.deprecodeSym d) s → recordWord t d.resAddr 0 = headerWord d.tag 0x21#8 rsDone) ∧
      (Undisturbed (.deprecodeSym d) s → ∀ m, m < d.inLen.toNat →
        memC64 t.dmem (d.outAddr.toNat + 8 * m) =
          drawC64 (deprecodeAdmitted s.params.tol (memC64s s.dmem d.inAddr.toNat d.inLen.toNat) m)
            ⟨s.draws, .deprecoded, m⟩) := by
  obtain ⟨hroom, hlen⟩ := deprecodeSym_room hcheck
  have hcount : (deprecodeSymbols s.params.tol s.draws (memC64s s.dmem d.inAddr.toNat d.inLen.toNat)).length =
      d.inLen.toNat := by rw [deprecodeSymbols_length, memC64s_length]
  obtain ⟨t, hexec, hdone, hheader, hclean⟩ := component_completes (i := .deprecodeSym d) hc hwf rfl hsz
    (by rw [List.map_singleton, flatMap_c64Bytes_length, hcount, hlen]; rfl) (by simpa [outRegions, hroom] using hsz)
    (exec_deprecodeSym hcheck)
  refine ⟨t, hexec, hdone, hheader, fun hu m hm => ?_⟩
  obtain ⟨outs, hmem, hapart, hin⟩ := hclean hu
  rw [hmem, memC64_writeAll hwf outs hapart _ _ (hin _ (List.mem_singleton_self _)) m (by rwa [hcount]),
    deprecodeSymbols_getD (by rwa [memC64s_length])]

/-- `TOL` is not negative in legal parameters (00_scope.md R10). -/
theorem tol_nonneg {p : Params} (hp : ParamsLegal p) : 0 ≤ p.tol := by
  obtain ⟨-, ⟨htol, -⟩, -⟩ := hp
  exact htol.le

/-- Settles O12: each element is drawn within the bound of its value; for an input of zeros value and scale are 0. -/
theorem deprecodeSymCompletes : Obligations.DeprecodeSymCompletes := by
  intro d s hc hwf hp hsz hcheck
  obtain ⟨t, hexec, hdone, hheader, helement⟩ := deprecodeSym_completes hc hwf hsz hcheck
  refine ⟨t, hexec, hdone, hheader, fun hu => ?_⟩
  intro n x y
  have hreturns (hfin : ∀ k, k < n → c64Finite (x k) = true) (m : Nat) (hm : m < n) :
      ReturnsComplex s.params.tol (deprecodeValue n (fun k => complexOf (x k)) m)
        (deprecodeScaleValue n (fun k => ‖complexOf (x k)‖)) (y m) := by
    rw [show y m = _ from helement hu m hm]
    exact deprecoded_returns (tol_nonneg hp) hfin m ⟨s.draws, .deprecoded, m⟩
  refine ⟨fun hfin m hm => ?_, fun hzero m hm => ?_⟩
  · rw [← deprecodeValue_exp]
    exact hreturns hfin m hm
  · have h := hreturns (fun k hk => (c64IsZero_value (hzero k hk)).1) m hm
    rw [deprecodeValue_of_zero (fun k hk => (c64IsZero_value (hzero k hk)).2),
      deprecodeScaleValue_of_zero (fun k hk => norm_eq_zero.2 (c64IsZero_value (hzero k hk)).2)] at h
    exact c64IsZero_of_returns h

/-! ## `DEPRECODE.NOISE` (41_transform_precoder.md R80, R82, R83) -/

/-- The output buffer of a `DEPRECODE.NOISE` that passes its checks lies in DMEM and is as long as the input. -/
theorem deprecodeNoise_room {d : DeprecodeDesc} {p : Params} (h : checkDeprecodeNoise d p = none) :
    d.outAddr.toNat + 4 * d.outLen.toNat ≤ p.dmemSize ∧ d.inLen = d.outLen := by
  rw [checkDeprecodeNoise, firstFail_none] at h
  simp only [List.forall_mem_cons, Bool.not_eq_false', Bool.and_eq_true, inb_iff, bne_eq_false_iff_eq] at h
  obtain ⟨-, ⟨-, hout⟩, hlen, -⟩ := h
  exact ⟨hout, hlen⟩

theorem exec_deprecodeNoise {d : DeprecodeDesc} {s : State} (h : checkDeprecodeNoise d s.params = none) :
    exec (.deprecodeNoise d) s = finishDone (.deprecodeNoise d) []
      [(d.outAddr.toNat, bytesOfWords (deprecodeNoise s.params.tol s.draws
        (memWords s.dmem d.inAddr.toNat d.inLen.toNat)))] s := by
  show execDeprecodeNoise d s = _
  rw [execDeprecodeNoise, h]

theorem memWords_eq (m : Memory) (a n : Nat) :
    memWords m a n = (List.range n).map (fun i => memWord m (a + 4 * i)) := rfl

theorem deprecodeNoise_length (tol : Rat) (epoch : Nat) (v : List F32) :
    (deprecodeNoise tol epoch v).length = v.length := List.length_map _

/-- Entry `i` of the output: the common mean for a good entry, else the entry itself (41_transform_precoder.md R80). -/
theorem deprecodeNoise_getD {tol : Rat} {epoch n i : Nat} {v : Nat → F32} (hi : i < n) (x : F32) :
    (deprecodeNoise tol epoch ((List.range n).map v)).getD i x =
      if goodNv (v i) then noiseMean tol epoch ((List.range n).map v) else v i := by
  rw [List.getD_eq_getElem _ _ (by simpa [deprecodeNoise_length] using hi)]
  simp [deprecodeNoise]

/-- The good entries, by their places. -/
theorem goodValues_range (v : Nat → F32) (n : Nat) :
    ((((List.range n).map v).filter goodNv).map f32Rat) =
      ((List.range n).filter (fun i => goodNv (v i))).map (fun i => f32Rat (v i)) := by
  rw [List.filter_map, List.map_map]
  rfl

/-- A `DEPRECODE.NOISE` that passes its checks completes, and undisturbed its good entries are the one drawn mean. -/
theorem deprecodeNoise_completes {d : DeprecodeDesc} {s : State} (hc : CallerExists s) (hwf : Memory.wf s.dmem = true)
    (hsz : d.resAddr.toNat + 4 ≤ s.params.dmemSize) (hcheck : checkDeprecodeNoise d s.params = none) :
    ∃ t, exec (.deprecodeNoise d) s = .next t ∧
      Completed [⟨d.resAddr.toNat, 4⟩, ⟨d.outAddr.toNat, 4 * d.outLen.toNat⟩] s t ∧
      (HeaderStands (.deprecodeNoise d) s → recordWord t d.resAddr 0 = headerWord d.tag 0x22#8 rsDone) ∧
      (Undisturbed (.deprecodeNoise d) s → ∀ i, i < d.inLen.toNat →
        memWord t.dmem (d.outAddr.toNat + 4 * i) =
          if goodNv (memWord s.dmem (d.inAddr.toNat + 4 * i)) then
            noiseMean s.params.tol s.draws (memWords s.dmem d.inAddr.toNat d.inLen.toNat)
          else memWord s.dmem (d.inAddr.toNat + 4 * i)) := by
  obtain ⟨hroom, hlen⟩ := deprecodeNoise_room hcheck
  have hcount : (deprecodeNoise s.params.tol s.draws (memWords s.dmem d.inAddr.toNat d.inLen.toNat)).length =
      d.inLen.toNat := by rw [deprecodeNoise_length, memWords, wordsAt_length]
  obtain ⟨t, hexec, hdone, hheader, hclean⟩ := component_completes (i := .deprecodeNoise d) hc hwf rfl hsz
    (by rw [List.map_singleton, bytesOfWords_length, hcount, hlen]; rfl) (by simpa [outRegions, hroom] using hsz)
    (exec_deprecodeNoise hcheck)
  refine ⟨t, hexec, hdone, hheader, fun hu i hi => ?_⟩
  obtain ⟨outs, hmem, hapart, hin⟩ := hclean hu
  rw [hmem, memWord_writeAll_of_apart hwf outs hapart _ _ (hin _ (List.mem_singleton_self _)) i (by rwa [hcount]),
    memWords_eq, deprecodeNoise_getD hi]

/-- Settles O13: every good entry of the buffer is the one drawn mean, every other one the input's. -/
theorem deprecodeNoiseCompletes : Obligations.DeprecodeNoiseCompletes := by
  intro d s hc hwf hsz hcheck
  obtain ⟨t, hexec, hdone, hheader, hentry⟩ := deprecodeNoise_completes hc hwf hsz hcheck
  refine ⟨t, hexec, hdone, hheader, fun hu => ?_⟩
  intro v w good mu rule
  obtain ⟨mean, hmean⟩ : ∃ mean, mean = noiseMean s.params.tol s.draws ((List.range d.inLen.toNat).map v) :=
    ⟨_, rfl⟩
  have hgood (i : Nat) (hi : i < d.inLen.toNat) (hg : goodNv (v i) = true) : w i = mean :=
    ((hentry hu i hi).trans (if_pos hg)).trans hmean.symm
  refine ⟨fun i hi hg => (hentry hu i hi).trans (if_neg (ne_true_of_eq_false hg)), fun i hi hg => ?_,
    fun i j hi hj hgi hgj => (hgood i hi hgi).trans (hgood j hj hgj).symm, fun i hi hg hsome => ?_⟩
  · rw [hgood i hi hg, hmean]
    exact drawF32_goodWithin _ _ _
  · rw [hgood i hi hg, hmean, noiseMean, goodValues_range]
    exact drawF32_admits hsome

end Sys2Proof.Proofs
end

section
/-! The LLR bytes of Formats 3 and 4 through equalizer, deprecoder and despreader, and of bad elements in Formats 2 to 4
(45_format234.md R113 to R123). -/

namespace Sys2Proof.Proofs

open Sys2Proof Sys2Proof.Machine

/-! ## The demodulators and their LLR buffers (45_format234.md R126 to R128) -/

section

variable {d : PucchDesc} {s : State}

theorem exec_procF2 (hB : stageB .f2 d s = none) :
    exec (.procF2 d) s = finishDone (.procF2 d) (csiRecord (llrCount .f2 d) (chEst s (encode (.procF2 d))))
      [(d.bufAddr.toNat, llrBytes d s 2 (f2Stream d s (chEst s (encode (.procF2 d)))))] s := by
  show execProcF2 d s = _
  rw [execProcF2, hB]

theorem exec_procF3 (hB : stageB .f3 d s = none) :
    exec (.procF3 d) s = finishDone (.procF3 d) (csiRecord (llrCount .f3 d) (chEst s (encode (.procF3 d))))
      [(d.bufAddr.toNat, llrBytes d s (qmOf .f3 d) (f3Stream d s (chEst s (encode (.procF3 d)))))] s := by
  show execProcF3 d s = _
  rw [execProcF3, hB]

theorem exec_procF4 (hB : stageB .f4 d s = none) :
    exec (.procF4 d) s = finishDone (.procF4 d) (csiRecord (llrCount .f4 d) (chEst s (encode (.procF4 d))))
      [(d.bufAddr.toNat, llrBytes d s (qmOf .f4 d) (f4Stream d s (chEst s (encode (.procF4 d)))))] s := by
  show execProcF4 d s = _
  rw [execProcF4, hB]

/-- A demodulator that passes stage B leaves its LLR bytes in memory where nothing disturbs it. -/
theorem demod_holds {f : Fmt} (hf : f = .f2 ∨ f = .f3 ∨ f = .f4) {i : Instr} {ch : Chest} {qm : Nat}
    {stream : List StreamSym} (hc : CallerExists s) (hwf : Memory.wf s.dmem = true) (hB : stageB f d s = none)
    (hu : Undisturbed i s) (hres : instrResAddr i = d.resAddr) (hval : opcodeIsVal (instrOpcode i) = false)
    (houts : outRegions i = [⟨d.resAddr.toNat, 28⟩, ⟨d.bufAddr.toNat, d.bufLen.toNat⟩])
    (hlen : (llrBytes d s qm stream).length = llrCount f d)
    (hexec : exec i s =
      finishDone i (csiRecord (llrCount f d) ch) [(d.bufAddr.toNat, llrBytes d s qm stream)] (latched i s)) :
    ∃ t, exec i s = .next t ∧ HoldsLlrs d s qm stream t.dmem := by
  have hsz : (instrResAddr i).toNat + (if opcodeIsVal (instrOpcode i) then 8 else 4) ≤ s.params.dmemSize := by
    rw [hval, hres]
    exact stageB_res hB
  obtain ⟨t, ht, -, -, hclean⟩ := completes hc hwf (demod_good f hf i d s hres houts hB ch _ hlen) hsz
  obtain ⟨hmem, hapart⟩ := hclean hu
  exact ⟨t, (hexec.trans (finishDone_latched ..)).trans ht, holds_of_write hwf hmem hapart⟩

theorem procF2_holds (hc : CallerExists s) (hwf : Memory.wf s.dmem = true) (hB : stageB .f2 d s = none)
    (hu : Undisturbed (.procF2 d) s) : ∃ t, exec (.procF2 d) s = .next t ∧
      HoldsLlrs d s 2 (f2Stream d s (chEst s (encode (.procF2 d)))) t.dmem :=
  demod_holds (.inl rfl) hc hwf hB hu rfl rfl rfl (llrBytes_length_f2 ..) (exec_procF2 hB)

theorem procF3_holds (hc : CallerExists s) (hwf : Memory.wf s.dmem = true) (hB : stageB .f3 d s = none)
    (hu : Undisturbed (.procF3 d) s) : ∃ t, exec (.procF3 d) s = .next t ∧
      HoldsLlrs d s (qmOf .f3 d) (f3Stream d s (chEst s (encode (.procF3 d)))) t.dmem :=
  demod_holds (.inr (.inl rfl)) hc hwf hB hu rfl rfl rfl (llrBytes_length_f3 ..) (exec_procF3 hB)

theorem procF4_holds (hc : CallerExists s) (hwf : Memory.wf s.dmem = true) (hB : stageB .f4 d s = none)
    (hu : Undisturbed (.procF4 d) s) : ∃ t, exec (.procF4 d) s = .next t ∧
      HoldsLlrs d s (qmOf .f4 d) (f4Stream d s (chEst s (encode (.procF4 d)))) t.dmem :=
  demod_holds (.inr (.inr rfl)) hc hwf hB hu rfl rfl rfl (llrBytes_length_f4 ..) (exec_procF4 hB)

end

/-! ## Where an element stands in its stream (45_format234.md R113, R117, R119) -/

/-- Element `k` of symbol `i` of an allocation. -/
def allocElement (d : PucchDesc) (s : State) (ch : Chest) (i k : Nat) : Element :=
  elementAt d s ch (d.startSym.toNat + i) (12 * prbBase d i + k)

/-- The deprecoded block of data symbol `i`. -/
def deprecodedBlock (d : PucchDesc) (s : State) (ch : Chest) (msc i : Nat) : List StreamSym :=
  f34Deprecoded s.params.tol (f34Block d s ch msc i)

theorem deprecodedBlock_eq (d : PucchDesc) (s : State) (ch : Chest) (msc i : Nat) :
    deprecodedBlock d s ch msc i =
      f34Deprecoded s.params.tol (equalizedBlock s.params.eqAlgo msc (allocElement d s ch i)) := rfl

theorem deprecodedBlock_length (d : PucchDesc) (s : State) (ch : Chest) (msc i : Nat) :
    (deprecodedBlock d s ch msc i).length = msc := by
  rw [deprecodedBlock_eq, f34Deprecoded_length, equalizedBlock, List.length_map, List.length_range]

theorem f3Stream_eq (d : PucchDesc) (s : State) (ch : Chest) :
    f3Stream d s ch = (f34Data d).flatMap (deprecodedBlock d s ch (12 * d.nofPrb.toNat)) := rfl

theorem f2Stream_at (d : PucchDesc) (s : State) (ch : Chest) {i r q : Nat} (hi : i < d.nofSym.toNat)
    (hr : r < d.nofPrb.toNat) (hq : q < 8) : (f2Stream d s ch)[8 * (i * d.nofPrb.toNat + r) + q]? =
      some (streamOfEq s.params.tol (equalizeIdeal s.params.eqAlgo 1
        (allocElement d s ch i (12 * r + [0, 2, 3, 5, 6, 8, 9, 11].getD q 0)).lanes)) := by
  rw [f2Stream, List.getElem?_map, f2DataRes_at d i r q hi hr hq, Option.map_some, reEqualized, reLanes_element,
    allocElement, Nat.mul_add, Nat.add_assoc]

theorem f3Stream_at (d : PucchDesc) (s : State) (ch : Chest) {n i m : Nat} (hi : (f34Data d)[n]? = some i)
    (hm : m < 12 * d.nofPrb.toNat) : (f3Stream d s ch)[n * (12 * d.nofPrb.toNat) + m]? =
      (deprecodedBlock d s ch (12 * d.nofPrb.toNat) i)[m]? := by
  rw [f3Stream_eq, Nat.mul_comm n, getElem?_flatMap_const _ _ _ (deprecodedBlock_length d s ch _) n m hm, hi]
  rfl

theorem occLen_cases (d : PucchDesc) : occLen d = 2 ∨ occLen d = 4 := by
  unfold occLen
  split <;> simp

theorem occLen_pos (d : PucchDesc) : 0 < occLen d := by
  rcases occLen_cases d with h | h <;> omega

/-- The copies of a Format 4 symbol with the quarter turns of the conjugate cover (45_format234.md R117). -/
def symbolCopies (d : PucchDesc) (sd : List StreamSym) (m : Nat) : List (Nat × StreamSym) :=
  (List.range (occLen d)).map (fun q =>
    (4 - (f4Occ (occLen d) d.occIdx.toNat).getD (m + q * (12 / occLen d)) 0,
      sd.getD (m + q * (12 / occLen d)) .unusable))

theorem copy_lt {d : PucchDesc} {m q : Nat} (hm : m < 12 / occLen d) (hq : q < occLen d) :
    m + q * (12 / occLen d) < 12 := by
  rcases occLen_cases d with h | h <;> rw [h] at hm hq ⊢ <;> omega

theorem f4Stream_at (d : PucchDesc) (s : State) (ch : Chest) {n i m : Nat} (hi : (f34Data d)[n]? = some i)
    (hm : m < 12 / occLen d) : (f4Stream d s ch)[n * (12 / occLen d) + m]? =
      some (despreadCopies s.params.tol (occLen d) (symbolCopies d (deprecodedBlock d s ch 12 i) m)) := by
  have hlen (sd : List StreamSym) :
      (despread s.params.tol (occLen d) d.occIdx.toNat sd).length = 12 / occLen d := by
    rw [despread, List.length_map, List.length_range]
  rw [f4Stream, Nat.mul_comm n, getElem?_flatMap_const _ _ _ (fun _ => hlen _) n m hm, hi, Option.bind_some, despread,
    List.getElem?_map, List.getElem?_range hm]
  rfl

/-! ## Bad elements (42_equalizer.md R84, 45_format234.md R120) -/

/-- The LLR bytes of an unusable symbol of Format 3 or 4: two for QPSK, one for pi/2-BPSK. -/
theorem unusable_f34 {f : Fmt} (hf : f = .f3 ∨ f = .f4) {d : PucchDesc} {s : State} {stream : List StreamSym}
    {m : Memory} (hm : HoldsLlrs d s (qmOf f d) stream m) {n : Nat} (hx : stream[n]? = some .unusable) :
    if d.pi2bpsk = 1#1 then memByte m (d.bufAddr.toNat + n) = 0#8
    else memByte m (d.bufAddr.toNat + 2 * n) = 0#8 ∧ memByte m (d.bufAddr.toNat + (2 * n + 1)) = 0#8 := by
  rw [qmOf_f34 hf] at hm
  split_ifs at hm ⊢ with hbpsk
  · exact unusable_bpsk hm hx
  · exact unusable_qpsk hm hx

theorem f2Stream_bad {d : PucchDesc} {s : State} {ch : Chest} {i r q : Nat} (hi : i < d.nofSym.toNat)
    (hr : r < d.nofPrb.toNat) (hq : q < 8)
    (hb : (allocElement d s ch i (12 * r + [0, 2, 3, 5, 6, 8, 9, 11].getD q 0)).bad = true) :
    (f2Stream d s ch)[8 * (i * d.nofPrb.toNat + r) + q]? = some .unusable := by
  rw [f2Stream_at d s ch hi hr hq, equalized_bad _ _ _ hb]
  rfl

theorem f3Stream_bad {d : PucchDesc} {s : State} {ch : Chest} {n i m : Nat} (hi : (f34Data d)[n]? = some i)
    (hm : m < 12 * d.nofPrb.toNat) (hb : (allocElement d s ch i m).bad = true) :
    (f3Stream d s ch)[n * (12 * d.nofPrb.toNat) + m]? = some .unusable := by
  rw [f3Stream_at d s ch hi hm, deprecodedBlock_eq, deprecoded_bad hm hb]

theorem f4Stream_bad {d : PucchDesc} {s : State} {ch : Chest} {n i m q : Nat} (hi : (f34Data d)[n]? = some i)
    (hm : m < 12 / occLen d) (hq : q < occLen d) (hb : (allocElement d s ch i (m + q * (12 / occLen d))).bad = true) :
    (f4Stream d s ch)[n * (12 / occLen d) + m]? = some .unusable := by
  rw [f4Stream_at d s ch hi hm]
  refine congrArg some (despread_bad ⟨_, List.mem_map_of_mem (List.mem_range.2 hq), ?_⟩)
  dsimp only
  rw [deprecodedBlock_eq, List.getD_eq_getElem?_getD, deprecoded_bad (copy_lt hm hq) hb]
  rfl

/-- Settles O58: a bad element is an unusable symbol of its stream, in Format 4 through any of its copies. -/
theorem deadChannelSilencesItsElement : Obligations.DeadChannelSilencesItsElement := by
  intro d s hc hwf
  refine ⟨fun hB hu => ?_, fun hB hu => ?_, fun hB hu => ?_⟩
  · obtain ⟨t, ht, hm⟩ := procF2_holds hc hwf hB hu
    exact ⟨t, ht, fun i r q hi hr hq hb => unusable_qpsk hm (f2Stream_bad hi hr hq hb)⟩
  · obtain ⟨t, ht, hm⟩ := procF3_holds hc hwf hB hu
    exact ⟨t, ht, fun n i m hi hlt hb => unusable_f34 (.inl rfl) hm (f3Stream_bad hi hlt hb)⟩
  · obtain ⟨t, ht, hm⟩ := procF4_holds hc hwf hB hu
    exact ⟨t, ht, fun n i m q hi hlt hq hb => unusable_f34 (.inr rfl) hm (f4Stream_bad hi hlt hq hb)⟩

/-! ## Usable symbols (45_format234.md R117, R119, R121) -/

/-- The LLR bytes of a symbol of Format 3 or 4: two for QPSK, one for pi/2-BPSK. -/
theorem symbol_f34 {f : Fmt} (hf : f = .f3 ∨ f = .f4) {d : PucchDesc} {s : State} {stream : List StreamSym}
    {m : Memory} (hp : ParamsLegal s.params) (hm : HoldsLlrs d s (qmOf f d) stream m) {n : Nat} {x : StreamSym}
    (hx : stream[n]? = some x) {sym : ℂ} {scale e : ℝ} (h : x.Is sym scale e) (hpos : 0 < e) :
    (if d.pi2bpsk = 1#1 then ReturnsBpsk s.params (d.rnti.toNat * 2 ^ 15 + d.nId.toNat)
      else ReturnsQpsk s.params (d.rnti.toNat * 2 ^ 15 + d.nId.toNat)) sym scale e n d.bufAddr.toNat m := by
  have htol := tol_nonneg hp
  obtain ⟨-, -, hq, -⟩ := hp
  rw [qmOf_f34 hf] at hm
  split_ifs at hm ⊢ with hbpsk
  · exact holds_bpsk hq htol hm hx h hpos
  · exact holds_qpsk hq htol hm hx h hpos

/-- The cover of a Format 4 command that passes stage B turns by less than four quarters (45_format234.md R116). -/
theorem f4Occ_lt {d : PucchDesc} {s : State} (hB : stageB .f4 d s = none) {k : Nat} (hk : k < 12) :
    (f4Occ (occLen d) d.occIdx.toNat).getD k 0 < 4 := by
  obtain ⟨-, -, -, -, b5, -⟩ := (stageB_none _ _ _).1 hB
  have hidx : d.occIdx.toNat < occLen d := by
    simp only [failB5, Bool.or_eq_false_iff, decide_eq_false_iff_not, not_le] at b5
    exact b5.2
  rw [(f4Occ_quarters _ (occLen_cases d) _ hidx).2 k hk]
  exact Nat.mod_lt _ (by decide)

/-- Element `m` of the deprecoded data symbol `i` (45_format234.md R119). -/
noncomputable def deprecodedSymbol (d : PucchDesc) (s : State) (ch : Chest) (msc i m : Nat) : ℂ :=
  deprecodeValue msc (fun k => (allocElement d s ch i k).symbol s.params.eqAlgo 1) m

/-- The scale of every element of the deprecoded data symbol `i`. -/
noncomputable def deprecodedScale (d : PucchDesc) (s : State) (ch : Chest) (msc i : Nat) : ℝ :=
  deprecodeScaleValue msc (fun k => (allocElement d s ch i k).symbolScale s.params.eqAlgo 1)

/-- Symbol `m` of the despread data symbol `i` of Format 4 (45_format234.md R117). -/
noncomputable def despreadSymbol (d : PucchDesc) (s : State) (ch : Chest) (i m : Nat) : ℂ :=
  1 / occLen d * ∑ q ∈ Finset.range (occLen d),
    starRingEnd ℂ (Complex.I ^ (f4Occ (occLen d) d.occIdx.toNat).getD (m + q * (12 / occLen d)) 0) *
      deprecodedSymbol d s ch 12 i (m + q * (12 / occLen d))

/-- The scale of every symbol of the despread data symbol `i`. -/
noncomputable def despreadSymbolScale (d : PucchDesc) (s : State) (ch : Chest) (i : Nat) : ℝ :=
  1 / occLen d * ∑ _q ∈ Finset.range (occLen d), deprecodedScale d s ch 12 i

/-- The noise variance of every symbol of the despread data symbol `i`. -/
noncomputable def despreadNoise (d : PucchDesc) (s : State) (ch : Chest) (i : Nat) : ℝ :=
  1 / (occLen d : ℝ) ^ 2 * ∑ _q ∈ Finset.range (occLen d), blockNoise s.params.eqAlgo 12 (allocElement d s ch i)

section

variable {d : PucchDesc} {s : State} {ch : Chest} {i m : Nat}

/-- An element of a closed block that is not bad is its deprecoded symbol. -/
theorem deprecodedBlock_is {msc : Nat} (htol : 0 ≤ s.params.tol) (hports : 0 < d.nofPorts.toNat) (hm : m < msc)
    (hb : (allocElement d s ch i m).bad = false)
    (hclosed : BlockClosed s.params.tol s.params.eqAlgo msc (allocElement d s ch i))
    (held : ComplexHeld s.params.tol (deprecodedSymbol d s ch msc i m) (deprecodedScale d s ch msc i)) :
    ∃ x, (deprecodedBlock d s ch msc i)[m]? = some x ∧
      x.Is (deprecodedSymbol d s ch msc i m) (deprecodedScale d s ch msc i)
        (blockNoise s.params.eqAlgo msc (allocElement d s ch i)) :=
  deprecoded_is htol (fun _ => hports) hclosed hm hb held

theorem despreadNoise_pos (hports : 0 < d.nofPorts.toNat) {k : Nat} (hk : k < 12)
    (hb : (allocElement d s ch i k).bad = false) : 0 < despreadNoise d s ch i := by
  have hsf := occLen_pos d
  have hnoise : 0 < blockNoise s.params.eqAlgo 12 (allocElement d s ch i) := blockNoise_pos (fun _ => hports) hk hb
  exact mul_pos (by positivity) (Finset.sum_pos (fun _ _ => hnoise) ⟨0, Finset.mem_range.2 hsf⟩)

/-- A Format 4 symbol none of whose copies is bad, in a closed block, is the average of its copies under the conjugate
cover. -/
theorem symbolCopies_is (htol : 0 ≤ s.params.tol) (hB : stageB .f4 d s = none) (hm : m < 12 / occLen d)
    (hb : ∀ q, q < occLen d → (allocElement d s ch i (m + q * (12 / occLen d))).bad = false)
    (hclosed : BlockClosed s.params.tol s.params.eqAlgo 12 (allocElement d s ch i))
    (hcopies : ∀ q, q < occLen d → ComplexHeld s.params.tol (deprecodedSymbol d s ch 12 i (m + q * (12 / occLen d)))
      (deprecodedScale d s ch 12 i))
    (held : ComplexHeld s.params.tol (despreadSymbol d s ch i m) (despreadSymbolScale d s ch i)) :
    (despreadCopies s.params.tol (occLen d) (symbolCopies d (deprecodedBlock d s ch 12 i) m)).Is
      (despreadSymbol d s ch i m) (despreadSymbolScale d s ch i) (despreadNoise d s ch i) := by
  refine despread_is htol (fun q hq => ?_) (fun q hq => f4Occ_lt hB (copy_lt hm hq)) held
  obtain ⟨x, hx, his⟩ := deprecodedBlock_is htol (ports_pos hB) (copy_lt hm hq) (hb q hq) hclosed (hcopies q hq)
  rw [List.getD_eq_getElem?_getD, hx]
  exact his

end

/-- Settles O60: in a closed block the stream holds the deprecoded or despread symbol, whose LLR bytes are those of the
rule. -/
theorem formatsThreeAndFourLlrs : Obligations.FormatsThreeAndFourLlrs := by
  intro d s i n hc hwf hp hi
  have htol := tol_nonneg hp
  refine ⟨fun hB hu => ?_, fun hB hu => ?_⟩
  · obtain ⟨t, ht, hm⟩ := procF3_holds hc hwf hB hu
    refine ⟨t, ht, fun m hlt hb hclosed held => ?_⟩
    obtain ⟨x, hx, his⟩ := deprecodedBlock_is htol (ports_pos hB) hlt hb hclosed held
    exact symbol_f34 (.inl rfl) hp hm ((f3Stream_at _ _ _ hi hlt).trans hx) his
      (blockNoise_pos (fun _ => ports_pos hB) hlt hb)
  · obtain ⟨t, ht, hm⟩ := procF4_holds hc hwf hB hu
    refine ⟨t, ht, fun m hlt hb hclosed hcopies held => ?_⟩
    have hsf := occLen_pos d
    exact symbol_f34 (.inr rfl) hp hm (f4Stream_at _ _ _ hi hlt)
      (symbolCopies_is htol hB hlt hb hclosed hcopies held)
      (despreadNoise_pos (ports_pos hB) (copy_lt hlt hsf) (hb 0 hsf))

end Sys2Proof.Proofs
end

section
/-! The channel equalizer (42_equalizer.md): the checks of `EQUALIZE`, what it leaves where they pass, and the LLR bytes
of the elements that `PROC.F2` equalizes (45_format234.md R118, R121 to R123). -/

namespace Sys2Proof.Proofs

open Sys2Proof Sys2Proof.Machine

/-! ## The checks (42_equalizer.md R87) -/

/-- A pattern is a finite positive value exactly between those of 0 and of `+inf` (00_scope.md R13). -/
theorem goodNv_iff_toNat (x : F32) : goodNv x = true ↔ 0 < x.toNat ∧ x.toNat < 0x7F800000 := by
  simp only [goodNv, Bool.and_eq_true, Bool.not_eq_true', ← Bool.not_eq_true (f32IsZero x), f32IsZero_mag,
    f32Finite_iff]
  cases hmsb : x.msb with
  | false =>
    rw [f32Mag_of_msb hmsb, eq_self, true_and, Nat.pos_iff_ne_zero, and_comm, Nat.lt_iff_add_one_le,
      Nat.add_one_le_add_one_iff]
  | true =>
    have hge := BitVec.msb_eq_true_iff_two_mul_ge.1 hmsb
    simp only [Bool.true_eq_false, false_and, false_iff]
    omega

theorem al4_eq_false_iff (a : Word) : al4 a = false ↔ a.toNat % 4 ≠ 0 := by
  rw [← Bool.not_eq_true, al4_iff]

theorem inb_eq_false_iff (size a n : Nat) : inb size a n = false ↔ size < a + n := by
  rw [← Bool.not_eq_true, inb_iff, not_le]

theorem badPorts_iff (n max : Nat) : (decide (n = 0) || decide (max < n)) = true ↔ n = 0 ∨ max < n := by
  rw [Bool.or_eq_true, decide_eq_true_iff, decide_eq_true_iff]

theorem badScaling_iff (x : F32) : (!goodNv x) = true ↔ ¬ (0 < x.toNat ∧ x.toNat < 0x7F800000) := by
  rw [← goodNv_iff_toNat, Bool.not_eq_true', Bool.not_eq_true]

theorem misaligned_five_iff (a b c d e : Word) : (!(al4 a && al4 b && al4 c && al4 d && al4 e)) = true ↔
    a.toNat % 4 ≠ 0 ∨ b.toNat % 4 ≠ 0 ∨ c.toNat % 4 ≠ 0 ∨ d.toNat % 4 ≠ 0 ∨ e.toNat % 4 ≠ 0 := by
  simp only [Bool.not_eq_true', Bool.and_eq_false_iff, al4_eq_false_iff, or_assoc]

theorem outOfBounds_five_iff (size a i b j c k d l e m : Nat) :
    (!(inb size a i && inb size b j && inb size c k && inb size d l && inb size e m)) = true ↔
      size < a + i ∨ size < b + j ∨ size < c + k ∨ size < d + l ∨ size < e + m := by
  simp only [Bool.not_eq_true', Bool.and_eq_false_iff, inb_eq_false_iff, or_assoc]

/-- Settles O17: check by check, the model's test is the rule's condition, and a raised code enters the fault
registers. -/
theorem equalizeChecksInOrder : Obligations.EqualizeChecksInOrder := by
  intro s d hrun hwf
  refine ⟨firstFails_cons bne_iff_ne <| firstFails_cons (badPorts_iff ..) <| firstFails_cons decide_eq_true_iff <|
    firstFails_cons (badScaling_iff _) <| firstFails_cons (misaligned_five_iff ..) <|
    firstFails_cons (outOfBounds_five_iff ..) rfl, fun code h => ?_⟩
  rw [exec_equalize_trap h]
  exact raiseFault_faulted _ code s hrun hwf

/-! ## A resource element (42_equalizer.md R84, R85) -/

theorem element_bad_iff (r : Element) : r.bad = true ↔
    ∃ p, p < r.ports ∧ (goodNv (r.nv p) = false ∨ c64IsZero (r.h p) = true ∨ c64Finite (r.h p) = false) := by
  simp only [Element.bad, List.any_eq_true, List.mem_range, Bool.or_eq_true, Bool.not_eq_true', or_assoc]

theorem element_finite_iff (r : Element) : r.finite = true ↔ ∀ p, p < r.ports → c64Finite (r.y p) = true := by
  simp only [Element.finite, List.all_eq_true, List.mem_range]

theorem element_denominator_eq (algo : EqAlgo) (r : Element) :
    r.denominator algo = if algo = .mmse then r.gain + 1 else r.gain := by
  cases algo <;> rfl

theorem element_symbol_of_good {r : Element} (hb : r.bad = false) (algo : EqAlgo) (sf : ℝ) :
    r.symbol algo sf = r.matched * sf / (r.denominator algo : ℂ) := if_neg (ne_true_of_eq_false hb)

theorem element_symbolScale_of_good {r : Element} (hb : r.bad = false) (algo : EqAlgo) (sf : ℝ) :
    r.symbolScale algo sf = r.matchedScale * sf / r.denominator algo := if_neg (ne_true_of_eq_false hb)

/-- Element `n` of an `EQUALIZE` command, as its buffers lie in memory (30_encoding.md R66, 42_equalizer.md R88). -/
def eqCommandElement (m : Memory) (d : EqualizeDesc) (n : Nat) : Element where
  ports := d.nofPorts.toNat
  y p   := memC64 m (d.rxAddr.toNat + 8 * (p * d.nofRe.toNat + n))
  h p   := memC64 m (d.chAddr.toNat + 8 * (p * d.nofRe.toNat + n))
  nv p  := memWord m (d.nvAddr.toNat + 4 * p)

theorem eqLanes_element (m : Memory) (d : EqualizeDesc) (n : Nat) :
    eqLanes m d n = (eqCommandElement m d n).lanes := rfl

/-- The ideal output of element `n` of an `EQUALIZE` command. -/
def eqCommandIdeal (p : Params) (m : Memory) (d : EqualizeDesc) (n : Nat) : EqIdeal :=
  equalizeIdeal p.eqAlgo (f32Rat d.scaling) (eqCommandElement m d n).lanes

theorem eqOutputs_length (p : Params) (m : Memory) (d : EqualizeDesc) :
    (eqOutputs p m d).length = d.nofRe.toNat := by
  rw [eqOutputs, List.length_map, List.length_range]

/-- Every output of an element comes from its own lanes alone (42_equalizer.md R89). -/
theorem eqOutputs_mapIdx_getD {α : Type} (p : Params) (m : Memory) (d : EqualizeDesc) (f : Nat → EqIdeal → α)
    {n : Nat} (hn : n < d.nofRe.toNat) (z : α) :
    ((eqOutputs p m d).mapIdx f).getD n z = f n (eqCommandIdeal p m d n) := by
  rw [List.getD_eq_getElem?_getD, List.getElem?_mapIdx, eqOutputs, List.getElem?_map, List.getElem?_range hn]
  rfl

/-! ## `EQUALIZE` (42_equalizer.md R88) -/

/-- What the checks of `EQUALIZE` leave: a port, one layer, a finite positive scaling, and output buffers in DMEM. -/
theorem equalize_room {d : EqualizeDesc} {p : Params} (h : checkEqualize d p = none) :
    0 < d.nofPorts.toNat ∧ d.nofLayers.toNat = 1 ∧ goodNv d.scaling = true ∧
      d.osymAddr.toNat + 8 * d.nofRe.toNat ≤ p.dmemSize ∧ d.onvAddr.toNat + 4 * d.nofRe.toNat ≤ p.dmemSize := by
  simp only [checkEqualize, firstFail_none, List.forall_mem_cons, Bool.or_eq_false_iff, Bool.not_eq_false',
    Bool.and_eq_true, inb_iff, decide_eq_false_iff_not, not_not] at h
  obtain ⟨-, ⟨hports, -⟩, hlayers, hscaling, -, ⟨⟨-, hsym⟩, hnoise⟩, -⟩ := h
  rw [hlayers, Nat.mul_one] at hsym hnoise
  exact ⟨Nat.pos_of_ne_zero hports, hlayers, hscaling, hsym, hnoise⟩

theorem outRegions_equalize {d : EqualizeDesc} (h : d.nofLayers.toNat = 1) : outRegions (.equalize d) =
    [⟨d.resAddr.toNat, 4⟩, ⟨d.osymAddr.toNat, 8 * d.nofRe.toNat⟩, ⟨d.onvAddr.toNat, 4 * d.nofRe.toNat⟩] := by
  rw [outRegions, h, Nat.mul_one, Nat.mul_one]

theorem exec_equalize {d : EqualizeDesc} {s : State} (h : checkEqualize d s.params = none) :
    exec (.equalize d) s = finishDone (.equalize d) []
      [(d.osymAddr.toNat,
          ((eqOutputs s.params s.dmem d).mapIdx (eqSymbol s.params.tol s.draws)).flatMap c64Bytes),
        (d.onvAddr.toNat,
          bytesOfWords ((eqOutputs s.params s.dmem d).mapIdx (eqNoise s.params.tol s.draws)))] s := by
  show execEqualize d s = _
  rw [execEqualize, h]

/-- An `EQUALIZE` that passes its checks completes, and undisturbed its buffers hold the outputs of its elements. -/
theorem equalize_completes {d : EqualizeDesc} {s : State} (hc : CallerExists s) (hwf : Memory.wf s.dmem = true)
    (hsz : d.resAddr.toNat + 4 ≤ s.params.dmemSize) (hcheck : checkEqualize d s.params = none) :
    ∃ t, exec (.equalize d) s = .next t ∧
      Completed [⟨d.resAddr.toNat, 4⟩, ⟨d.osymAddr.toNat, 8 * d.nofRe.toNat⟩,
        ⟨d.onvAddr.toNat, 4 * d.nofRe.toNat⟩] s t ∧
      (HeaderStands (.equalize d) s → recordWord t d.resAddr 0 = headerWord d.tag 0x23#8 rsDone) ∧
      (Undisturbed (.equalize d) s → ∀ n, n < d.nofRe.toNat →
        memC64 t.dmem (d.osymAddr.toNat + 8 * n) =
          eqSymbol s.params.tol s.draws n (eqCommandIdeal s.params s.dmem d n) ∧
        memWord t.dmem (d.onvAddr.toNat + 4 * n) =
          eqNoise s.params.tol s.draws n (eqCommandIdeal s.params s.dmem d n)) := by
  obtain ⟨-, hlayers, -, hsym, hnoise⟩ := equalize_room hcheck
  have houts := outRegions_equalize hlayers
  obtain ⟨t, hexec, hdone, hheader, hclean⟩ := component_completes (i := .equalize d) hc hwf rfl hsz
    (by
      rw [houts, List.map_cons, List.map_singleton, flatMap_c64Bytes_length, bytesOfWords_length, List.length_mapIdx,
        List.length_mapIdx, eqOutputs_length]
      rfl)
    (by simpa [houts, hsym, hnoise] using hsz) (exec_equalize hcheck)
  refine ⟨t, hexec, houts ▸ hdone, hheader, fun hu n hn => ?_⟩
  obtain ⟨outs, hmem, hapart, hin⟩ := hclean hu
  have hlen {α : Type} (f : Nat → EqIdeal → α) : n < ((eqOutputs s.params s.dmem d).mapIdx f).length := by
    rwa [List.length_mapIdx, eqOutputs_length]
  constructor
  · rw [hmem, memC64_writeAll hwf outs hapart _ _ (hin _ (List.mem_cons_self ..)) n (hlen _),
      eqOutputs_mapIdx_getD _ _ _ _ hn]
  · rw [hmem, memWord_writeAll_of_apart hwf outs hapart _ _
      (hin _ (List.mem_cons_of_mem _ (List.mem_singleton_self _))) n (hlen _), eqOutputs_mapIdx_getD _ _ _ _ hn]

/-- `TOL` is less than 1 in legal parameters, since `6.95 < 1/(4*TOL)` (00_scope.md R10). -/
theorem tol_lt_one {p : Params} (hp : ParamsLegal p) : p.tol < 1 := by
  obtain ⟨-, ⟨hpos, hbound, -⟩, -⟩ := hp
  rw [lt_div_iff₀ (by positivity)] at hbound
  linarith

/-- Settles O14: an element's symbol and noise variance are the sentinel where it is bad, else drawn within the bounds of
the rule's values. -/
theorem equalizeCompletes : Obligations.EqualizeCompletes := by
  intro d s hc hwf hp hsz hcheck
  obtain ⟨hports, -, hscaling, -⟩ := equalize_room hcheck
  have hsf : 0 < f32Rat d.scaling := ((goodNv_iff _).1 hscaling).2
  obtain ⟨t, hexec, hdone, hheader, helement⟩ := equalize_completes hc hwf hsz hcheck
  refine ⟨t, hexec, hdone, hheader, fun hu n hn => ?_⟩
  obtain ⟨hsym, hnoise⟩ := helement hu n hn
  intro np y h nv sf bad g c scale den sym noise
  have hbadIff : (eqCommandElement s.dmem d n).bad = true ↔ bad := element_bad_iff _
  refine ⟨fun hbad => ?_, fun hgood => ?_⟩
  · rw [eqCommandIdeal, equalized_bad _ _ _ (hbadIff.2 hbad)] at hsym hnoise
    exact ⟨hsym, hnoise⟩
  · have hb : (eqCommandElement s.dmem d n).bad = false := Bool.eq_false_iff.2 (mt hbadIff.1 hgood)
    have hden : (eqCommandElement s.dmem d n).denominator s.params.eqAlgo = den := element_denominator_eq ..
    obtain ⟨hpos, hreal, hcomplex⟩ := equalized_returns (tol_nonneg hp) (tol_lt_one hp) s.params.eqAlgo hsf.le _ hb
      hports s.draws n
    rw [← eqCommandIdeal, ← hnoise] at hpos hreal
    rw [← eqCommandIdeal, ← hsym, element_symbol_of_good hb, element_symbolScale_of_good hb, hden] at hcomplex
    rw [Element.noise, hden] at hreal
    exact ⟨hpos, hreal hsf, fun hfin => hcomplex ((element_finite_iff _).2 hfin)⟩

/-! ## The LLRs of Format 2 (45_format234.md R118, R121 to R123) -/

/-- Settles O59: the stream holds the equalized symbol of the element, whose LLR bytes are those of the rule. -/
theorem formatTwoLlrs : Obligations.FormatTwoLlrs := by
  intro d s hc hwf hp hB hu
  have htol := tol_nonneg hp
  obtain ⟨-, -, hquant, -⟩ := hp
  obtain ⟨t, ht, hm⟩ := procF2_holds hc hwf hB hu
  refine ⟨t, ht, fun i r q hi hr hq => ?_⟩
  intro algo x hb hfin held
  have hx : (f2Stream d s (chEst s (encode (.procF2 d))))[8 * (i * d.nofPrb.toNat + r) + q]? =
      some (streamOfEq s.params.tol (equalizeIdeal algo 1 x.lanes)) := by
    rw [f2Stream, List.getElem?_map, f2DataRes_at d i r q hi hr hq]
    rfl
  exact holds_qpsk hquant htol hm hx (equalized_is htol algo x hb hfin (ports_pos hB) held)
    (x.noise_pos hb (ports_pos hB) algo)

end Sys2Proof.Proofs
end

section
/-! The EPRE of Formats 0 and 1: the mean power of the allocation (43_format0.md R93, R95, 44_format1.md R106). -/

namespace Sys2Proof.Proofs

open Sys2Proof Sys2Proof.Machine

theorem ratSum_flatMap {α : Type} (l : List α) (f : α → List Rat) :
    ratSum (l.flatMap f) = ratSum (l.map (fun x => ratSum (f x))) := by
  refine (congrArg List.sum List.flatMap_def).trans (List.sum_flatten.trans ?_)
  rw [List.map_map]
  rfl

/-- The energy of an allocation, symbol by symbol, port by port and sample by sample (43_format0.md R93). -/
theorem blockEnergy_total (d : PucchDesc) (s : State) :
    ratSum ((rxBlocks d s).map blockEnergy) =
      ratSum ((List.range d.nofSym.toNat).map (fun i => ratSum ((List.range d.nofPorts.toNat).map (fun p =>
        ratSum ((List.range 12).map (fun k => qcAbs2 (qcOf (sampleAt d s i p k)))))))) := by
  have block (i p : Nat) : blockEnergy (rxBlock d s i p) =
      ratSum ((List.range 12).map (fun k => qcAbs2 (qcOf (sampleAt d s i p k)))) := by
    rw [blockEnergy, rxBlock, List.map_map]
    rfl
  simp only [rxBlocks, List.map_flatMap, ratSum_flatMap, List.map_map, Function.comp_def, block, nofSym, nofPorts]

/-- The mean power of an allocation (43_format0.md R95, 44_format1.md R106). -/
def meanPower (d : PucchDesc) (s : State) : Rat :=
  ratSum ((rxBlocks d s).map blockEnergy) / ((12 * nofPorts d * nofSym d : Nat) : Rat)

/-- What R15 admits for the EPRE: the mean power within its error bound. -/
def epreAdmitted (d : PucchDesc) (s : State) : Admitted :=
  admitNear (ivOf (meanPower d s)) (s.params.tol * meanPower d s)

/-- On finite samples both formats draw their EPRE from what one rule admits. -/
theorem epre_draws {d : PucchDesc} {s : State} (hf : rxFinite (rxBlocks d s) = true) :
    (f0Detect d s).epre = drawF32 (epreAdmitted d s) ⟨s.draws, .f0Epre, 0⟩ ∧
      f1Epre d s = drawF32 (epreAdmitted d s) ⟨s.draws, .f1Epre, 0⟩ := by
  obtain ⟨-, -, -, -, -, hepre, -⟩ := f0Detect_finite hf
  exact ⟨hepre, by rw [f1Epre, if_pos hf]; rfl⟩

/-- Settles O57: the third word of a Format 0 record and the second of a Format 1 record are drawn from what one rule
admits, whose mean is that of the samples. -/
theorem epreIsTheMeanPower : Obligations.EpreIsTheMeanPower := by
  intro d s hc hwf sample power total mean rule hfin hheld
  have hmean : meanPower d s = mean := by rw [meanPower, blockEnergy_total]; rfl
  have hrule : epreAdmitted d s = rule := by rw [epreAdmitted, hmean]; rfl
  obtain ⟨hf0, hf1⟩ := epre_draws (d := d) (s := s) (rxFinite_of hfin)
  rw [hrule] at hf0 hf1
  have hdraw (id : DrawId) : admits rule (drawF32 rule id) = true := drawF32_admits ⟨_, hheld⟩
  refine ⟨fun hB hu => ?_, fun hB hu => ?_⟩
  · obtain ⟨t, ht, hword⟩ := procF0_record hc hwf hB hu
    have hw : recordWord t d.resAddr 3 = (f0Detect d s).epre := hword 2 _ rfl
    exact ⟨t, ht, hw ▸ hf0 ▸ hdraw _⟩
  · obtain ⟨t, ht, hword⟩ := procF1_record hc hwf hB hu
    have hw : recordWord t d.resAddr 2 = f1Epre d s := hword 1 _ rfl
    exact ⟨t, ht, hw ▸ hf1 ▸ hdraw _⟩

end Sys2Proof.Proofs
end

section
/-! The usable covers of Format 1 (44_format1.md R99, R101). -/

namespace Sys2Proof.Proofs

open Sys2Proof Sys2Proof.Machine

/-- How many DM-RS (`dmrs`) or data symbols hop `h` of an allocation of `n` symbols has (44_format1.md R99). -/
def hopSymbolCount (n : Nat) (hop : Bool) (h : Nat) (dmrs : Bool) : Nat :=
  ((List.range n).filter (fun i =>
    (if !hop || n == 1 || decide (i < n / 2) then 0 else 1) == h && (i % 2 == 0) == dmrs)).length

theorem f1HopSymbols_length (d : PucchDesc) (h : Nat) (dmrs : Bool) :
    (f1HopSymbols d h dmrs).length = hopSymbolCount (nofSym d) (hopEn d) h dmrs := rfl

/-- The table of 44_format1.md R99: of symbols that alternate from a DM-RS symbol on, the first of two is never rarer,
and hop 1 has what hop 0 leaves. -/
theorem hopSymbolCount_table : ∀ n, n < 15 → 4 ≤ n →
    (hopSymbolCount n false 0 true = (n + 1) / 2 ∧ hopSymbolCount n false 0 false = n / 2) ∧
    (hopSymbolCount n true 0 true = (n / 2 + 1) / 2 ∧ hopSymbolCount n true 0 false = n / 2 / 2) ∧
    (hopSymbolCount n true 1 true = (n + 1) / 2 - (n / 2 + 1) / 2 ∧
      hopSymbolCount n true 1 false = n / 2 - n / 2 / 2) := by
  decide

/-- `NOCC` is the count of the data symbols of hop 0: no other count is smaller (44_format1.md R101). -/
theorem f1Nocc_eq {d : PucchDesc} (h4 : 4 ≤ nofSym d) (h14 : nofSym d ≤ 14) :
    f1Nocc d = (f1HopSymbols d 0 false).length ∧
      f1Nocc d = if hopEn d then nofSym d / 2 / 2 else nofSym d / 2 := by
  obtain ⟨⟨a1, a2⟩, ⟨b1, b2⟩, c1, c2⟩ := hopSymbolCount_table _ (Nat.lt_succ_of_le h14) h4
  unfold f1Nocc nofHops
  simp only [f1HopSymbols_length]
  cases hopEn d
  · simp [List.range_succ, a1, a2]
    omega
  · simp [List.range_succ, b1, b2, c1, c2]
    omega

/-- `NOCC` is at most every count of the hops (44_format1.md R101). -/
theorem f1Nocc_le {d : PucchDesc} (h4 : 4 ≤ nofSym d) (h14 : nofSym d ≤ 14) {h : Nat} (hh : h < nofHops d)
    (dmrs : Bool) : f1Nocc d ≤ (f1HopSymbols d h dmrs).length := by
  obtain ⟨⟨a1, a2⟩, ⟨b1, b2⟩, c1, c2⟩ := hopSymbolCount_table _ (Nat.lt_succ_of_le h14) h4
  obtain ⟨-, hnocc⟩ := f1Nocc_eq h4 h14
  rw [hnocc, f1HopSymbols_length]
  cases hop : hopEn d
  · obtain rfl : h = 0 := by simpa [nofHops, hop] using hh
    rw [if_neg Bool.false_ne_true]
    cases dmrs <;> omega
  · have hh : h < 2 := by simpa [nofHops, hop] using hh
    rw [if_pos rfl]
    interval_cases h <;> cases dmrs <;> omega

/-- An entry whose cover is not usable fails B9 (44_format1.md R109). -/
theorem failB9_of_occ {rd : Nat → Byte} {d : PucchDesc} {e : Nat} (he : e < d.bufLen.toNat)
    (hocc : f1Nocc d ≤ muxOcc (wordAt rd (d.bufAddr.toNat + 4 * e))) : failB9 .f1 rd d = true := by
  have hbad : (muxList rd d).any (muxEntryBad d) = true :=
    List.any_eq_true.2 ⟨_, List.mem_map.2 ⟨e, List.mem_range.2 he, rfl⟩, by simp [muxEntryBad, hocc]⟩
  simp [failB9, hbad]

/-- Settles O50: the least count is that of the data symbols of hop 0. -/
theorem occCount : Obligations.OccCount := by
  intro d h4 h14
  obtain ⟨hdata, hnocc⟩ := f1Nocc_eq h4 h14
  have hhops : 0 < nofHops d := by
    unfold nofHops
    split <;> decide
  refine ⟨fun h hh => ⟨f1Nocc_le h4 h14 hh true, f1Nocc_le h4 h14 hh false⟩, ⟨0, hhops, .inr hdata⟩, fun hop => ?_,
    fun hop => ?_, fun rd e he hocc => failB9_of_occ he hocc⟩
  · rw [hnocc, hop, if_neg Bool.false_ne_true]
  · rw [hnocc, hop, if_pos rfl]
    split_ifs <;> omega

end Sys2Proof.Proofs
end

section
/-! The noise-free grid of two Format 1 users (44_format1.md R102 to R108, 95_test_vectors.md section 1.2). -/

namespace Sys2Proof.Proofs

open Sys2Proof Sys2Proof.Machine

/-- `1 - 2*b`. -/
def bitSign (b : Bool) : Rat := if b then -1 else 1

/-- The sequence at shift 6: `1` and `-1` in turn. -/
def alternating (k : Nat) : Rat := if k % 2 = 0 then 1 else -1

/-- The grid of the users with keys `(0, 0)` and `(6, 0)`, of bits `a0, a1` and `b0, b1`: four symbols of one hop, one
port, no base sequence listed and no cyclic-shift offset; each data symbol is `sqrt 2` times that of 44_format1.md
R104. -/
structure TwoUsers (d : PucchDesc) (s : State) (a0 a1 b0 b1 : Bool) : Prop where
  ones  : s.params.paprTab = []
  ncs   : ∀ i, i < 4 → (sequenceAt d s i).ncs = 0
  syms  : d.nofSym = 4#4
  hop   : d.hopEn = 0#1
  ports : d.nofPorts = 1#4
  pilot : ∀ i k, (i = 0 ∨ i = 2) → k < 12 → SampleIs (sampleAt d s i 0 k) (1 + alternating k) 0
  data  : ∀ i k, (i = 1 ∨ i = 3) → k < 12 → SampleIs (sampleAt d s i 0 k) (bitSign a0 + bitSign b0 * alternating k)
    (bitSign a1 + bitSign b1 * alternating k)

/-! ## The users' symbols -/

/-- What a user sends in a DM-RS symbol (`dmrs`) or with its bits in a data symbol. -/
noncomputable def sentSymbol (dmrs : Bool) (b0 b1 : Bool) : ℂ := if dmrs then 1 else ⟨bitSign b0, bitSign b1⟩

/-- A data symbol is `sqrt 2` times the symbol that its bits decide (44_format1.md R104, R107). -/
theorem sentSymbol_data {q : Nat} {b0 b1 : Bool} (hq : q ≤ 1 → b1 = b0) :
    sentSymbol false b0 b1 = Real.sqrt 2 * decidedSymbol q b0 b1 := by
  have h0 : (Real.sqrt 2 : ℂ) ≠ 0 := by exact_mod_cast (Real.sqrt_pos.2 two_pos).ne'
  have hsign (b : Bool) : ((bitSign b : Rat) : ℝ) = if b then -1 else 1 := by cases b <;> norm_num [bitSign]
  have hsent : sentSymbol false b0 b1 = (if b0 then -1 else 1) + Complex.I * (if b1 then -1 else 1) := by
    rw [sentSymbol, if_neg Bool.false_ne_true]
    simp only [hsign]
    cases b0 <;> cases b1 <;> simp [Complex.ext_iff]
  rw [hsent]
  by_cases hle : q ≤ 1
  · rw [hq hle]
    simp only [decidedSymbol, if_pos hle]
    rw [mul_div_cancel₀ _ h0]
    ring
  · simp only [decidedSymbol, if_neg hle]
    rw [mul_div_cancel₀ _ h0]

theorem decidedSymbol_norm (q : Nat) (b0 b1 : Bool) : ‖decidedSymbol q b0 b1‖ = 1 := by
  rw [← f1SymbolTurn_value, rootOf_norm]

theorem sentSymbol_norm_le (dmrs b0 b1 : Bool) : ‖sentSymbol dmrs b0 b1‖ ≤ 3 / 2 := by
  cases dmrs
  · rw [sentSymbol_data (q := 2) (by omega), norm_mul, decidedSymbol_norm, mul_one, Complex.norm_real,
      Real.norm_of_nonneg (Real.sqrt_nonneg 2)]
    exact Real.sqrt_le_iff.2 ⟨by norm_num, by norm_num⟩
  · norm_num [sentSymbol]

/-- The first cover of two symbols leaves them as they are (44_format1.md R100). -/
theorem cover_phase {m : Nat} (hm : m < 2) : f1OccPhase 2 0 m = 0 := by
  interval_cases m <;> rfl

theorem cover_turn {m : Nat} (hm : m < 2) : f1OccTurn 2 0 m = 0 := by
  rw [f1OccTurn, cover_phase hm]
  norm_num

theorem cover_root {m : Nat} (hm : m < 2) : rootOf ((f1OccPhase 2 0 m : ℝ) / (2 : Nat)) = 1 := by
  rw [cover_phase hm]
  simpa using rootOf_int 0

/-- Without a cyclic-shift offset a symbol holds a user at its initial shift (44_format1.md R102). -/
theorem shift_of_ncs {m0 : Nat} (hm : m0 < 12) {c : Fin 12} (hc : c = 0) : (m0 + c.val) % 12 = m0 := by
  rw [hc]
  exact Nat.mod_eq_of_lt hm

theorem tone_zero (k : Nat) : rootOf (((0 * k % 12 : Nat) : ℝ) / (12 : Nat)) = 1 := by
  simpa using rootOf_int 0

theorem tone_six (k : Nat) : rootOf (((6 * k % 12 : Nat) : ℝ) / (12 : Nat)) = (alternating k : ℂ) := by
  have hroot : rootOf (((6 * k % 12 : Nat) : ℝ) / (12 : Nat)) = Complex.I ^ (2 * (k % 2)) := by
    rw [show 6 * k % 12 = 3 * (2 * (k % 2)) by omega, ← rootOf_quarter]
    congr 1
    push_cast
    ring
  rw [hroot, pow_mul, Complex.I_sq, alternating]
  rcases Nat.mod_two_eq_zero_or_one k with h | h <;> simp [h]

/-- Samples of two tones, `u` at shift 0 and `v` at shift 6, correlated with the sequence of a shift. -/
theorem two_tones_correlation {z : Nat → ℂ} {u v : ℂ} (hz : ∀ k, k < 12 → z k = u + v * (alternating k : ℂ)) {t : Nat}
    (ht : t < 12) :
    ∑ k ∈ Finset.range 12, z k * starRingEnd ℂ (rootOf (((t * k % 12 : Nat) : ℝ) / (12 : Nat))) =
      12 * ((if t = 0 then u else 0) + if t = 6 then v else 0) := by
  have tone {i : Nat} (hi : i < 12) (w : ℂ) :
      ∑ k ∈ Finset.range 12, w * (starRingEnd ℂ (rootOf (((t * k % 12 : Nat) : ℝ) / (12 : Nat))) *
        rootOf (((i * k % 12 : Nat) : ℝ) / (12 : Nat))) = 12 * if t = i then w else 0 := by
    rw [← Finset.mul_sum, cyclic_orthogonal ht hi]
    split <;> push_cast <;> ring
  rw [mul_add, ← tone (by decide), ← tone (by decide), ← Finset.sum_add_distrib]
  refine Finset.sum_congr rfl (fun k hk => ?_)
  rw [hz k (Finset.mem_range.1 hk), tone_zero, tone_six]
  ring

/-- A sum over half turns is known to be 0 wherever it is 0: its four coefficients over the quarter turns are equal in
pairs. -/
theorem csIsZero_of_halfTurns {s : CSum} (hexact : s.Exact) (hturns : ∀ t ∈ s, ∃ n : ℤ, t.turn = n / 2)
    (hvalue : csValue s = 0) : csIsZero s = true := by
  have hfour : csOrder s = 4 := by
    refine Nat.dvd_antisymm ?_ (csOrder_spec s).2.1
    clear hexact hvalue
    induction s with
    | nil => decide
    | cons t s ih =>
      obtain ⟨n, hn⟩ := hturns t (List.mem_cons_self ..)
      have hden : t.turn.den ∣ 2 := by
        have := Rat.den_dvd n 2
        rw [hn]
        exact_mod_cast this
      exact Nat.lcm_dvd (hden.trans (by decide)) (ih (fun x hx => hturns x (List.mem_cons_of_mem _ hx)))
  obtain ⟨c0, c1, c2, c3, hc⟩ : ∃ c0 c1 c2 c3, csCoeffs s = [c0, c1, c2, c3] := by
    rw [csCoeffs, hfour]
    exact ⟨_, _, _, _, rfl⟩
  have hroot : rootOf (1 / ((4 : Nat) : ℝ)) = Complex.I := by
    simpa using rootOf_quarter 1
  have hsum := csCoeffs_value s
  rw [hvalue, hfour, hc, hroot, coeffValue] at hsum
  have hre : (c0 : ℝ) + -c2 = 0 := by simpa [Finset.sum_range_succ, pow_succ] using congrArg Complex.re hsum
  have him : (c1 : ℝ) + -c3 = 0 := by simpa [Finset.sum_range_succ, pow_succ] using congrArg Complex.im hsum
  have h02 : c0 = c2 := by exact_mod_cast (by linarith : (c0 : ℝ) = c2)
  have h13 : c1 = c3 := by exact_mod_cast (by linarith : (c1 : ℝ) = c3)
  have hprimes : primeDivisors 4 = [2] := by decide
  have hpoints : csIsExact s = true := List.all_eq_true.2 hexact
  rw [csIsZero, hpoints, hfour, hprimes, hc, h02, h13]
  simp [cyclicKill, List.range_succ]

section

variable {d : PucchDesc} {s : State} {a0 a1 b0 b1 : Bool}

/-! ## The allocation -/

theorem TwoUsers.symbols (h : TwoUsers d s a0 a1 b0 b1) (dmrs : Bool) :
    symbolsOfHop d 0 dmrs = if dmrs then [0, 2] else [1, 3] := by
  have hhop (i : Nat) : hopOf d i = 0 := by simp [hopOf, hopEn, h.hop]
  simp only [symbolsOfHop, hhop, h.syms]
  cases dmrs <;> decide

theorem TwoUsers.symbols_length (h : TwoUsers d s a0 a1 b0 b1) (dmrs : Bool) :
    (symbolsOfHop d 0 dmrs).length = 2 := by
  rw [h.symbols]
  cases dmrs <;> rfl

theorem TwoUsers.hopCount_eq (h : TwoUsers d s a0 a1 b0 b1) : hopCount d = 1 := by simp [hopCount, h.hop]

theorem TwoUsers.ports_eq (h : TwoUsers d s a0 a1 b0 b1) : d.nofPorts.toNat = 1 := by rw [h.ports]; rfl

theorem TwoUsers.lanes (h : TwoUsers d s a0 a1 b0 b1) : f1Lanes d = [(0, 0)] := by
  rw [f1Lanes, f1Ports, nofHops_eq, h.hopCount_eq, nofPorts, h.ports_eq]
  rfl

/-- A sum over the hops and ports has one term. -/
theorem TwoUsers.sum_lanes (h : TwoUsers d s a0 a1 b0 b1) (f : Nat → Nat → ℝ) :
    ∑ h ∈ Finset.range (hopCount d), ∑ p ∈ Finset.range d.nofPorts.toNat, f h p = f 0 0 := by
  rw [h.hopCount_eq, h.ports_eq, Finset.sum_range_one, Finset.sum_range_one]

theorem TwoUsers.exact (h : TwoUsers d s a0 a1 b0 b1) : ParamsExact s.params := by
  intro e he
  rw [h.ones] at he
  cases he

theorem TwoUsers.sequences (h : TwoUsers d s a0 a1 b0 b1) : ParamSequences s.params := by
  intro e he
  rw [h.ones] at he
  cases he

/-- Sample `k` of symbol `i` is the sum of what the users send. -/
theorem TwoUsers.sample (h : TwoUsers d s a0 a1 b0 b1) {i k : Nat} (hi : i < 4) (hk : k < 12) :
    c64Finite (sampleAt d s i 0 k) = true ∧ complexOf (sampleAt d s i 0 k) =
      sentSymbol (i % 2 == 0) a0 a1 + sentSymbol (i % 2 == 0) b0 b1 * (alternating k : ℂ) := by
  have hcase : (i = 0 ∨ i = 2) ∨ i = 1 ∨ i = 3 := by omega
  rcases hcase with hi | hi
  · obtain ⟨hfin, hre, him⟩ := h.pilot i k hi hk
    have heven : (i % 2 == 0) = true := by rcases hi with rfl | rfl <;> rfl
    refine ⟨hfin, ?_⟩
    rw [complexOf, realOf, realOf, hre, him, heven]
    simp [sentSymbol, Complex.ext_iff]
  · obtain ⟨hfin, hre, him⟩ := h.data i k hi hk
    have hodd : (i % 2 == 0) = false := by rcases hi with rfl | rfl <;> rfl
    refine ⟨hfin, ?_⟩
    rw [complexOf, realOf, realOf, hre, him, hodd]
    simp [sentSymbol, Complex.ext_iff]

theorem TwoUsers.block_shift (h : TwoUsers d s a0 a1 b0 b1) {i m0 : Nat} (hi : i < 4) (hm : m0 < 12) :
    (m0 + (rxBlock d s i 0).seq.ncs.val) % 12 = m0 := shift_of_ncs hm (h.ncs i hi)

theorem TwoUsers.finite (h : TwoUsers d s a0 a1 b0 b1) : SamplesFinite d s := by
  intro i p k hi hp hk
  rw [h.syms] at hi
  rw [h.ports_eq] at hp
  obtain rfl : p = 0 := Nat.lt_one_iff.1 hp
  exact (h.sample hi hk).1

/-! ## The despread sums (44_format1.md R102, R103) -/

/-- Symbol `i` correlates with the shifts of the two users alone. -/
theorem TwoUsers.correlation (h : TwoUsers d s a0 a1 b0 b1) {i m0 : Nat} (hi : i < 4) (hm : m0 < 12) :
    Machine.correlation d s i 0 m0 = 12 * ((if m0 = 0 then sentSymbol (i % 2 == 0) a0 a1 else 0) +
      if m0 = 6 then sentSymbol (i % 2 == 0) b0 b1 else 0) := by
  rw [← two_tones_correlation (fun k hk => (h.sample hi hk).2) hm]
  refine Finset.sum_congr rfl (fun k _ => ?_)
  rw [lowPaprValue_ones h.ones, shift_of_ncs hm (h.ncs i hi)]

/-- Position `m` of the DM-RS or of the data symbols is such a symbol of the allocation. -/
theorem TwoUsers.symbol_at (h : TwoUsers d s a0 a1 b0 b1) (dmrs : Bool) {m : Nat} (hm : m < 2) :
    (symbolsOfHop d 0 dmrs).getD m 0 < 4 ∧ ((symbolsOfHop d 0 dmrs).getD m 0 % 2 == 0) = dmrs := by
  rw [h.symbols]
  interval_cases m <;> cases dmrs <;> decide

theorem TwoUsers.despread (h : TwoUsers d s a0 a1 b0 b1) (dmrs : Bool) {m0 : Nat} (hm : m0 < 12) :
    despreadValue d s dmrs 0 0 0 m0 =
      24 * ((if m0 = 0 then sentSymbol dmrs a0 a1 else 0) + if m0 = 6 then sentSymbol dmrs b0 b1 else 0) := by
  have each : ∀ m ∈ Finset.range 2, starRingEnd ℂ (rootOf ((f1OccPhase 2 0 m : ℝ) / (2 : Nat))) *
      Machine.correlation d s ((symbolsOfHop d 0 dmrs).getD m 0) 0 m0 =
        12 * ((if m0 = 0 then sentSymbol dmrs a0 a1 else 0) + if m0 = 6 then sentSymbol dmrs b0 b1 else 0) := by
    intro m hmem
    have hm2 := Finset.mem_range.1 hmem
    obtain ⟨hi, hdmrs⟩ := h.symbol_at dmrs hm2
    rw [cover_root hm2, map_one, one_mul, h.correlation hi hm, hdmrs]
  unfold despreadValue
  dsimp only
  rw [h.symbols_length, Finset.sum_congr rfl each, Finset.sum_const, Finset.card_range]
  ring

theorem TwoUsers.pilot_norm (h : TwoUsers d s a0 a1 b0 b1) {i k : Nat} (hi : i < 4) (heven : (i % 2 == 0) = true)
    (hk : k < 12) : ‖complexOf (sampleAt d s i 0 k)‖ = if k % 2 = 0 then 2 else 0 := by
  rw [(h.sample hi hk).2, heven, alternating]
  split <;> norm_num [sentSymbol]

/-- The scale of the DM-RS sum is 24, and that of the data sum at most 72. -/
theorem TwoUsers.scale (h : TwoUsers d s a0 a1 b0 b1) :
    despreadScale d s true 0 0 = 24 ∧ despreadScale d s false 0 0 ≤ 72 := by
  have hpilot {i : Nat} (hi : i < 4) (heven : (i % 2 == 0) = true) : amplitude d s i 0 = 12 := by
    rw [amplitude, Finset.sum_congr rfl (fun k hk => h.pilot_norm hi heven (Finset.mem_range.1 hk))]
    norm_num [Finset.sum_range_succ]
  have hdata {i : Nat} (hi : i < 4) : amplitude d s i 0 ≤ 36 := by
    have each : ∀ k ∈ Finset.range 12, ‖complexOf (sampleAt d s i 0 k)‖ ≤ 3 := by
      intro k hk
      have halt : ‖(alternating k : ℂ)‖ = 1 := by
        rw [alternating]
        split <;> simp
      rw [(h.sample hi (Finset.mem_range.1 hk)).2]
      refine (norm_add_le _ _).trans ?_
      rw [norm_mul, halt]
      linarith [sentSymbol_norm_le (i % 2 == 0) a0 a1, sentSymbol_norm_le (i % 2 == 0) b0 b1]
    exact (Finset.sum_le_sum each).trans (by norm_num)
  simp only [despreadScale, h.symbols, if_true, if_neg Bool.false_ne_true]
  constructor
  · simp only [List.length_cons, List.length_nil, Finset.sum_range_succ, Finset.sum_range_zero, List.getD_cons_zero,
      List.getD_cons_succ, hpilot (i := 0) (by decide) rfl, hpilot (i := 2) (by decide) rfl]
    norm_num
  · simp only [List.length_cons, List.length_nil, Finset.sum_range_succ, Finset.sum_range_zero, List.getD_cons_zero,
      List.getD_cons_succ]
    linarith [hdata (i := 1) (by decide), hdata (i := 3) (by decide)]

/-! ## The kept shifts (44_format1.md R105) -/

/-- `TOL` is positive and small (00_scope.md R10). -/
theorem tol_bounds {p : Params} (hp : ParamsLegal p) : 0 < p.tol ∧ (p.tol : ℝ) ≤ 1 / 25 := by
  obtain ⟨-, ⟨ht, hsmall, -⟩, -⟩ := hp
  rw [lt_div_iff₀ (by positivity)] at hsmall
  have h : p.tol ≤ 1 / 25 := by linarith
  have hcast := (Rat.cast_le (K := ℝ)).2 h
  push_cast at hcast
  exact ⟨ht, hcast⟩

/-- The channel estimates: 1 at the shifts of the two users, 0 at the others. -/
theorem TwoUsers.chanValue_eq (h : TwoUsers d s a0 a1 b0 b1) {m0 : Nat} (hm : m0 < 12) :
    chanValue d s 0 0 0 m0 = if m0 = 0 ∨ m0 = 6 then 1 else 0 := by
  rw [chanValue, h.symbols_length, h.despread true hm]
  by_cases h0 : m0 = 0
  · norm_num [h0, sentSymbol]
  · by_cases h6 : m0 = 6
    · norm_num [h6, sentSymbol]
    · simp [h0, h6]

theorem TwoUsers.shiftEnergy_eq (h : TwoUsers d s a0 a1 b0 b1) {m0 : Nat} (hm : m0 < 12) :
    shiftEnergy d s 0 0 m0 = if m0 = 0 ∨ m0 = 6 then 1 else 0 := by
  rw [shiftEnergy, h.ports_eq, Finset.sum_range_one, h.chanValue_eq hm]
  split <;> norm_num

theorem TwoUsers.shiftScale_eq (h : TwoUsers d s a0 a1 b0 b1) : shiftScale d s 0 = 1 := by
  rw [shiftScale, h.ports_eq, Finset.sum_range_one, h.symbols_length, h.scale.1]
  norm_num

/-- Exactly the shifts of the two users are kept: the others have energy 0. -/
theorem TwoUsers.kept (h : TwoUsers d s a0 a1 b0 b1) (hp : ParamsLegal s.params) :
    f1Kept d s [0] 0 = [(0, 0), (0, 6)] := by
  obtain ⟨ht, hsmall⟩ := tol_bounds hp
  have hkept := f1Keep_kept (d := d) ht.le h.exact h.sequences [0]
  have hbound : errorBound s.params.tol (shiftScale d s 0) ≤ 1 / 20 := by
    rw [h.shiftScale_eq, errorBound_mul]
    linarith
  have hkeep : ∀ m0, m0 < 12 → f1Keep d s [0] 0 0 m0 = decide (m0 = 0 ∨ m0 = 6) := by
    intro m0 hm
    by_cases huser : m0 = 0 ∨ m0 = 6
    · rw [decide_eq_true huser]
      refine hkept.strong 0 0 m0 (by simp) hm (fun occ' m0' hocc hm' => ?_)
      obtain rfl : occ' = 0 := by simpa using hocc
      rw [h.shiftEnergy_eq hm, if_pos huser, h.shiftEnergy_eq hm']
      split <;> linarith
    · rw [decide_eq_false huser]
      refine hkept.weak 0 0 m0 (by simp) hm ⟨0, 0, by simp, by decide, ?_⟩
      rw [h.shiftEnergy_eq hm, if_neg huser, h.shiftEnergy_eq (by decide), if_pos (.inl rfl)]
      linarith
  have hfilter : f1Kept d s [0] 0 =
      ((List.range 12).map (fun m0 => (0, m0))).filter (fun key => decide (key.2 = 0 ∨ key.2 = 6)) := by
    rw [f1Kept, List.flatMap_singleton]
    refine List.filter_congr (fun key hkey => ?_)
    obtain ⟨m0, hm, rfl⟩ := List.mem_map.1 hkey
    exact hkeep m0 (List.mem_range.1 hm)
  rw [hfilter]
  decide

/-- A sum over the kept covers and shifts is one over the two users. -/
theorem TwoUsers.sum_users {β : Type} [AddCommMonoid β] (h : TwoUsers d s a0 a1 b0 b1) (hp : ParamsLegal s.params)
    (f : Nat → Nat → β) :
    (∑ occ ∈ ([0] : List Nat).toFinset, ∑ m0 ∈ Finset.range 12, if f1Keep d s [0] 0 occ m0 then f occ m0 else 0) =
      f 0 0 + f 0 6 := by
  rw [← sum_kept d s (List.nodup_singleton 0) 0 f, h.kept hp]
  simp

/-! ## The noise estimate (44_format1.md R106, R108) -/

/-- The two users' replicas are the DM-RS sample. -/
theorem TwoUsers.replica (h : TwoUsers d s a0 a1 b0 b1) (hp : ParamsLegal s.params) {m k : Nat} (hm : m < 2)
    (hk : k < 12) : replicaValue d s ([0] : List Nat).toFinset (f1Keep d s [0]) 0 0 m k =
      complexOf (dmrsSample d s 0 0 m k) := by
  obtain ⟨hi, heven⟩ := h.symbol_at true hm
  unfold replicaValue
  dsimp only
  rw [h.sum_users hp, h.symbols_length, cover_root hm, h.chanValue_eq (by decide), h.chanValue_eq (by decide),
    lowPaprValue_ones h.ones, lowPaprValue_ones h.ones, shift_of_ncs (by decide) (h.ncs _ hi),
    shift_of_ncs (by decide) (h.ncs _ hi), tone_zero, tone_six, dmrsSample, (h.sample hi hk).2, heven]
  simp [sentSymbol]

/-- The scale of `sigma2` is 10: half of the samples have magnitude 2, the others 0, and each replica the scale 2. -/
theorem TwoUsers.noiseScale (h : TwoUsers d s a0 a1 b0 b1) (hp : ParamsLegal s.params) :
    noiseScaleValue d s ([0] : List Nat).toFinset (f1Keep d s [0]) = 10 := by
  have hsy : replicaScale d s ([0] : List Nat).toFinset (f1Keep d s [0]) 0 0 = 2 := by
    rw [replicaScale, h.sum_users hp (fun occ m0 => ‖chanValue d s 0 0 occ m0‖), h.chanValue_eq (by decide),
      h.chanValue_eq (by decide)]
    norm_num
  have each : ∀ m ∈ Finset.range 2, ∀ k ∈ Finset.range 12,
      (‖complexOf (dmrsSample d s 0 0 m k)‖ + replicaScale d s ([0] : List Nat).toFinset (f1Keep d s [0]) 0 0) ^ 2 =
        if k % 2 = 0 then 16 else 4 := by
    intro m hm k hk
    obtain ⟨hi, heven⟩ := h.symbol_at true (Finset.mem_range.1 hm)
    rw [hsy, dmrsSample, h.pilot_norm hi heven (Finset.mem_range.1 hk)]
    split <;> norm_num
  rw [noiseScaleValue, dmrsMean, h.hopCount_eq, h.ports_eq]
  simp only [Finset.sum_range_one]
  rw [h.symbols_length, Finset.sum_congr rfl (fun m hm => Finset.sum_congr rfl (each m hm))]
  norm_num [Finset.sum_range_succ]

/-- The channel estimate of a user is a sum over half turns. -/
theorem TwoUsers.chan_turns (h : TwoUsers d s a0 a1 b0 b1) {j : Nat} (hj : j < 2) :
    ∀ t ∈ f1Chan d s 0 0 0 (6 * j), ∃ n : ℤ, t.turn = n / 2 := by
  intro t ht
  rw [f1Chan, f1Despread, f1HopSymbols_eq] at ht
  dsimp only at ht
  rw [h.symbols_length] at ht
  obtain ⟨u, hu, rfl⟩ := List.mem_map.1 ht
  obtain ⟨l, hl, hu⟩ := List.mem_flatten.1 hu
  obtain ⟨m, hm, rfl⟩ := List.mem_mapIdx.1 hl
  obtain ⟨v, hv, rfl⟩ := List.mem_map.1 hu
  rw [h.symbols_length] at hm
  have hi : (symbolsOfHop d 0 true)[m] < 4 := by
    have := (h.symbol_at true hm).1
    rwa [List.getD_eq_getElem _ _ (by rwa [h.symbols_length])] at this
  rw [correlate_ones h.ones, h.block_shift hi (by omega)] at hv
  obtain ⟨k, -, rfl⟩ := List.mem_mapIdx.1 hv
  refine ⟨-(j * k), ?_⟩
  dsimp only
  rw [cover_turn hm]
  push_cast
  ring

/-- The residual of a DM-RS sample is a sum over half turns. -/
theorem TwoUsers.residual_turns (h : TwoUsers d s a0 a1 b0 b1) (hp : ParamsLegal s.params) {m : Nat} (hm : m < 2)
    (k : Nat) (y : C64) :
    ∀ t ∈ f1Residual d s 0 0 m (rxBlock d s ((symbolsOfHop d 0 true).getD m 0) 0) (f1Kept d s [0] 0) k y,
      ∃ n : ℤ, t.turn = n / 2 := by
  intro t ht
  rcases List.mem_cons.1 ht with rfl | ht
  · exact ⟨0, by norm_num⟩
  obtain ⟨u, hu, rfl⟩ := List.mem_map.1 ht
  obtain ⟨key, hkey, hu⟩ := List.mem_flatMap.1 hu
  obtain ⟨j, hj, rfl⟩ : ∃ j, j < 2 ∧ key = (0, 6 * j) := by
    rw [h.kept hp] at hkey
    rcases List.mem_pair.1 hkey with rfl | rfl
    exacts [⟨0, by decide, rfl⟩, ⟨1, by decide, rfl⟩]
  obtain ⟨v, hv, rfl⟩ := List.mem_map.1 hu
  obtain ⟨n, hn⟩ := h.chan_turns hj v hv
  refine ⟨n + j * k, ?_⟩
  have hturn : (f1ReplicaPhase d s 0 m (rxBlock d s ((symbolsOfHop d 0 true).getD m 0) 0) (0, 6 * j) k).turn =
      ((6 * j * k : Nat) : Rat) / 12 := by
    rw [f1ReplicaPhase, h.block_shift (m0 := 6 * j) (h.symbol_at true hm).1 (by omega), f1Nd, f1HopSymbols_eq,
      h.symbols_length, cover_turn hm]
    simp [lowPapr, h.ones, UnitPhase.one]
  dsimp only
  rw [hn, hturn]
  push_cast
  ring

/-- The detector knows that no DM-RS sample leaves a residual, so the ideal `sigma2` is 0 (44_format1.md R108). -/
theorem TwoUsers.noise_isZero (h : TwoUsers d s a0 a1 b0 b1) (hp : ParamsLegal s.params) :
    (f1NoiseOf (f1Samples d s [0])).isZero = true := by
  refine List.all_eq_true.2 (fun x hx => ?_)
  rw [f1Samples_eq, h.lanes, List.flatMap_singleton, h.symbols_length] at hx
  obtain ⟨m, hm, hx⟩ := List.mem_flatMap.1 hx
  obtain ⟨k, hk, rfl⟩ := List.mem_map.1 hx
  have hm := List.mem_range.1 hm
  obtain ⟨hexact, hvalue, -⟩ := f1Residual_value (d := d) h.exact h.sequences (List.nodup_singleton 0) 0 0 m k
  rw [h.replica hp hm (List.mem_range.1 hk), sub_self] at hvalue
  exact csIsZero_of_halfTurns hexact (h.residual_turns hp hm k _) hvalue

/-- The model's scale of `sigma2` is 10, to within what its enclosures add. -/
theorem TwoUsers.noise_scale (h : TwoUsers d s a0 a1 b0 b1) (hp : ParamsLegal s.params) :
    10 ≤ (f1NoiseOf (f1Samples d s [0])).scale ∧ (f1NoiseOf (f1Samples d s [0])).scale ≤ 10 + 1 / 100 := by
  obtain ⟨-, ⟨hlow, hhigh⟩, -⟩ := f1Noise_spec (d := d) h.exact h.sequences (List.nodup_singleton 0)
    (by decide : ∀ o ∈ [0], o < 8)
  rw [h.noiseScale hp] at hlow hhigh
  constructor
  · exact_mod_cast hlow
  · have : ((f1NoiseOf (f1Samples d s [0])).scale : ℝ) ≤ ((10 + 1 / 100 : Rat) : ℝ) := by
      push_cast
      linarith
    exact_mod_cast this

/-! ## The decision for a user's entry (44_format1.md R107, R108) -/

/-- Word `w` is the mux entry of one of the users, and `x, y` are its bits: the users do not disturb each other. -/
structure UserEntry (d : PucchDesc) (s : State) (w : Word) (x y : Bool) : Prop where
  occ   : muxOcc w = 0
  pilot : despreadValue d s true 0 0 0 (muxCs w) = 24
  data  : despreadValue d s false 0 0 0 (muxCs w) = 24 * sentSymbol false x y
  one   : muxHarq w ≤ 1 → y = x
  sr    : muxHarq w = 0 → x = false

variable {w : Word} {x y : Bool}

theorem TwoUsers.entry (h : TwoUsers d s a0 a1 b0 b1) (hocc : muxOcc w = 0)
    (huser : muxCs w = 0 ∧ x = a0 ∧ y = a1 ∨ muxCs w = 6 ∧ x = b0 ∧ y = b1) (hone : muxHarq w ≤ 1 → y = x)
    (hsr : muxHarq w = 0 → x = false) : UserEntry d s w x y := by
  have hsum (dmrs : Bool) : despreadValue d s dmrs 0 0 0 (muxCs w) = 24 * sentSymbol dmrs x y := by
    rcases huser with ⟨hcs, rfl, rfl⟩ | ⟨hcs, rfl, rfl⟩ <;> rw [hcs, h.despread dmrs (by decide)] <;> simp
  exact ⟨hocc, (hsum true).trans (by simp [sentSymbol]), hsum false, hone, hsr⟩

/-- A sign test that follows `k` times the sign of a bit gives the bit. -/
theorem eq_of_sign_test {f b : Bool} {k c : ℝ} (hc : c < k) (hpos : c < k * ((bitSign b : Rat) : ℝ) → f = false)
    (hneg : k * ((bitSign b : Rat) : ℝ) < -c → f = true) : f = b := by
  cases b
  · exact hpos (by simpa [bitSign] using hc)
  · exact hneg (by simpa [bitSign] using hc)

/-- The cross term of a user is a positive multiple of its symbol, and its error bound is far below it. -/
theorem UserEntry.cross (hw : UserEntry d s w x y) (h : TwoUsers d s a0 a1 b0 b1) (hp : ParamsLegal s.params) :
    crossValue d s (muxOcc w) (muxCs w) = 576 * sentSymbol false x y ∧
      errorBound s.params.tol (crossScale d s) ≤ 100 := by
  constructor
  · rw [crossValue, h.hopCount_eq, h.ports_eq, Finset.sum_range_one, Finset.sum_range_one, hw.occ, hw.pilot, hw.data]
    rw [map_ofNat]
    ring
  · have hscale : crossScale d s ≤ 24 * 72 := by
      rw [crossScale, h.sum_lanes (fun h p => despreadScale d s true h p * despreadScale d s false h p), h.scale.1]
      exact mul_le_mul_of_nonneg_left h.scale.2 (by norm_num)
    have htol : (s.params.tol : ℝ) * (1 + 1 / 2 ^ 40) + 1 / 2 ^ 40 ≤ 1 / 20 := by linarith [(tol_bounds hp).2]
    rw [errorBound_mul]
    linarith [mul_le_mul_of_nonneg_right htol (crossScale_nonneg d s)]

/-- The sign tests give the bits of the user. -/
theorem UserEntry.bits (hw : UserEntry d s w x y) (h : TwoUsers d s a0 a1 b0 b1) (hp : ParamsLegal s.params)
    (id : DrawId) :
    let xc := f1Cross d s (muxOcc w) (muxCs w)
    let bound := s.params.tol * f1CrossScale d s
    (muxHarq w ≤ 1 → f1Negative (ivAdd xc.re xc.im) (2 * bound) id = x) ∧ f1Negative xc.re bound id = x ∧
      f1Negative xc.im bound id = y := by
  intro xc bound
  obtain ⟨hvalue, hbound⟩ := hw.cross h hp
  have hre : (crossValue d s (muxOcc w) (muxCs w)).re = 576 * ((bitSign x : Rat) : ℝ) := by
    rw [hvalue]
    simp [sentSymbol]
  have him : (crossValue d s (muxOcc w) (muxCs w)).im = 576 * ((bitSign y : Rat) : ℝ) := by
    rw [hvalue]
    simp [sentSymbol]
  obtain ⟨⟨hsum, hsum'⟩, ⟨hre_pos, hre_neg⟩, him_pos, him_neg⟩ :=
    f1Bits_follow (d := d) (tol_bounds hp).1.le h.exact h.sequences (muxOcc w) (muxCs w) id
  rw [hre] at hre_pos hre_neg
  rw [him] at him_pos him_neg
  refine ⟨fun hq => ?_, eq_of_sign_test (by linarith) hre_pos hre_neg, eq_of_sign_test (by linarith) him_pos him_neg⟩
  rw [hre, him, hw.one hq, ← add_mul] at hsum hsum'
  exact eq_of_sign_test (by linarith) hsum hsum'

/-- `num` of a user's own symbol is `(24 + 24*sqrt 2)^2`, and its enclosure lies above 3340. -/
theorem UserEntry.num_lo (hw : UserEntry d s w x y) (h : TwoUsers d s a0 a1 b0 b1) {turn : Rat}
    (hturn : rootOf (turn : ℝ) = decidedSymbol (muxHarq w) x y) :
    3340 ≤ (f1Num d s turn (muxOcc w) (muxCs w)).lo := by
  have hnorm := decidedSymbol_norm (muxHarq w) x y
  have hroot : (141 : ℝ) / 100 ≤ Real.sqrt 2 := Real.le_sqrt_of_sq_le (by norm_num)
  have hnum : numValue d s (rootOf (turn : ℝ)) (muxOcc w) (muxCs w) = (24 + 24 * Real.sqrt 2) ^ 2 := by
    have hself : starRingEnd ℂ (decidedSymbol (muxHarq w) x y) * decidedSymbol (muxHarq w) x y = 1 := by
      rw [Complex.conj_mul', hnorm]
      norm_num
    have hfold : (24 : ℂ) + starRingEnd ℂ (decidedSymbol (muxHarq w) x y) *
        (24 * (Real.sqrt 2 * decidedSymbol (muxHarq w) x y)) = ((24 + 24 * Real.sqrt 2 : ℝ) : ℂ) := by
      push_cast
      linear_combination 24 * (Real.sqrt 2 : ℂ) * hself
    rw [hturn, numValue_eq d s hnorm, h.sum_lanes (fun h p => ‖despreadValue d s true h p (muxOcc w) (muxCs w) +
      starRingEnd ℂ (decidedSymbol (muxHarq w) x y) * despreadValue d s false h p (muxOcc w) (muxCs w)‖ ^ 2), hw.occ,
      hw.pilot, hw.data, sentSymbol_data hw.one, hfold, Complex.norm_real, Real.norm_of_nonneg (by positivity)]
  have hscale : numScaleValue d s ≤ 96 ^ 2 := by
    rw [numScaleValue, h.sum_lanes (fun h p => (despreadScale d s true h p + despreadScale d s false h p) ^ 2)]
    refine pow_le_pow_left₀ (add_nonneg (despreadScale_nonneg ..) (despreadScale_nonneg ..)) ?_ 2
    linarith [h.scale.1, h.scale.2]
  obtain ⟨⟨-, hhi⟩, hwidth⟩ := f1Num_encl (d := d) h.exact h.sequences turn (muxOcc w) (muxCs w)
  rw [hnum] at hhi
  have : (3340 : ℝ) ≤ (f1Num d s turn (muxOcc w) (muxCs w)).lo := by nlinarith
  exact_mod_cast this

/-- The metric is `+inf` or at least `num / (4*TOL*S2*F1_NORM)` (44_format1.md R108). -/
theorem UserEntry.metric (hw : UserEntry d s w x y) (h : TwoUsers d s a0 a1 b0 b1) (hp : ParamsLegal s.params)
    {turn : Rat} (hturn : rootOf (turn : ℝ) = decidedSymbol (muxHarq w) x y) {norm : Rat} (hnorm : 0 < norm) :
    ∃ b, 83 / (s.params.tol * norm) ≤ b ∧
      f1MetricAdmitted s.params.tol norm (f1Num d s turn (muxOcc w) (muxCs w)) (f1NumScale d s)
        (f1NumPositive d s turn (muxOcc w) (muxCs w)) (f1NoiseOf (f1Samples d s [0])) = .atLeast b := by
  obtain ⟨ht, -⟩ := tol_bounds hp
  have hlo := hw.num_lo h hturn
  have hzero := h.noise_isZero hp
  obtain ⟨hlow, hhigh⟩ := h.noise_scale hp
  have hscale : f1NumScale d s ≠ 0 := by
    have htight := (f1NumScale_tight d s).1
    have hpos : 0 < numScaleValue d s := by
      rw [numScaleValue, h.sum_lanes (fun h p => (despreadScale d s true h p + despreadScale d s false h p) ^ 2),
        h.scale.1]
      have := despreadScale_nonneg d s false 0 0
      positivity
    have : (0 : ℝ) < f1NumScale d s := hpos.trans_le htight
    exact (by exact_mod_cast this : 0 < f1NumScale d s).ne'
  have hpositive : f1NumPositive d s turn (muxOcc w) (muxCs w) = true := by
    rw [f1NumPositive, decide_eq_true (by linarith), Bool.true_or]
  have hten := hlow.trans_lt' (by norm_num : (0 : Rat) < 10)
  refine ⟨_, ?_, by rw [f1MetricAdmitted, if_neg hscale, if_pos hzero, hpositive, if_neg (by decide),
    if_neg hten.ne']⟩
  rw [div_le_div_iff₀ (by positivity) (by positivity)]
  nlinarith [mul_pos ht hnorm]

/-- What is drawn where `+inf` and every value from `b` on is admitted (44_format1.md R108). -/
theorem draw_atLeast {b c : Rat} (hb : c ≤ b) (id : DrawId) :
    admits (.atLeast c) (drawF32 (.atLeast b) id) = true := by
  have hdraw : admits (.atLeast b) (drawF32 (.atLeast b) id) = true := drawF32_admits ⟨f32PosInf, rfl⟩
  simp only [admits, Bool.or_eq_true, Bool.and_eq_true, decide_eq_true_eq] at hdraw ⊢
  exact hdraw.imp_right (fun ⟨hfin, hle⟩ => ⟨hfin, hb.trans hle⟩)

/-- The RSRP of a user is 1, and so is its scale. -/
theorem UserEntry.rsrp (hw : UserEntry d s w x y) (h : TwoUsers d s a0 a1 b0 b1) :
    rsrpValue d s (muxOcc w) (muxCs w) = 1 ∧ rsrpScale d s = 1 := by
  constructor
  · rw [rsrpValue, h.sum_lanes (fun h p => (‖despreadValue d s true h p (muxOcc w) (muxCs w)‖ /
      (12 * (symbolsOfHop d h true).length)) ^ 2), h.symbols_length, h.ports_eq, h.hopCount_eq, hw.occ, hw.pilot]
    norm_num
  · rw [rsrpScale, h.sum_lanes (fun h p => (despreadScale d s true h p / (12 * (symbolsOfHop d h true).length)) ^ 2),
      h.symbols_length, h.ports_eq, h.hopCount_eq, h.scale.1]
    norm_num

theorem UserEntry.rsrp_near (hw : UserEntry d s w x y) (h : TwoUsers d s a0 a1 b0 b1) (hp : ParamsLegal s.params)
    (id : DrawId) : |realOf (drawF32 (admitNear (f1Rsrp d s (muxOcc w) (muxCs w))
      (s.params.tol * f1RsrpScale d s)) id) - 1| ≤ errorBound s.params.tol 1 := by
  have ht := (tol_bounds hp).1.le
  have ht' : (0 : ℝ) ≤ s.params.tol := by exact_mod_cast ht
  obtain ⟨hvalue, hscale⟩ := hw.rsrp h
  have hreturns := f1Rsrp_returns (d := d) ht h.exact h.sequences (muxOcc w) (muxCs w) id
  rw [hvalue, hscale] at hreturns
  have hreal : realOf 0x3F800000#32 = ((1 : Rat) : ℝ) :=
    congrArg _ (show f32Rat 0x3F800000#32 = 1 by decide +kernel)
  have hheld : RealHeld s.params.tol 1 1 := by
    refine ⟨0x3F800000#32, by decide, ?_⟩
    rw [hreal, Rat.cast_one, sub_self, abs_zero]
    positivity
  exact (hreturns hheld).2

/-- With an ideal `sigma2` of 0 the SINR is any value of `[0, +inf]`. -/
theorem TwoUsers.sinr (h : TwoUsers d s a0 a1 b0 b1) (hp : ParamsLegal s.params) (rsrp : Ival) (scale : Rat)
    (id : DrawId) : admits (.atLeast 0)
      (drawF32 (f1SinrAdmitted s.params.tol rsrp scale (f1NoiseOf (f1Samples d s [0]))) id) = true := by
  have hscale : (f1NoiseOf (f1Samples d s [0])).scale ≠ 0 :=
    ((h.noise_scale hp).1.trans_lt' (by norm_num : (0 : Rat) < 10)).ne'
  have hdraw : admits .nonneg (drawF32 .nonneg id) = true := drawF32_admits ⟨f32PosInf, rfl⟩
  rw [f1SinrAdmitted, if_neg hscale, if_pos (h.noise_isZero hp)]
  exact hdraw

/-- The UCI word of an entry that passes with the user's bits. -/
theorem UserEntry.uci_fields (hw : UserEntry d s w x y) {c0 c1 : Bool} (hc0 : c0 = x) (hc1 : 1 < muxHarq w → c1 = y) :
    let uci := f1Uci (muxHarq w) true c0 c1
    uci.extractLsb' 0 2 = 1#2 ∧ (1 ≤ muxHarq w → uci.getLsbD 6 = x) ∧ (2 ≤ muxHarq w → uci.getLsbD 7 = y) := by
  obtain ⟨hstatus, hbit0, hbit1⟩ := f1Uci_fields (muxHarq w) true c0 c1
  refine ⟨hstatus.trans ?_, fun hq => hbit0.trans ?_, fun hq => hbit1.trans ?_⟩
  · have hsr : (muxHarq w == 0 && c0) = false := by
      by_cases hq : muxHarq w = 0
      · rw [hc0, hw.sr hq, Bool.and_false]
      · rw [beq_false_of_ne hq, Bool.false_and]
    rw [hsr]
    rfl
  · rw [hc0, beq_false_of_ne (by omega)]
    rfl
  · rw [hc1 hq, beq_false_of_ne (by omega), beq_false_of_ne (by omega)]
    rfl

/-- The words of a user's entry: valid with its bits, its metric, RSRP and SINR. -/
theorem UserEntry.answer (hw : UserEntry d s w x y) (h : TwoUsers d s a0 a1 b0 b1) (hp : ParamsLegal s.params)
    {norm : Rat} (hnorm : 0 < norm) (hsmall : s.params.tol * norm < 64) (epre : F32) (e : Nat) :
    let entry := f1Entry d s norm (9 / 10) (f1NoiseOf (f1Samples d s [0])) epre e w
    let uci := entry.getD 1 0#32
    uci.extractLsb' 0 2 = 1#2 ∧ (1 ≤ muxHarq w → uci.getLsbD 6 = x) ∧ (2 ≤ muxHarq w → uci.getLsbD 7 = y) ∧
      admits (.atLeast (83 / (s.params.tol * norm))) (entry.getD 2 0#32) = true ∧
      |realOf (entry.getD 4 0#32) - 1| ≤ errorBound s.params.tol 1 ∧
      admits (.atLeast 0) (entry.getD 5 0#32) = true := by
  intro entry uci
  obtain ⟨c0, c1, hone, htwo, huci, hmetric, hrsrp, hsinr⟩ := f1Entry_finite (rxFinite_of h.finite) norm (9 / 10)
    (f1NoiseOf (f1Samples d s [0])) epre e w
  obtain ⟨hsum, hre, -⟩ := hw.bits h hp ⟨s.draws, .f1Bit0, e⟩
  obtain ⟨-, -, him⟩ := hw.bits h hp ⟨s.draws, .f1Bit1, e⟩
  have hc0 : c0 = x := by
    rcases Nat.lt_or_ge 1 (muxHarq w) with hq | hq
    · obtain ⟨hbit, -⟩ := htwo hq
      exact hbit.trans hre
    · exact (hone hq).trans (hsum hq)
  have hc1 (hq : 1 < muxHarq w) : c1 = y := by
    obtain ⟨-, hbit⟩ := htwo hq
    exact hbit.trans him
  have hturn : rootOf ((f1SymbolTurn (muxHarq w) c0 c1 : Rat) : ℝ) = decidedSymbol (muxHarq w) x y := by
    rw [f1SymbolTurn_value, hc0]
    rcases Nat.lt_or_ge 1 (muxHarq w) with hq | hq
    · rw [hc1 hq]
    · simp only [decidedSymbol, if_pos hq]
  obtain ⟨b, hb, hadmitted⟩ := hw.metric h hp hturn hnorm
  have hthr : 9 / 10 < b := by
    refine lt_of_lt_of_le ?_ hb
    rw [lt_div_iff₀ (mul_pos (tol_bounds hp).1 hnorm)]
    linarith
  rw [hadmitted] at huci hmetric
  rw [atLeast_passes hthr] at huci
  obtain ⟨hstatus, hbit0, hbit1⟩ := hw.uci_fields hc0 hc1
  rw [← huci] at hstatus hbit0 hbit1
  exact ⟨hstatus, hbit0, hbit1, hmetric ▸ draw_atLeast hb _, hrsrp ▸ hw.rsrp_near h hp _,
    hsinr ▸ h.sinr hp _ _ _⟩

/-! ## The record -/

/-- The reported noise variance is within its error bound of 0 (44_format1.md R106). -/
theorem TwoUsers.noiseVar (h : TwoUsers d s a0 a1 b0 b1) (hp : ParamsLegal s.params) :
    |realOf (f1NoiseVar d s (f1NoiseOf (f1Samples d s [0])))| ≤ errorBound s.params.tol 10 := by
  have ht := (tol_bounds hp).1.le
  have ht' : (0 : ℝ) ≤ s.params.tol := by exact_mod_cast ht
  have hcovers : ∀ o ∈ [0], o < 8 := by decide
  obtain ⟨-, -, hvalue⟩ := f1Noise_spec (d := d) h.exact h.sequences (List.nodup_singleton 0) hcovers
  have hreturns := f1NoiseVar_returns ht h.exact h.sequences (rxFinite_of h.finite) (List.nodup_singleton 0) hcovers
  rw [hvalue (h.noise_isZero hp), h.noiseScale hp] at hreturns
  have hreal : realOf 0#32 = ((0 : Rat) : ℝ) := congrArg _ ((f32IsZero_iff _).1 (by decide))
  have hheld : RealHeld s.params.tol 0 10 := by
    refine ⟨0#32, by decide, ?_⟩
    rw [hreal, Rat.cast_zero, sub_self, abs_zero]
    positivity
  simpa using (hreturns hheld).2

theorem TwoUsers.threshold (h : TwoUsers d s a0 a1 b0 b1) : f1ThrOf d = 9 / 10 := by
  rw [f1ThrOf, nofHops_eq, h.hopCount_eq, nofPorts, h.ports_eq]
  rfl

end

/-- Settles O56: the users' keys separate them, no DM-RS sample leaves a residual, and each entry is that of a lone
user. -/
theorem noiseFreeFormatOne : Obligations.NoiseFreeFormatOne := by
  intro d s wa wb a0 a1 b0 b1 hc hwf hp hB hu hones hncs hsyms hhop hports hlen hwa hwb hkeya hkeyb hsra hsrb honea
    honeb sign alt hpilot hdata tn htn
  have h : TwoUsers d s a0 a1 b0 b1 := ⟨hones, hncs, hsyms, hhop, hports, hpilot, hdata⟩
  obtain ⟨hcsa, hocca⟩ := hkeya
  obtain ⟨hcsb, hoccb⟩ := hkeyb
  have hfirst : UserEntry d s wa a0 a1 :=
    h.entry (by rw [muxOcc, hocca]; rfl) (.inl ⟨by rw [muxCs, hcsa]; rfl, rfl, rfl⟩) honea hsra
  have hsecond : UserEntry d s wb b0 b1 :=
    h.entry (by rw [muxOcc, hoccb]; rfl) (.inr ⟨by rw [muxCs, hcsb]; rfl, rfl, rfl⟩) honeb hsrb
  have hmux : seenMux d s = [wa, wb] := by
    rw [seenMux_eq hu, hlen]
    simp only [← hwa, ← hwb]
    rfl
  have hoccs : f1Occs [wa, wb] = [0] := by
    rw [f1Occs, List.map_cons, List.map_cons, List.map_nil, hfirst.occ, hsecond.occ]
    rfl
  obtain ⟨t, hexec, hword⟩ := procF1_record hc hwf hB hu
  rw [hmux] at hword
  have hnoise : recordWord t d.resAddr 3 = f1NoiseVar d s (f1NoiseOf (f1Samples d s (f1Occs [wa, wb]))) :=
    hword 2 _ rfl
  refine ⟨t, hexec, ?_, fun e w x y huser => ?_⟩
  · rw [hnoise, hoccs]
    exact h.noiseVar hp
  have hget : [wa, wb][e]? = some w := by
    rcases huser with ⟨rfl, rfl, -⟩ | ⟨rfl, rfl, -⟩ <;> rfl
  have hentry : UserEntry d s w x y := by
    rcases huser with ⟨-, rfl, rfl, rfl⟩ | ⟨-, rfl, rfl, rfl⟩
    · exact hfirst
    · exact hsecond
  have entry (n j : Nat) (hj : j < 6) (hn : n = 3 + 6 * e + j + 1) :=
    (congrArg (recordWord t d.resAddr) hn).trans (hword _ _ (f1Record_getD d s hget hj))
  intro uci
  rw [show uci = _ from entry (5 + 6 * e) 1 (by decide) (by omega), entry (6 + 6 * e) 2 (by decide) (by omega),
    entry (8 + 6 * e) 4 (by decide) (by omega), entry (9 + 6 * e) 5 (by decide) (by omega), hoccs, h.threshold]
  exact hentry.answer h hp (f1NormOf_pos hp _) htn _ e

end Sys2Proof.Proofs
end

section
/-! The LLR counts of Formats 2, 3 and 4, and the fault of an `LLR_LEN` that is none of them (45_format234.md R124). -/

namespace Sys2Proof.Proofs

open Sys2Proof Sys2Proof.Machine

/-! ## The counts (45_format234.md R118, R119, R121) -/

theorem llrCount_f2 (d : PucchDesc) : llrCount .f2 d = 16 * d.nofPrb.toNat * d.nofSym.toNat := rfl

theorem llrCount_f3 (d : PucchDesc) : llrCount .f3 d = (if d.pi2bpsk = 1#1 then 1 else 2) * 12 * d.nofPrb.toNat *
    (d.nofSym.toNat - (f34DmrsSym d.nofSym.toNat (hopEn d) (addDmrs d)).length) := by
  rw [← qmOf_f34 (.inl rfl), ← f34_nds]
  rfl

theorem llrCount_f4 (d : PucchDesc) : llrCount .f4 d =
    (if d.pi2bpsk = 1#1 then 1 else 2) * (12 / if d.occLenSel = 0#1 then 2 else 4) *
      (d.nofSym.toNat - (f34DmrsSym d.nofSym.toNat (hopEn d) (addDmrs d)).length) := by
  rw [← qmOf_f34 (.inr rfl), ← f34_nds]
  rfl

/-! ## Check B12 (45_format234.md R124, 46_dispatcher_pool.md R137) -/

/-- The checks of stage B that concern a demodulator: B7, B9, B10 and B11 are those of Formats 0 and 1. -/
theorem stageB_demod {f : Fmt} (hf : f = .f2 ∨ f = .f3 ∨ f = .f4) (d : PucchDesc) (s : State) :
    stageB f d s = firstFail
      [ (failB1 d, .reservedNonzero), (failB2 f d, .symbolRange), (failB3 f d, .prbRange),
        (failB4 s.params d, .portInvalid), (failB5 f d, .fieldRange), (failB6 f s.params d, .gridBounds),
        (failB8 f s.params d, .memBounds), (decide (d.bufLen.toNat ≠ llrCount f d), .bufferLength) ] := by
  rcases hf with rfl | rfl | rfl <;> rfl

/-- A last check alone raises its code. -/
theorem firstFail_single_iff (b : Bool) (code : FaultCode) : firstFail [(b, code)] = some code ↔ b = true := by
  cases b <;> simp [firstFail]

/-- A check that passes leaves the answer to those after it (60_exceptions.md R145). -/
theorem firstFail_cons_of_pass {b : Bool} (h : b = false) (code : FaultCode) (l : List (Bool × FaultCode)) :
    firstFail ((b, code) :: l) = firstFail l := by
  rw [h]
  rfl

/-- Where every earlier check of a demodulator passes, B12 decides. -/
theorem stageB_bufferLength_iff {f : Fmt} (hf : f = .f2 ∨ f = .f3 ∨ f = .f4) {d : PucchDesc} {s : State}
    (h1 : failB1 d = false) (h2 : failB2 f d = false) (h3 : failB3 f d = false) (h4 : failB4 s.params d = false)
    (h5 : failB5 f d = false) (h6 : failB6 f s.params d = false) (h8 : failB8 f s.params d = false) :
    stageB f d s = some .bufferLength ↔ d.bufLen.toNat ≠ llrCount f d := by
  rw [stageB_demod hf, firstFail_cons_of_pass h1, firstFail_cons_of_pass h2, firstFail_cons_of_pass h3,
    firstFail_cons_of_pass h4, firstFail_cons_of_pass h5, firstFail_cons_of_pass h6, firstFail_cons_of_pass h8,
    firstFail_single_iff, decide_eq_true_iff]

/-! ## The trap (46_dispatcher_pool.md R137, 60_exceptions.md R146) -/

/-- A processing command raises the code of stage B; that of Format 1 has latched its mux list. -/
theorem exec_procInstr_trap {f : Fmt} {d : PucchDesc} {s : State} {code : FaultCode}
    (h : stageB f d s = some code) :
    exec (procInstr f d) s = raiseFault (procInstr f d) code (latched (procInstr f d) s) := by
  cases f with
  | f0 => show execProcF0 d s = _; rw [execProcF0, h]; rfl
  | f1 => show execProcF1 d s = _; rw [execProcF1, h]; rfl
  | f2 => show execProcF2 d s = _; rw [execProcF2, h]; rfl
  | f3 => show execProcF3 d s = _; rw [execProcF3, h]; rfl
  | f4 => show execProcF4 d s = _; rw [execProcF4, h]; rfl

/-- A fault raised in a running block stops it, with its code in the low byte of `FAULT_INFO`. -/
theorem raiseFault_code (i : Instr) (code : FaultCode) {s : State} (hrun : s.bstate = .run) :
    ∃ t, raiseFault i code s = .next t ∧ t.bstate = .faulted ∧ t.faultInfo.extractLsb' 0 8 = faultByte code := by
  refine ⟨_, rfl, ?_⟩
  rw [faultEntry_of_run _ _ _ _ _ _ hrun]
  exact ⟨rfl, BitVec.extractLsb'_append_eq_right⟩

theorem procInstr_trap_code {f : Fmt} {d : PucchDesc} {s : State} {code : FaultCode} (hrun : s.bstate = .run)
    (h : stageB f d s = some code) : ∃ t, exec (procInstr f d) s = .next t ∧ t.bstate = .faulted ∧
      t.faultInfo.extractLsb' 0 8 = faultByte code := by
  rw [exec_procInstr_trap h]
  exact raiseFault_code _ code ((latched_from _ s).bstate.trans hrun)

/-- Settles O21: a demodulator writes as many LLRs as the table says, and B12 compares `LLR_LEN` with that count. -/
theorem llrCountsAgree : Obligations.LlrCountsAgree := by
  intro d s ch nds e2 e3 e4
  refine ⟨llrBytes_length_f2 d s ch, (llrBytes_length_f3 d s ch).trans (llrCount_f3 d),
    (llrBytes_length_f4 d s ch).trans (llrCount_f4 d), fun f e hfe h1 h2 h3 h4 h5 h6 h8 => ?_⟩
  obtain ⟨hf, rfl⟩ : (f = .f2 ∨ f = .f3 ∨ f = .f4) ∧ llrCount f d = e := by
    rcases hfe with ⟨rfl, rfl⟩ | ⟨rfl, rfl⟩ | ⟨rfl, rfl⟩
    · exact ⟨.inl rfl, llrCount_f2 d⟩
    · exact ⟨.inr (.inl rfl), llrCount_f3 d⟩
    · exact ⟨.inr (.inr rfl), llrCount_f4 d⟩
  have hB12 := stageB_bufferLength_iff hf h1 h2 h3 h4 h5 h6 h8
  exact ⟨hB12.symm, fun hrun hlen => procInstr_trap_code hrun (hB12.2 hlen)⟩

end Sys2Proof.Proofs
end

section
/-! Stage B: its checks as the rules state them, the fault of a processing command, and the answer of a validator
(46_dispatcher_pool.md R136 to R138). -/

namespace Sys2Proof.Proofs

open Sys2Proof Sys2Proof.Machine

/-! ## The checks B1 to B12, one by one (46_dispatcher_pool.md R137) -/

theorem failB1_iff (d : PucchDesc) : failB1 d = true ↔
    d.rsv2 ≠ 0#21 ∨ d.rsv3lo ≠ 0#7 ∨ d.rsv3hi ≠ 0#6 ∨ d.rsv4lo ≠ 0#2 ∨ d.rsv4hi ≠ 0#5 ∨ d.rsv5 ≠ 0#6 ∨
      d.rsv6 ≠ 0#28 := by
  simp only [failB1, Bool.not_eq_true', Bool.and_eq_false_iff, beq_eq_false_iff_ne, or_assoc]
  rfl

theorem failB2_iff (f : Fmt) (d : PucchDesc) : failB2 f d = true ↔
    14 < d.startSym.toNat + d.nofSym.toNat ∨
      ((f = .f0 ∨ f = .f2) ∧ (d.nofSym.toNat < 1 ∨ 2 < d.nofSym.toNat ∨ 13 < d.startSym.toNat)) ∨
      ((f = .f1 ∨ f = .f3 ∨ f = .f4) ∧ (d.nofSym.toNat < 4 ∨ 14 < d.nofSym.toNat ∨ 10 < d.startSym.toNat)) := by
  have outside (lo hi start : Nat) : (!(decide (lo ≤ d.nofSym.toNat) && decide (d.nofSym.toNat ≤ hi) &&
      decide (d.startSym.toNat ≤ start) && decide (d.startSym.toNat + d.nofSym.toNat ≤ 14))) = true ↔
      14 < d.startSym.toNat + d.nofSym.toNat ∨
        (d.nofSym.toNat < lo ∨ hi < d.nofSym.toNat ∨ start < d.startSym.toNat) := by
    simp only [Bool.not_eq_true', Bool.and_eq_false_iff, decide_eq_false_iff_not, not_le]
    tauto
  cases f with
  | f0 | f2 => exact (outside 1 2 13).trans (by simp)
  | f1 | f3 | f4 => exact (outside 4 14 10).trans (by simp)

theorem failB3_iff (f : Fmt) (d : PucchDesc) : failB3 f d = true ↔
    274 < d.startPrb.toNat ∨ (d.hopEn = 1#1 ∧ 274 < d.secondHopPrb.toNat) ∨
      (f = .f2 ∧ (d.nofPrb.toNat < 1 ∨ 16 < d.nofPrb.toNat)) ∨
      (f = .f3 ∧ d.nofPrb.toNat ∉ [1, 2, 3, 4, 5, 6, 8, 9, 10, 12, 15, 16]) := by
  have range : (!(decide (1 ≤ d.nofPrb.toNat) && decide (d.nofPrb.toNat ≤ 16))) = true ↔
      d.nofPrb.toNat < 1 ∨ 16 < d.nofPrb.toNat := by
    simp only [Bool.not_eq_true', Bool.and_eq_false_iff, decide_eq_false_iff_not, not_le]
  have counts : (!f3PrbCounts.contains d.nofPrb.toNat) = true ↔
      d.nofPrb.toNat ∉ [1, 2, 3, 4, 5, 6, 8, 9, 10, 12, 15, 16] := by
    rw [Bool.not_eq_true', ← Bool.not_eq_true, List.contains_iff_mem]
    rfl
  have hop : hopEn d = true ↔ d.hopEn = 1#1 := beq_iff_eq
  simp only [failB3, Bool.or_eq_true, Bool.and_eq_true, decide_eq_true_iff, hop, or_assoc]
  cases f with
  | f2 => simp only [range, reduceCtorEq, false_and, true_and, or_false]
  | f3 => simp only [counts, reduceCtorEq, false_and, true_and, false_or]
  | f0 | f1 | f4 => simp only [reduceCtorEq, Bool.false_eq_true, false_and, or_false]

theorem failB4_iff (p : Params) (d : PucchDesc) :
    let port (i : Nat) := (d.portList.extractLsb' (4 * i) 4).toNat
    failB4 p d = true ↔ d.nofPorts.toNat = 0 ∨ p.maxPorts < d.nofPorts.toNat ∨
      (∃ i, i < d.nofPorts.toNat ∧ p.nofGridPorts ≤ port i) ∨
      (∃ i j, i < j ∧ j < d.nofPorts.toNat ∧ port i = port j) := by
  simp only [failB4, portsOf, Bool.or_eq_true, decide_eq_true_iff, List.any_map, List.any_eq_true, List.mem_range,
    Function.comp_apply, hasRepeat_map, or_assoc]
  rfl

theorem failB5_iff (f : Fmt) (d : PucchDesc) : failB5 f d = true ↔
    4 < d.mu.toNat ∨ 10 * 2 ^ d.mu.toNat ≤ d.slotIdx.toNat ∨
      (f = .f0 ∧ (11 < d.initCs.toNat ∨ 2 < d.nofHarq.toNat)) ∨
      (f = .f4 ∧ (if d.occLenSel = 0#1 then 2 else 4) ≤ d.occIdx.toNat) := by
  simp only [failB5, Bool.or_eq_true, decide_eq_true_iff, or_assoc]
  cases f with
  | f4 => rw [decide_eq_true_iff]; simp [occLen]
  | f0 | f1 | f2 | f3 => simp

theorem nofPrbEff_eq (f : Fmt) (d : PucchDesc) :
    nofPrbEff f d = if f = .f2 ∨ f = .f3 then d.nofPrb.toNat else 1 := by
  cases f <;> rfl

theorem failB6_iff (f : Fmt) (p : Params) (d : PucchDesc) :
    let eff := if f = .f2 ∨ f = .f3 then d.nofPrb.toNat else 1
    failB6 f p d = true ↔ p.nRbGrid < d.startPrb.toNat + eff ∨
      (d.hopEn = 1#1 ∧ p.nRbGrid < d.secondHopPrb.toNat + eff) := by
  simp only [failB6, nofPrbEff_eq, hopEn, Bool.or_eq_true, Bool.and_eq_true, decide_eq_true_iff, beq_iff_eq]

theorem failB7_iff (f : Fmt) (d : PucchDesc) : failB7 f d = true ↔ f = .f1 ∧ d.bufAddr.toNat % 4 ≠ 0 := by
  cases f <;> simp [failB7, al4_eq_false_iff]

theorem failB8_iff (f : Fmt) (p : Params) (d : PucchDesc) : failB8 f p d = true ↔
    p.dmemSize < d.resAddr.toNat + procRecordSize f d ∨
      (f = .f1 ∧ p.dmemSize < d.bufAddr.toNat + 4 * d.bufLen.toNat) ∨
      ((f = .f2 ∨ f = .f3 ∨ f = .f4) ∧ p.dmemSize < d.bufAddr.toNat + d.bufLen.toNat) := by
  cases f <;> simp [failB8, inb_eq_false_iff]

theorem muxEntryBad_iff (d : PucchDesc) (w : Word) : muxEntryBad d w = true ↔
    w.extractLsb' 4 4 ≠ 0#4 ∨ w.extractLsb' 11 5 ≠ 0#5 ∨ w.extractLsb' 18 14 ≠ 0#14 ∨
      11 < (w.extractLsb' 0 4).toNat ∨ f1Nocc d ≤ (w.extractLsb' 8 3).toNat ∨ 2 < (w.extractLsb' 16 2).toNat := by
  simp only [muxEntryBad, muxReservedClear, Bool.or_eq_true, Bool.not_eq_true', Bool.and_eq_false_iff,
    beq_eq_false_iff_ne, decide_eq_true_iff, or_assoc]
  rfl

theorem failB9_iff (f : Fmt) (rd : Nat → Byte) (d : PucchDesc) :
    let entry (e : Nat) : Word := wordAt rd (d.bufAddr.toNat + 4 * e)
    failB9 f rd d = true ↔ f = .f1 ∧ (d.bufLen.toNat = 0 ∨ 84 < d.bufLen.toNat ∨
      (∃ e, e < d.bufLen.toNat ∧ ((entry e).extractLsb' 4 4 ≠ 0#4 ∨ (entry e).extractLsb' 11 5 ≠ 0#5 ∨
        (entry e).extractLsb' 18 14 ≠ 0#14 ∨ 11 < ((entry e).extractLsb' 0 4).toNat ∨
        f1Nocc d ≤ ((entry e).extractLsb' 8 3).toNat ∨ 2 < ((entry e).extractLsb' 16 2).toNat)) ∨
      (∃ e e', e < e' ∧ e' < d.bufLen.toNat ∧ (entry e).extractLsb' 0 4 = (entry e').extractLsb' 0 4 ∧
        (entry e).extractLsb' 8 3 = (entry e').extractLsb' 8 3)) := by
  cases f with
  | f1 =>
    simp only [failB9, muxList, wordsAt, List.map_map, List.any_map, Bool.or_eq_true, decide_eq_true_iff,
      List.any_eq_true, List.mem_range, Function.comp_apply, hasRepeat_map, muxEntryBad_iff, Prod.mk.injEq, muxCs,
      muxOcc, BitVec.toNat_inj, true_and, or_assoc]
  | f0 | f2 | f3 | f4 => simp [failB9]

theorem failB10_iff (f : Fmt) (d : PucchDesc) :
    failB10 f d = true ↔ f = .f0 ∧ d.nofHarq = 0#2 ∧ d.srOpp = 0#1 := by
  have harq : d.nofHarq.toNat = 0 ↔ d.nofHarq = 0#2 := BitVec.toNat_inj (y := 0#2)
  have sr : srOpp d = false ↔ d.srOpp = 0#1 := by
    unfold srOpp
    generalize d.srOpp = x
    revert x
    decide
  cases f <;> simp [failB10, harq, sr]

theorem f0Thr_isNone_iff (p : Params) (dof ncand : Nat) :
    (f0Thr p dof ncand).isNone = true ↔ ∀ e, e ∈ p.f0Thr → ¬ (e.dof = dof ∧ e.ncand = ncand) := by
  unfold f0Thr
  split
  · rename_i e h
    have hkey := List.find?_some h
    simp only [Bool.and_eq_true, beq_iff_eq] at hkey
    simp only [Option.isNone_some, Bool.false_eq_true, false_iff]
    exact fun hall => hall e (List.mem_of_find?_eq_some h) hkey
  · rename_i h
    simpa using h

theorem f1Thr_isNone_iff (n : Nat) : (f1Thr n).isNone = true ↔ n ∉ [1, 2, 4, 8] := by
  rw [← Option.not_isSome, Bool.not_eq_true', ← Bool.not_eq_true, f1Thr_isSome_iff]
  simp

theorem failB11_iff (f : Fmt) (p : Params) (d : PucchDesc) : failB11 f p d = true ↔
    (f = .f0 ∧ ∀ e, e ∈ p.f0Thr →
      ¬ (e.dof = d.nofPorts.toNat * d.nofSym.toNat ∧ e.ncand = (f0Cands d).length)) ∨
    (f = .f1 ∧ d.nofPorts.toNat * (if d.hopEn = 1#1 then 2 else 1) ∉ [1, 2, 4, 8]) := by
  have hops : nofHops d = if d.hopEn = 1#1 then 2 else 1 := by simp [nofHops, hopEn]
  have f0 : failB11 .f0 p d = true ↔ _ := f0Thr_isNone_iff p (d.nofPorts.toNat * d.nofSym.toNat) (f0Cands d).length
  have f1 : failB11 .f1 p d = true ↔ _ := f1Thr_isNone_iff (d.nofPorts.toNat * nofHops d)
  cases f with
  | f0 => simp only [f0, reduceCtorEq, true_and, false_and, or_false]
  | f1 => simp only [f1, hops, reduceCtorEq, true_and, false_and, false_or]
  | f2 | f3 | f4 => simp [failB11]

theorem failB12_iff (f : Fmt) (d : PucchDesc) :
    let qm := if d.pi2bpsk = 1#1 then 1 else 2
    let occ := if d.occLenSel = 0#1 then 2 else 4
    let nds := d.nofSym.toNat - (f34DmrsSym d.nofSym.toNat (d.hopEn == 1#1) (d.addDmrs == 1#1)).length
    failB12 f d = true ↔ (f = .f2 ∧ d.bufLen.toNat ≠ 16 * d.nofPrb.toNat * d.nofSym.toNat) ∨
      (f = .f3 ∧ d.bufLen.toNat ≠ qm * 12 * d.nofPrb.toNat * nds) ∨
      (f = .f4 ∧ d.bufLen.toNat ≠ qm * (12 / occ) * nds) := by
  intro qm occ nds
  have count3 : llrCount .f3 d = qm * 12 * d.nofPrb.toNat * nds := llrCount_f3 d
  have count4 : llrCount .f4 d = qm * (12 / occ) * nds := llrCount_f4 d
  cases f with
  | f2 => rw [failB12, decide_eq_true_iff, llrCount_f2]; simp
  | f3 => rw [failB12, decide_eq_true_iff, count3]; simp
  | f4 => rw [failB12, decide_eq_true_iff, count4]; simp
  | f0 | f1 => simp [failB12]

/-- Settles O15: check by check, the model's test is the rule's condition. -/
theorem stageBChecksInOrder : Obligations.StageBChecksInOrder := by
  intro f d s
  exact firstFails_cons (failB1_iff d) <| firstFails_cons (failB2_iff f d) <| firstFails_cons (failB3_iff f d) <|
    firstFails_cons (failB4_iff _ d) <| firstFails_cons (failB5_iff f d) <| firstFails_cons (failB6_iff f _ d) <|
    firstFails_cons (failB7_iff f d) <| firstFails_cons (failB8_iff f _ d) <| firstFails_cons (failB9_iff f _ d) <|
    firstFails_cons (failB10_iff f d) <| firstFails_cons (failB11_iff f _ d) <| firstFails_cons (failB12_iff f d) rfl

/-! ## The trap and the validator's answer (46_dispatcher_pool.md R137, R138) -/

theorem latched_procInstr_ports (f : Fmt) (d : PucchDesc) (s : State) :
    (latched (procInstr f d) s).ports = s.ports := by
  cases f with
  | f1 => exact latchMux_ports d s
  | f0 | f2 | f3 | f4 => rfl

/-- A latched mux list shows in nothing that a fault leaves, where the ports are the same. -/
theorem faulted_of_latched {code : FaultCode} {i : Instr} {s t : State} (h : Faulted code i (latched i s) t)
    (ports : (latched i s).ports = s.ports) : Faulted code i s t := by
  have hl := latched_from i s
  constructor
  case bstate => exact h.bstate
  case code => exact h.code
  case faultAddr => exact hl.cur ▸ h.faultAddr
  case faultSrc => exact hl.cur ▸ h.faultSrc
  case ports => exact h.ports.trans ports
  case leases =>
    intro k
    obtain ⟨mux, hk⟩ := hl.inst k
    have := h.leases k
    rwa [hk] at this
  case bytes =>
    intro a ha
    rw [h.bytes a (by rwa [hl.cur, latched_inFlightOuts]), hl.dmem]
  case around => exact h.around.of_latched

/-- Settles O18: the command raises the code of stage B, and the mux list that `PROC.F1` latches shows in nothing that
the fault leaves. -/
theorem procChecksTrap : Obligations.ProcChecksTrap := by
  intro f d s code hrun hwf hB
  have hl := latched_from (procInstr f d) s
  obtain ⟨t, ht, hfault⟩ := raiseFault_faulted (procInstr f d) code (latched (procInstr f d) s)
    (hl.bstate.trans hrun) (by rwa [hl.dmem])
  exact ⟨t, (exec_procInstr_trap hB).trans ht, faulted_of_latched hfault (latched_procInstr_ports f d s)⟩

/-- A processing command that passes stage B completes, whatever its format is. -/
theorem procInstr_completes {f : Fmt} {d : PucchDesc} {s : State} (hc : CallerExists s)
    (hwf : Memory.wf s.dmem = true) (hB : stageB f d s = none) :
    ∃ t outs, exec (procInstr f d) s = .next t ∧ Completed outs s t := by
  cases f with
  | f0 => obtain ⟨t, ht, hdone, -⟩ := procF0Completes d s hc hwf hB; exact ⟨t, _, ht, hdone⟩
  | f1 => obtain ⟨t, ht, hdone, -⟩ := procF1Completes d s hc hwf hB; exact ⟨t, _, ht, hdone⟩
  | f2 => obtain ⟨t, ht, hdone, -⟩ := procF2Completes d s hc hwf hB; exact ⟨t, _, ht, hdone⟩
  | f3 => obtain ⟨t, ht, hdone, -⟩ := procF3Completes d s hc hwf hB; exact ⟨t, _, ht, hdone⟩
  | f4 => obtain ⟨t, ht, hdone, -⟩ := procF4Completes d s hc hwf hB; exact ⟨t, _, ht, hdone⟩

theorem faultByte_word_ne_zero (code : FaultCode) : (faultByte code).setWidth 32 ≠ 0#32 := by
  cases code <;> decide

/-- Settles O20: both commands follow the answer of stage B on the same state. -/
theorem validatorAgreesWithProcessor : Obligations.ValidatorAgreesWithProcessor := by
  intro f d s hc hwf hrun hres hu
  obtain ⟨t, ht, -, hrecord⟩ := validatorsComplete f d s hc hwf hres
  cases hB : stageB f d s with
  | none =>
    rw [hB] at hrecord
    obtain ⟨u, outs, hexec, hdone⟩ := procInstr_completes hc hwf hB
    exact ⟨t, u, ht, hexec, .inl ⟨hdone.bstate.trans hrun, hrecord.2 hu⟩⟩
  | some code =>
    rw [hB] at hrecord
    obtain ⟨u, hexec, hfaulted, hcode⟩ := procInstr_trap_code hrun hB
    have hword : recordWord t d.resAddr 1 = (faultByte code).setWidth 32 := hrecord.2 hu
    refine ⟨t, u, ht, hexec, .inr ⟨hfaulted, ?_, ?_⟩⟩
    · rw [hword]
      exact faultByte_word_ne_zero code
    · rw [hword, hcode]

end Sys2Proof.Proofs
end

section
/-! The dispatcher and its pool: stage A (46_dispatcher_pool.md R130), the steps that it and the processors take (R131,
R132, R138), how many calls run (R135), and progress (R134). -/

namespace Sys2Proof.Proofs

open Sys2Proof Sys2Proof.Machine

/-! ## Which command a step runs (46_dispatcher_pool.md R132, R138) -/

theorem runWords_of_decode {words : List Word} {i : Instr} (h : decode words = .ok i) (ctx : Ctx) (s : State) :
    runWords words ctx s = exec i { s with cur := ctx } := by
  rw [runWords, h]

theorem runEvent_execute {s : State} {k : Nat} {ctx : Ctx} {i : Instr} (h : executable s k = some ctx)
    (hi : decode (getInst s k).op.words = .ok i) : runEvent (.execute k) s = exec i { s with cur := ctx } := by
  rw [runEvent, h]
  exact runWords_of_decode hi ctx s

theorem runEvent_validate {s : State} {c : Nat} {ctx : Ctx} {i : Instr} (h : validatable s c = some ctx)
    (hi : decode (getPort s c).snap.words = .ok i) : runEvent (.validate c) s = exec i { s with cur := ctx } := by
  rw [runEvent, h]
  exact runWords_of_decode hi ctx s

theorem step_of_sched {s : State} {e : Event} {rest : List Event} (h : s.sched = e :: rest) :
    step s = runEvent e { s with sched := rest } := by
  rw [step, h]

/-- Settles O5: the schedule names the agent, and its latched words decode to the command. -/
theorem stepRunsTheCommand : Obligations.StepRunsTheCommand := fun _ _ _ _ =>
  ⟨fun _ hsched hctx hi => (step_of_sched hsched).trans (runEvent_execute hctx hi),
    fun _ hsched hctx hi => (step_of_sched hsched).trans (runEvent_validate hctx hi)⟩

/-! ## Stage A (46_dispatcher_pool.md R130) -/

/-- The dispatcher reads memory where no other call outputs (20_memory.md R48). -/
theorem seenByte_of_outside {s : State} {c a : Nat} (h : Outside (foreignOuts s c) a) :
    seenByte s c a = memByte s.dmem a := by
  refine if_neg fun hany => ?_
  obtain ⟨r, hr, hhas⟩ := List.any_eq_true.1 hany
  exact h r hr (by simpa [regionHas] using hhas)

theorem wordsAt_getElem? (rd : Nat → Byte) (a : Nat) {n i : Nat} (h : i < n) :
    (wordsAt rd a n)[i]? = some (wordAt rd (a + 4 * i)) := by
  simp [wordsAt, h]

/-- As many words as an opcode has make a command. -/
theorem commandOfWords_wordsAt (o : Opcode) (rd : Nat → Byte) (a : Nat) :
    ∃ i, commandOfWords o (wordsAt rd a (opcodeWords o)) = some i := by
  cases o <;> exact ⟨_, rfl⟩

theorem opcodeWords_gt_one (o : Opcode) : 1 < opcodeWords o := by cases o <;> decide

section

variable {size : Nat} {rd : Nat → Byte} {d : Word} {o : Opcode}

theorem stageA_misaligned (h : d.toNat % 4 ≠ 0) : stageA size rd d = .fault .misaligned 0#32 := by
  simp [stageA, al4, h]

theorem stageA_word_outOfBounds (h1 : d.toNat % 4 = 0) (h : size < d.toNat + 4) :
    stageA size rd d = .fault .memBounds 0#32 := by
  simp [stageA, al4, h1, inb, h]

/-- A1 and A2 pass: the opcode decides what follows. -/
theorem stageA_reserved_opcode (h1 : d.toNat % 4 = 0) (h2 : d.toNat + 4 ≤ size)
    (h : opcodeOfByte (w0Opc (wordAt rd d.toNat)) = none) :
    stageA size rd d = .fault .illegalOpcode (wordAt rd d.toNat) := by
  simp [stageA, al4, h1, inb, h2, h]

variable (h1 : d.toNat % 4 = 0) (h2 : d.toNat + 4 ≤ size)
  (h3 : opcodeOfByte (w0Opc (wordAt rd d.toNat)) = some o)
include h1 h2 h3

/-- A1 to A3 pass: what the checks A4 to A7 answer, and the command where they pass. -/
theorem stageA_of_opcode : stageA size rd d =
    if w0Rsv (wordAt rd d.toNat) ≠ 0#8 then .fault .reservedNonzero (wordAt rd d.toNat)
    else if size < d.toNat + 4 * opcodeWords o then .fault .memBounds (wordAt rd d.toNat)
    else if (wordAt rd (d.toNat + 4)).toNat % 4 ≠ 0 then .fault .misaligned (wordAt rd d.toNat)
    else if size < (wordAt rd (d.toNat + 4)).toNat + (if opcodeIsVal o then 8 else 4) then
      .fault .memBounds (wordAt rd d.toNat)
    else .pass (wordsAt rd d.toNat (opcodeWords o))
      ((commandOfWords o (wordsAt rd d.toNat (opcodeWords o))).getD default) := by
  obtain ⟨i, hi⟩ := commandOfWords_wordsAt o rd d.toNat
  simp [stageA, al4, h1, inb, h2, h3, hi, wordsAt_getElem? _ _ (opcodeWords_gt_one o)]

end

theorem dispatch_stageA_fault {s : State} {c : Nat} {d : Word} {code : FaultCode} {w0 : Word} (hint : Nat)
    (hrun : s.bstate = .run) (hcall : (getPort s c).call = .pending d)
    (h : stageA s.params.dmemSize (seenByte s c) d = .fault code w0) :
    dispatch c hint s = .next (faultEntry code w0 c 15 d s) := by
  simp [dispatch, hrun, hcall, h]

/-- What follows from each answer of a check follows in the check's order. -/
theorem ite_of_eq_ite {α : Type} {b p q : Prop} [Decidable b] {a x y : α} (h : a = if b then x else y)
    (hx : a = x → p) (hy : a = y → q) : if b then p else q := by
  split_ifs with hb
  · exact hx (h.trans (if_pos hb))
  · exact hy (h.trans (if_neg hb))

/-- Settles O25: each check that fails is stage A's answer, which the dispatcher raises. -/
theorem stageAFaults : Obligations.StageAFaults := by
  intro s c hint d hrun hcall size rd w0 w1
  have raises {code : FaultCode} {w : Word} (h : stageA size rd d = .fault code w) :
      dispatch c hint s = .next (faultEntry code w c 15 d s) := dispatch_stageA_fault hint hrun hcall h
  refine ⟨fun a => seenByte_of_outside, ?_⟩
  split
  · exact raises (stageA_misaligned ‹_›)
  rename_i h1
  rw [not_not] at h1
  split
  · exact raises (stageA_word_outOfBounds h1 ‹_›)
  rename_i h2
  rw [not_lt] at h2
  split
  · exact raises (stageA_reserved_opcode h1 h2 ‹_›)
  rename_i o h3
  refine ite_of_eq_ite (stageA_of_opcode h1 h2 h3) raises fun hA => ite_of_eq_ite hA raises fun hA =>
    ite_of_eq_ite hA raises fun hA => ite_of_eq_ite hA raises fun hA => ?_
  obtain ⟨i, hi⟩ := commandOfWords_wordsAt o rd d.toNat
  rw [hi] at hA
  obtain ⟨-, -, -, hdec, -⟩ := stageA_pass hA
  exact ⟨i, hdec, (commandOfWords_eq_some hi).1, hA⟩

/-! ## A validator's call (46_dispatcher_pool.md R131, R138) -/

theorem startValidating_getPort (c : Nat) (desc : Word) (words : List Word) (s : State) (c' : Nat) :
    getPort (startValidating c desc words s) c' =
      if c' = c ∧ c < s.ports.length then { getPort s c with call := .validating desc, snap := ⟨words, []⟩ }
      else getPort s c' :=
  getPort_setPort s c _ c'

theorem dispatch_starts_validating {s : State} {c : Nat} {d : Word} {words : List Word} {i : Instr} (hint : Nat)
    (hrun : s.bstate = .run) (hcall : (getPort s c).call = .pending d)
    (hA : stageA s.params.dmemSize (seenByte s c) d = .pass words i) (hv : opcodeIsVal (instrOpcode i) = true) :
    dispatch c hint s = .next (startValidating c d words s) := by
  simp [dispatch, hrun, hcall, hA, hv]

/-- Settles O27: `startValidating` replaces the call's own port alone. -/
theorem validatorTakesNoLease : Obligations.ValidatorTakesNoLease := by
  intro s c hint d words i hc hrun hcall hA hv
  have port := startValidating_getPort c d words s
  have own := (port c).trans (if_pos ⟨rfl, hc⟩)
  exact ⟨_, dispatch_starts_validating hint hrun hcall hA hv, by rw [own], by rw [own], rfl, rfl,
    fun c' hne => (port c').trans (if_neg fun h => hne h.1)⟩

/-! ## At most `K` calls run (46_dispatcher_pool.md R135) -/

theorem ports_eq_map (s : State) : s.ports = (List.range s.ports.length).map (getPort s) := by
  refine List.ext_getElem (by simp) fun c hc _ => ?_
  simp [getPort, hc]

theorem runningCalls_eq_card (s : State) : runningCalls s =
    ((Finset.range s.ports.length).filter (fun c => (callInst (getPort s c).call).isSome = true)).card := by
  rw [runningCalls, ports_eq_map s, List.filter_map, List.length_map, List.length_map, List.length_range,
    ← List.toFinset_card_of_nodup (List.nodup_range.filter _), List.toFinset_filter, List.toFinset_range]
  rfl

/-- Settles O42: no two running calls are on the same processor. -/
theorem atMostKCallsRun : Obligations.AtMostKCallsRun := by
  intro s hs
  rw [runningCalls_eq_card, ← hs.shape.2, ← Finset.card_range s.insts.length]
  have running {c : Nat} (h : c ∈ (Finset.range s.ports.length).filter
      (fun c => (callInst (getPort s c).call).isSome = true)) :
      ∃ desc k, c < s.ports.length ∧ (getPort s c).call = .running desc k ∧
        (callInst (getPort s c).call).getD 0 = k := by
    obtain ⟨hc, hsome⟩ := Finset.mem_filter.1 h
    obtain ⟨k, hk⟩ := Option.isSome_iff_exists.1 hsome
    obtain ⟨desc, hd⟩ := callInst_eq_some.1 hk
    exact ⟨desc, k, Finset.mem_range.1 hc, hd, by rw [hk]; rfl⟩
  refine Finset.card_le_card_of_injOn (fun c => (callInst (getPort s c).call).getD 0) (fun c h => ?_)
    (fun c h c' h' he => ?_)
  · obtain ⟨desc, k, hc, hd, hk⟩ := running h
    exact Finset.mem_coe.2 (Finset.mem_range.2 (hk.trans_lt (hs.calls c desc k hc hd).1))
  · obtain ⟨desc, k, hc, hd, hk⟩ := running h
    obtain ⟨desc', k', hc', hd', hk'⟩ := running h'
    obtain rfl : k = k' := hk.symm.trans (he.trans hk')
    exact running_unique hs.calls hc hc' hd hd'

/-! ## The weight of what is left to do (46_dispatcher_pool.md R134) -/

theorem busyWeight_eq (s : State) :
    busyWeight s = ((List.range s.ports.length).map (fun c => callWeight (getPort s c).call)).sum := by
  rw [busyWeight, ports_eq_map s, List.map_map, List.length_map, List.length_range]
  rfl

/-- One call gets on and the others stay as they are. -/
theorem busyWeight_lt {s t : State} {c : Nat} (nports : t.ports.length = s.ports.length)
    (others : ∀ c', c' ≠ c → (getPort t c').call = (getPort s c').call)
    (less : callWeight (getPort t c).call < callWeight (getPort s c).call) : busyWeight t < busyWeight s := by
  have hc : c < s.ports.length := port_exists (by rintro h; rw [h] at less; exact Nat.not_lt_zero _ less)
  rw [busyWeight_eq, busyWeight_eq, nports]
  refine List.sum_lt_sum _ _ (fun c' _ => ?_) ⟨c, List.mem_range.2 hc, less⟩
  by_cases h : c' = c
  · exact h ▸ less.le
  · rw [others c' h]

theorem callWeight_pos {x : CallState} (h : x ≠ .idle) : 0 < callWeight x := by
  cases x <;> simp_all [callWeight]

/-- A call that completes has no step left. -/
theorem completed_busyWeight_lt {outs : List Region} {s t : State} (h : Completed outs s t)
    (hbusy : (getPort s s.cur.caller).call ≠ .idle) : busyWeight t < busyWeight s := by
  obtain ⟨nports, -, others⟩ := h.calls
  refine busyWeight_lt nports (fun c' hne => (others c' hne).1) ?_
  rw [h.idle]
  exact callWeight_pos hbusy

/-! ## Progress -/

/-- A step goes on, and raises a fault or shortens what is left to do in `s`. -/
def Progresses (s : State) (r : Result) : Prop :=
  ∃ t, r = .next t ∧ (t.bstate = .faulted ∨ busyWeight t < busyWeight s)

theorem faultEntry_progresses {s : State} (hrun : s.bstate = .run) (code : FaultCode) (w0 : Word) (c inst : Nat)
    (a : Word) (s₀ : State) : Progresses s₀ (.next (faultEntry code w0 c inst a s)) :=
  ⟨_, rfl, .inl (by rw [faultEntry_of_run _ _ _ _ _ _ hrun])⟩

/-- A command of a busy call whose header lies in DMEM raises a fault or completes (46_dispatcher_pool.md R132). -/
theorem exec_progresses {i : Instr} {s : State} (hwf : Memory.wf s.dmem = true) (hrun : s.bstate = .run)
    (hbusy : (getPort s s.cur.caller).call ≠ .idle)
    (hres : (instrResAddr i).toNat + (if opcodeIsVal (instrOpcode i) then 8 else 4) ≤ s.params.dmemSize) :
    Progresses s (exec i s) := by
  have hcase := exec_case i s
  generalize exec i s = r at hcase
  cases hcase with
  | trap code => exact faultEntry_progresses ((latched_from i s).bstate.trans hrun) ..
  | done ws good =>
    obtain ⟨t, ht, hdone, -⟩ := completes (port_exists hbusy) hwf good hres
    exact ⟨t, ht, .inr (completed_busyWeight_lt hdone hbusy)⟩

/-- The command that a running or validating call has latched raises a fault or completes. -/
theorem latched_command_progresses {s : State} (hs : s.Inv) (hrun : s.bstate = .run) {isVal : Bool} {words : List Word}
    (hw : LatchedCommand s.params.dmemSize isVal words) {ctx : Ctx} (hbusy : (getPort s ctx.caller).call ≠ .idle) :
    Progresses s (runWords words ctx s) := by
  obtain ⟨i, hdec, rfl, hres⟩ := hw
  rw [runWords_of_decode hdec]
  exact exec_progresses (s := { s with cur := ctx }) hs.memory.1 hrun hbusy hres

/-- A processing call that finds no free processor completes with its header (46_dispatcher_pool.md R131). -/
theorem exhausted_progresses {s : State} {c : Nat} {d : Word} {words : List Word} {i : Instr} (hint : Nat)
    (hrun : s.bstate = .run) (hwf : Memory.wf s.dmem = true) (hcall : (getPort s c).call = .pending d)
    (hA : stageA s.params.dmemSize (seenByte s c) d = .pass words i) (hv : opcodeIsVal (instrOpcode i) = false)
    (hfree : freeInsts s = []) : Progresses s (dispatch c hint s) := by
  have hbusy : (getPort s c).call ≠ .idle := by rw [hcall]; exact nofun
  obtain ⟨-, -, -, -, hsz, -⟩ := stageA_pass hA
  rw [hv] at hsz
  obtain ⟨t, ht, hdone, -⟩ := finish_completed (exhaustedFootprint d i)
    [((instrResAddr i).toNat, bytesOfWords [instrHeader i rsExhausted])] { s with cur := ⟨c, none, d⟩ } hwf
    (port_exists hbusy) (by simp [WritesWithin, exhaustedFootprint]) (by rintro a bs rest h; cases h; simp)
    (by rw [outsInRange, List.all_cons, List.all_nil, Bool.and_true]; exact decide_eq_true hsz)
  exact ⟨t, (dispatch_exhausted hint hrun hcall hA hv hfree).trans ht,
    .inr (completed_busyWeight_lt (s := { s with cur := ⟨c, none, d⟩ }) hdone hbusy)⟩

/-- A pending call is refused with a fault, begins to validate, takes a lease, or completes at once
(46_dispatcher_pool.md R130, R131). -/
theorem dispatch_progresses {s : State} (hs : s.Inv) (hrun : s.bstate = .run) {c : Nat} {d : Word}
    (hcall : (getPort s c).call = .pending d) (hint : Nat) : Progresses s (dispatch c hint s) := by
  have hc : c < s.ports.length := port_exists (by rw [hcall]; exact nofun)
  have two : callWeight (getPort s c).call = 2 := by rw [hcall]; rfl
  cases hA : stageA s.params.dmemSize (seenByte s c) d with
  | fault code w0 =>
    rw [dispatch_stageA_fault hint hrun hcall hA]
    exact faultEntry_progresses hrun ..
  | pass words i =>
    cases hv : opcodeIsVal (instrOpcode i) with
    | true =>
      have port := startValidating_getPort c d words s
      refine ⟨_, dispatch_starts_validating hint hrun hcall hA hv, .inr (busyWeight_lt (c := c) ?_ ?_ ?_)⟩
      · exact List.length_set
      · exact fun c' hne => by rw [port, if_neg fun h => hne h.1]
      · rw [port, if_pos ⟨rfl, hc⟩, two]
        exact Nat.one_lt_two
    | false =>
      by_cases hfree : freeInsts s = []
      · exact exhausted_progresses hint hrun hs.memory.1 hcall hA hv hfree
      · have port := takeLease_getPort c (pickInst (freeInsts s) hint ⟨s.draws, .instance_, c⟩) d words s
        refine ⟨_, dispatch_takes_lease hint hrun hcall hA hv hfree, .inr (busyWeight_lt (c := c) ?_ ?_ ?_)⟩
        · exact List.length_set
        · exact fun c' hne => by rw [port, if_neg fun h => hne h.1]
        · rw [port, if_pos ⟨rfl, hc⟩, two]
          exact Nat.one_lt_two

/-! ## The steps that the block takes by itself -/

theorem dispatchable_iff {s : State} {c : Nat} :
    dispatchable s c = true ↔ s.bstate = .run ∧ ∃ d, (getPort s c).call = .pending d := by
  unfold dispatchable
  split <;> simp_all

theorem validatable_eq_some {s : State} {c : Nat} {ctx : Ctx} : validatable s c = some ctx ↔
    s.bstate = .run ∧ ∃ d, (getPort s c).call = .validating d ∧ ctx = ⟨c, none, d⟩ := by
  unfold validatable
  split
  · rename_i d hrun hcall
    simp [hrun, hcall, @eq_comm _ ctx]
  · rename_i h
    simp only [reduceCtorEq, false_iff]
    rintro ⟨hrun, d, hcall, -⟩
    exact h d hrun hcall

theorem executable_eq_some {s : State} {k : Nat} {ctx : Ctx} : executable s k = some ctx ↔
    s.bstate = .run ∧ (getInst s k).lease = true ∧
      ∃ d, (getPort s (getInst s k).owner).call = .running d k ∧ ctx = ⟨(getInst s k).owner, some k, d⟩ := by
  unfold executable
  split
  · rename_i d k' hrun hlease hcall
    by_cases hk : k' = k
    · simp [hrun, hlease, hcall, hk, @eq_comm _ ctx]
    · simp [hcall, hk]
  · rename_i h
    simp only [reduceCtorEq, false_iff]
    rintro ⟨hrun, hlease, d, hcall, -⟩
    exact h d k hrun hlease hcall

theorem mem_enabledSteps {s : State} {e : Event} : e ∈ enabledSteps s ↔
    (∃ c, c < s.ports.length ∧ dispatchable s c = true ∧ e = .dispatch c s.insts.length) ∨
    (∃ c, c < s.ports.length ∧ (∃ ctx, validatable s c = some ctx) ∧ e = .validate c) ∨
    (∃ k, k < s.insts.length ∧ (∃ ctx, executable s k = some ctx) ∧ e = .execute k) := by
  simp only [enabledSteps, List.mem_append, List.mem_map, List.mem_filter, List.mem_range, Option.isSome_iff_exists,
    or_assoc, and_assoc, @eq_comm _ e]

/-- Every busy call of a running block has a step (46_dispatcher_pool.md R134). -/
theorem exists_enabledStep {s : State} (hs : s.Inv) (hrun : s.bstate = .run) {c : Nat}
    (hbusy : (getPort s c).call ≠ .idle) : ∃ e, e ∈ enabledSteps s := by
  have hc := port_exists hbusy
  cases hcall : (getPort s c).call with
  | idle => exact absurd hcall hbusy
  | pending d => exact ⟨_, mem_enabledSteps.2 (.inl ⟨c, hc, dispatchable_iff.2 ⟨hrun, d, hcall⟩, rfl⟩)⟩
  | validating d =>
    exact ⟨_, mem_enabledSteps.2 (.inr (.inl ⟨c, hc, ⟨_, validatable_eq_some.2 ⟨hrun, d, hcall, rfl⟩⟩, rfl⟩))⟩
  | running d k =>
    obtain ⟨hk, hlease, howner⟩ := hs.calls c d k hc hcall
    exact ⟨_, mem_enabledSteps.2 (.inr (.inr
      ⟨k, hk, ⟨_, executable_eq_some.2 ⟨hrun, hlease, d, by rw [howner]; exact hcall, rfl⟩⟩, rfl⟩))⟩

/-- Every enabled step gets its call on. -/
theorem enabledStep_progresses {s : State} (hs : s.Inv) {e : Event} (he : e ∈ enabledSteps s) :
    Progresses s (runEvent e s) := by
  obtain ⟨hruns, hvals⟩ := hs.latches
  obtain ⟨c, hc, hd, rfl⟩ | ⟨c, hc, ⟨ctx, hctx⟩, rfl⟩ | ⟨k, hk, ⟨ctx, hctx⟩, rfl⟩ := mem_enabledSteps.1 he
  · obtain ⟨hrun, d, hcall⟩ := dispatchable_iff.1 hd
    exact dispatch_progresses hs hrun hcall _
  · obtain ⟨hrun, d, hcall, rfl⟩ := validatable_eq_some.1 hctx
    rw [runEvent, hctx]
    exact latched_command_progresses hs hrun (hvals c d hc hcall) (by rw [hcall]; exact nofun)
  · obtain ⟨hrun, hlease, d, hcall, rfl⟩ := executable_eq_some.1 hctx
    obtain ⟨howner, -⟩ := hs.leases k hk hlease
    rw [runEvent, hctx]
    exact latched_command_progresses hs hrun (hruns _ d k howner hcall) (by rw [hcall]; exact nofun)

/-- Left to itself, a block with an enabled step takes one (46_dispatcher_pool.md R131). -/
theorem step_of_enabled {s : State} (hsched : s.sched = []) {e : Event} (he : e ∈ enabledSteps s) :
    ∃ e', e' ∈ enabledSteps s ∧ step s = runEvent e' { s with draws := s.draws + 1 } := by
  have hpick : pickStep s < (enabledSteps s).length :=
    List.mem_range.1 (drawFrom_mem _ (by simpa using List.ne_nil_of_mem he) _ _)
  refine ⟨_, List.getElem_mem hpick, ?_⟩
  rw [step, hsched, List.getElem?_eq_getElem hpick]

/-- Settles O43: some step is enabled, and every enabled step of the invariant raises a fault or gets its call on. -/
theorem busyBlockMakesProgress : Obligations.BusyBlockMakesProgress := by
  rintro s hs hrun hsched ⟨c, -, hbusy⟩
  obtain ⟨e, he⟩ := exists_enabledStep hs hrun hbusy
  obtain ⟨e', he', hstep⟩ := step_of_enabled hsched he
  rw [hstep]
  exact enabledStep_progresses (s := { s with draws := s.draws + 1 }) (inv_around hs ..) he'

end Sys2Proof.Proofs
end

section
/-! What a FAULTED block does when it is left to itself and when the schedule names one of its steps
(60_exceptions.md R146). -/

namespace Sys2Proof.Proofs

open Sys2Proof Sys2Proof.Machine

/-- With no event scheduled and no step enabled the block waits (46_dispatcher_pool.md R134, log entry 7). -/
theorem step_of_no_enabledSteps {s : State} (hsched : s.sched = []) (hnone : enabledSteps s = []) :
    step s = .next s := by
  rw [step, hsched, hnone]
  rfl

section

variable {s : State} (hs : s.bstate = .faulted)
include hs

theorem runEvent_dispatch_of_faulted (c hint : Nat) : runEvent (.dispatch c hint) s = .next s :=
  dispatch_of_faulted hs c hint

theorem runEvent_validate_of_faulted (c : Nat) : runEvent (.validate c) s = .next s := by
  rw [runEvent, validatable_of_faulted hs]

theorem runEvent_execute_of_faulted (k : Nat) : runEvent (.execute k) s = .next s := by
  rw [runEvent, executable_of_faulted hs]

end

/-- Settles O23: no step is enabled, so the block waits, and a scheduled step of each of the three kinds is only taken
off the schedule. -/
theorem faultedBlockRunsNothing : Obligations.FaultedBlockRunsNothing := by
  intro s hs
  refine ⟨fun hsched => step_of_no_enabledSteps hsched (enabledSteps_of_faulted hs), fun rest hsched => ?_⟩
  have hs' : { s with sched := rest }.bstate = .faulted := hs
  obtain ⟨c, hint, hsched⟩ | ⟨c, hsched⟩ | ⟨k, hsched⟩ := hsched <;> rw [step_of_sched hsched]
  · exact runEvent_dispatch_of_faulted hs' c hint
  · exact runEvent_validate_of_faulted hs' c
  · exact runEvent_execute_of_faulted hs' k

end Sys2Proof.Proofs
end

section
/-! The two resets: a write of `CTRL` and the platform's power-on (70_reset_and_hazards.md R157, R158). -/

namespace Sys2Proof.Proofs

open Sys2Proof Sys2Proof.Machine

/-! ## Registers, calls and leases -/

/-- `STATUS` reads 0 in a running block in which no lease is held (10_state.md R22). -/
theorem regStatus_eq_zero {s : State} (hrun : s.bstate = .run) (hfree : ∀ k, (getInst s k).lease = false) :
    regStatus s = 0#32 := by
  have hmask : busyMask s.insts = 0#16 := by
    refine BitVec.eq_of_getLsbD_eq (fun k hk => ?_)
    rw [busyMask_bit s hk, hfree, BitVec.getLsbD_zero]
  rw [regStatus, hmask, hrun]
  decide

/-- Every register, call and lease of `t` has its reset value, and what the platform and the schedule hold is that
of `s`. -/
def ResetOf (s t : State) : Prop :=
  t.bstate = .run ∧ t.faultInfo = 0#32 ∧ t.faultAddr = 0#32 ∧ t.faultSrc = 0#32 ∧
  t.ports.length = s.params.nCallers ∧ t.insts.length = s.params.k ∧
  (∀ c, (getPort t c).call = .idle ∧ (getPort t c).callAddr = 0#32) ∧ (∀ k, (getInst t k).lease = false) ∧
  regStatus t = 0#32 ∧ t.params = s.params ∧ t.grid = s.grid ∧ t.chest = s.chest ∧ t.sched = s.sched

theorem resetBlock_resetOf (s : State) : ResetOf s (resetBlock s) := by
  obtain ⟨hrun, hinfo, haddr, hsrc, hports, hinsts, hparams, hgrid, hchest, hsched⟩ := resetBlock_fields s
  have hfree (k : Nat) : (getInst (resetBlock s) k).lease = false := by
    rw [resetBlock_getInst]
    rfl
  refine ⟨hrun, hinfo, haddr, hsrc, ?_, ?_, fun c => ?_, hfree, regStatus_eq_zero hrun hfree, hparams, hgrid, hchest,
    hsched⟩
  · rw [hports, List.length_replicate]
  · rw [hinsts, List.length_replicate]
  · rw [resetBlock_getPort]
    exact ⟨rfl, rfl⟩

/-- Power-on is a reset but for DMEM, of which no register speaks. -/
theorem platformPowerOn_resetOf (bytes : List (Nat × Byte)) (s : State) : ResetOf s (platformPowerOn bytes s) :=
  resetBlock_resetOf s

/-! ## DMEM -/

/-- A reset of the block changes the outputs of the busy calls alone (70_reset_and_hazards.md R158). -/
theorem memByte_resetBlock {s : State} (hwf : Memory.wf s.dmem = true) {a : Nat} (ha : Outside (busyOuts s) a) :
    memByte (resetBlock s).dmem a = memByte s.dmem a :=
  drawRegions_byte _ _ _ hwf _ _ ha

/-- The memory after the bytes of a list are put into it, in order. -/
def putBytes (m : Memory) (bytes : List (Nat × Byte)) : Memory :=
  bytes.foldl (fun m e => mapPut unlistedByte m e.1 e.2) m

theorem platformPowerOn_dmem (bytes : List (Nat × Byte)) (s : State) :
    (platformPowerOn bytes s).dmem = putBytes [] (bytes.filter (fun e => decide (e.1 < s.params.dmemSize))) := rfl

section

variable {m : Memory} (hwf : Memory.wf m = true) {a : Nat}
include hwf

theorem memByte_putBytes_of_unlisted {bytes : List (Nat × Byte)} (ha : ∀ e ∈ bytes, e.1 ≠ a) :
    memByte (putBytes m bytes) a = memByte m a := by
  induction bytes generalizing m with
  | nil => rfl
  | cons e bytes ih =>
    calc memByte (putBytes m (e :: bytes)) a
      _ = memByte (mapPut unlistedByte m e.1 e.2) a :=
        ih (Memory.wf_put hwf _ _) (fun e' he' => ha e' (List.mem_cons_of_mem _ he'))
      _ = memByte m a := by
        rw [memByte, mapGet_mapPut hwf, if_neg (ha e List.mem_cons_self).symm, memByte]

/-- The last entry of an address counts. -/
theorem memByte_putBytes_of_last (before : List (Nat × Byte)) {after : List (Nat × Byte)} {b : Byte}
    (ha : ∀ e ∈ after, e.1 ≠ a) : memByte (putBytes m (before ++ (a, b) :: after)) a = b := by
  induction before generalizing m with
  | nil =>
    calc memByte (putBytes m ((a, b) :: after)) a
      _ = memByte (mapPut unlistedByte m a b) a := memByte_putBytes_of_unlisted (Memory.wf_put hwf _ _) ha
      _ = b := by rw [memByte, mapGet_mapPut hwf, if_pos rfl]
  | cons e before ih => exact ih (Memory.wf_put hwf _ _)

end

/-- After power-on a byte that the platform does not list reads 0 (log entries 2 and 29). -/
theorem memByte_platformPowerOn_of_unlisted {bytes : List (Nat × Byte)} {a : Nat} (ha : ∀ e ∈ bytes, e.1 ≠ a)
    (s : State) : memByte (platformPowerOn bytes s).dmem a = 0#8 := by
  rw [platformPowerOn_dmem]
  exact memByte_putBytes_of_unlisted (m := []) rfl (fun e he => ha e (List.mem_of_mem_filter he))

/-- After power-on a byte of DMEM reads as the last entry that the platform lists for it (70_reset_and_hazards.md
R157). -/
theorem memByte_platformPowerOn_of_last {before after : List (Nat × Byte)} {a : Nat} {b : Byte}
    (hafter : ∀ e ∈ after, e.1 ≠ a) {s : State} (ha : a < s.params.dmemSize) :
    memByte (platformPowerOn (before ++ (a, b) :: after) s).dmem a = b := by
  rw [platformPowerOn_dmem, List.filter_append, List.filter_cons_of_pos (by simpa using ha)]
  exact memByte_putBytes_of_last (m := []) rfl _ (fun e he => hafter e (List.mem_of_mem_filter he))

/-! ## The two resets and the invariant -/

/-- Settles O29: both resets leave the registers alike; they differ in what becomes of DMEM. -/
theorem resetLeaves : Obligations.ResetLeaves := by
  intro s rest hwf
  refine ⟨fun v hsched hv => ?ctrl, fun bytes hsched => ?powerOn⟩
  case ctrl =>
    obtain ⟨hstep, -⟩ := ctrlRegister s v rest hsched
    rw [if_pos hv] at hstep
    exact ⟨_, hstep, resetBlock_resetOf { s with sched := rest },
      fun a => memByte_resetBlock (s := { s with sched := rest }) hwf⟩
  case powerOn =>
    refine ⟨_, step_of_sched hsched, platformPowerOn_resetOf bytes { s with sched := rest }, ?_,
      fun a _ ha => memByte_platformPowerOn_of_unlisted ha _⟩
    rintro before after a b rfl ha hafter
    exact memByte_platformPowerOn_of_last (s := { s with sched := rest }) hafter ha

/-- Settles O40: after power-on every call is idle, every lease free and DMEM empty, whatever the parameters. -/
theorem resetMeetsTheInvariant : Obligations.ResetMeetsTheInvariant :=
  ⟨powerOn_inv vectorParams, powerOn_inv⟩

end Sys2Proof.Proofs
end
